-- ==== Sys2Proof/Word.lean ====
section
/-!
DEFINITION. The word types, the two channels, and the plainest arithmetic (spec 00_scope R6, R9, R10).
-/

namespace Sys2Proof

/-- A 32-bit word: a buffer word, a descriptor field, a bus address (R6 `WORD_BITS`, R88, R90, R95). -/
abbrev Word := BitVec 32

/-- A byte of the byte view of rule R53. -/
abbrev Byte := BitVec 8

/-- One of the two output channels (R6 `NCH = 2`). -/
inductive Chan where
  | c0
  | c1
deriving DecidableEq, Repr, Inhabited

/-- The channel's number. -/
def Chan.idx : Chan → Nat
  | .c0 => 0
  | .c1 => 1

/-- The channel that owns buffer word `w`: channel `w mod 2` (R51). -/
def Chan.ofWord (w : Nat) : Chan := if w % 2 = 0 then .c0 else .c1

/-- One value for each channel. -/
structure PerChan (α : Type) where
  c0 : α
  c1 : α
deriving DecidableEq, Repr

/-- The value of channel `c`. -/
def PerChan.get {α : Type} (v : PerChan α) : Chan → α
  | .c0 => v.c0
  | .c1 => v.c1

/-- `v` with channel `c`'s value replaced. -/
def PerChan.set {α : Type} (v : PerChan α) (c : Chan) (x : α) : PerChan α :=
  match c with
  | .c0 => ⟨x, v.c1⟩
  | .c1 => ⟨v.c0, x⟩

/-- The ceiling of `a / b` (R10): one more than the quotient where the division leaves a remainder. -/
def cdiv (a b : Nat) : Nat := a / b + min 1 (a % b)

end Sys2Proof
end

