-- ==== Sys2Proof/Config.lean ====
section
/-!
DEFINITION. What is fixed for a machine: the constants the spec decides, the parameters it leaves open (a plain record that
State carries and no step writes, so that a statement about every state is about every value of them), and the free values
(constants with no body) of what no rule fixes.
-/

namespace Sys2Proof

/-- `PAGE_SIZE`, bytes of one pinned page (R7, D10). -/
def pageSize : Nat := 4096

/-- `DESC_SIZE`, bytes of one descriptor record (R91, D11). -/
def descSize : Nat := 32

/-- `LED_STREAM_BITS`, sub-bits per LED and channel (R6). -/
def ledStreamBits : Nat := 72

/-- `RENDER_FLUSH`, which range RENDER flushes (R7, R174, D38). -/
inductive RenderFlush where
  | dirty
  | encoded
deriving DecidableEq, Repr

/-- The parameters of rules R7, R8, R39 that have no value of the source's own. Log 1, 2, 29, 32, 36, 40. -/
structure Params where
  /-- `RESET_US`, microseconds of low period the padding must encode. -/
  resetUs : Nat
  /-- `MAX_PAGES`, the bound on buffer pages and descriptor records. -/
  maxPages : Nat
  /-- `DMA_ALIAS_BIT`, OR-ed into every bus address. -/
  aliasBit : Word
  /-- `PWM_FIFO_BUS`, the destination of every descriptor. -/
  fifoBus : Word
  /-- `TI_WORD`, the flags word of every descriptor. -/
  tiWord : Word
  /-- `MAX_LEDS`, the largest LED count a channel may have. -/
  maxLedsCap : Nat
  /-- `WAIT_TIMEOUT`, the bound on polls of WAIT, if there is one. -/
  waitTimeout : Option Nat
  /-- `BUILD_AT_INIT`: INITIALIZE builds the chain. -/
  buildAtInit : Bool
  /-- `DESC_UNCACHED`: descriptor storage needs no flush. -/
  descUncached : Bool
  /-- `RENDER_FLUSH`. -/
  renderFlush : RenderFlush
  /-- The values of `PWM_BYTE_COUNT` that depart from rule R113: `((maxLeds, freq), bytes)` (R8, R112). -/
  sizes : List ((Nat × Nat) × Nat)
  /-- The frame-number oracle: `(virtual page number, frame number)`; an unlisted page answers "error" (R142, D26). -/
  pfn : List (Nat × Nat)
  /-- The frame each virtual page really stands in: `(virtual page number, frame number)`. That the oracle answers it is a premise of
  claims about the wire (R234, U5; log 29). -/
  frames : List (Nat × Nat)
  /-- `OSC_HZ`, the oscillator's frequency; "not used by any rule" of the block (R7). -/
  oscHz : Nat
  /-- The busy-wait of INITIALIZE's clock set-up sees the state it waits for (R184, U7; log 40). -/
  clockStarts : Bool
  /-- The busy-wait of FINALIZE's clock stop sees the state it waits for (R179, R184, U7; log 40). -/
  clockStops : Bool
  /-- The pins that have an alternate function on a channel (R194). -/
  pins : List (Chan × Nat)
deriving DecidableEq, Repr

/-- Who makes the next step (R39, R209): the host thread, the DMA reader with a step of its chain, or the DMA reader with
the error step of rule R159, whose debug value comes with it. -/
inductive Turn where
  | host
  | agent
  | agentError (v : Word)
deriving DecidableEq, Repr, Inhabited

/-- FREE VALUE (log 8): the schedule of the DMA reader against the host thread, applied to `State.tick` (R39). -/
opaque Config.schedule : Nat → Turn

/-- FREE VALUE (log 7): whether a read of an unflushed word gives the current value, applied to `State.draws` (R61, D20). -/
opaque Config.staleDraw : Nat → Bool

/-- FREE VALUE (log 6): what memory held at a buffer word before its first flush (R41, U17). -/
opaque Config.earlierContent : Nat → Word

/-- FREE VALUE (log 27): how many sub-bits a channel's wire carried when FINALIZE cut a transfer off, applied to `State.draws` and the
channel's number (R181, U2). -/
opaque Config.cutLength : Nat → Nat → Nat

/-- FREE VALUE (log 29): what the DMA reader gets from a bus address where no word of the buffer stands, applied to `State.draws` and the
address (R234, U5). -/
opaque Config.foreignWord : Nat → Word → Word

/-- FREE VALUE (log 47): the word at a bus address from which the DMA reader loads a record where descriptor storage does not stand
(R234, U5). -/
opaque Config.foreignControl : Word → Word

/-- FREE VALUE (log 40): whether the clock set-up's busy-wait ends, on the machine at reset (R184, U7). -/
opaque Config.clockStarts : Bool

/-- FREE VALUE (log 40): whether the clock stop's busy-wait ends, on the machine at reset (R184, U7). -/
opaque Config.clockStops : Bool

/-- FREE VALUE (log 21): a colour element past the storage INITIALIZE allocated, by channel number and LED index. -/
opaque Config.freeColour : Nat → Nat → Word

end Sys2Proof
end

