-- ==== Sys2Proof/Syntax.lean ====
section
/-!
DEFINITION. The operations: one constructor of Instr per row of spec/opcode_table.json; the forms their operands take; the
packets that carry an operation to the machine (30_encoding R96, R100, R101).
-/

namespace Sys2Proof

/-- The two forms of FLUSH's argument: a byte range of the buffer, or the keyword `desc` (R62). -/
inductive FlushArg where
  | range (lo hi : Nat)
  | desc
deriving DecidableEq, Repr

/-- A descriptor record: the five fields of rule R90. The stride and the two reserved words of rule R91 are always 0. -/
structure Desc where
  info : Word
  src : Word
  dst : Word
  len : Word
  next : Word
deriving DecidableEq, Repr

/-- The answers of the components outside the block that INITIALIZE asks (R172 steps 1, 3, 5, 8; U6; log 23). -/
structure InitEnv where
  /-- Step 1: colour storage could be allocated. -/
  colOk : Bool
  /-- Step 3: the virtual address of the pinned buffer pages, or none where the allocator cannot supply them. -/
  bufAlloc : Option Nat
  /-- Step 5: the virtual address of descriptor storage and how many bytes of it lie in one bus-contiguous region. -/
  descAlloc : Option (Nat × Nat)
  /-- Step 8: the register mapper succeeded. -/
  mapOk : Bool
deriving DecidableEq, Repr

/-- The operations, in the order of spec/opcode_table.json. -/
inductive Instr where
  /-- SIZE (R111). -/
  | size
  /-- PRIME (R115). -/
  | prime
  /-- ENCODE (R120). -/
  | encode
  /-- TRANSLATE (R142). -/
  | translate (va : Nat)
  /-- BUILD_CHAIN (R145). -/
  | buildChain (pages : List Nat) (totalBytes : Nat)
  /-- FLUSH, both forms (R62). -/
  | flush (arg : FlushArg)
  /-- DMA_START (R176). -/
  | dmaStart
  /-- WAIT (R177). -/
  | wait
  /-- Command code 0000 (R98). -/
  | reserved0
  /-- Command code 1001 (R98). -/
  | reserved9
  /-- Command codes 101x (R98). -/
  | reservedAB (x : BitVec 1)
  /-- Command codes 11xx (R98). -/
  | reservedCF (x : BitVec 2)
  /-- INITIALIZE (R172). -/
  | init (env : InitEnv)
  /-- RENDER (R174). -/
  | render
  /-- FINALIZE (R179). -/
  | finalize
  /-- EXPAND_LED (R117). -/
  | expandLed (v : Word)
  /-- EMIT_SYMBOL (R118). -/
  | emitSymbol (c : Chan) (d : Bool)
  /-- PUT_BIT (R119). -/
  | putBit (c : Chan) (x : Bool)
  /-- EMIT_DESC (R146). -/
  | emitDesc (i : Nat)
  /-- TERMINATE (R147). -/
  | terminate (n : Nat)
  /-- DMA_XFER_WORD (R156). -/
  | dmaXferWord
  /-- DMA_FOLLOW_LINK (R157). -/
  | dmaFollowLink
  /-- DMA_COMPLETE (R158). -/
  | dmaComplete
  /-- DMA_ERROR, with the debug value it shows (R159). -/
  | dmaError (v : Word)
  /-- SYM_1: output code 110 on a channel (R85; log 16). -/
  | sym1 (c : Chan)
  /-- SYM_0: output code 100 on a channel (R85). -/
  | sym0 (c : Chan)
  /-- SYM_1_INV: output code 001 on a channel (R85). -/
  | sym1Inv (c : Chan)
  /-- SYM_0_INV: output code 011 on a channel (R85). -/
  | sym0Inv (c : Chan)
  /-- COLOR: a colour element as the caller stores it at an LED position (R22, R80, R100; log 17). -/
  | color (c : Chan) (i : Nat) (v : Word)
  /-- TI_WORD: the flags word as it is stored into a descriptor record (R92, R93, R146; log 18). -/
  | tiWord (i : Nat)
  /-- BUSADDR: a bus address as its two fields (R95; log 18). -/
  | busaddr (f : BitVec 20) (o : BitVec 12)
  /-- DESC: a whole record as it is stored into descriptor storage (R90, R91; log 18). -/
  | desc (i : Nat) (r : Desc)
deriving DecidableEq, Repr

/-- The formats of rule table 30_encoding that have a bit pattern. -/
inductive Format where
  | cmd
  | symbol
  | color
  | ti
  | busaddr
  | desc
deriving DecidableEq, Repr

/-- The argument ports: "operands are not in the word: they come from ... argument ports" (R96). A data format's channel and
index come from ports in the same way (log 15). -/
structure Ports where
  va : Nat
  pages : List Nat
  totalBytes : Nat
  flush : FlushArg
  chan : Chan
  index : Nat
deriving DecidableEq, Repr

/-- Ports that hold nothing but zeros. -/
def Ports.zero : Ports := ⟨0, [], 0, .range 0 0, .c0, 0⟩

/-- What carries one operation to the machine: a word of a format, as the bytes it is stored in, with the argument ports;
or, for the rows without a code, the operation by its mnemonic (R96, R100, R101). -/
inductive Packet where
  | word (fmt : Format) (bytes : List Byte) (ports : Ports)
  | named (i : Instr)
deriving DecidableEq, Repr

/-- The caller's own stores to the Device Handle, the lines that begin `SET` (R22, R100). -/
inductive Store where
  | freq (n : Nat)
  | dmaIdx (n : Nat)
  | pin (c : Chan) (n : Nat)
  | invert (c : Chan) (b : Bool)
  | count (c : Chan) (n : Nat)
deriving DecidableEq, Repr

/-- One entry of the host's command list (D1, R100): an operation, or a store of the caller's. -/
inductive HostItem where
  | issue (p : Packet)
  | store (st : Store)
deriving DecidableEq, Repr

/-- True of the rows that have no bit pattern of their own: the pseudo-operations, the inner steps and the steps of the
DMA reader. -/
def Instr.isNamed : Instr → Bool
  | .init _ | .render | .finalize => true
  | .expandLed _ | .emitSymbol _ _ | .putBit _ _ | .emitDesc _ | .terminate _ => true
  | .dmaXferWord | .dmaFollowLink | .dmaComplete | .dmaError _ => true
  | .size | .prime | .encode | .translate _ | .buildChain _ _ | .flush _ | .dmaStart | .wait => false
  | .reserved0 | .reserved9 | .reservedAB _ | .reservedCF _ => false
  | .sym1 _ | .sym0 _ | .sym1Inv _ | .sym0Inv _ => false
  | .color _ _ _ | .tiWord _ | .busaddr _ _ | .desc _ _ => false

/-- True of what a host program holds: the command words, the pseudo-operations, and the caller's store of a colour. The inner steps,
the output codes, the record formats and the DMA reader's steps are "not issued by the host" (log 15). -/
def Instr.isHostOp : Instr → Bool
  | .size | .prime | .encode | .translate _ | .buildChain _ _ | .flush _ | .dmaStart | .wait => true
  | .reserved0 | .reserved9 | .reservedAB _ | .reservedCF _ => true
  | .init _ | .render | .finalize | .color _ _ _ => true
  | .expandLed _ | .emitSymbol _ _ | .putBit _ _ | .emitDesc _ | .terminate _ => false
  | .dmaXferWord | .dmaFollowLink | .dmaComplete | .dmaError _ => false
  | .sym1 _ | .sym0 _ | .sym1Inv _ | .sym0Inv _ | .tiWord _ | .busaddr _ _ | .desc _ _ => false

end Sys2Proof
end

