-- ==== Sys2Proof/WellFormed.lean ====
section
/-!
DEFINITION. Which operations are well formed: what the spec says of an operand wherever it occurs (30_encoding R90, 41_dma_chain
R147). A precondition that an operation checks when it runs is not here: it is in the operation's meaning (the allocator's alignments of
20_memory R54 among them: BUILD_CHAIN refuses what breaks them, R141).
-/

namespace Sys2Proof

/-- The length field of a record: `1 <= len <= PAGE_SIZE`, a multiple of 4 (R90). -/
def Desc.wf (r : Desc) : Bool :=
  1 ≤ r.len.toNat && r.len.toNat ≤ pageSize && r.len.toNat % 4 == 0

/-- An operation is well formed. -/
def Instr.wf : Instr → Bool
  | .terminate n => 1 ≤ n
  | .desc _ r => r.wf
  | .size | .prime | .encode | .translate _ | .buildChain _ _ | .flush _ | .dmaStart | .wait => true
  | .reserved0 | .reserved9 | .reservedAB _ | .reservedCF _ | .init _ | .render | .finalize => true
  | .expandLed _ | .emitSymbol _ _ | .putBit _ _ | .emitDesc _ => true
  | .dmaXferWord | .dmaFollowLink | .dmaComplete | .dmaError _ => true
  | .sym1 _ | .sym0 _ | .sym1Inv _ | .sym0Inv _ | .color _ _ _ | .tiWord _ | .busaddr _ _ => true

end Sys2Proof
end

