-- ==== Sys2Proof/Decode.lean ====
section
/-!
DEFINITION. The decoder, total on any packet, which refuses by name; and the encoder, written from the same tables of
30_encoding (R80, R85, R91, R93, R95, R96, R98). Bytes are little-endian (R53, D9).
-/

namespace Sys2Proof

/-- Why a packet is no operation. -/
inductive Reject where
  /-- The byte string is not as long as a word of the format. -/
  | badLength
  /-- A bit above the format's width is set. -/
  | bitsAboveWidth
  /-- A symbol value that is never produced: 000, 010, 101, 111 (R98). -/
  | noSuchSymbol
  /-- A transfer-information word other than rule R93's. -/
  | unknownTransferInfo
  /-- A descriptor whose stride or a reserved word is not 0 (R91, R98). -/
  | reservedFieldSet
  /-- A colour position that is not below the channel's count: an address that the space COL does not have (R50, R70). -/
  | noSuchElement
  /-- An operation that has a code was given by its mnemonic. -/
  | hasCode
  /-- The operation is not well formed. -/
  | illFormed
deriving DecidableEq, Repr

/-- Four bytes as a word, the first the least significant (R53). -/
def wordOfBytes (b0 b1 b2 b3 : Byte) : Word := b3 ++ b2 ++ b1 ++ b0

/-- Byte `k` of a word: bits `8*k+7 .. 8*k` (R53). -/
def byteOfWord (w : Word) (k : Nat) : Byte := w.extractLsb' (8 * k) 8

/-- A word's four bytes, the least significant first (R53). -/
def bytesOfWord (w : Word) : List Byte := [byteOfWord w 0, byteOfWord w 1, byteOfWord w 2, byteOfWord w 3]

/-- A byte string as words; none where its length is no multiple of four. -/
def wordsOfBytes : List Byte → Option (List Word)
  | [] => some []
  | b0 :: b1 :: b2 :: b3 :: rest =>
    match wordsOfBytes rest with
    | some ws => some (wordOfBytes b0 b1 b2 b3 :: ws)
    | none => none
  | _ => none

/-- The suggested transfer-information word (R93). -/
def tiPattern : Word := 0x04050148#32

/-- The operation map of rule R96, every reserved code a constructor of its own (R98). -/
def decodeCmd (op : BitVec 4) (p : Ports) : Instr :=
  match op.toNat with
  | 0 => .reserved0
  | 1 => .size
  | 2 => .prime
  | 3 => .encode
  | 4 => .translate p.va
  | 5 => .buildChain p.pages p.totalBytes
  | 6 => .flush p.flush
  | 7 => .dmaStart
  | 8 => .wait
  | 9 => .reserved9
  | 10 => .reservedAB 0
  | 11 => .reservedAB 1
  | _ => .reservedCF (op.extractLsb' 0 2)

/-- The symbol table of rule R85, read as an output code on the channel of the port. -/
def decodeSymbol (s : BitVec 3) (p : Ports) : Except Reject Instr :=
  match s.toNat with
  | 6 => .ok (.sym1 p.chan)
  | 4 => .ok (.sym0 p.chan)
  | 1 => .ok (.sym1Inv p.chan)
  | 3 => .ok (.sym0Inv p.chan)
  | _ => .error .noSuchSymbol

/-- A descriptor record from its eight words (R91). The spec says only that stride and reserved words are written 0 (R98), that a length
is in the bounds of rule R90, and that flags and destination are the same in every record (R90, R92). That a packet with another value
there, or with a length out of bounds, is no operation, and that one with other flags or another destination is one, is the model's
choice (log 48). -/
def decodeDesc (ws : List Word) (i : Nat) : Except Reject Instr :=
  match ws with
  | [info, src, dst, len, stride, next, r6, r7] =>
    if stride = 0 ∧ r6 = 0 ∧ r7 = 0 then
      (let r : Desc := ⟨info, src, dst, len, next⟩
       if r.wf then .ok (.desc i r) else .error .illFormed)
    else .error .reservedFieldSet
  | _ => .error .badLength

/-- A word of a format, as bytes, to an operation. -/
def decodeWord (fmt : Format) (bytes : List Byte) (p : Ports) : Except Reject Instr :=
  match fmt, bytes with
  | .cmd, [b] => if b.toNat < 16 then .ok (decodeCmd (b.extractLsb' 0 4) p) else .error .bitsAboveWidth
  | .symbol, [b] => if b.toNat < 8 then decodeSymbol (b.extractLsb' 0 3) p else .error .bitsAboveWidth
  | .color, [b0, b1, b2, b3] => .ok (.color p.chan p.index (wordOfBytes b0 b1 b2 b3))
  | .ti, [b0, b1, b2, b3] =>
    if wordOfBytes b0 b1 b2 b3 = tiPattern then .ok (.tiWord p.index) else .error .unknownTransferInfo
  | .busaddr, [b0, b1, b2, b3] =>
    .ok (.busaddr ((wordOfBytes b0 b1 b2 b3).extractLsb' 12 20) ((wordOfBytes b0 b1 b2 b3).extractLsb' 0 12))
  | .desc, bs =>
    match wordsOfBytes bs with
    | some ws => decodeDesc ws p.index
    | none => .error .badLength
  | _, _ => .error .badLength

/-- The decoder: any packet to an operation or to a named refusal. -/
def decode : Packet → Except Reject Instr
  | .word fmt bytes p => decodeWord fmt bytes p
  | .named i => if i.isNamed then (if i.wf then .ok i else .error .illFormed) else .error .hasCode

/-- The eight words of a record in memory (R91). -/
def wordsOfDesc (r : Desc) : List Word := [r.info, r.src, r.dst, r.len, 0, r.next, 0, 0]

/-- A command byte: the 4-bit code of rule R96. -/
def cmdByte (op : Nat) : List Byte := [BitVec.ofNat 8 op]

/-- The encoder: the packet that carries an operation. -/
def encode : Instr → Packet
  | .size => .word .cmd (cmdByte 1) Ports.zero
  | .prime => .word .cmd (cmdByte 2) Ports.zero
  | .encode => .word .cmd (cmdByte 3) Ports.zero
  | .translate va => .word .cmd (cmdByte 4) { Ports.zero with va := va }
  | .buildChain pages n => .word .cmd (cmdByte 5) { Ports.zero with pages := pages, totalBytes := n }
  | .flush a => .word .cmd (cmdByte 6) { Ports.zero with flush := a }
  | .dmaStart => .word .cmd (cmdByte 7) Ports.zero
  | .wait => .word .cmd (cmdByte 8) Ports.zero
  | .reserved0 => .word .cmd (cmdByte 0) Ports.zero
  | .reserved9 => .word .cmd (cmdByte 9) Ports.zero
  | .reservedAB x => .word .cmd (cmdByte (10 + x.toNat)) Ports.zero
  | .reservedCF x => .word .cmd (cmdByte (12 + x.toNat)) Ports.zero
  | .sym1 c => .word .symbol (cmdByte 6) { Ports.zero with chan := c }
  | .sym0 c => .word .symbol (cmdByte 4) { Ports.zero with chan := c }
  | .sym1Inv c => .word .symbol (cmdByte 1) { Ports.zero with chan := c }
  | .sym0Inv c => .word .symbol (cmdByte 3) { Ports.zero with chan := c }
  | .color c i v => .word .color (bytesOfWord v) { Ports.zero with chan := c, index := i }
  | .tiWord i => .word .ti (bytesOfWord tiPattern) { Ports.zero with index := i }
  | .busaddr f o => .word .busaddr (bytesOfWord (f ++ o : Word)) Ports.zero
  | .desc i r => .word .desc ((wordsOfDesc r).flatMap bytesOfWord) { Ports.zero with index := i }
  | .init e => .named (.init e)
  | .render => .named .render
  | .finalize => .named .finalize
  | .expandLed v => .named (.expandLed v)
  | .emitSymbol c d => .named (.emitSymbol c d)
  | .putBit c x => .named (.putBit c x)
  | .emitDesc i => .named (.emitDesc i)
  | .terminate n => .named (.terminate n)
  | .dmaXferWord => .named .dmaXferWord
  | .dmaFollowLink => .named .dmaFollowLink
  | .dmaComplete => .named .dmaComplete
  | .dmaError v => .named (.dmaError v)

/-- The `n` low bytes of a number, the least significant first. -/
def bytesOfNat : Nat → Nat → List Byte
  | 0, _ => []
  | n + 1, w => BitVec.ofNat 8 w :: bytesOfNat n (w / 256)

/-- The packet of a row of spec/opcode_table.json whose bits are `w`, by the number of bits the table gives the row. A byte is a
command word (the symbol rows have the same bits as command rows and are told from them by their format only, log 15); a
word is rule R93's transfer-information word, or else a colour element; 256 bits are a descriptor. -/
def packetOfTable (nbits w : Nat) : Packet :=
  if nbits ≤ 3 then .word .symbol (bytesOfNat 1 w) Ports.zero
  else if nbits ≤ 8 then .word .cmd (bytesOfNat 1 w) Ports.zero
  else if nbits ≤ 32 then
    (if w = tiPattern.toNat then .word .ti (bytesOfNat 4 w) Ports.zero else .word .color (bytesOfNat 4 w) Ports.zero)
  else .word .desc (bytesOfNat 32 w) Ports.zero

/-- The operation the decoder reads from a table row's bits. -/
def decodeTableWord (nbits w : Nat) : Option Instr :=
  match decode (packetOfTable nbits w) with
  | .ok i => some i
  | .error _ => none

end Sys2Proof
end

