-- ==== Sys2Proof/Machine/State.lean ====
section
/-!
DEFINITION. The state of the machine as plain data (10_state R20 to R43), its value at reset (R40), and the reasons a step can
stop (60_exceptions R206, R207).
-/

namespace Sys2Proof.Machine

/-- A memory: bytes at addresses, strictly rising, none of them zero, which is what an unlisted address reads as (log 5). -/
abbrev Memory := List Host.Cell

/-- A set of numbers, strictly rising. -/
abbrev NatSet := List Nat

/-- The lifecycle phase (R32). -/
inductive Phase where
  | uninitialized
  | ready
  | rendering
  | finalized
deriving DecidableEq, Repr

/-- The DMA transfer state (R34): no transfer; descriptor index and byte offset; the raw debug value after an error. -/
inductive Dma where
  | idle
  | active (d o : Nat)
  | error (v : Word)
deriving DecidableEq, Repr

/-- The encoder's cursor of one channel: the channel word number `j` and the bit position `p` (R28). -/
structure Cursor where
  j : Nat
  p : Fin 32
deriving DecidableEq, Repr

/-- What the host thread is held in: the polls of WAIT, the polls FINALIZE makes first, or a busy-wait on the clock manager that never
sees the state it waits for (R177, R179, R184). -/
inductive Blocked where
  | wait
  | finalize
  | clock
deriving DecidableEq, Repr

/-- D0's error kinds (R190 to R197). -/
inductive ErrorKind where
  /-- AllocationError (R191). -/
  | allocation
  /-- MapError (R192). -/
  | map
  /-- TranslationError, with the failing page's index where a chain was being built (R193, D22). -/
  | translation (page : Option Nat)
  /-- UnsupportedPinError (R194). -/
  | unsupportedPin
  /-- DmaError with the raw debug register value (R195). -/
  | dma (v : Word)
  /-- TimeoutError, only under `WAIT_TIMEOUT` (R196). -/
  | timeout
deriving DecidableEq, Repr

/-- What the last operation of the host returned to its caller (R100, R201; log 31). -/
inductive Result where
  /-- No operation has returned. -/
  | none
  /-- Success, with nothing returned. -/
  | ok
  /-- A bus address (TRANSLATE, BUILD_CHAIN). -/
  | addr (a : Word)
  /-- The three components in wire order (EXPAND_LED). -/
  | components (g r b : Byte)
  /-- An error kind. -/
  | error (e : ErrorKind)
deriving DecidableEq, Repr

/-- Why a run stops for good (R207, a closed list). A fault leaves no state, though D18 has the writes of the two in-flight faults happen
as their rules say: the model's choice (log 49). Each is safe: the hardware goes on in some way and the model says nothing of it. -/
inductive Fault where
  /-- Raised by ENCODE, PRIME, PUT_BIT, EMIT_SYMBOL and the output codes: a write to the buffer while a transfer is in flight
  (R207, R224). Safe. -/
  | bufferWriteInFlight
  /-- Raised by BUILD_CHAIN, EMIT_DESC, TERMINATE, TI_WORD, DESC: a write to descriptor storage while a transfer is in flight
  (R207, R231). Safe. -/
  | descriptorWriteInFlight
  /-- Raised by ENCODE and the steps that store a sub-bit: the store would leave the buffer (R207, D23). Safe. -/
  | encodeOutOfBounds
  /-- Raised by DMA_START: `descDirty = 1` (R207, R67). Safe. -/
  | descriptorsNotVisible
deriving DecidableEq, Repr

/-- Why an operation has no step (R206). The operation changes nothing; the host's program goes on (log 11). -/
inductive Refusal where
  /-- Raised by exec for a row that has no meaning yet. Safe. -/
  | notModelled (mnemonic : String)
  /-- Raised by every operation that rule R171 does not admit in the phase. Safe. -/
  | wrongPhase
  /-- Raised by SIZE and INITIALIZE: `freq = 0` (R111). Safe. -/
  | zeroFrequency
  /-- Raised by SIZE and INITIALIZE: `count[c] > MAX_LEDS` (R111). Safe. -/
  | tooManyLeds
  /-- Raised by BUILD_CHAIN: no page, too many, unaligned or not consecutive (R141). Safe. -/
  | badPageList
  /-- Raised by BUILD_CHAIN: the length is 0, no multiple of 4, or not the buffer's (R141). Safe. -/
  | badLength
  /-- Raised by BUILD_CHAIN: the pages do not hold the length (R141, R152). Safe. -/
  | tooFewPages
  /-- Raised by BUILD_CHAIN and its steps: descriptor storage is absent, at 0, misaligned or too small (R141). Safe. -/
  | badDescriptorStorage
  /-- Raised by TRANSLATE and what calls it: the frame does not fit the formula (R142). Safe. -/
  | frameOutOfRange
  /-- Raised by FLUSH: not `lo <= hi <= BUF_BYTES` (R62). Safe. -/
  | badFlushRange
  /-- Raised by DMA_START: a transfer is in flight (R176). Safe. -/
  | startWhileActive
  /-- Raised by DMA_START: the engine shows an error (R176, R178). Safe. -/
  | startAfterError
  /-- Raised by DMA_START: no complete chain for the current sizing (R176, R230). Safe. -/
  | noChain
  /-- Raised by the reserved command codes (R98). Safe. -/
  | reservedCommand
  /-- Raised by the fetch, where the packet is no operation (log 15), and by COLOR at a position its channel has no element for (R50, R70;
  log 17). The second is unsafe: the hardware does not check. -/
  | badPacket (r : Reject)
  /-- Raised by the DMA reader's steps: the step's guard does not hold (R156 to R159, log 29). Safe. -/
  | noAgentStep
  /-- Raised by EMIT_DESC, TERMINATE, TI_WORD, DESC: no build is in progress to which the step belongs (R145, log 19). Safe. -/
  | noBuildInProgress
deriving DecidableEq, Repr

/-- The state of the machine. INVENTORY.md lists each field with its rule and its value at reset. -/
structure State where
  /-- The parameters (R7, R8, R39). No step writes them. -/
  params : Params
  /-- The Device Handle (R22). -/
  freq : Nat
  dmaIdx : Nat
  pin : PerChan Nat
  invert : PerChan Bool
  count : PerChan Nat
  /-- Colour storage, LED 0 first (R23). -/
  col : PerChan (List Word)
  /-- Whether the register-block handles are held (R24), the pins bound, the clock and PWM running (R172, R179). -/
  regsMapped : Bool
  pinsBound : Bool
  pwmOn : Bool
  /-- The Device State (R24 to R26, R30). -/
  chainHead : Option Word
  descVA : Option Nat
  descBus : Option Word
  descBytes : Nat
  bufVA : Option Nat
  pages : List Nat
  maxLeds : Nat
  bufBytes : Nat
  /-- The lifecycle phase (R32), and INITIALIZE in progress (R171). -/
  phase : Phase
  inInit : Bool
  /-- What holds the host thread, and the polls of that hold (R177, R184, D24). -/
  blocked : Option Blocked
  polls : Nat
  /-- What the last operation returned (R201). -/
  result : Result
  /-- The output buffer as the host reads it, and as it was last flushed (R60). Byte `4*w + k` is byte `k` of word `w`. -/
  buf : Memory
  busbuf : Memory
  /-- The words flushed since allocation. -/
  flushed : NatSet
  /-- Descriptor storage, by byte offset from `DESC_BUS` (R91), and the records written. -/
  desc : Memory
  descWritten : NatSet
  /-- The words given to the PWM FIFO register, oldest first (R50, R55). -/
  fifo : List Word
  /-- The unspecified number of sub-bits each channel's wire carried when FINALIZE cut a transfer off (R181). -/
  wireCut : Option (PerChan Nat)
  /-- The encoder's cursors (R28). -/
  cursor : PerChan Cursor
  /-- The builder's working registers: page list, next page index, bytes not yet scheduled (R27, R29). -/
  bldPages : List Nat
  bldIdx : Nat
  bldRemaining : Nat
  /-- The DMA engine: transfer state (R34), which instance was started, control-block address register, priority control bits
  (R22, R176). -/
  dma : Dma
  engine : Option Nat
  cbAddr : Option Word
  prioritySet : Bool
  /-- Ghost state (R35 to R38). -/
  primedInv : PerChan (Option Bool)
  chainValid : Bool
  chainFor : Option (Nat × Nat)
  dirty : NatSet
  descDirty : Bool
  frameOk : Bool
  stale : PerChan Nat
  /-- The host's command list, the refusals reported, and who moves next (D1, R39). -/
  cmds : List HostItem
  report : List Refusal
  turn : Turn
  /-- How many steps were made, and how many draws taken. -/
  tick : Nat
  draws : Nat
deriving DecidableEq, Repr

/-- How an operation ends. -/
abbrev Out := Host.Outcome State Fault Refusal

/-- The parameters at reset: the spec's defaults and the example values of 95_test_vectors (log 2), a clock that is a
free value (log 40). -/
def resetParams : Params where
  resetUs := 55
  maxPages := 512
  aliasBit := 0x40000000#32
  fifoBus := 0x7E20C018#32
  tiWord := 0x04050148#32
  maxLedsCap := 65536
  waitTimeout := none
  buildAtInit := true
  descUncached := true
  renderFlush := .dirty
  frames := [(0x10, 0x1A2B3), (0x11, 0x0F00D), (0x12, 0x00777), (0x14, 0x40000), (0x15, 0x100000), (0x20, 0x1C0DE)]
  oscHz := 19200000
  clockStarts := Config.clockStarts
  clockStops := Config.clockStops
  sizes := []
  pfn := [(0x10, 0x1A2B3), (0x11, 0x0F00D), (0x12, 0x00777), (0x14, 0x40000), (0x15, 0x100000), (0x20, 0x1C0DE)]
  pins := [(.c0, 18)]

/-- The machine right after power-on (R40, R220). -/
def State.reset : State where
  params := resetParams
  freq := 0
  dmaIdx := 0
  pin := ⟨0, 0⟩
  invert := ⟨false, false⟩
  count := ⟨0, 0⟩
  col := ⟨[], []⟩
  regsMapped := false
  pinsBound := false
  pwmOn := false
  chainHead := none
  descBus := none
  descVA := none
  descBytes := 0
  bufVA := none
  pages := []
  maxLeds := 0
  bufBytes := 0
  phase := .uninitialized
  inInit := false
  blocked := none
  polls := 0
  result := .none
  buf := []
  busbuf := []
  flushed := []
  desc := []
  descWritten := []
  fifo := []
  wireCut := none
  cursor := ⟨⟨0, 31⟩, ⟨0, 31⟩⟩
  bldPages := []
  bldIdx := 0
  bldRemaining := 0
  dma := .idle
  engine := none
  cbAddr := none
  prioritySet := false
  primedInv := ⟨none, none⟩
  chainValid := false
  chainFor := none
  dirty := []
  descDirty := false
  frameOk := false
  stale := ⟨0, 0⟩
  cmds := []
  report := []
  turn := .host
  tick := 0
  draws := 0

end Sys2Proof.Machine
end

