-- ==== Sys2Proof/Machine/Ops.lean ====
section
/-!
DEFINITION. The named operations over memory, sets and state: reading and writing bytes, words, bits and records (20_memory R50 to
R55), the phase gates (42_host_ops R171), raising an error to the caller (60_exceptions R201), the hold of a polling
operation (R177), the power-on values an operation restores (10_state R40, 42_host_ops R173, R179), and running operations in a
row (60_exceptions R200).
-/

namespace Sys2Proof.Machine

/-! ### Memory -/

/-- The byte at an address; an unlisted address reads as 0 (log 5). -/
def Memory.readByte : Memory → Nat → Byte
  | [], _ => 0
  | c :: m, a => if c.1 = a then c.2 else Memory.readByte m a

/-- `m` with a byte that is not 0 put at its place. -/
def Memory.insertByte : Memory → Nat → Byte → Memory
  | [], a, b => [(a, b)]
  | c :: m, a, b =>
    if a < c.1 then (a, b) :: c :: m
    else if a = c.1 then (a, b) :: m
    else c :: Memory.insertByte m a b

/-- `m` with the byte at `a` replaced; a byte 0 is not listed (log 5). -/
def Memory.writeByte (m : Memory) (a : Nat) (b : Byte) : Memory :=
  if b = 0 then m.filter (fun c => c.1 ≠ a) else Memory.insertByte m a b

/-- The canonical form: addresses strictly rising, no byte 0. -/
abbrev Memory.wf (m : Memory) : Prop := m.Pairwise (fun c d => c.1 < d.1) ∧ ∀ c ∈ m, c.2 ≠ 0

/-- Word `w`, little-endian from byte `4*w` (R51, R53). -/
def Memory.readWord (m : Memory) (w : Nat) : Word :=
  wordOfBytes (m.readByte (4 * w)) (m.readByte (4 * w + 1)) (m.readByte (4 * w + 2)) (m.readByte (4 * w + 3))

/-- `m` with word `w` replaced (R55: one 32-bit store). -/
def Memory.writeWord (m : Memory) (w : Nat) (v : Word) : Memory :=
  (((m.writeByte (4 * w) (byteOfWord v 0)).writeByte (4 * w + 1) (byteOfWord v 1)).writeByte (4 * w + 2)
    (byteOfWord v 2)).writeByte (4 * w + 3) (byteOfWord v 3)

/-- `v` with bit `p` replaced by `x`, every other bit kept (R10 `buf[w][p] <- b`). -/
def setBit (v : Word) (p : Nat) (x : Bool) : Word :=
  if x then v ||| BitVec.twoPow 32 p else v &&& ~~~(BitVec.twoPow 32 p)

/-- Bit `p` of word `w` (R10 `buf[w][p]`). -/
def Memory.readBit (m : Memory) (w p : Nat) : Bool := (m.readWord w).getLsbD p

/-- Word `k` of record `i` of descriptor storage: eight words a record (R91). -/
def descWord (i k : Nat) : Nat := 8 * i + k

/-- Record `i` (R91). -/
def Memory.readDesc (m : Memory) (i : Nat) : Desc where
  info := m.readWord (descWord i 0)
  src := m.readWord (descWord i 1)
  dst := m.readWord (descWord i 2)
  len := m.readWord (descWord i 3)
  next := m.readWord (descWord i 5)

/-- Words stored one after the other from word `w` on. -/
def Memory.writeWords (m : Memory) (w : Nat) : List Word → Memory
  | [] => m
  | v :: vs => (m.writeWord w v).writeWords (w + 1) vs

/-- `m` with record `i` replaced, the stride and the reserved words 0 (R91, D32). -/
def Memory.writeDesc (m : Memory) (i : Nat) (r : Desc) : Memory := m.writeWords (descWord i 0) (wordsOfDesc r)

/-! ### Sets of numbers -/

/-- `l` with `a` in it. -/
def NatSet.insert : NatSet → Nat → NatSet
  | [], a => [a]
  | b :: l, a => if a < b then a :: b :: l else if a = b then b :: l else b :: NatSet.insert l a

/-- `l` with all of `as` in it. -/
def NatSet.insertAll (l : NatSet) (as : List Nat) : NatSet := as.foldl NatSet.insert l

/-- The canonical form: strictly rising. -/
abbrev NatSet.wf (l : NatSet) : Prop := l.Pairwise (· < ·)

/-! ### Views -/

/-- A transfer is in flight: D0's active bit (R34). -/
def Dma.isActive : Dma → Bool
  | .active _ _ => true
  | .idle | .error _ => false

/-- `BUF_WORDS` (R26). -/
def State.bufWords (s : State) : Nat := s.bufBytes / 4

/-- `CH_WORDS` (R26). -/
def State.chWords (s : State) : Nat := s.bufWords / 2

/-- The pair a chain is built for: the frequency and the cached maximum LED count (R36). -/
def State.sizing (s : State) : Nat × Nat := (s.freq, s.maxLeds)

/-- The phases `Ready` and `Rendering` (R171). -/
def State.isOpen (s : State) : Bool := s.phase = .ready || s.phase = .rendering

/-- The step of an error: the operation ended with one. -/
def Result.isError : Result → Bool
  | .error _ => true
  | .none | .ok | .addr _ | .components _ _ _ => false

/-! ### Ending an operation -/

/-- TAKING AN EXCEPTION: "Control returns to the caller with the error value. Nothing is saved, no mode changes, no handler runs"
(R201). The return from one is the next operation the caller issues: "there is no return instruction" (R202). -/
def State.raise (s : State) (e : ErrorKind) : State := { s with result := .error e, blocked := none, polls := 0 }

/-- The operation returns `r` to the caller. -/
def State.finish (s : State) (r : Result) : State := { s with result := r, blocked := none, polls := 0 }

/-- The host thread stays in operation `b` after a poll that saw the active bit (R177, D24). -/
def State.hold (s : State) (b : Blocked) : State := { s with blocked := some b, polls := s.polls + 1 }

/-- This poll is the last one that `WAIT_TIMEOUT` allows (R184, D24). -/
def State.timedOut (s : State) : Bool :=
  match s.params.waitTimeout with
  | some n => n ≤ s.polls + 1
  | none => false

/-- Every element of rule R40 at its power-on value. The caller's configuration fields stay as the caller wrote them (log 22), and
the registers of the DMA engine, the words already given to the FIFO and the host's side are no elements of that rule. Neither is
the binding of the pins, which R179 names no step for: that it ends is the model's choice (log 45). -/
def State.powerOn (s : State) : State :=
  { s with
    col := State.reset.col, regsMapped := State.reset.regsMapped, pinsBound := State.reset.pinsBound
    pwmOn := State.reset.pwmOn, chainHead := State.reset.chainHead, descVA := State.reset.descVA, descBus := State.reset.descBus
    descBytes := State.reset.descBytes, bufVA := State.reset.bufVA, pages := State.reset.pages
    maxLeds := State.reset.maxLeds, bufBytes := State.reset.bufBytes, phase := State.reset.phase
    inInit := State.reset.inInit, blocked := State.reset.blocked, polls := State.reset.polls
    buf := State.reset.buf, busbuf := State.reset.busbuf, flushed := State.reset.flushed
    desc := State.reset.desc, descWritten := State.reset.descWritten, cursor := State.reset.cursor
    bldPages := State.reset.bldPages, bldIdx := State.reset.bldIdx, bldRemaining := State.reset.bldRemaining
    dma := State.reset.dma, primedInv := State.reset.primedInv, chainValid := State.reset.chainValid
    chainFor := State.reset.chainFor, dirty := State.reset.dirty, descDirty := State.reset.descDirty
    frameOk := State.reset.frameOk, stale := State.reset.stale }

/-! ### Running operations in a row -/

/-- What leaves `t` in the phases it is admitted in, and is refused in the others (R171, R182). -/
def admittedIf (p : Prop) [Decidable p] (t : State) : Out := if p then .next t else .refused .wrongPhase

/-- What follows an operation: the next one where it succeeded; nothing where it raised an error, faulted or was refused
("the first step that fails ends the operation", R200). -/
def andThen (o : Out) (k : State → Out) : Out :=
  match o with
  | .next s => if s.result.isError then .next s else k s
  | .fault f => .fault f
  | .refused r => .refused r

/-- Operations one after the other, up to the first that fails (R200). -/
def runAll : List (State → Out) → State → Out
  | [], s => .next s
  | f :: fs, s => andThen (f s) (runAll fs)

end Sys2Proof.Machine
end

