-- ==== Sys2Proof/Machine/Operands.lean ====
section
/-!
DEFINITION. The forms an operand takes: colour components and data bits (30_encoding R80 to R83), the symbol code (R85, R86),
bus addresses and translation (R95, 41_dma_chain R142), page lists (20_memory R52), the sizing function (40_encoder R112, R113),
flush ranges (20_memory R62, 40_encoder R128), and the closed form of a stream bit (40_encoder R122).
-/

namespace Sys2Proof.Machine

/-! ### Colours -/

/-- `green(v) = v[15:8]` (R81). -/
def green (v : Word) : Byte := v.extractLsb' 8 8

/-- `red(v) = v[23:16]` (R81). -/
def red (v : Word) : Byte := v.extractLsb' 16 8

/-- `blue(v) = v[7:0]` (R81). -/
def blue (v : Word) : Byte := v.extractLsb' 0 8

/-- The components in wire order: green, red, blue (R82, R117). -/
def components (v : Word) : List Byte := [green v, red v, blue v]

/-- A component's data bits, most significant first (R83). -/
def dataBits (b : Byte) : List Bool :=
  [b.getLsbD 7, b.getLsbD 6, b.getLsbD 5, b.getLsbD 4, b.getLsbD 3, b.getLsbD 2, b.getLsbD 1, b.getLsbD 0]

/-- One LED's 24 data bits in wire order (R82, R83). -/
def ledBits (v : Word) : List Bool := (components v).flatMap dataBits

/-- `col[c][i]`; an element past the storage INITIALIZE allocated is a free value (log 21). -/
def colourAt (l : List Word) (c : Chan) (i : Nat) : Word := l.getD i (Config.freeColour c.idx i)

/-- The colours of LEDs `0 .. n-1` of a channel (R121). -/
def colours (l : List Word) (c : Chan) (n : Nat) : List Word := (List.range n).map (colourAt l c)

/-- The caller's store of a colour element; a store past the allocated storage makes the elements up to it stand as the free
values they read as (log 21). -/
def storeColour (l : List Word) (c : Chan) (i : Nat) (v : Word) : List Word :=
  if i < l.length then l.set i v
  else l ++ (List.range (i - l.length)).map (fun k => Config.freeColour c.idx (l.length + k)) ++ [v]

/-! ### Symbols -/

/-- `SYM(d, inv)` (R85): `110` for 1, `100` for 0, complemented for an inverted channel. -/
def sym (d inv : Bool) : BitVec 3 :=
  let s : BitVec 3 := if d then 0b110#3 else 0b100#3
  if inv then ~~~s else s

/-- A symbol's bits, most significant first (R86). -/
def symbolBits (s : BitVec 3) : List Bool := [s.getLsbD 2, s.getLsbD 1, s.getLsbD 0]

/-- The idle value of a channel: all zeros, or all ones where it is inverted (R115, 00_scope section 7). -/
def idleWord (inv : Bool) : Word := if inv then 0xFFFFFFFF#32 else 0#32

/-- The cursor after a sub-bit was stored (R119, D7). -/
def Cursor.next (k : Cursor) : Cursor := if k.p = 0 then ⟨k.j + 1, 31⟩ else ⟨k.j, k.p - 1⟩

/-- The cursor every ENCODE starts a channel with (R28, R121). -/
def Cursor.start : Cursor := ⟨0, 31⟩

/-- The stream bit a cursor stands at. -/
def Cursor.streamBit (k : Cursor) : Nat := 32 * k.j + (31 - k.p.val)

/-- The encoder's sequencing position inside a channel: LED, component, data bit, symbol bit (R27). -/
structure EncPos where
  i : Nat
  m : Nat
  b : Nat
  k : Nat
deriving DecidableEq, Repr

/-- The position of stream bit `n` (R122). -/
def posOfStreamBit (n : Nat) : EncPos where
  i := n / 72
  m := (n % 72) / 24
  b := 7 - ((n % 72) % 24) / 3
  k := 2 - (n % 72) % 3

/-- The component of index `m`: 0 green, 1 red, 2 blue (R82). -/
def componentAt (v : Word) (m : Nat) : Byte := (components v).getD m 0

/-- The value of stream bit `n` of a channel with colours `l` (R122). -/
def streamValue (l : List Word) (c : Chan) (inv : Bool) (n : Nat) : Bool :=
  let q := posOfStreamBit n
  (sym ((componentAt (colourAt l c q.i) q.m).getLsbD q.b) inv).getLsbD q.k

/-! ### Addresses -/

/-- The bus address of a frame and an offset: `(frame << 12) | DMA_ALIAS_BIT | offset` at 32 bits (R95, R143). -/
def busAddress (aliasBits : Word) (f : BitVec 20) (o : BitVec 12) : Word := (f ++ o : Word) ||| aliasBits

/-- What a translation answers (R142, R144). -/
inductive Translation where
  | ok (a : Word)
  | error
  | outOfRange
deriving DecidableEq, Repr

/-- The oracle's answer for a virtual page number; an unlisted page is an error (R142). -/
def lookupFrame : List (Nat × Nat) → Nat → Option Nat
  | [], _ => none
  | e :: l, n => if e.1 = n then some e.2 else lookupFrame l n

/-- The bus address a virtual address has under a table of frames (R142). -/
def translateBy (aliasBits : Word) (frames : List (Nat × Nat)) (va : Nat) : Translation :=
  match lookupFrame frames (va / 4096) with
  | none => .error
  | some f =>
    if 2 ^ 20 ≤ f ∨ (BitVec.ofNat 32 f <<< 12) &&& aliasBits ≠ 0 then .outOfRange
    else .ok (busAddress aliasBits (BitVec.ofNat 20 f) (BitVec.ofNat 12 va))

/-- `TRANSLATE(va)`: the bus address by the oracle's answer (R142). -/
def translateVA (p : Params) (va : Nat) : Translation := translateBy p.aliasBit p.pfn va

/-- The bus address a virtual address really has (R234). -/
def standsAt (p : Params) (va : Nat) : Translation := translateBy p.aliasBit p.frames va

/-- `pages[q] = bufVA + q*PAGE_SIZE` (R52). -/
def pageList (va n : Nat) : List Nat := (List.range n).map (fun q => va + q * pageSize)

/-- The page list is one the buffer can have: between 1 and `MAX_PAGES` entries, aligned, consecutive from `bufVA` (R141). -/
def pagesOk (maxPages : Nat) (bufVA : Option Nat) (pages : List Nat) : Bool :=
  match bufVA with
  | some va =>
    1 ≤ pages.length && pages.length ≤ maxPages && va % pageSize == 0 && pages == pageList va pages.length
  | none => false

/-- The bus address of record `i` (R30, D11). -/
def descAddress (bus : Word) (i : Nat) : Word := bus + BitVec.ofNat 32 (i * descSize)

/-- `index(a)`: the record that stands at bus address `a`, where there is one (R160). -/
def indexOf (bus : Word) (maxPages : Nat) (a : Word) : Option Nat :=
  if bus.toNat ≤ a.toNat ∧ (a.toNat - bus.toNat) % descSize = 0 ∧ (a.toNat - bus.toNat) / descSize < maxPages then
    some ((a.toNat - bus.toNat) / descSize)
  else none

/-- Descriptor storage for `n` records: resolved, not 0, aligned, in one region of the 32-bit bus space (R141, log 39). -/
def storageOk (descBus : Option Word) (descBytes n : Nat) : Bool :=
  match descBus with
  | some b =>
    b != 0 && b.toNat % descSize == 0 && n * descSize ≤ descBytes && b.toNat + n * descSize ≤ 2 ^ 32
  | none => false

/-- A virtual address or bus address that may be absent, where the operation has made sure it is there. -/
def orZero (a : Option Word) : Word := a.getD 0

/-! ### Sizes -/

/-- `RESET_BITS(freq)` (R113). -/
def resetBits (p : Params) (freq : Nat) : Nat := cdiv (p.resetUs * 3 * freq) 1000000

/-- The spec's own instance of the sizing function (R113). -/
def sizeR113 (p : Params) (maxLeds freq : Nat) : Nat := 4 * (2 * cdiv (72 * maxLeds + resetBits p freq) 32)

/-- A departure from rule R113 that the parameters list. -/
def lookupSize : List ((Nat × Nat) × Nat) → Nat × Nat → Option Nat
  | [], _ => none
  | e :: l, k => if e.1 = k then some e.2 else lookupSize l k

/-- `PWM_BYTE_COUNT(maxLeds, freq)` (R8, R112; log 36). -/
def pwmByteCount (p : Params) (maxLeds freq : Nat) : Nat :=
  (lookupSize p.sizes (maxLeds, freq)).getD (sizeR113 p maxLeds freq)

/-- `cdiv(BUF_BYTES, PAGE_SIZE)`: the pages the buffer needs (R111, R172). -/
def State.pageCount (s : State) : Nat := cdiv s.bufBytes pageSize

/-! ### Flush ranges -/

/-- Word `w` overlaps the byte range `[lo, hi)` (R62). -/
def covered (lo hi w : Nat) : Bool := 4 * w < hi && lo < 4 * w + 4

/-- The words a byte range covers (R62). -/
def coveredWords (lo hi : Nat) : List Nat := (List.range (cdiv hi 4)).filter (covered lo hi)

/-- The largest member of a set, 0 for the empty one. -/
def NatSet.greatest (l : NatSet) : Nat := l.foldl max 0

/-- One past the last byte of `dirty` (R174, D38). -/
def State.dirtyEnd (s : State) : Nat := 4 * (NatSet.greatest s.dirty + 1)

/-- One past the last byte channel `c`'s ENCODE writes, 0 where it writes none (R128). -/
def channelEnd (c : Chan) (n : Nat) : Nat := if n = 0 then 0 else 4 * (c.idx + 2 * ((72 * n - 1) / 32) + 1)

/-- One past the last byte ENCODE writes, 0 where it writes none (R128). -/
def State.encodedEnd (s : State) : Nat := max (channelEnd .c0 s.count.c0) (channelEnd .c1 s.count.c1)

end Sys2Proof.Machine
end

