-- ==== Sys2Proof/Machine/Flags.lean ====
section
/-!
DEFINITION. The computations of the ghost flags (10_state R35 to R38, 40_encoder R115, R127, 20_memory R67, 41_dma_chain R154).
-/

namespace Sys2Proof.Machine

/-- `frameOk` after an ENCODE (R127): each channel was primed for its inversion and holds no longer frame's symbols. -/
def State.frameOkAfterEncode (s : State) : Bool :=
  s.primedInv.c0 = some s.invert.c0 && s.primedInv.c1 = some s.invert.c1 &&
    s.stale.c0 ≤ s.count.c0 && s.stale.c1 ≤ s.count.c1

/-- `stale` after an ENCODE (R127). -/
def State.staleAfterEncode (s : State) : PerChan Nat := ⟨max s.stale.c0 s.count.c0, max s.stale.c1 s.count.c1⟩

/-- `descDirty` after a store to descriptor storage (R67, R146; log 34). -/
def State.descDirtyAfterStore (s : State) : Bool := if s.params.descUncached then s.descDirty else true

/-- A complete chain stands for the current sizing (R154, R176). -/
def State.chainCurrent (s : State) : Bool := s.chainValid && s.chainFor == some s.sizing

end Sys2Proof.Machine
end

