-- ==== Sys2Proof/Machine/Agent.lean ====
section
/-!
DEFINITION. The DMA reader's steps (41_dma_chain R155 to R159). A step changes the transfer state and what it writes to the FIFO,
and nothing of the host's (60_exceptions R209).
-/

namespace Sys2Proof.Machine

/-- The value word `w` had before the host's writes since the last flush (R61); before any flush, what memory held (log 6). -/
def State.oldWord (s : State) (w : Nat) : Word :=
  if w ∈ s.flushed then s.busbuf.readWord w else Config.earlierContent w

/-- The value the DMA reader gets for word `w`: a draw while `w` is dirty (R61; log 7). -/
def State.busRead (s : State) (w : Nat) : Word :=
  if w ∈ s.dirty ∧ Config.staleDraw s.draws = true then s.buf.readWord w else s.oldWord w

/-- The page of the buffer that really stands at a bus address, where one does (R52, R234). That different pages stand in different frames
is taken for granted: of two pages in one frame the first is taken, which is the model's choice (log 29). -/
def State.pageAt (s : State) (a : Word) : Option Nat :=
  match s.bufVA with
  | some va => (List.range s.pageCount).find? (fun q => standsAt s.params (va + q * pageSize) == .ok a)
  | none => none

/-- Descriptor storage really stands at the bus address that was resolved for it (R30, R234; log 47). -/
def State.descStands (s : State) : Bool := s.descVA.map (standsAt s.params) == s.descBus.map .ok

/-- What the DMA reader loads as a record from a bus address where descriptor storage does not stand: "a wrong bus address is silent"
(R91, R234; log 47). -/
def foreignRecord (a : Word) : Desc where
  info := Config.foreignControl a
  src := Config.foreignControl (a + 4)
  dst := Config.foreignControl (a + 8)
  len := Config.foreignControl (a + 12)
  next := Config.foreignControl (a + 20)

/-- The record the DMA reader has loaded in position `d`: the one at bus address `DESC_BUS + 32*d` (R30, R157). -/
def State.loaded (s : State) (d : Nat) : Desc :=
  if s.descStands then s.desc.readDesc d else foreignRecord (descAddress (orZero s.descBus) d)

/-- A record can be loaded there: one that was written (R157), or whatever stands at a misresolved address (R234). -/
def State.loadable (s : State) (d : Nat) : Bool := d ∈ s.descWritten || !s.descStands

/-- The buffer word that stands at offset `o` of record `d`'s source, where one does (R156, R52). Past the end of the page nothing says what
stands next in bus addresses, since pages need not be adjacent there: a free value, as where no page stands (log 29). -/
def State.sourceWord (s : State) (d o : Nat) : Option Nat :=
  match s.pageAt (s.loaded d).src with
  | some q => if o < pageSize ∧ (q * pageSize + o) / 4 < s.bufWords then some ((q * pageSize + o) / 4) else none
  | none => none

/-- What the reader gets at offset `o` of record `d`'s source: a word of the buffer, or, where none stands there, a free value: "a wrong
bus address is silent" (R234; log 29). -/
def State.sourceRead (s : State) (d o : Nat) : Word :=
  match s.sourceWord d o with
  | some w => s.busRead w
  | none => Config.foreignWord s.draws ((s.loaded d).src + BitVec.ofNat 32 o)

/-- The draws taken by that read. -/
def State.sourceDraws (s : State) (d o : Nat) : Nat :=
  match s.sourceWord d o with
  | some w => if w ∈ s.dirty then 1 else 0
  | none => 1

/-- What a word's transfer leaves (R156). A word whose destination is another address than the FIFO's, as only a misresolved record has
one, does not reach the FIFO; what it overwrites is left out (log 47). -/
def xferEffect (d o : Nat) (s : State) : State :=
  { s with
    fifo := if (s.loaded d).dst = s.params.fifoBus then s.fifo ++ [s.sourceRead d o] else s.fifo
    dma := .active d (o + 4)
    draws := s.draws + s.sourceDraws d o }

/-- DMA_XFER_WORD (R156): record `d` is loaded and its words are not all sent. -/
def execDmaXferWord (s : State) : Out :=
  match s.dma with
  | .active d o =>
    if s.loadable d ∧ o < (s.loaded d).len.toNat then
      .next (xferEffect d o s)
    else .refused .noAgentStep
  | .idle | .error _ => .refused .noAgentStep

/-- The record a link leads to: a written one (R157, R160), or, where descriptor storage is misresolved, what stands at its address. -/
def State.linkTarget (s : State) (a : Word) : Option Nat :=
  match indexOf (orZero s.descBus) s.params.maxPages a with
  | some i => if s.loadable i then some i else none
  | none => none

/-- DMA_FOLLOW_LINK (R157): every word of record `d` is sent and its link leads to a written record. -/
def execDmaFollowLink (s : State) : Out :=
  match s.dma with
  | .active d o =>
    if s.loadable d ∧ (s.loaded d).len.toNat ≤ o ∧ (s.loaded d).next ≠ 0 then
      match s.linkTarget (s.loaded d).next with
      | some i => .next { s with dma := .active i 0 }
      | none => .refused .noAgentStep
    else .refused .noAgentStep
  | .idle | .error _ => .refused .noAgentStep

/-- DMA_COMPLETE (R158): every word of the last record is sent. -/
def execDmaComplete (s : State) : Out :=
  match s.dma with
  | .active d o =>
    if s.loadable d ∧ (s.loaded d).len.toNat ≤ o ∧ (s.loaded d).next = 0 then .next { s with dma := .idle }
    else .refused .noAgentStep
  | .idle | .error _ => .refused .noAgentStep

/-- DMA_ERROR (R159): at any step of a transfer, with any debug value. -/
def execDmaError (v : Word) (s : State) : Out :=
  if s.dma.isActive then .next { s with dma := .error v } else .refused .noAgentStep

/-- The step of its chain that the reader makes next (R156, R157, R158). -/
def State.readerStep (s : State) : Option Instr :=
  match s.dma with
  | .active d o =>
    some (if o < (s.loaded d).len.toNat then .dmaXferWord
      else if (s.loaded d).next = 0 then .dmaComplete
      else .dmaFollowLink)
  | .idle | .error _ => none

end Sys2Proof.Machine
end

