-- ==== Sys2Proof/Machine/Colour.lean ====
section
/-!
DEFINITION. The caller's stores: a colour element (30_encoding R80, 10_state R22, R23, 70_reset_and_hazards R226) and the fields of
the Device Handle (R22, 30_encoding R100).
-/

namespace Sys2Proof.Machine

/-- What the caller's store of a colour element leaves. -/
def colorEffect (c : Chan) (i : Nat) (v : Word) (s : State) : State :=
  { s with col := s.col.set c (storeColour (s.col.get c) c i v) }

/-- COLOR: the caller stores a colour element, in any phase between INITIALIZE and FINALIZE, at an LED position below the channel's
count, which is a precondition and no check of the hardware's (R22, R50, R70, R226; log 17). It is no operation of the block and returns nothing (R100). -/
def execColor (c : Chan) (i : Nat) (v : Word) (s : State) : Out :=
  if s.isOpen then
    if i < s.count.get c then .next (colorEffect c i v s)
    else .refused (.badPacket .noSuchElement)
  else .refused .wrongPhase

/-- The caller's store to a field of the Device Handle (R22, R100). -/
def applyStore (st : Store) (s : State) : State :=
  match st with
  | .freq n => { s with freq := n }
  | .dmaIdx n => { s with dmaIdx := n }
  | .pin c n => { s with pin := s.pin.set c n }
  | .invert c b => { s with invert := s.invert.set c b }
  | .count c n => { s with count := s.count.set c n }

/-- A line `SET` of the host's program: refused in `Finalized` ("everything else (refused)", R182), and carried out in every other
phase. That it is carried out in `Ready` and `Rendering` for the fields R182 does not list there is the model's choice (log 42). -/
def execStore (st : Store) (s : State) : Out :=
  admittedIf (s.phase ≠ .finalized) (applyStore st s)

end Sys2Proof.Machine
end

