-- ==== Sys2Proof/Machine/Chain.lean ====
section
/-!
DEFINITION. The chain family (41_dma_chain): TRANSLATE, BUILD_CHAIN, the inner steps EMIT_DESC and TERMINATE, and the data formats
BUSADDR, TI_WORD and DESC.
-/

namespace Sys2Proof.Machine

/-! ### TRANSLATE -/

/-- TRANSLATE (R142), admitted inside INITIALIZE (R171). -/
def execTranslate (va : Nat) (s : State) : Out :=
  if s.inInit then
    match translateVA s.params va with
    | .ok a => .next (s.finish (.addr a))
    | .error => .next (s.raise (.translation none))
    | .outOfRange => .refused .frameOutOfRange
  else .refused .wrongPhase

/-! ### BUILD_CHAIN -/

/-- What EMIT_DESC reads and writes of descriptor storage and of the builder. -/
structure Build where
  desc : Memory
  written : NatSet
  idx : Nat
  remaining : Nat
deriving DecidableEq, Repr

/-- The record EMIT_DESC writes for page `i` at bus address `src` (R146). -/
def descRecord (p : Params) (bus : Word) (i remaining : Nat) (src : Word) : Desc where
  info := p.tiWord
  src := src
  dst := p.fifoBus
  len := BitVec.ofNat 32 (min pageSize remaining)
  next := descAddress bus (i + 1)

/-- EMIT_DESC on the builder (R146). -/
def buildEmit (p : Params) (bus : Word) (i : Nat) (src : Word) (b : Build) : Build where
  desc := b.desc.writeDesc i (descRecord p bus i b.remaining src)
  written := NatSet.insert b.written i
  idx := i + 1
  remaining := b.remaining - min pageSize b.remaining

/-- TERMINATE on descriptor storage: the link of record `n-1` becomes 0 (R147). -/
def terminateLink (m : Memory) (n : Nat) : Memory := m.writeWord (descWord (n - 1) 5) 0

/-- How the loop of BUILD_CHAIN ends. -/
inductive BuildEnd where
  | done (b : Build)
  | failed (i : Nat) (b : Build)
  | outOfRange
deriving DecidableEq, Repr

/-- The loop of BUILD_CHAIN over the pages from index `i` on (R145): it stops when nothing remains, at the first page that does not
translate (R149), or at the end of the list. -/
def buildLoop (p : Params) (bus : Word) : List Nat → Nat → Build → BuildEnd
  | [], _, b => .done b
  | va :: vas, i, b =>
    if b.remaining = 0 then .done b
    else
      match translateVA p va with
      | .ok a => buildLoop p bus vas (i + 1) (buildEmit p bus i a b)
      | .error => .failed i b
      | .outOfRange => .outOfRange

/-- The precondition of BUILD_CHAIN that does not hold, if one does not (R141). -/
def buildRefusal (pages : List Nat) (totalBytes : Nat) (s : State) : Option Refusal :=
  if pagesOk s.params.maxPages s.bufVA pages = false then some .badPageList
  else if totalBytes = 0 ∨ totalBytes % 4 ≠ 0 ∨ totalBytes ≠ s.bufBytes then some .badLength
  else if pages.length * pageSize < totalBytes then some .tooFewPages
  else if storageOk s.descBus s.descBytes pages.length = false then some .badDescriptorStorage
  else none

/-- The builder's state at the start (R29, R145). -/
def buildStart (totalBytes : Nat) (s : State) : Build := ⟨s.desc, s.descWritten, 0, totalBytes⟩

/-- A builder's results put into the state. The page list, `i` and `remaining` are "live only during one BUILD_CHAIN" (R29); that they
stand after it as it left them, so that an EMIT_DESC issued alone after a failed build goes on from the page that failed, is the model's
choice (log 4, log 19). -/
def State.withBuild (s : State) (pages : List Nat) (b : Build) : State :=
  { s with
    desc := b.desc, descWritten := b.written, bldPages := pages, bldIdx := b.idx, bldRemaining := b.remaining
    descDirty := if b.idx = 0 then s.descDirty else s.descDirtyAfterStore }

/-- BUILD_CHAIN after its preconditions (R145, R147, R149). A page whose frame TRANSLATE refuses refuses the whole operation, which
changes nothing (R200, R206): the model's choice (log 44). -/
def buildRun (pages : List Nat) (totalBytes : Nat) (s : State) : Out :=
  match buildLoop s.params (orZero s.descBus) pages 0 (buildStart totalBytes s) with
  | .outOfRange => .refused .frameOutOfRange
  | .failed i b => .next { (s.withBuild pages b).raise (.translation (some i)) with chainValid := false }
  | .done b =>
    .next { (s.withBuild pages { b with desc := terminateLink b.desc b.idx }).finish (.addr (orZero s.descBus)) with
      chainHead := s.descBus, chainValid := true, chainFor := some s.sizing }

/-- BUILD_CHAIN (R145), admitted inside INITIALIZE and in `Ready` (R171). A transfer in flight is the fault of rule R231 in
`Rendering` too (R182; log 12). -/
def execBuildChain (pages : List Nat) (totalBytes : Nat) (s : State) : Out :=
  if s.inInit || s.isOpen then
    if s.dma.isActive then .fault .descriptorWriteInFlight
    else if s.inInit || s.phase = .ready then
      match buildRefusal pages totalBytes s with
      | some r => .refused r
      | none => buildRun pages totalBytes s
    else .refused .wrongPhase
  else .refused .wrongPhase

/-! ### The inner steps, and the stores of the data formats (log 19) -/

/-- What every store to record `i` outside BUILD_CHAIN's own run needs: the phases of BUILD_CHAIN, no transfer in flight, a build
whose chain is not complete, and storage for the record (R70, R141, R171, R231). -/
def chainStep (i : Nat) (s : State) (k : State → Out) : Out :=
  if s.inInit || s.isOpen then
    if s.dma.isActive then .fault .descriptorWriteInFlight
    else if s.inInit || s.phase = .ready then
      if s.chainValid then .refused .noBuildInProgress
      else if i < s.params.maxPages ∧ storageOk s.descBus s.descBytes (i + 1) then k s
      else .refused .badDescriptorStorage
    else .refused .wrongPhase
  else .refused .wrongPhase

/-- What EMIT_DESC leaves for page `i` at bus address `a` (R146). -/
def emitDescEffect (i : Nat) (a : Word) (s : State) : State :=
  (s.withBuild s.bldPages
    (buildEmit s.params (orZero s.descBus) i a ⟨s.desc, s.descWritten, s.bldIdx, s.bldRemaining⟩)).finish .ok

/-- EMIT_DESC (R146): the descriptor of page `i` of the list that is being built. -/
def execEmitDesc (i : Nat) (s : State) : Out :=
  chainStep i s fun s =>
    if i < s.bldPages.length ∧ s.bldRemaining ≠ 0 then
      match translateVA s.params (s.bldPages.getD i 0) with
      | .ok a => .next (emitDescEffect i a s)
      | .error => .next (s.raise (.translation (some i)))
      | .outOfRange => .refused .frameOutOfRange
    else .refused .noBuildInProgress

/-- What TERMINATE leaves after the record of index `n-1` (R147; log 34). -/
def terminateEffect (n : Nat) (s : State) : State :=
  { s.finish .ok with desc := terminateLink s.desc n, descDirty := s.descDirtyAfterStore }

/-- TERMINATE (R147): the link of record `n-1` is forced to 0. There is no record before the first one. -/
def execTerminate (n : Nat) (s : State) : Out :=
  chainStep (n - 1) s fun s => if n = 0 then .refused .noBuildInProgress else .next (terminateEffect n s)

/-- What a store of the flags word into record `i` leaves. -/
def tiWordEffect (i : Nat) (s : State) : State :=
  { s.finish .ok with desc := s.desc.writeWord (descWord i 0) s.params.tiWord, descDirty := s.descDirtyAfterStore }

/-- TI_WORD: the flags word is stored into record `i` (R92, R93, R146; log 18). -/
def execTiWord (i : Nat) (s : State) : Out := chainStep i s fun s => .next (tiWordEffect i s)

/-- What a store of record `i` leaves. -/
def descEffect (i : Nat) (r : Desc) (s : State) : State :=
  { s.finish .ok with
    desc := s.desc.writeDesc i r, descWritten := NatSet.insert s.descWritten i, descDirty := s.descDirtyAfterStore }

/-- DESC: a whole record is stored at index `i` (R90, R91; log 18), with the flags and the destination it has (log 48). -/
def execDesc (i : Nat) (r : Desc) (s : State) : Out := chainStep i s fun s => .next (descEffect i r s)

/-- BUSADDR: the bus address of the fields goes to the caller, the alias bits forced to 1 (R95), inside INITIALIZE, in `Ready` and in
`Rendering` (log 18); in `Uninitialized` and in `Finalized` it is refused (R182). -/
def execBusaddr (f : BitVec 20) (o : BitVec 12) (s : State) : Out :=
  admittedIf (s.inInit || s.isOpen) (s.finish (.addr (busAddress s.params.aliasBit f o)))

end Sys2Proof.Machine
end

