-- ==== Sys2Proof/Machine/Encoder.lean ====
section
/-!
DEFINITION. The encoder family (40_encoder): SIZE, PRIME, ENCODE, the inner steps EXPAND_LED, EMIT_SYMBOL, PUT_BIT, and the
four output codes.
-/

namespace Sys2Proof.Machine

/-! ### SIZE -/

/-- The precondition of SIZE that does not hold, if one does not (R111). -/
def sizeRefusal (s : State) : Option Refusal :=
  if s.freq = 0 then some .zeroFrequency
  else if s.params.maxLedsCap < s.count.c0 ∨ s.params.maxLedsCap < s.count.c1 then some .tooManyLeds
  else none

/-- What SIZE leaves (R111, R25). -/
def sizeEffect (s : State) : State :=
  { s.finish .ok with
    maxLeds := max s.count.c0 s.count.c1
    bufBytes := pwmByteCount s.params (max s.count.c0 s.count.c1) s.freq }

/-- SIZE (R111), admitted inside INITIALIZE (R171). -/
def execSize (s : State) : Out :=
  if s.inInit then
    match sizeRefusal s with
    | some r => .refused r
    | none => .next (sizeEffect s)
  else .refused .wrongPhase

/-! ### PRIME -/

/-- Words `0 .. n-1` at their channel's idle value (R115). -/
def primeWords (inv : PerChan Bool) (m : Memory) (n : Nat) : Memory :=
  (List.range n).foldl (fun m w => m.writeWord w (idleWord (inv.get (Chan.ofWord w)))) m

/-- What PRIME leaves (R115). -/
def primeEffect (s : State) : State :=
  { s.finish .ok with
    buf := primeWords s.invert s.buf s.bufWords
    dirty := NatSet.insertAll s.dirty (List.range s.bufWords)
    primedInv := ⟨some s.invert.c0, some s.invert.c1⟩
    stale := ⟨0, 0⟩
    frameOk := false }

/-- PRIME (R115), admitted inside INITIALIZE and in `Ready` (R171). A transfer in flight is the fault of rule R224 in
`Rendering` too (R182; log 12), and leaves no state (log 49). -/
def execPrime (s : State) : Out :=
  if s.inInit || s.isOpen then
    if s.dma.isActive then .fault .bufferWriteInFlight
    else if s.inInit || s.phase = .ready then .next (primeEffect s)
    else .refused .wrongPhase
  else .refused .wrongPhase

/-! ### ENCODE -/

/-- The buffer, its dirty set and one channel's cursor: what a sub-bit's store reads and writes. -/
structure Lane where
  buf : Memory
  dirty : NatSet
  cur : Cursor
deriving DecidableEq, Repr

/-- The buffer word a channel's cursor stands in: `c + 2*j[c]` (R28). -/
def laneWord (c : Chan) (k : Cursor) : Nat := c.idx + 2 * k.j

/-- PUT_BIT on a lane (R119): assign the bit, then step the cursor. -/
def lanePutBit (c : Chan) (l : Lane) (x : Bool) : Lane where
  buf := l.buf.writeWord (laneWord c l.cur) (setBit (l.buf.readWord (laneWord c l.cur)) l.cur.p.val x)
  dirty := NatSet.insert l.dirty (laneWord c l.cur)
  cur := l.cur.next

/-- EMIT_SYMBOL on a lane (R118). -/
def laneEmit (c : Chan) (inv : Bool) (l : Lane) (d : Bool) : Lane := (symbolBits (sym d inv)).foldl (lanePutBit c) l

/-- One LED on a lane: its components in wire order, their bits most significant first (R120). -/
def laneLed (c : Chan) (inv : Bool) (l : Lane) (v : Word) : Lane := (ledBits v).foldl (laneEmit c inv) l

/-- One channel of ENCODE: from the channel's first word, LED 0 first (R120, R121). -/
def laneChannel (s : State) (c : Chan) (buf : Memory) (dirty : NatSet) : Lane :=
  (colours (s.col.get c) c (s.count.get c)).foldl (laneLed c (s.invert.get c)) ⟨buf, dirty, Cursor.start⟩

/-- What ENCODE leaves: channel 0, then channel 1, then the ghost updates (R120, R127). -/
def encodeEffect (s : State) : State :=
  let l0 := laneChannel s .c0 s.buf s.dirty
  let l1 := laneChannel s .c1 l0.buf l0.dirty
  { s.finish .ok with
    buf := l1.buf
    dirty := l1.dirty
    cursor := ⟨l0.cur, l1.cur⟩
    frameOk := s.frameOkAfterEncode
    stale := s.staleAfterEncode }

/-- The frame fits the buffer: no count above `maxLeds`, and each channel's words hold its sub-bits (R120 precondition 3; log
20). -/
def State.encodeFits (s : State) : Bool :=
  s.count.c0 ≤ s.maxLeds && s.count.c1 ≤ s.maxLeds &&
    72 * s.count.c0 ≤ 32 * s.chWords && 72 * s.count.c1 ≤ 32 * s.chWords

/-- ENCODE (R120). Its faults leave no state (log 49). -/
def execEncode (s : State) : Out :=
  if s.isOpen then
    if s.dma.isActive then .fault .bufferWriteInFlight
    else if s.encodeFits then .next (encodeEffect s)
    else .fault .encodeOutOfBounds
  else .refused .wrongPhase

/-! ### The inner steps -/

/-- EXPAND_LED (R117): the components go to the caller. Issued alone it is admitted where ENCODE is, whose inner step it is (log 43); in
`Uninitialized` and in `Finalized` it is refused (R182). -/
def execExpandLed (v : Word) (s : State) : Out := admittedIf s.isOpen (s.finish (.components (green v) (red v) (blue v)))

/-- What one sub-bit's store leaves (R119). -/
def putBitEffect (c : Chan) (x : Bool) (s : State) : State :=
  let l := lanePutBit c ⟨s.buf, s.dirty, s.cursor.get c⟩ x
  { s.finish .ok with buf := l.buf, dirty := l.dirty, cursor := s.cursor.set c l.cur }

/-- One sub-bit's store with the conditions that ENCODE checks for all of its stores at once (R120, R70). -/
def putBitStep (c : Chan) (x : Bool) (s : State) : Out :=
  if s.isOpen then
    if s.dma.isActive then .fault .bufferWriteInFlight
    else if laneWord c (s.cursor.get c) < s.bufWords then .next (putBitEffect c x s)
    else .fault .encodeOutOfBounds
  else .refused .wrongPhase

/-- Sub-bits stored one after the other. -/
def putBits (c : Chan) (xs : List Bool) (s : State) : Out := runAll (xs.map (putBitStep c)) s

/-- PUT_BIT (R119). -/
def execPutBit (c : Chan) (x : Bool) (s : State) : Out := putBitStep c x s

/-- EMIT_SYMBOL (R118). -/
def execEmitSymbol (c : Chan) (d : Bool) (s : State) : Out := putBits c (symbolBits (sym d (s.invert.get c))) s

/-! ### The output codes: "leftmost sub-bit is sent first" (R85, R86; log 16) -/

/-- SYM_1: `110`. -/
def execSym1 (c : Chan) (s : State) : Out := putBits c (symbolBits 0b110#3) s

/-- SYM_0: `100`. -/
def execSym0 (c : Chan) (s : State) : Out := putBits c (symbolBits 0b100#3) s

/-- SYM_1_INV: `001`. -/
def execSym1Inv (c : Chan) (s : State) : Out := putBits c (symbolBits 0b001#3) s

/-- SYM_0_INV: `011`. -/
def execSym0Inv (c : Chan) (s : State) : Out := putBits c (symbolBits 0b011#3) s

end Sys2Proof.Machine
end

