-- ==== Sys2Proof/Machine/Sync.lean ====
section
/-!
DEFINITION. The synchronisation group: FLUSH (20_memory R62), DMA_START (42_host_ops R176), WAIT (R177, R184).
-/

namespace Sys2Proof.Machine

/-- The covered words copied from the host's view (R62). -/
def flushWords (buf busbuf : Memory) (ws : List Nat) : Memory :=
  ws.foldl (fun m w => m.writeWord w (buf.readWord w)) busbuf

/-- What FLUSH over a byte range leaves (R62). -/
def flushEffect (lo hi : Nat) (s : State) : State :=
  { s.finish .ok with
    busbuf := flushWords s.buf s.busbuf (coveredWords lo hi)
    flushed := NatSet.insertAll s.flushed (coveredWords lo hi)
    dirty := s.dirty.filter (fun w => !covered lo hi w) }

/-- FLUSH over a byte range (R62). -/
def flushRange (lo hi : Nat) (s : State) : Out :=
  if lo ≤ hi ∧ hi ≤ s.bufBytes then .next (flushEffect lo hi s) else .refused .badFlushRange

/-- What `FLUSH desc` leaves (R62). -/
def flushDescEffect (s : State) : State := { s.finish .ok with descDirty := false }

/-- FLUSH, admitted in `Ready`, in `Rendering`, and as a step of INITIALIZE (R62, R171, R172). -/
def execFlush (arg : FlushArg) (s : State) : Out :=
  if s.inInit || s.isOpen then
    match arg with
    | .range lo hi => flushRange lo hi s
    | .desc => .next (flushDescEffect s)
  else .refused .wrongPhase

/-- What DMA_START leaves: the engine's start pointer and control bits, the transfer, the phase (R155, R176; log 33). -/
def dmaStartEffect (s : State) : State :=
  { s.finish .ok with
    engine := some s.dmaIdx, cbAddr := s.chainHead, prioritySet := true, dma := .active 0 0, phase := .rendering }

/-- DMA_START (R176). -/
def execDmaStart (s : State) : Out :=
  if s.isOpen then
    match s.dma with
    | .active _ _ => .refused .startWhileActive
    | .error _ => .refused .startAfterError
    | .idle =>
      if s.chainCurrent then
        (if s.descDirty then .fault .descriptorsNotVisible else .next (dmaStartEffect s))
      else .refused .noChain
  else .refused .wrongPhase

/-- What WAIT leaves after a transfer that is over (R177). -/
def waitEffect (s : State) : State := { s.finish .ok with phase := .ready }

/-- One poll of WAIT (R177): the error bit wins, the active bit holds the host thread, else the transfer is over. -/
def execWait (s : State) : Out :=
  if s.isOpen then
    match s.dma with
    | .error v => .next (s.raise (.dma v))
    | .idle => .next (waitEffect s)
    | .active _ _ => if s.timedOut then .next (s.raise .timeout) else .next (s.hold .wait)
  else .refused .wrongPhase

end Sys2Proof.Machine
end

