-- ==== Sys2Proof/Machine/Lifecycle.lean ====
section
/-!
DEFINITION. The pseudo-operations INITIALIZE, RENDER and FINALIZE (42_host_ops R172 to R181, 30_encoding R101), each a row of the
block's operations with the steps of the other components between them.
-/

namespace Sys2Proof.Machine

/-! ### INITIALIZE -/

/-- What step 1 leaves: colour storage, zero-filled (R172, R23). -/
def coloursEffect (s : State) : State :=
  { s.finish .ok with col := ⟨List.replicate s.count.c0 0, List.replicate s.count.c1 0⟩ }

/-- Step 1: colour storage (R172). -/
def initColours (e : InitEnv) (s : State) : Out := if e.colOk then .next (coloursEffect s) else .next (s.raise .allocation)

/-- What step 3 leaves: the pinned pages of the output buffer; they hold nothing that was ever written (R172, D15, R52). -/
def bufferEffect (va : Nat) (s : State) : State :=
  { s.finish .ok with
    bufVA := some va, pages := pageList va s.pageCount, buf := [], busbuf := [], flushed := [], dirty := [] }

/-- Step 3: the output buffer (R172). -/
def initBuffer (e : InitEnv) (s : State) : Out :=
  match e.bufAlloc with
  | some va => if s.pageCount ≤ s.params.maxPages then .next (bufferEffect va s) else .next (s.raise .allocation)
  | none => .next (s.raise .allocation)

/-- What step 5 leaves: descriptor storage of `n` bytes at virtual address `va`, with no chain in it (R172, R30, R36). -/
def storageEffect (va n : Nat) (s : State) : State :=
  { s.finish .ok with desc := [], descWritten := [], descVA := some va, descBytes := n, chainValid := false }

/-- Step 5: descriptor storage (R172). -/
def initStorage (e : InitEnv) (s : State) : Out :=
  match e.descAlloc with
  | some d => .next (storageEffect d.1 d.2 s)
  | none => .next (s.raise .allocation)

/-- What step 6 leaves: descriptor storage stands at bus address `a` (R30). -/
def resolveEffect (a : Word) (s : State) : State := { s.finish .ok with descBus := some a }

/-- Step 6: the bus address of descriptor storage (R172, R30). -/
def initResolve (e : InitEnv) (s : State) : Out :=
  match e.descAlloc with
  | some d =>
    andThen (execTranslate d.1 s) fun t =>
      match t.result with
      | .addr a => .next (resolveEffect a t)
      | .none | .ok | .components _ _ _ | .error _ => .next t
  | none => .next (s.raise .allocation)

/-- BUILD_CHAIN over the handle's own pages, then `FLUSH desc` where descriptor storage is cached (R172 step 7, R174 step 4). -/
def buildOwn (s : State) : Out :=
  andThen (execBuildChain s.pages s.bufBytes s) fun t =>
    if t.params.descUncached then .next t else execFlush .desc t

/-- Step 7: the chain, where it is built at initialize (R172, D19). -/
def initChain (s : State) : Out := if s.params.buildAtInit then buildOwn s else .next s

/-- What step 8 leaves: the register-block handles (R24). -/
def mapEffect (s : State) : State := { s.finish .ok with regsMapped := true }

/-- Step 8: the register mapper (R172, R192). -/
def initMap (e : InitEnv) (s : State) : Out := if e.mapOk then .next (mapEffect s) else .next (s.raise .map)

/-- The pin of channel `c` is unused, or has an alternate function on it (R12, R194). -/
def State.pinOk (s : State) (c : Chan) : Bool := s.pin.get c == 0 || s.params.pins.contains (c, s.pin.get c)

/-- What step 9 leaves: the pins bound. -/
def pinsEffect (s : State) : State := { s.finish .ok with pinsBound := true }

/-- Step 9: the pin binder (R172, R194; log 32). -/
def initPins (s : State) : Out :=
  if s.pinOk .c0 && s.pinOk .c1 then .next (pinsEffect s) else .next (s.raise .unsupportedPin)

/-- What step 10 leaves: clock and PWM running, the FIFO cleared (R11). -/
def clockEffect (s : State) : State := { s.finish .ok with pwmOn := true, fifo := [] }

/-- The steps of INITIALIZE that can fail, in D0's order (R172). -/
def initSteps (e : InitEnv) : List (State → Out) :=
  [initColours e, execSize, initBuffer e, execPrime, initStorage e, initResolve e, initChain, initMap e, initPins]

/-- INITIALIZE is in progress (R171; log 13). -/
def initStart (s : State) : State := { s.finish .ok with inInit := true }

/-- What step 11 leaves (R172). -/
def readyEffect (t : State) : State := { t.finish .ok with phase := .ready, inInit := false }

/-- INITIALIZE stuck in step 10, which has "no error path": the host thread stays in the clock's busy-wait, nothing is returned, and
what the steps before it produced stands (R184, R235, U7; log 40). -/
def initStuck (t : State) : State := { t with inInit := false, result := .none, blocked := some .clock, polls := 0 }

/-- The rollback after an error (R173), or steps 10 and 11 (R172, R11, R184). -/
def initEnd (t : State) : State :=
  if t.result.isError then t.powerOn
  else if t.params.clockStarts then readyEffect (clockEffect t)
  else initStuck t

/-- INITIALIZE (R172), admitted in `Uninitialized` (R171). Its own refusals are SIZE's (R182, R200). -/
def execInit (e : InitEnv) (s : State) : Out :=
  if s.phase = .uninitialized ∧ s.inInit = false then
    match sizeRefusal s with
    | some r => .refused r
    | none =>
      match runAll (initSteps e) (initStart s) with
      | .next t => .next (initEnd t)
      | .fault f => .fault f
      | .refused r => .refused r
  else .refused .wrongPhase

/-! ### RENDER -/

/-- Step 2: the flush, over every dirty word or over what ENCODE writes (R174, D38). -/
def renderFlush (s : State) : Out :=
  match s.params.renderFlush with
  | .dirty => if s.dirty = [] then .next s else execFlush (.range 0 s.dirtyEnd) s
  | .encoded => if s.encodedEnd = 0 then .next s else execFlush (.range 0 s.encodedEnd) s

/-- Step 4: the chain, where none stands for the current sizing (R174, D19). -/
def renderBuild (s : State) : Out := if s.chainCurrent then .next s else buildOwn s

/-- The steps of RENDER (R174). -/
def renderSteps : List (State → Out) := [execEncode, renderFlush, execWait, renderBuild, execDmaStart]

/-- RENDER's end: after an error the phase is as before RENDER (R171, D37; log 25). -/
def renderEnd (s t : State) : State := if t.result.isError then { t with phase := s.phase } else t

/-- RENDER (R174). -/
def execRender (s : State) : Out :=
  match runAll renderSteps s with
  | .next t => .next (renderEnd s t)
  | .fault f => .fault f
  | .refused r => .refused r

/-! ### FINALIZE -/

/-- The forced stop meets a transfer that has not completed (R181). -/
def State.cutsOff (s : State) : Bool := s.isOpen && s.dma != .idle

/-- Step 1 is over, with WAIT's effect where the transfer was, and the PWM output stops, which cuts off a transfer that has not
completed (R179 steps 1 and 2, R177, R181; log 27). -/
def finalizeStop (s : State) : State :=
  { s with
    phase := if s.isOpen && s.dma == .idle then .ready else s.phase
    wireCut := if s.cutsOff then some ⟨Config.cutLength s.draws 0, Config.cutLength s.draws 1⟩ else s.wireCut
    draws := if s.cutsOff then s.draws + 1 else s.draws }

/-- FINALIZE stuck in the busy-wait of step 2: the host thread stays in it and nothing is returned or released (R184, R235, U7; log
40). -/
def finalizeStuck (s : State) : State := { finalizeStop s with result := .none, blocked := some .clock, polls := 0 }

/-- What FINALIZE leaves (R179 steps 3 to 5). -/
def finalizeEffect (s : State) : State := { (finalizeStop s).powerOn with phase := .finalized, result := .ok }

/-- FINALIZE (R179): it first waits for a transfer in flight, whatever that wait's result; a running clock that never stops is waited
for for ever (R184; log 40). -/
def execFinalize (s : State) : Out :=
  if s.isOpen && s.dma.isActive && !s.timedOut then .next (s.hold .finalize)
  else if s.pwmOn && !s.params.clockStops then .next (finalizeStuck s)
  else .next (finalizeEffect s)

end Sys2Proof.Machine
end

