-- ==== Sys2Proof/Machine/Reserved.lean ====
section
/-!
DEFINITION. The reserved command codes: "refuse: the block has no such operation" (30_encoding R98, 60_exceptions R206).
-/

namespace Sys2Proof.Machine

/-- Code 0000. -/
def execReserved0 (_ : State) : Out := .refused .reservedCommand

/-- Code 1001. -/
def execReserved9 (_ : State) : Out := .refused .reservedCommand

/-- Codes 1010 and 1011. -/
def execReservedAB (_ : BitVec 1) (_ : State) : Out := .refused .reservedCommand

/-- Codes 1100 to 1111. -/
def execReservedCF (_ : BitVec 2) (_ : State) : Out := .refused .reservedCommand

end Sys2Proof.Machine
end

