-- ==== Sys2Proof/Machine/Dispatch.lean ====
section
/-!
DEFINITION. One arm per constructor of Instr: the meaning of each row of spec/opcode_table.json.
-/

namespace Sys2Proof.Machine

def exec (i : Instr) (s : State) : Host.Outcome State Fault Refusal :=
  match i with
  | .size => Sys2Proof.Machine.execSize s
  | .prime => Sys2Proof.Machine.execPrime s
  | .encode => Sys2Proof.Machine.execEncode s
  | .translate va => Sys2Proof.Machine.execTranslate va s
  | .buildChain pages totalBytes => Sys2Proof.Machine.execBuildChain pages totalBytes s
  | .flush arg => Sys2Proof.Machine.execFlush arg s
  | .dmaStart => Sys2Proof.Machine.execDmaStart s
  | .wait => Sys2Proof.Machine.execWait s
  | .reserved0 => Sys2Proof.Machine.execReserved0 s
  | .reserved9 => Sys2Proof.Machine.execReserved9 s
  | .reservedAB x => Sys2Proof.Machine.execReservedAB x s
  | .reservedCF x => Sys2Proof.Machine.execReservedCF x s
  | .init env => Sys2Proof.Machine.execInit env s
  | .render => Sys2Proof.Machine.execRender s
  | .finalize => Sys2Proof.Machine.execFinalize s
  | .expandLed v => Sys2Proof.Machine.execExpandLed v s
  | .emitSymbol c d => Sys2Proof.Machine.execEmitSymbol c d s
  | .putBit c x => Sys2Proof.Machine.execPutBit c x s
  | .emitDesc n => Sys2Proof.Machine.execEmitDesc n s
  | .terminate n => Sys2Proof.Machine.execTerminate n s
  | .dmaXferWord => Sys2Proof.Machine.execDmaXferWord s
  | .dmaFollowLink => Sys2Proof.Machine.execDmaFollowLink s
  | .dmaComplete => Sys2Proof.Machine.execDmaComplete s
  | .dmaError v => Sys2Proof.Machine.execDmaError v s
  | .sym1 c => Sys2Proof.Machine.execSym1 c s
  | .sym0 c => Sys2Proof.Machine.execSym0 c s
  | .sym1Inv c => Sys2Proof.Machine.execSym1Inv c s
  | .sym0Inv c => Sys2Proof.Machine.execSym0Inv c s
  | .color c n v => Sys2Proof.Machine.execColor c n v s
  | .tiWord n => Sys2Proof.Machine.execTiWord n s
  | .busaddr f o => Sys2Proof.Machine.execBusaddr f o s
  | .desc n r => Sys2Proof.Machine.execDesc n r s

end Sys2Proof.Machine
end

