-- ==== Sys2Proof/Machine/Sequencer.lean ====
section
/-!
DEFINITION. Who moves and what is issued: the host thread takes its command list in order (D1, 20_memory R64 item 1), stays in a
polling operation (R177), and goes on after a refusal (95_test_vectors P3, P6, P7; log 11); the DMA reader follows its chain
(41_dma_chain section 4); the next mover is drawn while a transfer is in flight (10_state R39; log 8).
-/

namespace Sys2Proof.Machine

/-- The next mover: the host where no transfer is in flight, else a free value. -/
def State.advance (s : State) : State :=
  { s with tick := s.tick + 1, turn := if s.dma.isActive then Config.schedule s.tick else .host }

/-- A refused operation changes nothing but the report; the host's program goes on (R206; log 11). -/
def State.refuse (s : State) (r : Refusal) : State := { s with report := s.report ++ [r], blocked := none, polls := 0 }

/-- The outcome of an operation as the host's program sees it. -/
def hostOutcome (s : State) (o : Out) : Out :=
  match o with
  | .next t => .next t
  | .fault f => .fault f
  | .refused r => .next (s.refuse r)

/-- `s` with the entries `rest` left on the command list. -/
def State.withCmds (s : State) (rest : List HostItem) : State := { s with cmds := rest }

/-- The host thread issues operation `i`. -/
def hostIssue (i : Instr) (s : State) : Out := hostOutcome s (exec i s)

/-- An entry of the command list, taken off it. -/
def hostItem (h : HostItem) (s : State) : Out :=
  match h with
  | .store st => hostOutcome s (execStore st s)
  | .issue p =>
    match decode p with
    | .ok i => hostIssue i s
    | .error r => .next (s.refuse (.badPacket r))

/-- The host thread's move: another poll of the operation it is held in, nothing where it is stuck in a busy-wait ("the machine makes no
further progress", 93 section 1), or the next entry of its list, or nothing. -/
def hostTurn (s : State) : Out :=
  match s.blocked with
  | some .wait => hostIssue .wait s
  | some .finalize => hostIssue .finalize s
  | some .clock => .next s
  | none =>
    match s.cmds with
    | [] => .next s
    | h :: rest => hostItem h (s.withCmds rest)

/-- The DMA reader's move; where it has no step (R157), the host moves. -/
def readerTurn (i : Instr) (s : State) : Out :=
  match exec i s with
  | .refused _ => hostTurn s
  | .next t => .next t
  | .fault f => .fault f

/-- The move of whoever's turn it is. -/
def move (s : State) : Out :=
  match s.turn, s.readerStep with
  | .agent, some i => readerTurn i s
  | .agentError v, some _ => readerTurn (.dmaError v) s
  | .host, _ => hostTurn s
  | .agent, none => hostTurn s
  | .agentError _, none => hostTurn s

/-- The outcome with the next mover drawn. -/
def advanceOut (o : Out) : Out :=
  match o with
  | .next t => .next t.advance
  | .fault f => .fault f
  | .refused r => .refused r

/-- `s` with a packet at the head of the host's command list and the host thread free to issue it. -/
def State.withPacket (s : State) (p : Packet) : State :=
  { s with cmds := .issue p :: s.cmds, blocked := none, turn := .host }

end Sys2Proof.Machine
end

