-- ==== Sys2Proof/Machine/Step.lean ====
section
/-!
DEFINITION. One step of the machine, and how an operation is placed where the next step takes it (92_eei_decisions D1; log 14).
-/

namespace Sys2Proof.Machine

/-- One step: the move of the agent whose turn it is, and the draw of the next mover. -/
def step (s : State) : Host.Outcome State Fault Refusal := advanceOut (move s)

/-- `s` with a table row's bits placed so that the very next step runs them. -/
def State.withFetchWord (s : State) (nbits w : Nat) : State := s.withPacket (packetOfTable nbits w)

end Sys2Proof.Machine
end

