-- ==== Sys2Proof/Safety.lean ====
section
/-!
DEFINITION. What statements are said in: what a run keeps (10_state R43, 41_dma_chain R150, R151), what the parameters must meet
(40_encoder R112, 92 D14), what the wire carries (20_memory R63, 41_dma_chain R161), and the decoder of a stream (30_encoding R87).
-/

namespace Sys2Proof.Machine

/-! ### Parameters -/

/-- One departure from rule R113 is a size that rule R112 allows: whole words for both channels, room for the data and the
padding in each. -/
def sizeEntryOk (p : Params) (e : (Nat × Nat) × Nat) : Bool :=
  e.2 % 8 == 0 && 72 * e.1.1 + resetBits p e.1.2 ≤ 4 * e.2

/-- The parameters the spec admits: the alias is not 0 and leaves the page offset alone (D14), the link of no record is 0
(R94), and every size meets rule R112. -/
def paramsOk (p : Params) : Bool :=
  p.aliasBit != 0 && p.aliasBit &&& 0xFFF#32 == 0 && p.sizes.all (sizeEntryOk p)

/-! ### Invariants -/

/-- The memories and the sets are in their canonical form. -/
structure State.MemOk (s : State) : Prop where
  buf : Memory.wf s.buf
  busbuf : Memory.wf s.busbuf
  desc : Memory.wf s.desc
  dirty : NatSet.wf s.dirty
  flushed : NatSet.wf s.flushed
  descWritten : NatSet.wf s.descWritten

/-- The closed form of a complete chain of `n` records at bus address `b`, over the `T` bytes of a buffer at virtual address `va` (R150,
R151). -/
structure ChainForm (p : Params) (m : Memory) (written : NatSet) (b : Word) (va n T : Nat) : Prop where
  nonempty : 1 ≤ n
  written : ∀ i < n, i ∈ written
  info : ∀ i < n, (m.readDesc i).info = p.tiWord
  src : ∀ i < n, translateVA p (va + i * pageSize) = .ok (m.readDesc i).src
  dst : ∀ i < n, (m.readDesc i).dst = p.fifoBus
  len : ∀ i < n, (m.readDesc i).len.toNat = min pageSize (T - i * pageSize)
  next : ∀ i < n, (m.readDesc i).next = if i + 1 = n then 0 else descAddress b (i + 1)

/-- A chain that counts as valid is complete for the buffer as it is (R43). -/
def State.ChainOk (s : State) : Prop :=
  s.chainValid = true →
    ∃ b va, s.descBus = some b ∧ s.chainHead = some b ∧ s.bufVA = some va ∧ b ≠ 0 ∧
      b.toNat + s.pageCount * descSize ≤ 2 ^ 32 ∧
      0 < s.bufBytes ∧ s.bufBytes % 4 = 0 ∧ s.pageCount ≤ s.params.maxPages ∧
      ChainForm s.params s.desc s.descWritten b va s.pageCount s.bufBytes

/-- A handle that was given back has no chain, one not yet open has none unless the host thread is stuck in INITIALIZE's last busy-wait,
and no operation is in the middle of INITIALIZE. -/
def State.QuietOk (s : State) : Prop :=
  s.inInit = false ∧ (s.isOpen = false → s.chainValid = false ∨ (s.phase = .uninitialized ∧ s.blocked = some .clock))

/-- A transfer in flight is found in phase `Rendering` and, unless the bus address of descriptor storage is misresolved, stands inside its
chain (R155 to R158, R176, R234). -/
def State.TransferOk (s : State) : Prop :=
  ∀ d o, s.dma = .active d o →
    s.phase = .rendering ∧ s.chainValid = true ∧
      (s.descStands = true → d < s.pageCount ∧ o % 4 = 0 ∧ o ≤ (s.desc.readDesc d).len.toNat)

/-- Everything about chain and transfer that a run keeps. -/
structure State.ChainInv (s : State) : Prop where
  chain : s.ChainOk
  quiet : s.QuietOk
  transfer : s.TransferOk

/-- Only words of the buffer are dirty, and the buffer is whole words for both channels (R26, R37). -/
def State.DirtyInv (s : State) : Prop :=
  paramsOk s.params = true ∧ s.inInit = false ∧ s.bufBytes % 8 = 0 ∧ ∀ w ∈ s.dirty, w < s.bufWords

/-- A word of the buffer that is not dirty is the same for the DMA reader as for the host (R61, R62). -/
def State.VisibleInv (s : State) : Prop :=
  s.inInit = false ∧ ∀ w < s.bufWords, w ∉ s.dirty → w ∈ s.flushed ∧ s.busbuf.readWord w = s.buf.readWord w

/-- The oracle answered the frames that really back the pages (R234, U5): where it answers a bus address for a page of the buffer, that
page stands there, and descriptor storage stands at the bus address resolved for it. -/
structure State.OracleOk (s : State) : Prop where
  pages : ∀ va, s.bufVA = some va → ∀ q < s.pageCount, ∀ a, translateVA s.params (va + q * pageSize) = .ok a → s.pageAt a = some q
  storage : s.descStands = true

/-- The host's program holds only what a host can issue (log 15). -/
def State.HostOnly (s : State) : Prop := ∀ p i, HostItem.issue p ∈ s.cmds → decode p = .ok i → i.isHostOp = true

/-- What the ghost elements `primedInv` and `stale` say of the buffer: past the longest frame since the last PRIME, a channel's
words hold the idle value it was primed with (R35, R38, R127). -/
def State.PaddingOk (s : State) : Prop :=
  ∀ c b, s.primedInv.get c = some b → ∀ n, 72 * s.stale.get c ≤ n → n < 32 * s.chWords →
    s.buf.readBit (c.idx + 2 * (n / 32)) (31 - n % 32) = b

/-- The padding is as the ghost elements say, in a run whose host issues only what a host can issue. -/
structure State.PaddingInv (s : State) : Prop where
  padding : s.PaddingOk
  quiet : s.inInit = false
  hostOnly : s.HostOnly

/-! ### INITIALIZE -/

/-- Steps 1 to 6 of INITIALIZE succeed: a buffer of `T` bytes at virtual address `va`, descriptor storage of `n` bytes at bus address `b`
(R172). -/
structure InitAllocates (e : InitEnv) (s : State) (T va n : Nat) (b : Word) : Prop where
  phase : s.phase = .uninitialized
  quiet : s.inInit = false
  inFlight : s.dma.isActive = false
  sizes : sizeRefusal s = none
  bytes : T = pwmByteCount s.params (max s.count.c0 s.count.c1) s.freq
  colours : e.colOk = true
  buffer : e.bufAlloc = some va
  pages : cdiv T pageSize ≤ s.params.maxPages
  storage : ∃ dva, e.descAlloc = some (dva, n) ∧ translateVA s.params dva = .ok b

/-- The preconditions of BUILD_CHAIN over the pages of that buffer and in that storage hold (R141). -/
structure OwnBuildOk (T va n : Nat) (b : Word) : Prop where
  aligned : va % pageSize = 0
  positive : 0 < T
  words : T % 4 = 0
  storage : storageOk (some b) n (cdiv T pageSize) = true

/-! ### Stores of sub-bits -/

/-- `t` is `s` with the sub-bits `xs` stored at channel `c`'s cursor and the cursor after them (R118, R119): every other bit of every
word, and every byte of a word not stored to, as before. -/
structure StoredBits (c : Chan) (xs : List Bool) (s t : State) : Prop where
  frame : t = { s.finish .ok with buf := t.buf, dirty := t.dirty, cursor := s.cursor.set c (t.cursor.get c) }
  cursor : (t.cursor.get c).streamBit = (s.cursor.get c).streamBit + xs.length
  bits : ∀ w q, q < 32 → t.buf.readBit w q =
    if w % 2 = c.idx ∧ (s.cursor.get c).streamBit ≤ 32 * (w / 2) + (31 - q) ∧
        32 * (w / 2) + (31 - q) < (s.cursor.get c).streamBit + xs.length
    then xs.getD (32 * (w / 2) + (31 - q) - (s.cursor.get c).streamBit) false
    else s.buf.readBit w q
  bytes : ∀ a, ¬ ((a / 4) % 2 = c.idx ∧ (s.cursor.get c).streamBit / 32 ≤ a / 4 / 2 ∧
    32 * (a / 4 / 2) < (s.cursor.get c).streamBit + xs.length) → t.buf.readByte a = s.buf.readByte a
  dirty : ∀ w, w ∈ t.dirty ↔ w ∈ s.dirty ∨
    (w % 2 = c.idx ∧ (s.cursor.get c).streamBit / 32 ≤ w / 2 ∧ 32 * (w / 2) < (s.cursor.get c).streamBit + xs.length)

/-! ### The wire -/

/-- The words the serialiser hands to channel `c`: FIFO words go alternately to channel 0 and 1 (R63, D28). -/
def wireWords (c : Chan) : List Word → List Word
  | [] => []
  | [w] => if c = .c0 then [w] else []
  | w0 :: w1 :: ws => (match c with | .c0 => w0 | .c1 => w1) :: wireWords c ws

/-- A word as it is shifted out, bit 31 first (R63). -/
def wordStream (w : Word) : List Bool := (List.range 32).map (fun k => w.getLsbD (31 - k))

/-- `OUT[c]` for the words a transfer gave to the FIFO (R63, R161). -/
def wireBits (c : Chan) (ws : List Word) : List Bool := (wireWords c ws).flatMap wordStream

/-- Stream bit `n` of channel `c` as it stands in the buffer: word `c + 2*(n / 32)`, bit `31 - n mod 32` (R88, R122). -/
def bufferBit (m : Memory) (c : Chan) (n : Nat) : Bool := m.readBit (c.idx + 2 * (n / 32)) (31 - n % 32)

/-- Inverse bit-extraction: data bit `q` of a channel is stream bit `3*q + 1`, exclusive-or the channel's inversion (R87). -/
def decodeDataBit (m : Memory) (c : Chan) (inv : Bool) (q : Nat) : Bool := (bufferBit m c (3 * q + 1)).xor inv

/-- The data bit of a colour that data bit `q` of the stream belongs to: LED `q / 24`, component `(q mod 24) / 8`, bit
`7 - q mod 8` (R87). -/
def dataBitOf (l : List Word) (c : Chan) (q : Nat) : Bool :=
  (componentAt (colourAt l c (q / 24)) (q % 24 / 8)).getLsbD (7 - q % 8)

end Sys2Proof.Machine
end

