-- ==== Sys2Proof/Certificates/Slice0/Obligations.lean ====
section
/-!
DEFINITION. The statements for the provers, in the order of the spec's families. `t = { s.finish r with … }` says the whole frame: what
is not named there is as before, but for the returned result and the end of a hold (logs 10 and 31).
-/

open Sys2Proof Sys2Proof.Machine

/-! ### Reset and what every step keeps -/

/-- 10_state R40: the power-on values the spec gives (not those the model names where the spec gives none, logs 2 and 3). For an element
that does not exist the clause says how the model holds that: an empty sequence, or none (log 4). -/
def Obligations.ResetIsPowerOn : Prop :=
  State.reset.phase = .uninitialized ∧ State.reset.dma = .idle ∧
    State.reset.primedInv = ⟨none, none⟩ ∧ State.reset.chainFor = none ∧ State.reset.chainValid = false ∧
    State.reset.dirty = [] ∧ State.reset.descDirty = false ∧ State.reset.frameOk = false ∧ State.reset.stale = ⟨0, 0⟩ ∧
    State.reset.col = ⟨[], []⟩ ∧ State.reset.buf = [] ∧ State.reset.busbuf = [] ∧ State.reset.pages = [] ∧
    State.reset.bufVA = none ∧ State.reset.desc = [] ∧ State.reset.descBus = none ∧ State.reset.chainHead = none

/-- 10_state R39: no step changes a parameter. -/
def Obligations.StepKeepsParameters : Prop :=
  ∀ s t : State, step s = .next t → t.params = s.params

/-- The memories and sets stay in their one canonical form (logs 5 and 6: the model's own representation). -/
def Obligations.StepKeepsCanonicalMemory : Prop :=
  ∀ s t : State, s.MemOk → step s = .next t → t.MemOk

/-- 10_state R43, 41_dma_chain R150 to R158: in every state that meets the invariant, a valid chain is complete for the buffer and a
transfer in flight stands inside it, and a step leads to such a state again. -/
def Obligations.StepKeepsChainAndTransfer : Prop :=
  ∀ s t : State, s.ChainInv → step s = .next t → t.ChainInv

/-- 10_state R37, 20_memory R61, R62, R70: only words of the buffer are ever dirty; and a word of the buffer that is not dirty was
flushed and is the same for the DMA reader as for the host. -/
def Obligations.StepKeepsDirtyInsideBuffer : Prop :=
  ∀ s t : State, step s = .next t → (s.DirtyInv → t.DirtyInv) ∧ (s.VisibleInv → t.VisibleInv)

/-- 10_state R35, R38, 40_encoder R127: past the longest frame since the last PRIME the buffer holds the primed idle value, in a run
whose host issues only what a host can issue. -/
def Obligations.StepKeepsPadding : Prop :=
  ∀ s t : State, s.PaddingInv → step s = .next t → t.PaddingInv

/-- Every invariant holds at reset. -/
def Obligations.ResetMeetsInvariants : Prop :=
  State.reset.MemOk ∧ State.reset.ChainInv ∧ State.reset.DirtyInv ∧ State.reset.VisibleInv ∧ State.reset.PaddingInv

/-- 42_host_ops R171: `Finalized` is terminal, whatever the host or the DMA reader does; with no transfer in flight nothing but FINALIZE
is admitted there. -/
def Obligations.FinalizedIsTerminal : Prop :=
  (∀ s t : State, s.phase = .finalized → step s = .next t → t.phase = .finalized) ∧
  (∀ (s : State) (i : Instr), s.phase = .finalized → s.inInit = false → s.dma.isActive = false → i ≠ .finalize →
    ∃ r, exec i s = .refused r)

/-- 42_host_ops R178: a DMA error stays until FINALIZE. -/
def Obligations.DmaErrorIsSticky : Prop :=
  ∀ (i : Instr) (s t : State) (v : Word), s.isOpen = true → s.dma = .error v → i ≠ .finalize → exec i s = .next t →
    t.dma = .error v

/-! ### Fetching and decoding -/

/-- 92 D1, 30_encoding R96: where the host moves, a packet that decodes is issued, the entry taken off the list; a refusal is
reported and the program goes on (log 11); then the next mover is drawn (log 8). -/
def Obligations.StepRunsDecoded : Prop :=
  (∀ (s : State) (p : Packet) (i : Instr) (rest : List HostItem),
    s.turn = .host → s.blocked = none → s.cmds = .issue p :: rest → decode p = .ok i → i.wf = true →
      step s = advanceOut (hostOutcome { s with cmds := rest } (exec i { s with cmds := rest }))) ∧
  (∀ (s : State) (nbits w : Nat) (i : Instr), decodeTableWord nbits w = some i →
    step (s.withFetchWord nbits w) =
      advanceOut (hostOutcome { s with blocked := none, turn := .host }
        (exec i { s with blocked := none, turn := .host })))

/-- 60_exceptions R206: a refused operation, or a packet that is none, changes nothing but the report; the host's program goes on with
the next entry (log 11). -/
def Obligations.RefusalChangesNothing : Prop :=
  ∀ (s : State) (p : Packet) (rest : List HostItem), s.turn = .host → s.blocked = none → s.cmds = .issue p :: rest →
    (∀ i r, decode p = .ok i → exec i { s with cmds := rest } = .refused r →
      step s = .next { s with cmds := rest, polls := 0, report := s.report ++ [r] }.advance) ∧
    (∀ r, decode p = .error r →
      step s = .next { s with cmds := rest, polls := 0, report := s.report ++ [Refusal.badPacket r] }.advance)

/-- 10_state R22, 30_encoding R100, 42_host_ops R182: the caller's stores to the Device Handle, each of its own field and nothing else;
in `Finalized` they are refused. That they are carried out in every other phase is log 42, that the program goes on log 11. -/
def Obligations.CallerStores : Prop :=
  ∀ (s : State) (rest : List HostItem), s.turn = .host → s.blocked = none →
    (s.phase = .finalized → ∀ st, s.cmds = .store st :: rest →
      step s = .next { s with cmds := rest, polls := 0, report := s.report ++ [Refusal.wrongPhase] }.advance) ∧
    (s.phase ≠ .finalized →
    (∀ n, s.cmds = .store (.freq n) :: rest → step s = .next { s with cmds := rest, freq := n }.advance) ∧
    (∀ n, s.cmds = .store (.dmaIdx n) :: rest → step s = .next { s with cmds := rest, dmaIdx := n }.advance) ∧
    (∀ c n, s.cmds = .store (.pin c n) :: rest → step s = .next { s with cmds := rest, pin := s.pin.set c n }.advance) ∧
    (∀ c b, s.cmds = .store (.invert c b) :: rest →
      step s = .next { s with cmds := rest, invert := s.invert.set c b }.advance) ∧
    (∀ c n, s.cmds = .store (.count c n) :: rest →
      step s = .next { s with cmds := rest, count := s.count.set c n }.advance))

/-- 41_dma_chain R155, R159, 60_exceptions R209: on the DMA reader's turn the step of its chain is made, or its error step; where the
reader has no step the host moves. -/
def Obligations.StepRunsReader : Prop :=
  (∀ (s : State) (i : Instr) (t : State), s.turn = .agent → s.readerStep = some i → exec i s = .next t →
    step s = .next t.advance) ∧
  (∀ (s : State) (v : Word), s.turn = .agentError v → s.dma.isActive = true →
    step s = .next { s with dma := .error v, tick := s.tick + 1, turn := .host }) ∧
  (∀ s : State, s.readerStep = none → step s = advanceOut (hostTurn s))

/-- 30_encoding R80, R85, R90, R91, R93, R95, R96: decoding the packet of a well-formed operation gives it back, every operand at every
value. -/
def Obligations.DecodeEncode : Prop :=
  ∀ i : Instr, i.wf = true → decode (encode i) = .ok i

/-- The decoder yields only well-formed operations. -/
def Obligations.DecodeIsWellFormed : Prop :=
  ∀ (p : Packet) (i : Instr), decode p = .ok i → i.wf = true

/-- 30_encoding R96: the sixteen codes of the operation map, operands from the argument ports. -/
def Obligations.CommandCodes : Prop :=
  ∀ p : Ports,
    decodeWord .cmd [0b0001#8] p = .ok .size ∧ decodeWord .cmd [0b0010#8] p = .ok .prime ∧
    decodeWord .cmd [0b0011#8] p = .ok .encode ∧ decodeWord .cmd [0b0100#8] p = .ok (.translate p.va) ∧
    decodeWord .cmd [0b0101#8] p = .ok (.buildChain p.pages p.totalBytes) ∧
    decodeWord .cmd [0b0110#8] p = .ok (.flush p.flush) ∧ decodeWord .cmd [0b0111#8] p = .ok .dmaStart ∧
    decodeWord .cmd [0b1000#8] p = .ok .wait ∧ decodeWord .cmd [0b0000#8] p = .ok .reserved0 ∧
    decodeWord .cmd [0b1001#8] p = .ok .reserved9 ∧
    decodeWord .cmd [0b1010#8] p = .ok (.reservedAB 0) ∧ decodeWord .cmd [0b1011#8] p = .ok (.reservedAB 1) ∧
    decodeWord .cmd [0b1100#8] p = .ok (.reservedCF 0) ∧ decodeWord .cmd [0b1101#8] p = .ok (.reservedCF 1) ∧
    decodeWord .cmd [0b1110#8] p = .ok (.reservedCF 2) ∧ decodeWord .cmd [0b1111#8] p = .ok (.reservedCF 3)

/-- 30_encoding R98: the reserved command codes are refused in every state. -/
def Obligations.ReservedCodesRefused : Prop :=
  ∀ (s : State) (x : BitVec 1) (y : BitVec 2),
    exec .reserved0 s = .refused .reservedCommand ∧ exec .reserved9 s = .refused .reservedCommand ∧
    exec (.reservedAB x) s = .refused .reservedCommand ∧ exec (.reservedCF y) s = .refused .reservedCommand

/-- 42_host_ops R171, R182: an operation issued in a phase not listed for it is refused; before INITIALIZE that is every one but
INITIALIZE and FINALIZE, with no transfer in flight. -/
def Obligations.WrongPhaseRefused : Prop :=
  ∀ s : State,
    (s.phase = .uninitialized → s.inInit = false → s.dma.isActive = false →
      ∀ i : Instr, i ≠ .finalize → (∀ e, i ≠ .init e) → ∃ r, exec i s = .refused r) ∧
    (s.phase ≠ .uninitialized → ∀ e, exec (.init e) s = .refused .wrongPhase) ∧
    (s.inInit = false → exec .size s = .refused .wrongPhase ∧ ∀ va, exec (.translate va) s = .refused .wrongPhase) ∧
    (s.isOpen = false →
      exec .encode s = .refused .wrongPhase ∧ exec .render s = .refused .wrongPhase ∧
      exec .wait s = .refused .wrongPhase ∧ exec .dmaStart s = .refused .wrongPhase) ∧
    (s.isOpen = false → s.inInit = false →
      exec .prime s = .refused .wrongPhase ∧ (∀ a, exec (.flush a) s = .refused .wrongPhase) ∧
      ∀ l n, exec (.buildChain l n) s = .refused .wrongPhase) ∧
    (s.phase = .rendering → s.inInit = false → s.dma.isActive = false →
      exec .prime s = .refused .wrongPhase ∧ ∀ l n, exec (.buildChain l n) s = .refused .wrongPhase)

/-! ### The encoder -/

/-- 40_encoder R111: SIZE, its two refusals and what it computes. -/
def Obligations.SizeComputesBuffer : Prop :=
  ∀ s : State, s.inInit = true →
    (s.freq = 0 → exec .size s = .refused .zeroFrequency) ∧
    (s.freq ≠ 0 → (s.params.maxLedsCap < s.count.c0 ∨ s.params.maxLedsCap < s.count.c1) →
      exec .size s = .refused .tooManyLeds) ∧
    (s.freq ≠ 0 → s.count.c0 ≤ s.params.maxLedsCap → s.count.c1 ≤ s.params.maxLedsCap →
      exec .size s = .next { s.finish .ok with
        maxLeds := max s.count.c0 s.count.c1
        bufBytes := pwmByteCount s.params (max s.count.c0 s.count.c1) s.freq })

/-- 40_encoder R112: whole words for both channels, and in each of them room for the data and for the reset interval. -/
def Obligations.SizeHoldsFrameAndReset : Prop :=
  ∀ (p : Params) (maxLeds freq : Nat), paramsOk p = true →
    pwmByteCount p maxLeds freq % 4 = 0 ∧ (pwmByteCount p maxLeds freq / 4) % 2 = 0 ∧
    72 * maxLeds + resetBits p freq ≤ 32 * (pwmByteCount p maxLeds freq / 4 / 2) ∧
    p.resetUs * 3 * freq ≤ resetBits p freq * 1000000

/-- 40_encoder R115: PRIME gives every word of the buffer its channel's idle value and nothing else of memory, and does the ghost
updates; with a transfer in flight it faults, in `Rendering` too (log 12). -/
def Obligations.PrimeFillsIdle : Prop :=
  ∀ s : State,
    ((s.inInit = true ∨ s.isOpen = true) → s.dma.isActive = true → exec .prime s = .fault .bufferWriteInFlight) ∧
    ((s.inInit = true ∨ s.phase = .ready) → s.dma.isActive = false →
      ∃ t, exec .prime s = .next t ∧
        t = { s.finish .ok with
          buf := t.buf, dirty := t.dirty, frameOk := false, stale := ⟨0, 0⟩
          primedInv := ⟨some s.invert.c0, some s.invert.c1⟩ } ∧
        (∀ w < s.bufWords, t.buf.readWord w =
          if s.invert.get (Chan.ofWord w) = true then 0xFFFFFFFF#32 else 0x00000000#32) ∧
        (∀ a, s.bufWords ≤ a / 4 → t.buf.readByte a = s.buf.readByte a) ∧
        (∀ w, w ∈ t.dirty ↔ w ∈ s.dirty ∨ w < s.bufWords))

/-- 40_encoder R122, R124, R125: ENCODE stores every stream bit of both channels where the closed form says and leaves every other
bit alone, and every byte of a word without data; nothing else of the state but cursor and ghost elements changes. -/
def Obligations.EncodeStoresStream : Prop :=
  ∀ s : State, s.isOpen = true → s.dma.isActive = false → s.encodeFits = true →
    ∃ t, exec .encode s = .next t ∧
      t = { s.finish .ok with
        buf := t.buf, dirty := t.dirty, cursor := t.cursor, frameOk := t.frameOk, stale := t.stale } ∧
      (∀ c n, n < 72 * s.count.get c →
        t.buf.readBit (c.idx + 2 * (n / 32)) (31 - n % 32) =
          (sym ((componentAt (colourAt (s.col.get c) c (n / 72)) (n % 72 / 24)).getLsbD (7 - n % 72 % 24 / 3))
            (s.invert.get c)).getLsbD (2 - n % 72 % 3)) ∧
      (∀ w q, q < 32 → 72 * s.count.get (Chan.ofWord w) ≤ 32 * (w / 2) + (31 - q) →
        t.buf.readBit w q = s.buf.readBit w q) ∧
      (∀ a, 72 * s.count.get (Chan.ofWord (a / 4)) ≤ 32 * (a / 4 / 2) → t.buf.readByte a = s.buf.readByte a)

/-- 40_encoder R123: where the cursors end. -/
def Obligations.EncodeCursorEnd : Prop :=
  ∀ (s t : State) (c : Chan), exec .encode s = .next t →
    (t.cursor.get c).j = 72 * s.count.get c / 32 ∧ (t.cursor.get c).p.val = 31 - 72 * s.count.get c % 32 ∧
    ((t.cursor.get c).p.val = 31 ∨ (t.cursor.get c).p.val = 23 ∨ (t.cursor.get c).p.val = 15 ∨ (t.cursor.get c).p.val = 7) ∧
    ((t.cursor.get c).p.val = 31 ↔ s.count.get c % 4 = 0)

/-- 40_encoder R127, 10_state R37: the ghost updates of ENCODE, and the words it dirties (R128). -/
def Obligations.EncodeGhostUpdates : Prop :=
  ∀ s t : State, exec .encode s = .next t →
    (t.frameOk = true ↔
      s.primedInv.c0 = some s.invert.c0 ∧ s.primedInv.c1 = some s.invert.c1 ∧
        s.stale.c0 ≤ s.count.c0 ∧ s.stale.c1 ≤ s.count.c1) ∧
    t.stale.c0 = max s.stale.c0 s.count.c0 ∧ t.stale.c1 = max s.stale.c1 s.count.c1 ∧
    (∀ w, w ∈ t.dirty ↔ w ∈ s.dirty ∨ 32 * (w / 2) < 72 * s.count.get (Chan.ofWord w)) ∧
    (∀ w, 32 * (w / 2) < 72 * s.count.get (Chan.ofWord w) → 4 * w + 4 ≤ s.encodedEnd)

/-- 40_encoder R120, 70_reset_and_hazards R224, R229: when ENCODE stops. -/
def Obligations.EncodeStops : Prop :=
  ∀ s : State, s.isOpen = true →
    (s.dma.isActive = true → exec .encode s = .fault .bufferWriteInFlight) ∧
    (s.dma.isActive = false → (s.maxLeds < s.count.c0 ∨ s.maxLeds < s.count.c1) →
      exec .encode s = .fault .encodeOutOfBounds)

/-- 30_encoding R87, 40_encoder R126: inverse bit-extraction gives back every data bit of every colour. -/
def Obligations.EncodedFrameDecodes : Prop :=
  ∀ (s t : State) (c : Chan) (q : Nat), exec .encode s = .next t → q < 24 * s.count.get c →
    decodeDataBit t.buf c (s.invert.get c) q = dataBitOf (s.col.get c) c q

/-- 40_encoder R126: where both runs start from a buffer primed for their own inversion, every word of the inverted channel is the
complement of the same word of the other run, and the other channel's words are the same. -/
def Obligations.InversionComplements : Prop :=
  ∀ (s s1 s2 u1 u2 : State) (c : Chan),
    exec .prime s = .next s1 → exec .encode s1 = .next s2 →
    exec .prime { s with invert := s.invert.set c (!s.invert.get c) } = .next u1 → exec .encode u1 = .next u2 →
    ∀ w < s.bufWords,
      u2.buf.readWord w = if Chan.ofWord w = c then ~~~(s2.buf.readWord w) else s2.buf.readWord w

/-- 40_encoder R127, 10_state R38, 41_dma_chain R161: with `frameOk`, the words of each channel, shifted out as rule R63 says, are the
data sub-bits of the current colours and then only the channel's idle bit. -/
def Obligations.FrameOkGivesWire : Prop :=
  ∀ (s t : State) (c : Chan), s.PaddingOk → s.bufBytes % 8 = 0 → exec .encode s = .next t → t.frameOk = true →
    wireBits c ((List.range t.bufWords).map t.buf.readWord) =
      (List.range (32 * t.chWords)).map (fun n =>
        if n < 72 * s.count.get c then streamValue (s.col.get c) c (s.invert.get c) n else s.invert.get c)

/-- 40_encoder R117: EXPAND_LED gives the three components in wire order. That it is admitted where ENCODE is, is log 43. -/
def Obligations.ExpandLedComponents : Prop :=
  ∀ (v : Word) (s : State), s.isOpen = true →
    exec (.expandLed v) s = .next (s.finish (.components (v.extractLsb' 8 8) (v.extractLsb' 16 8) (v.extractLsb' 0 8)))

/-- 30_encoding R85: the table of the symbol code. -/
def Obligations.SymbolTable : Prop :=
  sym true false = 0b110#3 ∧ sym false false = 0b100#3 ∧ sym true true = 0b001#3 ∧ sym false true = 0b011#3 ∧
    ∀ d, sym d true = ~~~(sym d false)

/-- 40_encoder R118, R119, 30_encoding R85, R86: EMIT_SYMBOL stores its symbol's three bits at the cursor, most significant first, and
each output code its own (log 16). -/
def Obligations.SymbolsAreStored : Prop :=
  ∀ (c : Chan) (s : State), s.isOpen = true → s.dma.isActive = false →
    c.idx + 2 * (((s.cursor.get c).streamBit + 2) / 32) < s.bufWords →
    (∀ d, ∃ t, exec (.emitSymbol c d) s = .next t ∧ StoredBits c (symbolBits (sym d (s.invert.get c))) s t) ∧
    (∃ t, exec (.sym1 c) s = .next t ∧ StoredBits c [true, true, false] s t) ∧
    (∃ t, exec (.sym0 c) s = .next t ∧ StoredBits c [true, false, false] s t) ∧
    (∃ t, exec (.sym1Inv c) s = .next t ∧ StoredBits c [false, false, true] s t) ∧
    (∃ t, exec (.sym0Inv c) s = .next t ∧ StoredBits c [false, true, true] s t)

/-- 40_encoder R119: PUT_BIT assigns the bit at the cursor and steps the cursor; where the store would leave the buffer, or a transfer
is in flight, it faults (R70, R224). -/
def Obligations.PutBitAssigns : Prop :=
  ∀ (c : Chan) (x : Bool) (s : State), s.isOpen = true →
    (s.dma.isActive = true → exec (.putBit c x) s = .fault .bufferWriteInFlight) ∧
    (s.dma.isActive = false → s.bufWords ≤ c.idx + 2 * (s.cursor.get c).j →
      exec (.putBit c x) s = .fault .encodeOutOfBounds) ∧
    (s.dma.isActive = false → c.idx + 2 * (s.cursor.get c).j < s.bufWords →
      ∃ t, exec (.putBit c x) s = .next t ∧ StoredBits c [x] s t ∧
        t.cursor.get c =
          if (s.cursor.get c).p = 0 then ⟨(s.cursor.get c).j + 1, 31⟩ else ⟨(s.cursor.get c).j, (s.cursor.get c).p - 1⟩)

/-- 10_state R22, 20_memory R50, R70, 70_reset_and_hazards R226: the caller's store of a colour at a position below the channel's count,
in `Ready` and in `Rendering`, changes that element of that channel and nothing else; at another position it is an access outside allocated
storage, which the model refuses (log 17). Elements past the allocated storage are free values (log 21). -/
def Obligations.ColourStore : Prop :=
  ∀ (c : Chan) (i : Nat) (v : Word) (s : State), s.isOpen = true →
    (s.count.get c ≤ i → exec (.color c i v) s = .refused (.badPacket .noSuchElement)) ∧
    (i < s.count.get c →
      ∃ t, exec (.color c i v) s = .next t ∧ t = { s with col := s.col.set c (t.col.get c) } ∧
        ∀ j, colourAt (t.col.get c) c j = if j = i then v else colourAt (s.col.get c) c j)

/-! ### The chain -/

/-- 41_dma_chain R142: TRANSLATE. -/
def Obligations.TranslateFormula : Prop :=
  ∀ (va : Nat) (s : State), s.inInit = true →
    (lookupFrame s.params.pfn (va / 4096) = none →
      exec (.translate va) s = .next (s.raise (.translation none))) ∧
    (∀ f, lookupFrame s.params.pfn (va / 4096) = some f →
      (2 ^ 20 ≤ f ∨ (BitVec.ofNat 32 f <<< 12) &&& s.params.aliasBit ≠ 0 →
        exec (.translate va) s = .refused .frameOutOfRange) ∧
      (f < 2 ^ 20 → (BitVec.ofNat 32 f <<< 12) &&& s.params.aliasBit = 0 →
        exec (.translate va) s = .next (s.finish (.addr
          ((BitVec.ofNat 32 f <<< 12) ||| s.params.aliasBit ||| (BitVec.ofNat 32 va &&& 0xFFF#32))))))

/-- 30_encoding R95: the fields of a bus address, the alias bits forced to 1, inside INITIALIZE, in `Ready` and in `Rendering` (log 18). -/
def Obligations.BusAddressFields : Prop :=
  ∀ (f : BitVec 20) (o : BitVec 12) (s : State), (s.inInit = true ∨ s.isOpen = true) → s.params.aliasBit &&& 0xFFF#32 = 0 →
    ∃ a : Word, exec (.busaddr f o) s = .next (s.finish (.addr a)) ∧ a.extractLsb' 0 12 = o ∧
      a.extractLsb' 12 20 = f ||| s.params.aliasBit.extractLsb' 12 20

/-- 41_dma_chain R145, R148, R150: a BUILD_CHAIN whose preconditions hold and whose pages translate completes with the closed form,
answers `DESC_BUS`, and writes nothing outside the records of the pages it needs. What the builder's registers hold after it is log 4. -/
def Obligations.BuildChainClosedForm : Prop :=
  ∀ (pages : List Nat) (T : Nat) (s : State) (b : Word) (src : Nat → Word),
    (s.inInit = true ∨ s.phase = .ready) → s.dma.isActive = false → buildRefusal pages T s = none → s.descBus = some b →
    (∀ i < cdiv T pageSize, translateVA s.params (pages.getD i 0) = .ok (src i)) →
    ∃ t, exec (.buildChain pages T) s = .next t ∧
      t = { s.finish (.addr b) with
        desc := t.desc, descWritten := t.descWritten, bldPages := pages, bldIdx := cdiv T pageSize, bldRemaining := 0
        descDirty := s.descDirtyAfterStore, chainHead := some b, chainValid := true
        chainFor := some (s.freq, s.maxLeds) } ∧
      (∀ i < cdiv T pageSize, t.desc.readDesc i =
        { info := s.params.tiWord, src := src i, dst := s.params.fifoBus
          len := BitVec.ofNat 32 (if i + 1 < cdiv T pageSize then pageSize else T - (cdiv T pageSize - 1) * pageSize)
          next := if i + 1 < cdiv T pageSize then b + BitVec.ofNat 32 ((i + 1) * descSize) else 0 }) ∧
      (∀ i < cdiv T pageSize,
        t.desc.readWord (8 * i + 4) = 0 ∧ t.desc.readWord (8 * i + 6) = 0 ∧ t.desc.readWord (8 * i + 7) = 0) ∧
      (∀ a, descSize * cdiv T pageSize ≤ a → t.desc.readByte a = s.desc.readByte a) ∧
      (∀ i, i ∈ t.descWritten ↔ i ∈ s.descWritten ∨ i < cdiv T pageSize)

/-- 41_dma_chain R151: after every successful BUILD_CHAIN the lengths sum to the buffer's bytes and are multiples of 4, the last link is
0, every other link is not 0 and leads to the next record, and the head of the chain is record 0. -/
def Obligations.BuiltChainSumsAndLinks : Prop :=
  ∀ (pages : List Nat) (T : Nat) (s t : State), exec (.buildChain pages T) s = .next t → t.result.isError = false →
    ((List.range (cdiv T pageSize)).map (fun i => (t.desc.readDesc i).len.toNat)).sum = s.bufBytes ∧
    (t.desc.readDesc (cdiv T pageSize - 1)).next = 0 ∧
    (∀ i < cdiv T pageSize, (t.desc.readDesc i).len.toNat % 4 = 0) ∧
    (∀ i, i + 1 < cdiv T pageSize →
      (t.desc.readDesc i).next ≠ 0 ∧ t.linkTarget (t.desc.readDesc i).next = some (i + 1)) ∧
    (∃ a, t.chainHead = some a ∧ t.linkTarget a = some 0)

/-- 41_dma_chain R141, R152: which precondition of BUILD_CHAIN is refused, and the fault with a transfer in flight, in `Rendering` too
(R231). The order among the refusals, and the fault before them, are the model's (log 12, log 46); storage that would wrap around the bus
addresses is refused too (log 39). -/
def Obligations.BuildChainPreconditions : Prop :=
  ∀ (pages : List Nat) (T : Nat) (s : State),
    ((s.inInit = true ∨ s.isOpen = true) → s.dma.isActive = true →
      exec (.buildChain pages T) s = .fault .descriptorWriteInFlight) ∧
    ((s.inInit = true ∨ s.phase = .ready) → s.dma.isActive = false →
      (pagesOk s.params.maxPages s.bufVA pages = false → exec (.buildChain pages T) s = .refused .badPageList) ∧
      (pagesOk s.params.maxPages s.bufVA pages = true →
        ((T = 0 ∨ T % 4 ≠ 0 ∨ T ≠ s.bufBytes) → exec (.buildChain pages T) s = .refused .badLength) ∧
        (T ≠ 0 → T % 4 = 0 → T = s.bufBytes →
          (pages.length * pageSize < T → exec (.buildChain pages T) s = .refused .tooFewPages) ∧
          (T ≤ pages.length * pageSize → storageOk s.descBus s.descBytes pages.length = false →
            exec (.buildChain pages T) s = .refused .badDescriptorStorage))))

/-- 41_dma_chain R149: the first page in list order that does not translate ends BUILD_CHAIN: the records before it are written with
links that are not 0, that page's and later ones are not, the chain is not valid and its head is as before. What the builder's registers
hold after it is log 4. -/
def Obligations.BuildChainFailure : Prop :=
  ∀ (pages : List Nat) (T : Nat) (s : State) (b : Word) (src : Nat → Word) (k : Nat),
    (s.inInit = true ∨ s.phase = .ready) → s.dma.isActive = false → buildRefusal pages T s = none → s.descBus = some b →
    k < cdiv T pageSize → (∀ i < k, translateVA s.params (pages.getD i 0) = .ok (src i)) →
    translateVA s.params (pages.getD k 0) = .error →
    ∃ t, exec (.buildChain pages T) s = .next t ∧
      t = { s.raise (.translation (some k)) with
        desc := t.desc, descWritten := t.descWritten, bldPages := pages, bldIdx := k
        bldRemaining := T - k * pageSize, descDirty := if k = 0 then s.descDirty else s.descDirtyAfterStore
        chainValid := false } ∧
      (∀ i < k, t.desc.readDesc i =
          { info := s.params.tiWord, src := src i, dst := s.params.fifoBus, len := BitVec.ofNat 32 pageSize
            next := b + BitVec.ofNat 32 ((i + 1) * descSize) } ∧
        (t.desc.readDesc i).next ≠ 0 ∧
        t.desc.readWord (8 * i + 4) = 0 ∧ t.desc.readWord (8 * i + 6) = 0 ∧ t.desc.readWord (8 * i + 7) = 0) ∧
      (∀ a, descSize * k ≤ a → t.desc.readByte a = s.desc.readByte a) ∧
      (∀ i, i ∈ t.descWritten ↔ i ∈ s.descWritten ∨ i < k)

/-- 41_dma_chain R146: EMIT_DESC for a page of the list being built. -/
def Obligations.EmitDescWritesRecord : Prop :=
  ∀ (i : Nat) (s : State) (b src : Word),
    (s.inInit = true ∨ s.phase = .ready) → s.dma.isActive = false → s.chainValid = false → i < s.params.maxPages →
    s.descBus = some b → storageOk s.descBus s.descBytes (i + 1) = true → i < s.bldPages.length → s.bldRemaining ≠ 0 →
    translateVA s.params (s.bldPages.getD i 0) = .ok src →
    ∃ t, exec (.emitDesc i) s = .next t ∧
      t = { s.finish .ok with
        desc := t.desc, descWritten := t.descWritten, bldIdx := i + 1
        bldRemaining := s.bldRemaining - min pageSize s.bldRemaining
        descDirty := if s.params.descUncached = true then s.descDirty else true } ∧
      (∀ j, t.desc.readDesc j = if j = i then
          { info := s.params.tiWord, src := src, dst := s.params.fifoBus
            len := BitVec.ofNat 32 (min pageSize s.bldRemaining)
            next := b + BitVec.ofNat 32 ((i + 1) * descSize) }
        else s.desc.readDesc j) ∧
      (t.desc.readWord (8 * i + 4) = 0 ∧ t.desc.readWord (8 * i + 6) = 0 ∧ t.desc.readWord (8 * i + 7) = 0) ∧
      (∀ a, a / descSize ≠ i → t.desc.readByte a = s.desc.readByte a) ∧
      (∀ j, j ∈ t.descWritten ↔ j = i ∨ j ∈ s.descWritten)

/-- 41_dma_chain R147: TERMINATE forces the last emitted record's link to 0 and changes no other byte. -/
def Obligations.TerminateZeroesLink : Prop :=
  ∀ (n : Nat) (s : State),
    (s.inInit = true ∨ s.phase = .ready) → s.dma.isActive = false → s.chainValid = false → 1 ≤ n → n ≤ s.params.maxPages →
    storageOk s.descBus s.descBytes n = true →
    ∃ t, exec (.terminate n) s = .next t ∧
      t = { s.finish .ok with desc := t.desc, descDirty := s.descDirtyAfterStore } ∧
      (t.desc.readDesc (n - 1)).next = 0 ∧
      (∀ a, a / 4 ≠ 8 * (n - 1) + 5 → t.desc.readByte a = s.desc.readByte a)

/-- 30_encoding R90, R91, R93: the stores of a whole record and of the flags word (log 18, log 19). -/
def Obligations.RecordStores : Prop :=
  ∀ (i : Nat) (r : Desc) (s : State),
    (s.inInit = true ∨ s.phase = .ready) → s.dma.isActive = false → s.chainValid = false → i < s.params.maxPages →
    storageOk s.descBus s.descBytes (i + 1) = true →
    (∃ t, exec (.desc i r) s = .next t ∧
      t = { s.finish .ok with desc := t.desc, descWritten := t.descWritten, descDirty := s.descDirtyAfterStore } ∧
      (∀ k < 8, t.desc.readWord (8 * i + k) = [r.info, r.src, r.dst, r.len, 0, r.next, 0, 0].getD k 0) ∧
      (∀ a, a / descSize ≠ i → t.desc.readByte a = s.desc.readByte a) ∧
      (∀ j, j ∈ t.descWritten ↔ j = i ∨ j ∈ s.descWritten)) ∧
    (∃ t, exec (.tiWord i) s = .next t ∧
      t = { s.finish .ok with desc := t.desc, descDirty := s.descDirtyAfterStore } ∧
      t.desc.readWord (8 * i) = s.params.tiWord ∧
      (∀ a, a / 4 ≠ 8 * i → t.desc.readByte a = s.desc.readByte a))

/-! ### Synchronisation -/

/-- 20_memory R62: FLUSH over a byte range copies and cleans every word that overlaps it and nothing else; another range is refused;
`FLUSH desc` clears `descDirty`. -/
def Obligations.FlushCoversRange : Prop :=
  ∀ s : State, s.isOpen = true →
    (∀ lo hi, ¬ (lo ≤ hi ∧ hi ≤ s.bufBytes) → exec (.flush (.range lo hi)) s = .refused .badFlushRange) ∧
    (∀ lo hi, lo ≤ hi → hi ≤ s.bufBytes →
      ∃ t, exec (.flush (.range lo hi)) s = .next t ∧
        t = { s.finish .ok with busbuf := t.busbuf, flushed := t.flushed, dirty := t.dirty } ∧
        (∀ w, 4 * w < hi → lo < 4 * w + 4 → t.busbuf.readWord w = s.buf.readWord w) ∧
        (∀ a, ¬ (4 * (a / 4) < hi ∧ lo < 4 * (a / 4) + 4) → t.busbuf.readByte a = s.busbuf.readByte a) ∧
        (∀ w, w ∈ t.dirty ↔ w ∈ s.dirty ∧ ¬ (4 * w < hi ∧ lo < 4 * w + 4)) ∧
        (∀ w, w ∈ t.flushed ↔ w ∈ s.flushed ∨ (4 * w < hi ∧ lo < 4 * w + 4))) ∧
    exec (.flush .desc) s = .next { s.finish .ok with descDirty := false }

/-- 20_memory R61, R64 item 3: what the DMA reader gets for a word is its last flushed value or its current one, and after a FLUSH over
the word it is the current one, whatever is drawn. -/
def Obligations.ReaderSeesFlushedWords : Prop :=
  (∀ (s : State) (w : Nat), w ∈ s.flushed →
    s.busRead w = s.busbuf.readWord w ∨ (w ∈ s.dirty ∧ s.busRead w = s.buf.readWord w)) ∧
  (∀ (s t : State) (lo hi w : Nat), exec (.flush (.range lo hi)) s = .next t → 4 * w < hi → lo < 4 * w + 4 →
    ∀ u : State, u.buf = t.buf → u.busbuf = t.busbuf → u.dirty = t.dirty → u.flushed = t.flushed →
      u.busRead w = s.buf.readWord w)

/-- 42_host_ops R176: DMA_START. -/
def Obligations.DmaStartStarts : Prop :=
  ∀ s : State, s.isOpen = true →
    (s.dma.isActive = true → exec .dmaStart s = .refused .startWhileActive) ∧
    (∀ v, s.dma = .error v → exec .dmaStart s = .refused .startAfterError) ∧
    (s.dma = .idle → ¬ (s.chainValid = true ∧ s.chainFor = some (s.freq, s.maxLeds)) →
      exec .dmaStart s = .refused .noChain) ∧
    (s.dma = .idle → s.chainValid = true → s.chainFor = some (s.freq, s.maxLeds) → s.descDirty = true →
      exec .dmaStart s = .fault .descriptorsNotVisible) ∧
    (s.dma = .idle → s.chainValid = true → s.chainFor = some (s.freq, s.maxLeds) → s.descDirty = false →
      exec .dmaStart s = .next { s.finish .ok with
        engine := some s.dmaIdx, cbAddr := s.chainHead, prioritySet := true, dma := .active 0 0, phase := .rendering })

/-- 42_host_ops R177, R184, 92 D24: one poll of WAIT. -/
def Obligations.WaitPolls : Prop :=
  ∀ s : State, s.isOpen = true →
    (s.dma = .idle → exec .wait s = .next { s.finish .ok with phase := .ready }) ∧
    (∀ v, s.dma = .error v → exec .wait s = .next (s.raise (.dma v))) ∧
    (s.dma.isActive = true → s.params.waitTimeout = none →
      exec .wait s = .next { s with blocked := some .wait, polls := s.polls + 1 }) ∧
    (∀ n, s.dma.isActive = true → s.params.waitTimeout = some n →
      exec .wait s = .next (if n ≤ s.polls + 1 then s.raise .timeout
        else { s with blocked := some .wait, polls := s.polls + 1 }))

/-- 42_host_ops R177, R179, R184: a host held in WAIT, or in the wait FINALIZE makes first, polls again at each of its turns, and issues
nothing else, as long as the transfer is in flight; a host stuck in a busy-wait on the clock issues nothing at all (logs 10 and 40). -/
def Obligations.WaitHoldsHost : Prop :=
  ∀ s : State, s.turn = .host →
    (s.isOpen = true → s.dma.isActive = true → s.params.waitTimeout = none →
      (s.blocked = some .wait ∨ s.blocked = some .finalize) →
      ∃ turn, step s = .next { s with polls := s.polls + 1, tick := s.tick + 1, turn := turn }) ∧
    (s.blocked = some .clock → ∃ turn, step s = .next { s with tick := s.tick + 1, turn := turn })

/-! ### The host operations -/

/-- 10_state R41, 42_host_ops R172, R184: INITIALIZE of a handle at power-on, whose steps all succeed, leaves the initialised state;
where the clock's busy-wait never ends the host thread is stuck in it, with what the steps before produced (log 40). -/
def Obligations.InitializeReachesReady : Prop :=
  ∀ (e : InitEnv) (s : State) (T va n : Nat) (b : Word),
    InitAllocates e s T va n b → s.descDirty = false →
    (s.params.buildAtInit = true → OwnBuildOk T va n b ∧
      ∀ q < cdiv T pageSize, ∃ a, translateVA s.params (va + q * pageSize) = .ok a) →
    e.mapOk = true → s.pinOk .c0 = true → s.pinOk .c1 = true →
    ∃ t : State, exec (.init e) s = .next (if s.params.clockStarts = true
        then { t with phase := .ready, pwmOn := true, fifo := [] }
        else { t with result := .none, blocked := some .clock }) ∧
      t = { s.finish .ok with
        col := ⟨List.replicate s.count.c0 0, List.replicate s.count.c1 0⟩
        maxLeds := max s.count.c0 s.count.c1, bufBytes := T
        bufVA := some va, pages := (List.range t.pageCount).map (fun q => va + q * pageSize)
        buf := t.buf, busbuf := [], flushed := [], dirty := t.dirty
        primedInv := ⟨some s.invert.c0, some s.invert.c1⟩, frameOk := false, stale := ⟨0, 0⟩
        descVA := e.descAlloc.map (·.1), descBytes := n, descBus := some b, desc := t.desc, descWritten := t.descWritten, descDirty := false
        bldPages := t.bldPages, bldIdx := t.bldIdx, bldRemaining := t.bldRemaining
        chainValid := s.params.buildAtInit, chainHead := t.chainHead, chainFor := t.chainFor
        regsMapped := true, pinsBound := true } ∧
      (∀ w < t.bufWords, t.buf.readWord w = if s.invert.get (Chan.ofWord w) = true then 0xFFFFFFFF#32 else 0#32) ∧
      (∀ w, w ∈ t.dirty ↔ w < t.bufWords) ∧
      (s.params.buildAtInit = true → t.chainHead = some b ∧ t.chainFor = some (s.freq, t.maxLeds) ∧
        ChainForm s.params t.desc t.descWritten b va t.pageCount t.bufBytes) ∧
      (s.params.buildAtInit = false → t.chainHead = s.chainHead ∧ t.chainFor = s.chainFor ∧ t.desc = [] ∧ t.descWritten = [] ∧
        t.bldPages = s.bldPages ∧ t.bldIdx = s.bldIdx ∧ t.bldRemaining = s.bldRemaining)

/-- 42_host_ops R173: an INITIALIZE that ends with an error leaves the power-on values and the error. -/
def Obligations.InitializeRollsBack : Prop :=
  ∀ (e : InitEnv) (s t : State) (k : ErrorKind), exec (.init e) s = .next t → t.result = .error k →
    t = { s.powerOn with result := .error k }

/-- 42_host_ops R172, R173, 60_exceptions R191 to R194, R200: the first failing step decides the error, and everything is rolled back
(the caller's own fields stay: log 22). The chain is built at step 7 under `BUILD_AT_INIT` only. -/
def Obligations.InitializeReportsFirstError : Prop :=
  ∀ (e : InitEnv) (s : State), s.phase = .uninitialized → s.inInit = false → sizeRefusal s = none →
    (e.colOk = false → exec (.init e) s = .next { s.powerOn with result := .error .allocation }) ∧
    (e.bufAlloc = none → exec (.init e) s = .next { s.powerOn with result := .error .allocation }) ∧
    (s.params.maxPages < cdiv (pwmByteCount s.params (max s.count.c0 s.count.c1) s.freq) pageSize →
      exec (.init e) s = .next { s.powerOn with result := .error .allocation }) ∧
    (∀ va, e.colOk = true → e.bufAlloc = some va →
      cdiv (pwmByteCount s.params (max s.count.c0 s.count.c1) s.freq) pageSize ≤ s.params.maxPages →
      s.dma.isActive = false →
      (e.descAlloc = none → exec (.init e) s = .next { s.powerOn with result := .error .allocation }) ∧
      (∀ dva n, e.descAlloc = some (dva, n) → translateVA s.params dva = .error →
        exec (.init e) s = .next { s.powerOn with result := .error (.translation none) })) ∧
    (∀ T va n b, InitAllocates e s T va n b →
      (∀ k < cdiv T pageSize, s.params.buildAtInit = true → OwnBuildOk T va n b →
        (∀ q < k, ∃ a, translateVA s.params (va + q * pageSize) = .ok a) →
        translateVA s.params (va + k * pageSize) = .error →
        exec (.init e) s = .next { s.powerOn with result := .error (.translation (some k)) }) ∧
      ((s.params.buildAtInit = true → OwnBuildOk T va n b ∧
          ∀ q < cdiv T pageSize, ∃ a, translateVA s.params (va + q * pageSize) = .ok a) →
        (e.mapOk = false → exec (.init e) s = .next { s.powerOn with result := .error .map }) ∧
        (e.mapOk = true → (s.pinOk .c0 && s.pinOk .c1) = false →
          exec (.init e) s = .next { s.powerOn with result := .error .unsupportedPin })))

/-- 42_host_ops R174: RENDER of a frame that fits, with no transfer in flight and a current chain, encodes it, makes every dirty word
visible and starts the transfer. -/
def Obligations.RenderStartsFrame : Prop :=
  ∀ s : State, s.isOpen = true → s.dma = .idle → s.encodeFits = true → s.DirtyInv → s.params.renderFlush = .dirty →
    s.chainCurrent = true → s.descDirty = false →
    ∃ t, exec .render s = .next t ∧
      t = { s.finish .ok with
        buf := t.buf, busbuf := t.busbuf, flushed := t.flushed, dirty := [], cursor := t.cursor
        frameOk := s.frameOkAfterEncode, stale := s.staleAfterEncode, phase := .rendering, dma := .active 0 0
        engine := some s.dmaIdx, cbAddr := s.chainHead, prioritySet := true } ∧
      (∀ c n, n < 72 * s.count.get c →
        t.buf.readBit (c.idx + 2 * (n / 32)) (31 - n % 32) = streamValue (s.col.get c) c (s.invert.get c) n) ∧
      (∀ w q, q < 32 → 72 * s.count.get (Chan.ofWord w) ≤ 32 * (w / 2) + (31 - q) →
        t.buf.readBit w q = s.buf.readBit w q) ∧
      (∀ a, 72 * s.count.get (Chan.ofWord (a / 4)) ≤ 32 * (a / 4 / 2) → t.buf.readByte a = s.buf.readByte a) ∧
      (∀ w w', w ≤ w' → (w' ∈ s.dirty ∨ 32 * (w' / 2) < 72 * s.count.get (Chan.ofWord w')) →
        t.busbuf.readWord w = t.buf.readWord w ∧ w ∈ t.flushed) ∧
      (∀ a, (∀ w', (w' ∈ s.dirty ∨ 32 * (w' / 2) < 72 * s.count.get (Chan.ofWord w')) → w' < a / 4) →
        t.busbuf.readByte a = s.busbuf.readByte a ∧ (a / 4 ∈ t.flushed ↔ a / 4 ∈ s.flushed)) ∧
      (∀ w, (w ∈ s.dirty ∨ 32 * (w / 2) < 72 * s.count.get (Chan.ofWord w)) →
        ∀ u : State, u.buf = t.buf → u.busbuf = t.busbuf → u.dirty = t.dirty → u.flushed = t.flushed →
          u.busRead w = t.buf.readWord w)

/-- 42_host_ops R175, R178, 60_exceptions R201: RENDER with a transfer in flight faults; after a DMA error it encodes, flushes what is
dirty, then ends with that error, phase and engine as before. -/
def Obligations.RenderAgainstTransfer : Prop :=
  ∀ s : State, s.isOpen = true →
    (s.dma.isActive = true → exec .render s = .fault .bufferWriteInFlight) ∧
    (∀ v, s.dma = .error v → s.encodeFits = true → s.DirtyInv → s.params.renderFlush = .dirty →
      ∃ u f, exec .encode s = .next u ∧
        ((u.dirty = [] ∧ f = u) ∨ (u.dirty ≠ [] ∧ exec (.flush (.range 0 u.dirtyEnd)) u = .next f)) ∧
        f.dirty = [] ∧ f.phase = s.phase ∧ f.dma = .error v ∧ exec .render s = .next (f.raise (.dma v)))

/-- 42_host_ops R171, R174 steps 1 to 4: RENDER whose build fails encodes, flushes and waits, then ends as that BUILD_CHAIN
ends: TranslationError with the page, nothing sent, no valid chain, the phase as before RENDER (R171, D37; log 25). -/
def Obligations.RenderBuildFailure : Prop :=
  ∀ (s : State) (k : Nat) (src : Nat → Word),
    s.isOpen = true → s.dma = .idle → s.encodeFits = true → s.DirtyInv → s.params.renderFlush = .dirty →
    s.chainCurrent = false → buildRefusal s.pages s.bufBytes s = none → k < cdiv s.bufBytes pageSize →
    (∀ i < k, translateVA s.params (s.pages.getD i 0) = .ok (src i)) → translateVA s.params (s.pages.getD k 0) = .error →
    ∃ u f t, exec .encode s = .next u ∧
      ((u.dirty = [] ∧ f = u) ∨ (u.dirty ≠ [] ∧ exec (.flush (.range 0 u.dirtyEnd)) u = .next f)) ∧
      exec (.buildChain f.pages f.bufBytes) { f.finish .ok with phase := .ready } = .next t ∧
      exec .render s = .next { t with phase := s.phase } ∧ t.result = .error (.translation (some k)) ∧ t.dma = .idle ∧ t.dirty = [] ∧
      t.chainValid = false ∧ t.fifo = s.fifo ∧ t.chainHead = s.chainHead

/-- 42_host_ops R174, 92 D38: both flush ranges of RENDER, and what follows the flush: the start of a chain that is current, or a build
and the start after it, with `FLUSH desc` between them where descriptor storage is cached. -/
def Obligations.RenderFlushesAndRebuilds : Prop :=
  ∀ s : State, s.isOpen = true → s.dma = .idle → s.encodeFits = true → s.DirtyInv →
    ∃ u f, exec .encode s = .next u ∧
      (s.params.renderFlush = .dirty →
        (u.dirty = [] ∧ f = u) ∨ (u.dirty ≠ [] ∧ exec (.flush (.range 0 u.dirtyEnd)) u = .next f)) ∧
      (s.params.renderFlush = .encoded →
        (s.encodedEnd = 0 ∧ f = u) ∨ (s.encodedEnd ≠ 0 ∧ exec (.flush (.range 0 s.encodedEnd)) u = .next f)) ∧
      (s.chainCurrent = true → exec .render s = exec .dmaStart { f.finish .ok with phase := .ready }) ∧
      (∀ g, s.chainCurrent = false → exec (.buildChain f.pages f.bufBytes) { f.finish .ok with phase := .ready } = .next g →
        g.result.isError = false →
        (s.params.descUncached = true → exec .render s = exec .dmaStart g) ∧
        (s.params.descUncached = false → exec .render s = exec .dmaStart { g.finish .ok with descDirty := false }))

/-- 42_host_ops R179, R180, R181: FINALIZE holds while a transfer is in flight (logs 10 and 26), else releases everything and ends in
`Finalized`, a transfer that has not completed cut off at a free length of each channel (log 27); a second FINALIZE changes nothing. The
caller's own fields stay (log 22), the pins are unbound (log 45). Where the clock never stops the host thread is stuck, with nothing
released (R184; log 40). -/
def Obligations.FinalizeReleases : Prop :=
  ∀ s : State,
    (s.isOpen = true → s.dma.isActive = true → s.params.waitTimeout = none →
      exec .finalize s = .next { s with blocked := some .finalize, polls := s.polls + 1 }) ∧
    ((s.pwmOn = false ∨ s.params.clockStops = true) →
      ((s.isOpen = true → s.dma = .idle) →
        exec .finalize s = .next { s.powerOn with phase := .finalized, result := .ok } ∧
        ∀ t, exec .finalize s = .next t → exec .finalize t = .next t) ∧
      (∀ v, s.isOpen = true → s.dma = .error v →
        exec .finalize s = .next { s.powerOn with
          phase := .finalized, result := .ok, draws := s.draws + 1
          wireCut := some ⟨Config.cutLength s.draws 0, Config.cutLength s.draws 1⟩ }) ∧
      (∀ n, s.isOpen = true → s.dma.isActive = true → s.params.waitTimeout = some n →
        exec .finalize s = .next (if n ≤ s.polls + 1 then { s.powerOn with
          phase := .finalized, result := .ok, draws := s.draws + 1
          wireCut := some ⟨Config.cutLength s.draws 0, Config.cutLength s.draws 1⟩ }
          else { s with blocked := some .finalize, polls := s.polls + 1 }))) ∧
    (s.pwmOn = true → s.params.clockStops = false →
      ((s.isOpen = true → s.dma = .idle) →
        exec .finalize s = .next { s with
          phase := if s.isOpen = true then .ready else s.phase, result := .none, blocked := some .clock, polls := 0 }) ∧
      (∀ v, s.isOpen = true → s.dma = .error v →
        exec .finalize s = .next { s with
          result := .none, blocked := some .clock, polls := 0, draws := s.draws + 1
          wireCut := some ⟨Config.cutLength s.draws 0, Config.cutLength s.draws 1⟩ }) ∧
      (∀ n, s.isOpen = true → s.dma.isActive = true → s.params.waitTimeout = some n →
        exec .finalize s = .next (if n ≤ s.polls + 1 then { s with
          result := .none, blocked := some .clock, polls := 0, draws := s.draws + 1
          wireCut := some ⟨Config.cutLength s.draws 0, Config.cutLength s.draws 1⟩ }
          else { s with blocked := some .finalize, polls := s.polls + 1 })))

/-! ### The DMA reader -/

/-- 41_dma_chain R156, 20_memory R52, 70_reset_and_hazards R234: one word's transfer, in a state whose chain and transfer are as the
invariant says. Where the oracle answered the frames that back the pages, word `(d*PAGE_SIZE + o)/4` goes to the FIFO; where the record's
source is no page of the buffer, a free value does (log 29). Where descriptor storage is misresolved, the reader runs a free record, whose
destination may be another (log 47). Nothing of the host's changes. -/
def Obligations.ReaderTransfersWord : Prop :=
  ∀ (s : State) (d o : Nat), s.ChainInv → s.dma = .active d o →
    (s.OracleOk → o < (s.desc.readDesc d).len.toNat → exec .dmaXferWord s = .next { s with
      fifo := s.fifo ++ [s.busRead ((d * pageSize + o) / 4)]
      dma := .active d (o + 4)
      draws := if (d * pageSize + o) / 4 ∈ s.dirty then s.draws + 1 else s.draws }) ∧
    (s.descStands = true → o < (s.desc.readDesc d).len.toNat → s.pageAt (s.desc.readDesc d).src = none →
      exec .dmaXferWord s = .next { s with
        fifo := s.fifo ++ [Config.foreignWord s.draws ((s.desc.readDesc d).src + BitVec.ofNat 32 o)]
        dma := .active d (o + 4)
        draws := s.draws + 1 }) ∧
    (∀ r, s.descStands = false → r = foreignRecord (descAddress (orZero s.descBus) d) →
      exec .dmaXferWord s = if o < r.len.toNat then .next { s with
          fifo := if r.dst = s.params.fifoBus then s.fifo ++ [s.sourceRead d o] else s.fifo
          dma := .active d (o + 4)
          draws := s.draws + s.sourceDraws d o }
        else .refused .noAgentStep)

/-- 41_dma_chain R157: at the end of a record whose link is not 0 the reader goes to the next record. Where descriptor storage is
misresolved it goes where the free record's link leads (log 47), and has no step where that is the address of no record (R157, R234). -/
def Obligations.ReaderFollowsLink : Prop :=
  ∀ (s : State) (d o : Nat), s.ChainInv → s.dma = .active d o →
    (s.descStands = true → o = (s.desc.readDesc d).len.toNat → (s.desc.readDesc d).next ≠ 0 →
      d + 1 < s.pageCount ∧ exec .dmaFollowLink s = .next { s with dma := .active (d + 1) 0 }) ∧
    (∀ r, s.descStands = false → r = foreignRecord (descAddress (orZero s.descBus) d) →
      exec .dmaFollowLink s = if r.len.toNat ≤ o ∧ r.next ≠ 0 then
          (match indexOf (orZero s.descBus) s.params.maxPages r.next with
            | some i => .next { s with dma := .active i 0 }
            | none => .refused .noAgentStep)
        else .refused .noAgentStep)

/-- 41_dma_chain R158: at the end of the record whose link is 0 the transfer is over, and that record is the last of the chain. Where
descriptor storage is misresolved the free record's length and link decide (R234; log 47). -/
def Obligations.ReaderCompletes : Prop :=
  ∀ (s : State) (d o : Nat), s.ChainInv → s.dma = .active d o →
    (s.descStands = true → o = (s.desc.readDesc d).len.toNat → (s.desc.readDesc d).next = 0 →
      d + 1 = s.pageCount ∧ d * pageSize + o = s.bufBytes ∧ exec .dmaComplete s = .next { s with dma := .idle }) ∧
    (∀ r, s.descStands = false → r = foreignRecord (descAddress (orZero s.descBus) d) →
      exec .dmaComplete s = if r.len.toNat ≤ o ∧ r.next = 0 then .next { s with dma := .idle } else .refused .noAgentStep)

/-- 41_dma_chain R159: at any step of a transfer the reader may show an error with any value; without one it has no such step. -/
def Obligations.ReaderErrs : Prop :=
  ∀ (v : Word) (s : State),
    (s.dma.isActive = true → exec (.dmaError v) s = .next { s with dma := .error v }) ∧
    (s.dma.isActive = false → exec (.dmaError v) s = .refused .noAgentStep)

/-- 41_dma_chain R158, R161, 20_memory R61, R63, 70_reset_and_hazards R234: a transfer that runs to its end with a clean buffer gives the
FIFO exactly the words of the host's buffer in order, where the oracle answered the frames that back the pages. `k` steps of the reader,
one after the other, with nothing of the host's between them. -/
def Obligations.WholeTransferSendsBuffer : Prop :=
  ∀ s : State, s.ChainInv → s.VisibleInv → s.OracleOk → s.dma = .active 0 0 → s.dirty = [] →
    ∃ k t, (Nat.repeat (fun o : Option State => o.bind (fun u =>
        u.readerStep.bind (fun i => match exec i u with | .next v => some v | .fault _ => none | .refused _ => none))) k
        (some s)) = some t ∧
      t = { s with fifo := s.fifo ++ (List.range s.bufWords).map s.buf.readWord, dma := .idle }
end

