-- ==== Sys2Proof/Laws/Memory.lean ====
section
/-!
SUPPORT. The laws of memories and sets: a read after a write, the frame of a write, and that every operation keeps the canonical
form.
-/

namespace Sys2Proof.Machine

/-! ### Bytes -/

@[simp] theorem Memory.readByte_nil (a : Nat) : Memory.readByte [] a = 0 := rfl

theorem Memory.readByte_filter (m : Memory) (a x : Nat) :
    Memory.readByte (m.filter (fun c => c.1 ≠ a)) x = if x = a then 0 else Memory.readByte m x := by
  induction m with
  | nil => simp
  | cons c m ih =>
    by_cases h : c.1 = a
    · have : (c :: m).filter (fun c => c.1 ≠ a) = m.filter (fun c => c.1 ≠ a) := by simp [h]
      rw [this, ih]
      by_cases hx : x = a
      · simp [hx]
      · have : c.1 ≠ x := by omega
        simp [Memory.readByte, hx, this]
    · have : (c :: m).filter (fun c => c.1 ≠ a) = c :: m.filter (fun c => c.1 ≠ a) := by simp [h]
      rw [this, Memory.readByte, ih]
      by_cases hx : x = a
      · subst hx; simp [h]
      · simp [Memory.readByte, hx]

theorem Memory.readByte_insertByte (m : Memory) (a x : Nat) (b : Byte) :
    Memory.readByte (Memory.insertByte m a b) x = if x = a then b else Memory.readByte m x := by
  induction m with
  | nil => by_cases hx : x = a <;> simp [Memory.insertByte, Memory.readByte, hx]; omega
  | cons c m ih =>
    by_cases h1 : a < c.1
    · by_cases hx : x = a
      · simp [Memory.insertByte, Memory.readByte, h1, hx]
      · have : a ≠ x := by omega
        simp [Memory.insertByte, Memory.readByte, h1, hx, this]
    · by_cases h2 : a = c.1
      · by_cases hx : x = a
        · simp [Memory.insertByte, Memory.readByte, ← h2, hx]
        · have : a ≠ x := by omega
          simp [Memory.insertByte, Memory.readByte, ← h2, hx, this]
      · by_cases hx : x = a
        · have : c.1 ≠ x := by omega
          subst hx
          simp only [Memory.insertByte, h1, h2, if_false, Memory.readByte, this, ih, if_true]
        · simp only [Memory.insertByte, h1, h2, if_false, Memory.readByte, ih, hx]

/-- A byte reads as it was last written, and a write leaves every other byte alone. -/
theorem Memory.readByte_writeByte (m : Memory) (a x : Nat) (b : Byte) :
    (m.writeByte a b).readByte x = if x = a then b else m.readByte x := by
  unfold Memory.writeByte
  by_cases hb : b = 0
  · rw [if_pos hb, Memory.readByte_filter, hb]
  · rw [if_neg hb, Memory.readByte_insertByte]

/-! ### Words -/

theorem wordOfBytes_byteOfWord (v : Word) :
    wordOfBytes (byteOfWord v 0) (byteOfWord v 1) (byteOfWord v 2) (byteOfWord v 3) = v := by
  apply BitVec.eq_of_getLsbD_eq
  intro i hi
  simp only [wordOfBytes, byteOfWord, BitVec.getLsbD_append, BitVec.getLsbD_extractLsb']
  rcases Nat.lt_or_ge i 8 with h | h
  · simp [h]
  · rcases Nat.lt_or_ge i 16 with h1 | h1
    · simp only [show ¬ i < 8 by omega, show i - 8 < 8 by omega, if_true, if_false]
      simp [show 8 + (i - 8) = i by omega]
    · rcases Nat.lt_or_ge i 24 with h2 | h2
      · simp only [show ¬ i < 8 by omega, show ¬ i - 8 < 8 by omega, show i - 8 - 8 < 8 by omega, if_true, if_false]
        simp [show 16 + (i - 8 - 8) = i by omega]
      · simp only [show ¬ i < 8 by omega, show ¬ i - 8 < 8 by omega, show ¬ i - 8 - 8 < 8 by omega, if_false]
        simp [show 24 + (i - 8 - 8 - 8) = i by omega, show i - 8 - 8 - 8 < 8 by omega]

/-- The bytes outside word `w` do not change when it is written. -/
theorem Memory.readByte_writeWord_ne (m : Memory) (w : Nat) (v : Word) (a : Nat) (h : a / 4 ≠ w) :
    (m.writeWord w v).readByte a = m.readByte a := by
  simp only [Memory.writeWord, Memory.readByte_writeByte]
  rw [if_neg (by omega), if_neg (by omega), if_neg (by omega), if_neg (by omega)]

/-- A word reads as it was last written, and a write leaves every other word alone. -/
theorem Memory.readWord_writeWord (m : Memory) (w x : Nat) (v : Word) :
    (m.writeWord w v).readWord x = if x = w then v else m.readWord x := by
  by_cases hx : x = w
  · subst hx
    rw [if_pos rfl]
    simp only [Memory.readWord, Memory.writeWord, Memory.readByte_writeByte]
    simp [wordOfBytes_byteOfWord]
  · rw [if_neg hx]
    unfold Memory.readWord
    rw [Memory.readByte_writeWord_ne _ _ _ _ (by omega), Memory.readByte_writeWord_ne _ _ _ _ (by omega),
      Memory.readByte_writeWord_ne _ _ _ _ (by omega), Memory.readByte_writeWord_ne _ _ _ _ (by omega)]

/-! ### Bits -/

theorem getLsbD_setBit (v : Word) (p q : Nat) (x : Bool) (hq : q < 32) :
    (setBit v p x).getLsbD q = if q = p then x else v.getLsbD q := by
  unfold setBit
  by_cases hx : x = true
  · rw [if_pos hx]
    by_cases h : q = p
    · subst h; simp [hq, hx]
    · rw [if_neg h, BitVec.getLsbD_or, BitVec.getLsbD_twoPow]
      simp [show ¬ p = q by omega]
  · rw [if_neg hx]
    have hx' : x = false := by simpa using hx
    by_cases h : q = p
    · subst h; simp [hq, hx']
    · rw [if_neg h, BitVec.getLsbD_and, BitVec.getLsbD_not, BitVec.getLsbD_twoPow]
      simp [show ¬ p = q by omega, hq]

/-- Assigning bit `p` of word `w` gives it the value and leaves every other bit of every word alone (R10, R119). -/
theorem Memory.readBit_writeWord_setBit (m : Memory) (w p x q : Nat) (b : Bool) (hq : q < 32) :
    (m.writeWord w (setBit (m.readWord w) p b)).readBit x q = if x = w ∧ q = p then b else m.readBit x q := by
  unfold Memory.readBit
  rw [Memory.readWord_writeWord]
  by_cases hx : x = w
  · subst hx
    rw [if_pos rfl, getLsbD_setBit _ _ _ _ hq]
    by_cases h : q = p <;> simp [h]
  · simp [hx]

/-! ### The canonical form of a memory -/

theorem Memory.wf_filter (m : Memory) (a : Nat) (h : Memory.wf m) : Memory.wf (m.filter (fun c => c.1 ≠ a)) :=
  ⟨h.1.filter _, fun c hc => h.2 c (List.mem_filter.mp hc).1⟩

theorem Memory.mem_insertByte (m : Memory) (a : Nat) (b : Byte) (c : Host.Cell) (hc : c ∈ Memory.insertByte m a b) :
    c = (a, b) ∨ c ∈ m := by
  induction m with
  | nil => left; simpa [Memory.insertByte] using hc
  | cons d m ih =>
    unfold Memory.insertByte at hc
    split at hc
    · simpa using hc
    · split at hc
      · rcases List.mem_cons.mp hc with h | h
        · exact .inl h
        · exact .inr (List.mem_cons_of_mem _ h)
      · rcases List.mem_cons.mp hc with h | h
        · exact .inr (h ▸ List.mem_cons_self)
        · exact (ih h).imp id (List.mem_cons_of_mem _)

theorem Memory.wf_insertByte (m : Memory) (a : Nat) (b : Byte) (hb : b ≠ 0) (h : Memory.wf m) :
    Memory.wf (Memory.insertByte m a b) := by
  refine ⟨?_, fun c hc => (Memory.mem_insertByte m a b c hc).elim (fun e => e ▸ hb) (h.2 c)⟩
  obtain ⟨hp, -⟩ := h
  induction m with
  | nil => simp [Memory.insertByte]
  | cons d m ih =>
    obtain ⟨hd, hm⟩ := List.pairwise_cons.mp hp
    unfold Memory.insertByte
    split
    · rename_i hlt
      refine List.pairwise_cons.mpr ⟨fun c hc => ?_, hp⟩
      rcases List.mem_cons.mp hc with rfl | hc
      · exact hlt
      · exact Nat.lt_trans hlt (hd c hc)
    · split
      · rename_i _ he
        exact List.pairwise_cons.mpr ⟨fun c hc => he ▸ hd c hc, hm⟩
      · rename_i hnl hne
        refine List.pairwise_cons.mpr ⟨fun c hc => ?_, ih hm⟩
        rcases Memory.mem_insertByte m a b c hc with rfl | hc
        · simp only; omega
        · exact hd c hc

theorem Memory.wf_writeByte (m : Memory) (a : Nat) (b : Byte) (h : Memory.wf m) : Memory.wf (m.writeByte a b) := by
  unfold Memory.writeByte
  split
  · exact Memory.wf_filter m a h
  · exact Memory.wf_insertByte m a b ‹_› h

theorem Memory.wf_writeWord (m : Memory) (w : Nat) (v : Word) (h : Memory.wf m) : Memory.wf (m.writeWord w v) :=
  Memory.wf_writeByte _ _ _ (Memory.wf_writeByte _ _ _ (Memory.wf_writeByte _ _ _ (Memory.wf_writeByte _ _ _ h)))

theorem Memory.wf_writeWords (vs : List Word) : ∀ (m : Memory) (w : Nat), Memory.wf m → Memory.wf (m.writeWords w vs) := by
  induction vs with
  | nil => exact fun m w h => h
  | cons v vs ih => exact fun m w h => ih _ _ (Memory.wf_writeWord m w v h)

theorem Memory.wf_writeDesc (m : Memory) (i : Nat) (r : Desc) (h : Memory.wf m) : Memory.wf (m.writeDesc i r) :=
  Memory.wf_writeWords _ m _ h

/-! ### Records -/

theorem Memory.readWord_writeWords (vs : List Word) : ∀ (m : Memory) (w x : Nat),
    (m.writeWords w vs).readWord x = if w ≤ x ∧ x < w + vs.length then vs.getD (x - w) 0 else m.readWord x := by
  induction vs with
  | nil => intro m w x; simp [Memory.writeWords]
  | cons v vs ih =>
    intro m w x
    rw [Memory.writeWords, ih, Memory.readWord_writeWord]
    by_cases hx : x = w
    · subst hx; simp
    · by_cases h : w + 1 ≤ x ∧ x < w + 1 + vs.length
      · rw [if_pos h, if_pos (by simp; omega), show x - w = (x - (w + 1)) + 1 by omega]
        simp
      · rw [if_neg h, if_neg hx, if_neg (by simp; omega)]

/-- A record reads as it was last written, and a write leaves every other record alone. -/
theorem Memory.readDesc_writeDesc (m : Memory) (i j : Nat) (r : Desc) :
    (m.writeDesc i r).readDesc j = if j = i then r else m.readDesc j := by
  unfold Memory.readDesc Memory.writeDesc
  simp only [Memory.readWord_writeWords, descWord, wordsOfDesc, List.length_cons, List.length_nil]
  by_cases h : j = i
  · subst h
    simp
  · rw [if_neg h]
    rw [if_neg (by omega), if_neg (by omega), if_neg (by omega), if_neg (by omega), if_neg (by omega)]

/-- TERMINATE changes one record's link and nothing else of any record (R147). -/
theorem readDesc_terminateLink (m : Memory) (n j : Nat) :
    (terminateLink m n).readDesc j = if j = n - 1 then { m.readDesc j with next := 0 } else m.readDesc j := by
  unfold Memory.readDesc terminateLink
  simp only [Memory.readWord_writeWord, descWord]
  by_cases h : j = n - 1
  · subst h; simp
  · rw [if_neg (by omega), if_neg (by omega), if_neg (by omega), if_neg (by omega), if_neg (by omega), if_neg h]

/-! ### Sets -/

@[simp] theorem NatSet.mem_insert (l : NatSet) (a b : Nat) : b ∈ NatSet.insert l a ↔ b = a ∨ b ∈ l := by
  induction l with
  | nil => simp [NatSet.insert]
  | cons c l ih =>
    unfold NatSet.insert
    split
    · simp
    · split
      · rename_i _ h; subst h; simp
      · simp [ih]; tauto

theorem NatSet.wf_insert (l : NatSet) (a : Nat) (h : NatSet.wf l) : NatSet.wf (NatSet.insert l a) := by
  induction l with
  | nil => simp [NatSet.insert, NatSet.wf]
  | cons c l ih =>
    obtain ⟨hc, hl⟩ := List.pairwise_cons.mp h
    unfold NatSet.insert
    split
    · rename_i hlt
      refine List.pairwise_cons.mpr ⟨fun b hb => ?_, h⟩
      rcases List.mem_cons.mp hb with rfl | hb
      · exact hlt
      · exact Nat.lt_trans hlt (hc b hb)
    · split
      · exact h
      · refine List.pairwise_cons.mpr ⟨fun b hb => ?_, ih hl⟩
        rcases (NatSet.mem_insert l a b).mp hb with rfl | hb
        · omega
        · exact hc b hb

@[simp] theorem NatSet.mem_insertAll (as : List Nat) : ∀ (l : NatSet) (b : Nat), b ∈ NatSet.insertAll l as ↔ b ∈ as ∨ b ∈ l := by
  induction as with
  | nil => simp [NatSet.insertAll]
  | cons a as ih =>
    intro l b
    have := ih (NatSet.insert l a) b
    simp only [NatSet.insertAll, List.foldl_cons] at this ⊢
    rw [this]; simp; tauto

theorem NatSet.wf_insertAll (as : List Nat) : ∀ (l : NatSet), NatSet.wf l → NatSet.wf (NatSet.insertAll l as) := by
  induction as with
  | nil => exact fun l h => h
  | cons a as ih => exact fun l h => ih _ (NatSet.wf_insert l a h)

theorem NatSet.le_greatest (l : NatSet) : ∀ w ∈ l, w ≤ NatSet.greatest l := by
  have key : ∀ (l : List Nat) (a : Nat), a ≤ l.foldl max a ∧ ∀ w ∈ l, w ≤ l.foldl max a := by
    intro l
    induction l with
    | nil => simp
    | cons b l ih =>
      intro a
      obtain ⟨h1, h2⟩ := ih (max a b)
      refine ⟨by simp only [List.foldl_cons]; omega, fun w hw => ?_⟩
      rcases List.mem_cons.mp hw with rfl | hw
      · simp only [List.foldl_cons]; omega
      · exact h2 w hw
  exact (key l 0).2

theorem NatSet.greatest_mem (l : NatSet) (h : l ≠ []) : NatSet.greatest l ∈ l := by
  have key : ∀ (l : List Nat) (a : Nat), l.foldl max a = a ∨ l.foldl max a ∈ l := by
    intro l
    induction l with
    | nil => simp
    | cons b l ih =>
      intro a
      simp only [List.foldl_cons, List.mem_cons]
      rcases ih (max a b) with h | h
      · rcases Nat.le_total a b with hab | hab
        · right; left; rw [h]; omega
        · left; rw [h]; omega
      · right; right; exact h
  rcases key l 0 with h0 | h0
  · cases l with
    | nil => exact absurd rfl h
    | cons b l =>
      have := NatSet.le_greatest (b :: l) b List.mem_cons_self
      unfold NatSet.greatest at this ⊢
      rw [h0] at this ⊢
      have : b = 0 := by omega
      rw [this]; exact List.mem_cons_self
  · exact h0

/-! ### Bytes and words -/

/-- A byte is a part of its word (R53). -/
theorem Memory.readByte_eq_byteOfWord (m : Memory) (a : Nat) : m.readByte a = byteOfWord (m.readWord (a / 4)) (a % 4) := by
  have h4 : a % 4 < 4 := Nat.mod_lt _ (by omega)
  have ha : a = 4 * (a / 4) + a % 4 := by omega
  generalize a % 4 = r at *
  generalize a / 4 = q at *
  subst ha
  apply BitVec.eq_of_getLsbD_eq
  intro i hi
  simp only [Memory.readWord, wordOfBytes, byteOfWord, BitVec.getLsbD_append, BitVec.getLsbD_extractLsb']
  interval_cases r
  · simp [hi]
  · simp [hi, show ¬ (8 + i < 8) by omega]
  · simp [hi, show ¬ (16 + i < 8) by omega, show ¬ (16 + i - 8 < 8) by omega, show (16 + i - 8 - 8 = i) by omega]
  · simp [hi, show ¬ (24 + i < 8) by omega, show ¬ (24 + i - 8 < 8) by omega, show ¬ (24 + i - 8 - 8 < 8) by omega, show (24 + i - 8 - 8 - 8 = i) by omega]

/-- A byte reads as before where its word does. -/
theorem Memory.readByte_congr (m m' : Memory) (a : Nat) (h : m.readWord (a / 4) = m'.readWord (a / 4)) :
    m.readByte a = m'.readByte a := by
  rw [Memory.readByte_eq_byteOfWord, h, ← Memory.readByte_eq_byteOfWord]

/-- A word reads as before where its bits do. -/
theorem Memory.readWord_congr (m m' : Memory) (w w' : Nat) (h : ∀ q < 32, m.readBit w q = m'.readBit w' q) :
    m.readWord w = m'.readWord w' := BitVec.eq_of_getLsbD_eq h

/-- The bytes outside record `i` do not change when it is written. -/
theorem Memory.readByte_writeDesc_ne (m : Memory) (i : Nat) (r : Desc) (a : Nat) (h : a / descSize ≠ i) :
    (m.writeDesc i r).readByte a = m.readByte a := by
  apply Memory.readByte_congr
  unfold Memory.writeDesc
  rw [Memory.readWord_writeWords, if_neg]
  simp only [wordsOfDesc, List.length_cons, List.length_nil, descWord]
  unfold descSize at h
  omega

/-- The eight words of a record that was written (R91). -/
theorem Memory.readWord_writeDesc (m : Memory) (i k : Nat) (r : Desc) (hk : k < 8) :
    (m.writeDesc i r).readWord (8 * i + k) = (wordsOfDesc r).getD k 0 := by
  unfold Memory.writeDesc
  rw [Memory.readWord_writeWords, if_pos, show 8 * i + k - descWord i 0 = k by simp [descWord]]
  simp only [wordsOfDesc, List.length_cons, List.length_nil, descWord]
  omega


/-! ### FLUSH -/

theorem flushWords_readWord (buf : Memory) (ws : List Nat) : ∀ (busbuf : Memory) (w : Nat),
    (flushWords buf busbuf ws).readWord w = if w ∈ ws then buf.readWord w else busbuf.readWord w := by
  induction ws with
  | nil => intro m w; simp [flushWords]
  | cons v ws ih =>
    intro m w
    have : flushWords buf m (v :: ws) = flushWords buf (m.writeWord v (buf.readWord v)) ws := rfl
    rw [this, ih, Memory.readWord_writeWord]
    by_cases h : w ∈ ws
    · simp [h]
    · by_cases h2 : w = v
      · subst h2; simp
      · simp [h, h2]

theorem flushWords_wf (buf : Memory) (ws : List Nat) : ∀ (busbuf : Memory), Memory.wf busbuf → Memory.wf (flushWords buf busbuf ws) := by
  induction ws with
  | nil => exact fun m h => h
  | cons v ws ih => exact fun m h => ih _ (Memory.wf_writeWord _ _ _ h)

theorem mem_coveredWords (lo hi w : Nat) : w ∈ coveredWords lo hi ↔ 4 * w < hi ∧ lo < 4 * w + 4 := by
  simp only [coveredWords, covered, List.mem_filter, List.mem_range, cdiv, Bool.and_eq_true, decide_eq_true_eq]
  omega

theorem covered_iff (lo hi w : Nat) : covered lo hi w = true ↔ 4 * w < hi ∧ lo < 4 * w + 4 := by
  simp [covered]

end Sys2Proof.Machine
end

