-- ==== Sys2Proof/Laws/Chain.lean ====
section
/-!
SUPPORT. What the chain family's shared operations do: a row of descriptors, the loop of BUILD_CHAIN, the closed form of a complete
chain, and the record a link leads to.
-/

namespace Sys2Proof.Machine

/-! ### A row of descriptors -/

/-- EMIT_DESC for the pages from index `i` on, whose bus addresses are given. -/
def emitAll (p : Params) (bus : Word) : List Word → Nat → Build → Build
  | [], _, b => b
  | a :: as, i, b => emitAll p bus as (i + 1) (buildEmit p bus i a b)

theorem emitAll_remaining (p : Params) (bus : Word) (as : List Word) : ∀ i b,
    (emitAll p bus as i b).remaining = b.remaining - as.length * pageSize := by
  induction as with
  | nil => intro i b; simp [emitAll]
  | cons a as ih =>
    intro i b
    rw [emitAll, ih]
    simp only [buildEmit, List.length_cons, Nat.succ_mul]
    omega

theorem emitAll_idx (p : Params) (bus : Word) (as : List Word) : ∀ i b,
    (emitAll p bus as i b).idx = if as = [] then b.idx else i + as.length := by
  induction as with
  | nil => intro i b; simp [emitAll]
  | cons a as ih =>
    intro i b
    rw [emitAll, ih]
    by_cases h : as = []
    · simp [h, buildEmit]
    · simp [h]; omega

theorem emitAll_written (p : Params) (bus : Word) (as : List Word) : ∀ i b j,
    j ∈ (emitAll p bus as i b).written ↔ j ∈ b.written ∨ (i ≤ j ∧ j < i + as.length) := by
  induction as with
  | nil => intro i b j; simp [emitAll]
  | cons a as ih =>
    intro i b j
    rw [emitAll, ih]
    simp only [buildEmit, NatSet.mem_insert, List.length_cons]
    by_cases hj : j ∈ b.written
    · simp [hj]
    · simp [hj]; omega

/-- Each record of a row is rule R146's, and no other record changes. -/
theorem emitAll_readDesc (p : Params) (bus : Word) (as : List Word) : ∀ i b j,
    (emitAll p bus as i b).desc.readDesc j =
      if i ≤ j ∧ j < i + as.length then descRecord p bus j (b.remaining - (j - i) * pageSize) (as.getD (j - i) 0)
      else b.desc.readDesc j := by
  induction as with
  | nil => intro i b j; rw [if_neg (by simp)]; rfl
  | cons a as ih =>
    intro i b j
    rw [emitAll, ih]
    simp only [buildEmit, Memory.readDesc_writeDesc, List.length_cons]
    by_cases h0 : j = i
    · subst h0; simp
    · by_cases h : i + 1 ≤ j ∧ j < i + 1 + as.length
      · rw [if_pos h, if_pos (by omega), show j - i = (j - (i + 1)) + 1 by omega, List.getD_cons_succ, Nat.succ_mul]
        have e : b.remaining - min pageSize b.remaining - (j - (i + 1)) * pageSize =
            b.remaining - ((j - (i + 1)) * pageSize + pageSize) := by omega
        rw [e]
      · rw [if_neg h, if_neg h0, if_neg (by omega)]

/-- The stride and the reserved words of each record of a row are 0, and those of no other record change (R91, D32). -/
theorem emitAll_reserved (p : Params) (bus : Word) {k : Nat} (hk : k = 4 ∨ k = 6 ∨ k = 7) (as : List Word) : ∀ i b j,
    (emitAll p bus as i b).desc.readWord (8 * j + k) =
      if i ≤ j ∧ j < i + as.length then 0 else b.desc.readWord (8 * j + k) := by
  induction as with
  | nil => intro i b j; rw [if_neg (by simp)]; rfl
  | cons a as ih =>
    intro i b j
    rw [emitAll, ih]
    by_cases h : i + 1 ≤ j ∧ j < i + 1 + as.length
    · rw [if_pos h, if_pos (by rw [List.length_cons]; omega)]
    · rw [if_neg h]
      by_cases h0 : j = i
      · subst h0
        rw [if_pos (by rw [List.length_cons]; omega)]
        simp only [buildEmit]
        rw [Memory.readWord_writeDesc _ _ _ _ (by omega)]
        obtain rfl | rfl | rfl := hk <;> rfl
      · rw [if_neg (by rw [List.length_cons]; omega)]
        simp only [buildEmit, Memory.writeDesc]
        rw [Memory.readWord_writeWords, if_neg (by simp only [descWord, wordsOfDesc, List.length_cons, List.length_nil]; omega)]

/-- TERMINATE leaves the stride and the reserved words of every record as they were (R147). -/
theorem readWord_terminateLink (m : Memory) (n j : Nat) {k : Nat} (hk : k = 4 ∨ k = 6 ∨ k = 7) :
    (terminateLink m n).readWord (8 * j + k) = m.readWord (8 * j + k) := by
  unfold terminateLink
  rw [Memory.readWord_writeWord, if_neg (by simp only [descWord]; omega)]

theorem emitAll_wf (p : Params) (bus : Word) (as : List Word) : ∀ i b, Memory.wf b.desc → NatSet.wf b.written →
    Memory.wf (emitAll p bus as i b).desc ∧ NatSet.wf (emitAll p bus as i b).written := by
  induction as with
  | nil => exact fun i b h1 h2 => ⟨h1, h2⟩
  | cons a as ih => exact fun i b h1 h2 => ih _ _ (Memory.wf_writeDesc _ _ _ h1) (NatSet.wf_insert _ _ h2)

theorem emitAll_readByte (p : Params) (bus : Word) (as : List Word) : ∀ i b a, i + as.length ≤ a / descSize →
    (emitAll p bus as i b).desc.readByte a = b.desc.readByte a := by
  induction as with
  | nil => intro i b a _; rfl
  | cons x as ih =>
    intro i b a h
    rw [List.length_cons] at h
    rw [emitAll, ih _ _ _ (by omega)]
    exact Memory.readByte_writeDesc_ne _ _ _ _ (by omega)

/-! ### The loop -/

/-- The bus addresses of pages, as far as they translate. -/
def sources (p : Params) (vas : List Nat) (as : List Word) : Prop :=
  as.length ≤ vas.length ∧ ∀ j < as.length, translateVA p (vas.getD j 0) = .ok (as.getD j 0)

theorem cdiv_page_succ (r : Nat) (h : r ≠ 0) : cdiv r pageSize = cdiv (r - min pageSize r) pageSize + 1 := by
  unfold cdiv pageSize; omega

theorem sources_nil (p : Params) (vas : List Nat) : sources p vas [] := ⟨Nat.zero_le _, fun _ h => absurd h (Nat.not_lt_zero _)⟩

theorem sources_cons (p : Params) (va : Nat) (vas : List Nat) (a : Word) (as : List Word) (ha : translateVA p va = .ok a)
    (h : sources p vas as) : sources p (va :: vas) (a :: as) := by
  refine ⟨Nat.succ_le_succ h.1, fun j hj => ?_⟩
  cases j with
  | zero => simpa using ha
  | succ j => simpa using h.2 j (Nat.lt_of_succ_lt_succ hj)

/-- How the loop of BUILD_CHAIN ends: with a row of records for as many pages as the bytes need or the list has, at the first page
that does not translate, or at a frame out of range (R145, R149). -/
theorem buildLoop_spec (p : Params) (bus : Word) (vas : List Nat) : ∀ (i : Nat) (b : Build),
    match buildLoop p bus vas i b with
    | .done b' => ∃ as, as.length = min vas.length (cdiv b.remaining pageSize) ∧ sources p vas as ∧ b' = emitAll p bus as i b
    | .failed k b' => ∃ as, as.length < min vas.length (cdiv b.remaining pageSize) ∧ sources p vas as ∧
        b' = emitAll p bus as i b ∧ k = i + as.length ∧ translateVA p (vas.getD as.length 0) = .error
    | .outOfRange => ∃ as : List Word, as.length < min vas.length (cdiv b.remaining pageSize) ∧ sources p vas as ∧
        translateVA p (vas.getD as.length 0) = .outOfRange := by
  induction vas with
  | nil => intro i b; exact ⟨[], by simp, sources_nil _ _, rfl⟩
  | cons va vas ih =>
    intro i b
    unfold buildLoop
    by_cases h0 : b.remaining = 0
    · rw [if_pos h0]
      exact ⟨[], by simp [h0, cdiv, pageSize], sources_nil _ _, rfl⟩
    · rw [if_neg h0]
      have hc := cdiv_page_succ b.remaining h0
      cases ht : translateVA p va with
      | ok a =>
        have := ih (i + 1) (buildEmit p bus i a b)
        simp only
        cases hl : buildLoop p bus vas (i + 1) (buildEmit p bus i a b) with
        | done b' =>
          rw [hl] at this
          obtain ⟨as, h1, h2, h3⟩ := this
          refine ⟨a :: as, ?_, sources_cons p va vas a as ht h2, h3⟩
          simp only [List.length_cons, buildEmit] at h1 ⊢; omega
        | failed k b' =>
          rw [hl] at this
          obtain ⟨as, h1, h2, h3, h4, h5⟩ := this
          refine ⟨a :: as, ?_, sources_cons p va vas a as ht h2, h3, by simp; omega, by simpa using h5⟩
          simp only [List.length_cons, buildEmit] at h1 ⊢; omega
        | outOfRange =>
          rw [hl] at this
          obtain ⟨as, h1, h2, h3⟩ := this
          refine ⟨a :: as, ?_, sources_cons p va vas a as ht h2, by simpa using h3⟩
          simp only [List.length_cons, buildEmit] at h1 ⊢; omega
      | error =>
        refine ⟨[], ?_, sources_nil _ _, rfl, by simp, by simpa using ht⟩
        simp; omega
      | outOfRange =>
        refine ⟨[], ?_, sources_nil _ _, by simpa using ht⟩
        simp; omega

/-! ### The closed form of a complete chain -/

theorem descRecord_len (p : Params) (bus : Word) (i r : Nat) (a : Word) :
    (descRecord p bus i r a).len.toNat = min pageSize r := by
  simp only [descRecord, BitVec.toNat_ofNat]
  exact Nat.mod_eq_of_lt (by unfold pageSize; omega)

/-- A terminated row of records over `T` bytes, for the pages of the buffer at `va`, is a complete chain (R150). -/
theorem emitAll_chainForm (p : Params) (bus : Word) (va : Nat) (as : List Word) (b : Build) (hn : as ≠ [])
    (hs : ∀ i < as.length, translateVA p (va + i * pageSize) = .ok (as.getD i 0)) :
    ChainForm p (terminateLink (emitAll p bus as 0 b).desc as.length) (emitAll p bus as 0 b).written bus va as.length
      b.remaining := by
  have hl : 1 ≤ as.length := by cases as with
    | nil => exact absurd rfl hn
    | cons => simp
  have key : ∀ i < as.length, (terminateLink (emitAll p bus as 0 b).desc as.length).readDesc i =
      if i = as.length - 1 then { descRecord p bus i (b.remaining - i * pageSize) (as.getD i 0) with next := 0 }
      else descRecord p bus i (b.remaining - i * pageSize) (as.getD i 0) := by
    intro i hi
    have hr : (emitAll p bus as 0 b).desc.readDesc i = descRecord p bus i (b.remaining - i * pageSize) (as.getD i 0) := by
      rw [emitAll_readDesc, if_pos (by omega), Nat.sub_zero]
    rw [readDesc_terminateLink, hr]
  constructor
  · exact hl
  · intro i hi; exact (emitAll_written _ _ _ _ _ _).mpr (.inr ⟨Nat.zero_le _, by omega⟩)
  · intro i hi; rw [key i hi]; split <;> rfl
  · intro i hi; rw [key i hi, hs i hi]; split <;> rfl
  · intro i hi; rw [key i hi]; split <;> rfl
  · intro i hi; rw [key i hi]; split <;> exact descRecord_len p bus i _ (as.getD i 0)
  · intro i hi
    rw [key i hi]
    by_cases h : i = as.length - 1
    · rw [if_pos h, if_pos (by omega)]
    · rw [if_neg h, if_neg (by omega)]; rfl

/-- The lengths of a complete chain add up to the bytes it was built for (R151). -/
theorem ChainForm.sum_len {p : Params} {m : Memory} {wr : NatSet} {b : Word} {va n T : Nat} (h : ChainForm p m wr b va n T)
    (hn : n = cdiv T pageSize) : ((List.range n).map (fun i => (m.readDesc i).len.toNat)).sum = T := by
  have key : ∀ k ≤ n, ((List.range k).map (fun i => (m.readDesc i).len.toNat)).sum = min (k * pageSize) T := by
    intro k
    induction k with
    | zero => simp
    | succ k ih =>
      intro hk
      rw [List.range_succ, List.map_append, List.sum_append, ih (by omega), List.map_singleton, List.sum_singleton,
        h.len k (by omega), Nat.succ_mul]
      omega
  rw [key n (Nat.le_refl _), hn]
  unfold cdiv pageSize; omega

/-- The pages of a list that BUILD_CHAIN accepts are the buffer's, one after the other (R52, R141). -/
theorem pagesOk_getD {maxPages : Nat} {bufVA : Option Nat} {pages : List Nat} (h : pagesOk maxPages bufVA pages = true) :
    ∃ va, bufVA = some va ∧ va % pageSize = 0 ∧ pages.length ≤ maxPages ∧
      ∀ i < pages.length, pages.getD i 0 = va + i * pageSize := by
  unfold pagesOk at h
  split at h
  · rename_i va
    simp only [Bool.and_eq_true, decide_eq_true_eq, beq_iff_eq] at h
    refine ⟨va, rfl, h.1.2, h.1.1.2, fun i hi => ?_⟩
    rw [h.2]
    simp [pageList, hi]
  · cases h

/-- The pages INITIALIZE lists are ones BUILD_CHAIN accepts (R141). -/
theorem pagesOk_pageList {maxPages va n : Nat} (h1 : 1 ≤ n) (hn : n ≤ maxPages) (ha : va % pageSize = 0) :
    pagesOk maxPages (some va) (pageList va n) = true := by
  simp [pagesOk, pageList, h1, hn, ha]

/-! ### Links -/

/-- A record's bus address leads back to it (R160). -/
theorem indexOf_descAddress (bus : Word) (maxPages i : Nat) (hi : i < maxPages) (hb : bus.toNat + i * descSize < 2 ^ 32) :
    indexOf bus maxPages (descAddress bus i) = some i := by
  have h : (descAddress bus i).toNat = bus.toNat + i * descSize := by
    unfold descAddress
    rw [BitVec.toNat_add, BitVec.toNat_ofNat, Nat.mod_eq_of_lt (a := i * descSize) (by omega)]
    exact Nat.mod_eq_of_lt hb
  unfold indexOf
  rw [h, Nat.add_sub_cancel_left]
  unfold descSize
  rw [if_pos (by omega), Nat.mul_div_cancel _ (by omega)]

end Sys2Proof.Machine
end

