-- ==== Sys2Proof/Laws/Effects.lean ====
section
/-!
SUPPORT. What each operation's named effect does to each field of the state: one lemma per field and effect, so that no proof unfolds
an effect. What ENCODE does to buffer, dirty set and cursors is in Laws/Encoder.
-/

namespace Sys2Proof.Machine

/-! ### sizeEffect -/

@[simp] theorem sizeEffect_params (s : State) : (sizeEffect s).params = s.params := rfl
@[simp] theorem sizeEffect_freq (s : State) : (sizeEffect s).freq = s.freq := rfl
@[simp] theorem sizeEffect_dmaIdx (s : State) : (sizeEffect s).dmaIdx = s.dmaIdx := rfl
@[simp] theorem sizeEffect_pin (s : State) : (sizeEffect s).pin = s.pin := rfl
@[simp] theorem sizeEffect_invert (s : State) : (sizeEffect s).invert = s.invert := rfl
@[simp] theorem sizeEffect_count (s : State) : (sizeEffect s).count = s.count := rfl
@[simp] theorem sizeEffect_col (s : State) : (sizeEffect s).col = s.col := rfl
@[simp] theorem sizeEffect_regsMapped (s : State) : (sizeEffect s).regsMapped = s.regsMapped := rfl
@[simp] theorem sizeEffect_pinsBound (s : State) : (sizeEffect s).pinsBound = s.pinsBound := rfl
@[simp] theorem sizeEffect_pwmOn (s : State) : (sizeEffect s).pwmOn = s.pwmOn := rfl
@[simp] theorem sizeEffect_chainHead (s : State) : (sizeEffect s).chainHead = s.chainHead := rfl
@[simp] theorem sizeEffect_descBus (s : State) : (sizeEffect s).descBus = s.descBus := rfl
@[simp] theorem sizeEffect_descVA (s : State) : (sizeEffect s).descVA = s.descVA := rfl
@[simp] theorem sizeEffect_descBytes (s : State) : (sizeEffect s).descBytes = s.descBytes := rfl
@[simp] theorem sizeEffect_bufVA (s : State) : (sizeEffect s).bufVA = s.bufVA := rfl
@[simp] theorem sizeEffect_pages (s : State) : (sizeEffect s).pages = s.pages := rfl
@[simp] theorem sizeEffect_maxLeds (s : State) : (sizeEffect s).maxLeds = max s.count.c0 s.count.c1 := rfl
@[simp] theorem sizeEffect_bufBytes (s : State) :
    (sizeEffect s).bufBytes = pwmByteCount s.params (max s.count.c0 s.count.c1) s.freq := rfl
@[simp] theorem sizeEffect_phase (s : State) : (sizeEffect s).phase = s.phase := rfl
@[simp] theorem sizeEffect_inInit (s : State) : (sizeEffect s).inInit = s.inInit := rfl
@[simp] theorem sizeEffect_blocked (s : State) : (sizeEffect s).blocked = none := rfl
@[simp] theorem sizeEffect_polls (s : State) : (sizeEffect s).polls = 0 := rfl
@[simp] theorem sizeEffect_result (s : State) : (sizeEffect s).result = .ok := rfl
@[simp] theorem sizeEffect_buf (s : State) : (sizeEffect s).buf = s.buf := rfl
@[simp] theorem sizeEffect_busbuf (s : State) : (sizeEffect s).busbuf = s.busbuf := rfl
@[simp] theorem sizeEffect_flushed (s : State) : (sizeEffect s).flushed = s.flushed := rfl
@[simp] theorem sizeEffect_desc (s : State) : (sizeEffect s).desc = s.desc := rfl
@[simp] theorem sizeEffect_descWritten (s : State) : (sizeEffect s).descWritten = s.descWritten := rfl
@[simp] theorem sizeEffect_fifo (s : State) : (sizeEffect s).fifo = s.fifo := rfl
@[simp] theorem sizeEffect_wireCut (s : State) : (sizeEffect s).wireCut = s.wireCut := rfl
@[simp] theorem sizeEffect_cursor (s : State) : (sizeEffect s).cursor = s.cursor := rfl
@[simp] theorem sizeEffect_bldPages (s : State) : (sizeEffect s).bldPages = s.bldPages := rfl
@[simp] theorem sizeEffect_bldIdx (s : State) : (sizeEffect s).bldIdx = s.bldIdx := rfl
@[simp] theorem sizeEffect_bldRemaining (s : State) : (sizeEffect s).bldRemaining = s.bldRemaining := rfl
@[simp] theorem sizeEffect_dma (s : State) : (sizeEffect s).dma = s.dma := rfl
@[simp] theorem sizeEffect_engine (s : State) : (sizeEffect s).engine = s.engine := rfl
@[simp] theorem sizeEffect_cbAddr (s : State) : (sizeEffect s).cbAddr = s.cbAddr := rfl
@[simp] theorem sizeEffect_prioritySet (s : State) : (sizeEffect s).prioritySet = s.prioritySet := rfl
@[simp] theorem sizeEffect_primedInv (s : State) : (sizeEffect s).primedInv = s.primedInv := rfl
@[simp] theorem sizeEffect_chainValid (s : State) : (sizeEffect s).chainValid = s.chainValid := rfl
@[simp] theorem sizeEffect_chainFor (s : State) : (sizeEffect s).chainFor = s.chainFor := rfl
@[simp] theorem sizeEffect_dirty (s : State) : (sizeEffect s).dirty = s.dirty := rfl
@[simp] theorem sizeEffect_descDirty (s : State) : (sizeEffect s).descDirty = s.descDirty := rfl
@[simp] theorem sizeEffect_frameOk (s : State) : (sizeEffect s).frameOk = s.frameOk := rfl
@[simp] theorem sizeEffect_stale (s : State) : (sizeEffect s).stale = s.stale := rfl
@[simp] theorem sizeEffect_cmds (s : State) : (sizeEffect s).cmds = s.cmds := rfl
@[simp] theorem sizeEffect_report (s : State) : (sizeEffect s).report = s.report := rfl
@[simp] theorem sizeEffect_turn (s : State) : (sizeEffect s).turn = s.turn := rfl
@[simp] theorem sizeEffect_tick (s : State) : (sizeEffect s).tick = s.tick := rfl
@[simp] theorem sizeEffect_draws (s : State) : (sizeEffect s).draws = s.draws := rfl

/-! ### primeEffect -/

@[simp] theorem primeEffect_params (s : State) : (primeEffect s).params = s.params := rfl
@[simp] theorem primeEffect_freq (s : State) : (primeEffect s).freq = s.freq := rfl
@[simp] theorem primeEffect_dmaIdx (s : State) : (primeEffect s).dmaIdx = s.dmaIdx := rfl
@[simp] theorem primeEffect_pin (s : State) : (primeEffect s).pin = s.pin := rfl
@[simp] theorem primeEffect_invert (s : State) : (primeEffect s).invert = s.invert := rfl
@[simp] theorem primeEffect_count (s : State) : (primeEffect s).count = s.count := rfl
@[simp] theorem primeEffect_col (s : State) : (primeEffect s).col = s.col := rfl
@[simp] theorem primeEffect_regsMapped (s : State) : (primeEffect s).regsMapped = s.regsMapped := rfl
@[simp] theorem primeEffect_pinsBound (s : State) : (primeEffect s).pinsBound = s.pinsBound := rfl
@[simp] theorem primeEffect_pwmOn (s : State) : (primeEffect s).pwmOn = s.pwmOn := rfl
@[simp] theorem primeEffect_chainHead (s : State) : (primeEffect s).chainHead = s.chainHead := rfl
@[simp] theorem primeEffect_descBus (s : State) : (primeEffect s).descBus = s.descBus := rfl
@[simp] theorem primeEffect_descVA (s : State) : (primeEffect s).descVA = s.descVA := rfl
@[simp] theorem primeEffect_descBytes (s : State) : (primeEffect s).descBytes = s.descBytes := rfl
@[simp] theorem primeEffect_bufVA (s : State) : (primeEffect s).bufVA = s.bufVA := rfl
@[simp] theorem primeEffect_pages (s : State) : (primeEffect s).pages = s.pages := rfl
@[simp] theorem primeEffect_maxLeds (s : State) : (primeEffect s).maxLeds = s.maxLeds := rfl
@[simp] theorem primeEffect_bufBytes (s : State) : (primeEffect s).bufBytes = s.bufBytes := rfl
@[simp] theorem primeEffect_phase (s : State) : (primeEffect s).phase = s.phase := rfl
@[simp] theorem primeEffect_inInit (s : State) : (primeEffect s).inInit = s.inInit := rfl
@[simp] theorem primeEffect_blocked (s : State) : (primeEffect s).blocked = none := rfl
@[simp] theorem primeEffect_polls (s : State) : (primeEffect s).polls = 0 := rfl
@[simp] theorem primeEffect_result (s : State) : (primeEffect s).result = .ok := rfl
@[simp] theorem primeEffect_buf (s : State) : (primeEffect s).buf = primeWords s.invert s.buf s.bufWords := rfl
@[simp] theorem primeEffect_busbuf (s : State) : (primeEffect s).busbuf = s.busbuf := rfl
@[simp] theorem primeEffect_flushed (s : State) : (primeEffect s).flushed = s.flushed := rfl
@[simp] theorem primeEffect_desc (s : State) : (primeEffect s).desc = s.desc := rfl
@[simp] theorem primeEffect_descWritten (s : State) : (primeEffect s).descWritten = s.descWritten := rfl
@[simp] theorem primeEffect_fifo (s : State) : (primeEffect s).fifo = s.fifo := rfl
@[simp] theorem primeEffect_wireCut (s : State) : (primeEffect s).wireCut = s.wireCut := rfl
@[simp] theorem primeEffect_cursor (s : State) : (primeEffect s).cursor = s.cursor := rfl
@[simp] theorem primeEffect_bldPages (s : State) : (primeEffect s).bldPages = s.bldPages := rfl
@[simp] theorem primeEffect_bldIdx (s : State) : (primeEffect s).bldIdx = s.bldIdx := rfl
@[simp] theorem primeEffect_bldRemaining (s : State) : (primeEffect s).bldRemaining = s.bldRemaining := rfl
@[simp] theorem primeEffect_dma (s : State) : (primeEffect s).dma = s.dma := rfl
@[simp] theorem primeEffect_engine (s : State) : (primeEffect s).engine = s.engine := rfl
@[simp] theorem primeEffect_cbAddr (s : State) : (primeEffect s).cbAddr = s.cbAddr := rfl
@[simp] theorem primeEffect_prioritySet (s : State) : (primeEffect s).prioritySet = s.prioritySet := rfl
@[simp] theorem primeEffect_primedInv (s : State) : (primeEffect s).primedInv = ⟨some s.invert.c0, some s.invert.c1⟩ := rfl
@[simp] theorem primeEffect_chainValid (s : State) : (primeEffect s).chainValid = s.chainValid := rfl
@[simp] theorem primeEffect_chainFor (s : State) : (primeEffect s).chainFor = s.chainFor := rfl
@[simp] theorem primeEffect_dirty (s : State) : (primeEffect s).dirty = NatSet.insertAll s.dirty (List.range s.bufWords) := rfl
@[simp] theorem primeEffect_descDirty (s : State) : (primeEffect s).descDirty = s.descDirty := rfl
@[simp] theorem primeEffect_frameOk (s : State) : (primeEffect s).frameOk = false := rfl
@[simp] theorem primeEffect_stale (s : State) : (primeEffect s).stale = ⟨0, 0⟩ := rfl
@[simp] theorem primeEffect_cmds (s : State) : (primeEffect s).cmds = s.cmds := rfl
@[simp] theorem primeEffect_report (s : State) : (primeEffect s).report = s.report := rfl
@[simp] theorem primeEffect_turn (s : State) : (primeEffect s).turn = s.turn := rfl
@[simp] theorem primeEffect_tick (s : State) : (primeEffect s).tick = s.tick := rfl
@[simp] theorem primeEffect_draws (s : State) : (primeEffect s).draws = s.draws := rfl

/-! ### encodeEffect -/

@[simp] theorem encodeEffect_params (s : State) : (encodeEffect s).params = s.params := rfl
@[simp] theorem encodeEffect_freq (s : State) : (encodeEffect s).freq = s.freq := rfl
@[simp] theorem encodeEffect_dmaIdx (s : State) : (encodeEffect s).dmaIdx = s.dmaIdx := rfl
@[simp] theorem encodeEffect_pin (s : State) : (encodeEffect s).pin = s.pin := rfl
@[simp] theorem encodeEffect_invert (s : State) : (encodeEffect s).invert = s.invert := rfl
@[simp] theorem encodeEffect_count (s : State) : (encodeEffect s).count = s.count := rfl
@[simp] theorem encodeEffect_col (s : State) : (encodeEffect s).col = s.col := rfl
@[simp] theorem encodeEffect_regsMapped (s : State) : (encodeEffect s).regsMapped = s.regsMapped := rfl
@[simp] theorem encodeEffect_pinsBound (s : State) : (encodeEffect s).pinsBound = s.pinsBound := rfl
@[simp] theorem encodeEffect_pwmOn (s : State) : (encodeEffect s).pwmOn = s.pwmOn := rfl
@[simp] theorem encodeEffect_chainHead (s : State) : (encodeEffect s).chainHead = s.chainHead := rfl
@[simp] theorem encodeEffect_descBus (s : State) : (encodeEffect s).descBus = s.descBus := rfl
@[simp] theorem encodeEffect_descVA (s : State) : (encodeEffect s).descVA = s.descVA := rfl
@[simp] theorem encodeEffect_descBytes (s : State) : (encodeEffect s).descBytes = s.descBytes := rfl
@[simp] theorem encodeEffect_bufVA (s : State) : (encodeEffect s).bufVA = s.bufVA := rfl
@[simp] theorem encodeEffect_pages (s : State) : (encodeEffect s).pages = s.pages := rfl
@[simp] theorem encodeEffect_maxLeds (s : State) : (encodeEffect s).maxLeds = s.maxLeds := rfl
@[simp] theorem encodeEffect_bufBytes (s : State) : (encodeEffect s).bufBytes = s.bufBytes := rfl
@[simp] theorem encodeEffect_phase (s : State) : (encodeEffect s).phase = s.phase := rfl
@[simp] theorem encodeEffect_inInit (s : State) : (encodeEffect s).inInit = s.inInit := rfl
@[simp] theorem encodeEffect_blocked (s : State) : (encodeEffect s).blocked = none := rfl
@[simp] theorem encodeEffect_polls (s : State) : (encodeEffect s).polls = 0 := rfl
@[simp] theorem encodeEffect_result (s : State) : (encodeEffect s).result = .ok := rfl
@[simp] theorem encodeEffect_busbuf (s : State) : (encodeEffect s).busbuf = s.busbuf := rfl
@[simp] theorem encodeEffect_flushed (s : State) : (encodeEffect s).flushed = s.flushed := rfl
@[simp] theorem encodeEffect_desc (s : State) : (encodeEffect s).desc = s.desc := rfl
@[simp] theorem encodeEffect_descWritten (s : State) : (encodeEffect s).descWritten = s.descWritten := rfl
@[simp] theorem encodeEffect_fifo (s : State) : (encodeEffect s).fifo = s.fifo := rfl
@[simp] theorem encodeEffect_wireCut (s : State) : (encodeEffect s).wireCut = s.wireCut := rfl
@[simp] theorem encodeEffect_bldPages (s : State) : (encodeEffect s).bldPages = s.bldPages := rfl
@[simp] theorem encodeEffect_bldIdx (s : State) : (encodeEffect s).bldIdx = s.bldIdx := rfl
@[simp] theorem encodeEffect_bldRemaining (s : State) : (encodeEffect s).bldRemaining = s.bldRemaining := rfl
@[simp] theorem encodeEffect_dma (s : State) : (encodeEffect s).dma = s.dma := rfl
@[simp] theorem encodeEffect_engine (s : State) : (encodeEffect s).engine = s.engine := rfl
@[simp] theorem encodeEffect_cbAddr (s : State) : (encodeEffect s).cbAddr = s.cbAddr := rfl
@[simp] theorem encodeEffect_prioritySet (s : State) : (encodeEffect s).prioritySet = s.prioritySet := rfl
@[simp] theorem encodeEffect_primedInv (s : State) : (encodeEffect s).primedInv = s.primedInv := rfl
@[simp] theorem encodeEffect_chainValid (s : State) : (encodeEffect s).chainValid = s.chainValid := rfl
@[simp] theorem encodeEffect_chainFor (s : State) : (encodeEffect s).chainFor = s.chainFor := rfl
@[simp] theorem encodeEffect_descDirty (s : State) : (encodeEffect s).descDirty = s.descDirty := rfl
@[simp] theorem encodeEffect_frameOk (s : State) : (encodeEffect s).frameOk = s.frameOkAfterEncode := rfl
@[simp] theorem encodeEffect_stale (s : State) : (encodeEffect s).stale = s.staleAfterEncode := rfl
@[simp] theorem encodeEffect_cmds (s : State) : (encodeEffect s).cmds = s.cmds := rfl
@[simp] theorem encodeEffect_report (s : State) : (encodeEffect s).report = s.report := rfl
@[simp] theorem encodeEffect_turn (s : State) : (encodeEffect s).turn = s.turn := rfl
@[simp] theorem encodeEffect_tick (s : State) : (encodeEffect s).tick = s.tick := rfl
@[simp] theorem encodeEffect_draws (s : State) : (encodeEffect s).draws = s.draws := rfl

/-! ### putBitEffect -/

@[simp] theorem putBitEffect_params (c : Chan) (x : Bool) (s : State) : (putBitEffect c x s).params = s.params := rfl
@[simp] theorem putBitEffect_freq (c : Chan) (x : Bool) (s : State) : (putBitEffect c x s).freq = s.freq := rfl
@[simp] theorem putBitEffect_dmaIdx (c : Chan) (x : Bool) (s : State) : (putBitEffect c x s).dmaIdx = s.dmaIdx := rfl
@[simp] theorem putBitEffect_pin (c : Chan) (x : Bool) (s : State) : (putBitEffect c x s).pin = s.pin := rfl
@[simp] theorem putBitEffect_invert (c : Chan) (x : Bool) (s : State) : (putBitEffect c x s).invert = s.invert := rfl
@[simp] theorem putBitEffect_count (c : Chan) (x : Bool) (s : State) : (putBitEffect c x s).count = s.count := rfl
@[simp] theorem putBitEffect_col (c : Chan) (x : Bool) (s : State) : (putBitEffect c x s).col = s.col := rfl
@[simp] theorem putBitEffect_regsMapped (c : Chan) (x : Bool) (s : State) : (putBitEffect c x s).regsMapped = s.regsMapped := rfl
@[simp] theorem putBitEffect_pinsBound (c : Chan) (x : Bool) (s : State) : (putBitEffect c x s).pinsBound = s.pinsBound := rfl
@[simp] theorem putBitEffect_pwmOn (c : Chan) (x : Bool) (s : State) : (putBitEffect c x s).pwmOn = s.pwmOn := rfl
@[simp] theorem putBitEffect_chainHead (c : Chan) (x : Bool) (s : State) : (putBitEffect c x s).chainHead = s.chainHead := rfl
@[simp] theorem putBitEffect_descBus (c : Chan) (x : Bool) (s : State) : (putBitEffect c x s).descBus = s.descBus := rfl
@[simp] theorem putBitEffect_descVA (c : Chan) (x : Bool) (s : State) : (putBitEffect c x s).descVA = s.descVA := rfl
@[simp] theorem putBitEffect_descBytes (c : Chan) (x : Bool) (s : State) : (putBitEffect c x s).descBytes = s.descBytes := rfl
@[simp] theorem putBitEffect_bufVA (c : Chan) (x : Bool) (s : State) : (putBitEffect c x s).bufVA = s.bufVA := rfl
@[simp] theorem putBitEffect_pages (c : Chan) (x : Bool) (s : State) : (putBitEffect c x s).pages = s.pages := rfl
@[simp] theorem putBitEffect_maxLeds (c : Chan) (x : Bool) (s : State) : (putBitEffect c x s).maxLeds = s.maxLeds := rfl
@[simp] theorem putBitEffect_bufBytes (c : Chan) (x : Bool) (s : State) : (putBitEffect c x s).bufBytes = s.bufBytes := rfl
@[simp] theorem putBitEffect_phase (c : Chan) (x : Bool) (s : State) : (putBitEffect c x s).phase = s.phase := rfl
@[simp] theorem putBitEffect_inInit (c : Chan) (x : Bool) (s : State) : (putBitEffect c x s).inInit = s.inInit := rfl
@[simp] theorem putBitEffect_blocked (c : Chan) (x : Bool) (s : State) : (putBitEffect c x s).blocked = none := rfl
@[simp] theorem putBitEffect_polls (c : Chan) (x : Bool) (s : State) : (putBitEffect c x s).polls = 0 := rfl
@[simp] theorem putBitEffect_result (c : Chan) (x : Bool) (s : State) : (putBitEffect c x s).result = .ok := rfl
@[simp] theorem putBitEffect_buf (c : Chan) (x : Bool) (s : State) :
    (putBitEffect c x s).buf = (lanePutBit c ⟨s.buf, s.dirty, s.cursor.get c⟩ x).buf := rfl
@[simp] theorem putBitEffect_busbuf (c : Chan) (x : Bool) (s : State) : (putBitEffect c x s).busbuf = s.busbuf := rfl
@[simp] theorem putBitEffect_flushed (c : Chan) (x : Bool) (s : State) : (putBitEffect c x s).flushed = s.flushed := rfl
@[simp] theorem putBitEffect_desc (c : Chan) (x : Bool) (s : State) : (putBitEffect c x s).desc = s.desc := rfl
@[simp] theorem putBitEffect_descWritten (c : Chan) (x : Bool) (s : State) : (putBitEffect c x s).descWritten = s.descWritten := rfl
@[simp] theorem putBitEffect_fifo (c : Chan) (x : Bool) (s : State) : (putBitEffect c x s).fifo = s.fifo := rfl
@[simp] theorem putBitEffect_wireCut (c : Chan) (x : Bool) (s : State) : (putBitEffect c x s).wireCut = s.wireCut := rfl
@[simp] theorem putBitEffect_cursor (c : Chan) (x : Bool) (s : State) :
    (putBitEffect c x s).cursor = s.cursor.set c (s.cursor.get c).next := rfl
@[simp] theorem putBitEffect_bldPages (c : Chan) (x : Bool) (s : State) : (putBitEffect c x s).bldPages = s.bldPages := rfl
@[simp] theorem putBitEffect_bldIdx (c : Chan) (x : Bool) (s : State) : (putBitEffect c x s).bldIdx = s.bldIdx := rfl
@[simp] theorem putBitEffect_bldRemaining (c : Chan) (x : Bool) (s : State) :
    (putBitEffect c x s).bldRemaining = s.bldRemaining := rfl
@[simp] theorem putBitEffect_dma (c : Chan) (x : Bool) (s : State) : (putBitEffect c x s).dma = s.dma := rfl
@[simp] theorem putBitEffect_engine (c : Chan) (x : Bool) (s : State) : (putBitEffect c x s).engine = s.engine := rfl
@[simp] theorem putBitEffect_cbAddr (c : Chan) (x : Bool) (s : State) : (putBitEffect c x s).cbAddr = s.cbAddr := rfl
@[simp] theorem putBitEffect_prioritySet (c : Chan) (x : Bool) (s : State) : (putBitEffect c x s).prioritySet = s.prioritySet := rfl
@[simp] theorem putBitEffect_primedInv (c : Chan) (x : Bool) (s : State) : (putBitEffect c x s).primedInv = s.primedInv := rfl
@[simp] theorem putBitEffect_chainValid (c : Chan) (x : Bool) (s : State) : (putBitEffect c x s).chainValid = s.chainValid := rfl
@[simp] theorem putBitEffect_chainFor (c : Chan) (x : Bool) (s : State) : (putBitEffect c x s).chainFor = s.chainFor := rfl
@[simp] theorem putBitEffect_dirty (c : Chan) (x : Bool) (s : State) :
    (putBitEffect c x s).dirty = (lanePutBit c ⟨s.buf, s.dirty, s.cursor.get c⟩ x).dirty := rfl
@[simp] theorem putBitEffect_descDirty (c : Chan) (x : Bool) (s : State) : (putBitEffect c x s).descDirty = s.descDirty := rfl
@[simp] theorem putBitEffect_frameOk (c : Chan) (x : Bool) (s : State) : (putBitEffect c x s).frameOk = s.frameOk := rfl
@[simp] theorem putBitEffect_stale (c : Chan) (x : Bool) (s : State) : (putBitEffect c x s).stale = s.stale := rfl
@[simp] theorem putBitEffect_cmds (c : Chan) (x : Bool) (s : State) : (putBitEffect c x s).cmds = s.cmds := rfl
@[simp] theorem putBitEffect_report (c : Chan) (x : Bool) (s : State) : (putBitEffect c x s).report = s.report := rfl
@[simp] theorem putBitEffect_turn (c : Chan) (x : Bool) (s : State) : (putBitEffect c x s).turn = s.turn := rfl
@[simp] theorem putBitEffect_tick (c : Chan) (x : Bool) (s : State) : (putBitEffect c x s).tick = s.tick := rfl
@[simp] theorem putBitEffect_draws (c : Chan) (x : Bool) (s : State) : (putBitEffect c x s).draws = s.draws := rfl

/-! ### flushEffect -/

@[simp] theorem flushEffect_params (lo hi : Nat) (s : State) : (flushEffect lo hi s).params = s.params := rfl
@[simp] theorem flushEffect_freq (lo hi : Nat) (s : State) : (flushEffect lo hi s).freq = s.freq := rfl
@[simp] theorem flushEffect_dmaIdx (lo hi : Nat) (s : State) : (flushEffect lo hi s).dmaIdx = s.dmaIdx := rfl
@[simp] theorem flushEffect_pin (lo hi : Nat) (s : State) : (flushEffect lo hi s).pin = s.pin := rfl
@[simp] theorem flushEffect_invert (lo hi : Nat) (s : State) : (flushEffect lo hi s).invert = s.invert := rfl
@[simp] theorem flushEffect_count (lo hi : Nat) (s : State) : (flushEffect lo hi s).count = s.count := rfl
@[simp] theorem flushEffect_col (lo hi : Nat) (s : State) : (flushEffect lo hi s).col = s.col := rfl
@[simp] theorem flushEffect_regsMapped (lo hi : Nat) (s : State) : (flushEffect lo hi s).regsMapped = s.regsMapped := rfl
@[simp] theorem flushEffect_pinsBound (lo hi : Nat) (s : State) : (flushEffect lo hi s).pinsBound = s.pinsBound := rfl
@[simp] theorem flushEffect_pwmOn (lo hi : Nat) (s : State) : (flushEffect lo hi s).pwmOn = s.pwmOn := rfl
@[simp] theorem flushEffect_chainHead (lo hi : Nat) (s : State) : (flushEffect lo hi s).chainHead = s.chainHead := rfl
@[simp] theorem flushEffect_descBus (lo hi : Nat) (s : State) : (flushEffect lo hi s).descBus = s.descBus := rfl
@[simp] theorem flushEffect_descVA (lo hi : Nat) (s : State) : (flushEffect lo hi s).descVA = s.descVA := rfl
@[simp] theorem flushEffect_descBytes (lo hi : Nat) (s : State) : (flushEffect lo hi s).descBytes = s.descBytes := rfl
@[simp] theorem flushEffect_bufVA (lo hi : Nat) (s : State) : (flushEffect lo hi s).bufVA = s.bufVA := rfl
@[simp] theorem flushEffect_pages (lo hi : Nat) (s : State) : (flushEffect lo hi s).pages = s.pages := rfl
@[simp] theorem flushEffect_maxLeds (lo hi : Nat) (s : State) : (flushEffect lo hi s).maxLeds = s.maxLeds := rfl
@[simp] theorem flushEffect_bufBytes (lo hi : Nat) (s : State) : (flushEffect lo hi s).bufBytes = s.bufBytes := rfl
@[simp] theorem flushEffect_phase (lo hi : Nat) (s : State) : (flushEffect lo hi s).phase = s.phase := rfl
@[simp] theorem flushEffect_inInit (lo hi : Nat) (s : State) : (flushEffect lo hi s).inInit = s.inInit := rfl
@[simp] theorem flushEffect_blocked (lo hi : Nat) (s : State) : (flushEffect lo hi s).blocked = none := rfl
@[simp] theorem flushEffect_polls (lo hi : Nat) (s : State) : (flushEffect lo hi s).polls = 0 := rfl
@[simp] theorem flushEffect_result (lo hi : Nat) (s : State) : (flushEffect lo hi s).result = .ok := rfl
@[simp] theorem flushEffect_buf (lo hi : Nat) (s : State) : (flushEffect lo hi s).buf = s.buf := rfl
@[simp] theorem flushEffect_busbuf (lo hi : Nat) (s : State) :
    (flushEffect lo hi s).busbuf = flushWords s.buf s.busbuf (coveredWords lo hi) := rfl
@[simp] theorem flushEffect_flushed (lo hi : Nat) (s : State) :
    (flushEffect lo hi s).flushed = NatSet.insertAll s.flushed (coveredWords lo hi) := rfl
@[simp] theorem flushEffect_desc (lo hi : Nat) (s : State) : (flushEffect lo hi s).desc = s.desc := rfl
@[simp] theorem flushEffect_descWritten (lo hi : Nat) (s : State) : (flushEffect lo hi s).descWritten = s.descWritten := rfl
@[simp] theorem flushEffect_fifo (lo hi : Nat) (s : State) : (flushEffect lo hi s).fifo = s.fifo := rfl
@[simp] theorem flushEffect_wireCut (lo hi : Nat) (s : State) : (flushEffect lo hi s).wireCut = s.wireCut := rfl
@[simp] theorem flushEffect_cursor (lo hi : Nat) (s : State) : (flushEffect lo hi s).cursor = s.cursor := rfl
@[simp] theorem flushEffect_bldPages (lo hi : Nat) (s : State) : (flushEffect lo hi s).bldPages = s.bldPages := rfl
@[simp] theorem flushEffect_bldIdx (lo hi : Nat) (s : State) : (flushEffect lo hi s).bldIdx = s.bldIdx := rfl
@[simp] theorem flushEffect_bldRemaining (lo hi : Nat) (s : State) : (flushEffect lo hi s).bldRemaining = s.bldRemaining := rfl
@[simp] theorem flushEffect_dma (lo hi : Nat) (s : State) : (flushEffect lo hi s).dma = s.dma := rfl
@[simp] theorem flushEffect_engine (lo hi : Nat) (s : State) : (flushEffect lo hi s).engine = s.engine := rfl
@[simp] theorem flushEffect_cbAddr (lo hi : Nat) (s : State) : (flushEffect lo hi s).cbAddr = s.cbAddr := rfl
@[simp] theorem flushEffect_prioritySet (lo hi : Nat) (s : State) : (flushEffect lo hi s).prioritySet = s.prioritySet := rfl
@[simp] theorem flushEffect_primedInv (lo hi : Nat) (s : State) : (flushEffect lo hi s).primedInv = s.primedInv := rfl
@[simp] theorem flushEffect_chainValid (lo hi : Nat) (s : State) : (flushEffect lo hi s).chainValid = s.chainValid := rfl
@[simp] theorem flushEffect_chainFor (lo hi : Nat) (s : State) : (flushEffect lo hi s).chainFor = s.chainFor := rfl
@[simp] theorem flushEffect_dirty (lo hi : Nat) (s : State) :
    (flushEffect lo hi s).dirty = s.dirty.filter (fun w => !covered lo hi w) := rfl
@[simp] theorem flushEffect_descDirty (lo hi : Nat) (s : State) : (flushEffect lo hi s).descDirty = s.descDirty := rfl
@[simp] theorem flushEffect_frameOk (lo hi : Nat) (s : State) : (flushEffect lo hi s).frameOk = s.frameOk := rfl
@[simp] theorem flushEffect_stale (lo hi : Nat) (s : State) : (flushEffect lo hi s).stale = s.stale := rfl
@[simp] theorem flushEffect_cmds (lo hi : Nat) (s : State) : (flushEffect lo hi s).cmds = s.cmds := rfl
@[simp] theorem flushEffect_report (lo hi : Nat) (s : State) : (flushEffect lo hi s).report = s.report := rfl
@[simp] theorem flushEffect_turn (lo hi : Nat) (s : State) : (flushEffect lo hi s).turn = s.turn := rfl
@[simp] theorem flushEffect_tick (lo hi : Nat) (s : State) : (flushEffect lo hi s).tick = s.tick := rfl
@[simp] theorem flushEffect_draws (lo hi : Nat) (s : State) : (flushEffect lo hi s).draws = s.draws := rfl

/-! ### flushDescEffect -/

@[simp] theorem flushDescEffect_params (s : State) : (flushDescEffect s).params = s.params := rfl
@[simp] theorem flushDescEffect_freq (s : State) : (flushDescEffect s).freq = s.freq := rfl
@[simp] theorem flushDescEffect_dmaIdx (s : State) : (flushDescEffect s).dmaIdx = s.dmaIdx := rfl
@[simp] theorem flushDescEffect_pin (s : State) : (flushDescEffect s).pin = s.pin := rfl
@[simp] theorem flushDescEffect_invert (s : State) : (flushDescEffect s).invert = s.invert := rfl
@[simp] theorem flushDescEffect_count (s : State) : (flushDescEffect s).count = s.count := rfl
@[simp] theorem flushDescEffect_col (s : State) : (flushDescEffect s).col = s.col := rfl
@[simp] theorem flushDescEffect_regsMapped (s : State) : (flushDescEffect s).regsMapped = s.regsMapped := rfl
@[simp] theorem flushDescEffect_pinsBound (s : State) : (flushDescEffect s).pinsBound = s.pinsBound := rfl
@[simp] theorem flushDescEffect_pwmOn (s : State) : (flushDescEffect s).pwmOn = s.pwmOn := rfl
@[simp] theorem flushDescEffect_chainHead (s : State) : (flushDescEffect s).chainHead = s.chainHead := rfl
@[simp] theorem flushDescEffect_descBus (s : State) : (flushDescEffect s).descBus = s.descBus := rfl
@[simp] theorem flushDescEffect_descVA (s : State) : (flushDescEffect s).descVA = s.descVA := rfl
@[simp] theorem flushDescEffect_descBytes (s : State) : (flushDescEffect s).descBytes = s.descBytes := rfl
@[simp] theorem flushDescEffect_bufVA (s : State) : (flushDescEffect s).bufVA = s.bufVA := rfl
@[simp] theorem flushDescEffect_pages (s : State) : (flushDescEffect s).pages = s.pages := rfl
@[simp] theorem flushDescEffect_maxLeds (s : State) : (flushDescEffect s).maxLeds = s.maxLeds := rfl
@[simp] theorem flushDescEffect_bufBytes (s : State) : (flushDescEffect s).bufBytes = s.bufBytes := rfl
@[simp] theorem flushDescEffect_phase (s : State) : (flushDescEffect s).phase = s.phase := rfl
@[simp] theorem flushDescEffect_inInit (s : State) : (flushDescEffect s).inInit = s.inInit := rfl
@[simp] theorem flushDescEffect_blocked (s : State) : (flushDescEffect s).blocked = none := rfl
@[simp] theorem flushDescEffect_polls (s : State) : (flushDescEffect s).polls = 0 := rfl
@[simp] theorem flushDescEffect_result (s : State) : (flushDescEffect s).result = .ok := rfl
@[simp] theorem flushDescEffect_buf (s : State) : (flushDescEffect s).buf = s.buf := rfl
@[simp] theorem flushDescEffect_busbuf (s : State) : (flushDescEffect s).busbuf = s.busbuf := rfl
@[simp] theorem flushDescEffect_flushed (s : State) : (flushDescEffect s).flushed = s.flushed := rfl
@[simp] theorem flushDescEffect_desc (s : State) : (flushDescEffect s).desc = s.desc := rfl
@[simp] theorem flushDescEffect_descWritten (s : State) : (flushDescEffect s).descWritten = s.descWritten := rfl
@[simp] theorem flushDescEffect_fifo (s : State) : (flushDescEffect s).fifo = s.fifo := rfl
@[simp] theorem flushDescEffect_wireCut (s : State) : (flushDescEffect s).wireCut = s.wireCut := rfl
@[simp] theorem flushDescEffect_cursor (s : State) : (flushDescEffect s).cursor = s.cursor := rfl
@[simp] theorem flushDescEffect_bldPages (s : State) : (flushDescEffect s).bldPages = s.bldPages := rfl
@[simp] theorem flushDescEffect_bldIdx (s : State) : (flushDescEffect s).bldIdx = s.bldIdx := rfl
@[simp] theorem flushDescEffect_bldRemaining (s : State) : (flushDescEffect s).bldRemaining = s.bldRemaining := rfl
@[simp] theorem flushDescEffect_dma (s : State) : (flushDescEffect s).dma = s.dma := rfl
@[simp] theorem flushDescEffect_engine (s : State) : (flushDescEffect s).engine = s.engine := rfl
@[simp] theorem flushDescEffect_cbAddr (s : State) : (flushDescEffect s).cbAddr = s.cbAddr := rfl
@[simp] theorem flushDescEffect_prioritySet (s : State) : (flushDescEffect s).prioritySet = s.prioritySet := rfl
@[simp] theorem flushDescEffect_primedInv (s : State) : (flushDescEffect s).primedInv = s.primedInv := rfl
@[simp] theorem flushDescEffect_chainValid (s : State) : (flushDescEffect s).chainValid = s.chainValid := rfl
@[simp] theorem flushDescEffect_chainFor (s : State) : (flushDescEffect s).chainFor = s.chainFor := rfl
@[simp] theorem flushDescEffect_dirty (s : State) : (flushDescEffect s).dirty = s.dirty := rfl
@[simp] theorem flushDescEffect_descDirty (s : State) : (flushDescEffect s).descDirty = false := rfl
@[simp] theorem flushDescEffect_frameOk (s : State) : (flushDescEffect s).frameOk = s.frameOk := rfl
@[simp] theorem flushDescEffect_stale (s : State) : (flushDescEffect s).stale = s.stale := rfl
@[simp] theorem flushDescEffect_cmds (s : State) : (flushDescEffect s).cmds = s.cmds := rfl
@[simp] theorem flushDescEffect_report (s : State) : (flushDescEffect s).report = s.report := rfl
@[simp] theorem flushDescEffect_turn (s : State) : (flushDescEffect s).turn = s.turn := rfl
@[simp] theorem flushDescEffect_tick (s : State) : (flushDescEffect s).tick = s.tick := rfl
@[simp] theorem flushDescEffect_draws (s : State) : (flushDescEffect s).draws = s.draws := rfl

/-! ### waitEffect -/

@[simp] theorem waitEffect_params (s : State) : (waitEffect s).params = s.params := rfl
@[simp] theorem waitEffect_freq (s : State) : (waitEffect s).freq = s.freq := rfl
@[simp] theorem waitEffect_dmaIdx (s : State) : (waitEffect s).dmaIdx = s.dmaIdx := rfl
@[simp] theorem waitEffect_pin (s : State) : (waitEffect s).pin = s.pin := rfl
@[simp] theorem waitEffect_invert (s : State) : (waitEffect s).invert = s.invert := rfl
@[simp] theorem waitEffect_count (s : State) : (waitEffect s).count = s.count := rfl
@[simp] theorem waitEffect_col (s : State) : (waitEffect s).col = s.col := rfl
@[simp] theorem waitEffect_regsMapped (s : State) : (waitEffect s).regsMapped = s.regsMapped := rfl
@[simp] theorem waitEffect_pinsBound (s : State) : (waitEffect s).pinsBound = s.pinsBound := rfl
@[simp] theorem waitEffect_pwmOn (s : State) : (waitEffect s).pwmOn = s.pwmOn := rfl
@[simp] theorem waitEffect_chainHead (s : State) : (waitEffect s).chainHead = s.chainHead := rfl
@[simp] theorem waitEffect_descBus (s : State) : (waitEffect s).descBus = s.descBus := rfl
@[simp] theorem waitEffect_descVA (s : State) : (waitEffect s).descVA = s.descVA := rfl
@[simp] theorem waitEffect_descBytes (s : State) : (waitEffect s).descBytes = s.descBytes := rfl
@[simp] theorem waitEffect_bufVA (s : State) : (waitEffect s).bufVA = s.bufVA := rfl
@[simp] theorem waitEffect_pages (s : State) : (waitEffect s).pages = s.pages := rfl
@[simp] theorem waitEffect_maxLeds (s : State) : (waitEffect s).maxLeds = s.maxLeds := rfl
@[simp] theorem waitEffect_bufBytes (s : State) : (waitEffect s).bufBytes = s.bufBytes := rfl
@[simp] theorem waitEffect_phase (s : State) : (waitEffect s).phase = .ready := rfl
@[simp] theorem waitEffect_inInit (s : State) : (waitEffect s).inInit = s.inInit := rfl
@[simp] theorem waitEffect_blocked (s : State) : (waitEffect s).blocked = none := rfl
@[simp] theorem waitEffect_polls (s : State) : (waitEffect s).polls = 0 := rfl
@[simp] theorem waitEffect_result (s : State) : (waitEffect s).result = .ok := rfl
@[simp] theorem waitEffect_buf (s : State) : (waitEffect s).buf = s.buf := rfl
@[simp] theorem waitEffect_busbuf (s : State) : (waitEffect s).busbuf = s.busbuf := rfl
@[simp] theorem waitEffect_flushed (s : State) : (waitEffect s).flushed = s.flushed := rfl
@[simp] theorem waitEffect_desc (s : State) : (waitEffect s).desc = s.desc := rfl
@[simp] theorem waitEffect_descWritten (s : State) : (waitEffect s).descWritten = s.descWritten := rfl
@[simp] theorem waitEffect_fifo (s : State) : (waitEffect s).fifo = s.fifo := rfl
@[simp] theorem waitEffect_wireCut (s : State) : (waitEffect s).wireCut = s.wireCut := rfl
@[simp] theorem waitEffect_cursor (s : State) : (waitEffect s).cursor = s.cursor := rfl
@[simp] theorem waitEffect_bldPages (s : State) : (waitEffect s).bldPages = s.bldPages := rfl
@[simp] theorem waitEffect_bldIdx (s : State) : (waitEffect s).bldIdx = s.bldIdx := rfl
@[simp] theorem waitEffect_bldRemaining (s : State) : (waitEffect s).bldRemaining = s.bldRemaining := rfl
@[simp] theorem waitEffect_dma (s : State) : (waitEffect s).dma = s.dma := rfl
@[simp] theorem waitEffect_engine (s : State) : (waitEffect s).engine = s.engine := rfl
@[simp] theorem waitEffect_cbAddr (s : State) : (waitEffect s).cbAddr = s.cbAddr := rfl
@[simp] theorem waitEffect_prioritySet (s : State) : (waitEffect s).prioritySet = s.prioritySet := rfl
@[simp] theorem waitEffect_primedInv (s : State) : (waitEffect s).primedInv = s.primedInv := rfl
@[simp] theorem waitEffect_chainValid (s : State) : (waitEffect s).chainValid = s.chainValid := rfl
@[simp] theorem waitEffect_chainFor (s : State) : (waitEffect s).chainFor = s.chainFor := rfl
@[simp] theorem waitEffect_dirty (s : State) : (waitEffect s).dirty = s.dirty := rfl
@[simp] theorem waitEffect_descDirty (s : State) : (waitEffect s).descDirty = s.descDirty := rfl
@[simp] theorem waitEffect_frameOk (s : State) : (waitEffect s).frameOk = s.frameOk := rfl
@[simp] theorem waitEffect_stale (s : State) : (waitEffect s).stale = s.stale := rfl
@[simp] theorem waitEffect_cmds (s : State) : (waitEffect s).cmds = s.cmds := rfl
@[simp] theorem waitEffect_report (s : State) : (waitEffect s).report = s.report := rfl
@[simp] theorem waitEffect_turn (s : State) : (waitEffect s).turn = s.turn := rfl
@[simp] theorem waitEffect_tick (s : State) : (waitEffect s).tick = s.tick := rfl
@[simp] theorem waitEffect_draws (s : State) : (waitEffect s).draws = s.draws := rfl

/-! ### dmaStartEffect -/

@[simp] theorem dmaStartEffect_params (s : State) : (dmaStartEffect s).params = s.params := rfl
@[simp] theorem dmaStartEffect_freq (s : State) : (dmaStartEffect s).freq = s.freq := rfl
@[simp] theorem dmaStartEffect_dmaIdx (s : State) : (dmaStartEffect s).dmaIdx = s.dmaIdx := rfl
@[simp] theorem dmaStartEffect_pin (s : State) : (dmaStartEffect s).pin = s.pin := rfl
@[simp] theorem dmaStartEffect_invert (s : State) : (dmaStartEffect s).invert = s.invert := rfl
@[simp] theorem dmaStartEffect_count (s : State) : (dmaStartEffect s).count = s.count := rfl
@[simp] theorem dmaStartEffect_col (s : State) : (dmaStartEffect s).col = s.col := rfl
@[simp] theorem dmaStartEffect_regsMapped (s : State) : (dmaStartEffect s).regsMapped = s.regsMapped := rfl
@[simp] theorem dmaStartEffect_pinsBound (s : State) : (dmaStartEffect s).pinsBound = s.pinsBound := rfl
@[simp] theorem dmaStartEffect_pwmOn (s : State) : (dmaStartEffect s).pwmOn = s.pwmOn := rfl
@[simp] theorem dmaStartEffect_chainHead (s : State) : (dmaStartEffect s).chainHead = s.chainHead := rfl
@[simp] theorem dmaStartEffect_descBus (s : State) : (dmaStartEffect s).descBus = s.descBus := rfl
@[simp] theorem dmaStartEffect_descVA (s : State) : (dmaStartEffect s).descVA = s.descVA := rfl
@[simp] theorem dmaStartEffect_descBytes (s : State) : (dmaStartEffect s).descBytes = s.descBytes := rfl
@[simp] theorem dmaStartEffect_bufVA (s : State) : (dmaStartEffect s).bufVA = s.bufVA := rfl
@[simp] theorem dmaStartEffect_pages (s : State) : (dmaStartEffect s).pages = s.pages := rfl
@[simp] theorem dmaStartEffect_maxLeds (s : State) : (dmaStartEffect s).maxLeds = s.maxLeds := rfl
@[simp] theorem dmaStartEffect_bufBytes (s : State) : (dmaStartEffect s).bufBytes = s.bufBytes := rfl
@[simp] theorem dmaStartEffect_phase (s : State) : (dmaStartEffect s).phase = .rendering := rfl
@[simp] theorem dmaStartEffect_inInit (s : State) : (dmaStartEffect s).inInit = s.inInit := rfl
@[simp] theorem dmaStartEffect_blocked (s : State) : (dmaStartEffect s).blocked = none := rfl
@[simp] theorem dmaStartEffect_polls (s : State) : (dmaStartEffect s).polls = 0 := rfl
@[simp] theorem dmaStartEffect_result (s : State) : (dmaStartEffect s).result = .ok := rfl
@[simp] theorem dmaStartEffect_buf (s : State) : (dmaStartEffect s).buf = s.buf := rfl
@[simp] theorem dmaStartEffect_busbuf (s : State) : (dmaStartEffect s).busbuf = s.busbuf := rfl
@[simp] theorem dmaStartEffect_flushed (s : State) : (dmaStartEffect s).flushed = s.flushed := rfl
@[simp] theorem dmaStartEffect_desc (s : State) : (dmaStartEffect s).desc = s.desc := rfl
@[simp] theorem dmaStartEffect_descWritten (s : State) : (dmaStartEffect s).descWritten = s.descWritten := rfl
@[simp] theorem dmaStartEffect_fifo (s : State) : (dmaStartEffect s).fifo = s.fifo := rfl
@[simp] theorem dmaStartEffect_wireCut (s : State) : (dmaStartEffect s).wireCut = s.wireCut := rfl
@[simp] theorem dmaStartEffect_cursor (s : State) : (dmaStartEffect s).cursor = s.cursor := rfl
@[simp] theorem dmaStartEffect_bldPages (s : State) : (dmaStartEffect s).bldPages = s.bldPages := rfl
@[simp] theorem dmaStartEffect_bldIdx (s : State) : (dmaStartEffect s).bldIdx = s.bldIdx := rfl
@[simp] theorem dmaStartEffect_bldRemaining (s : State) : (dmaStartEffect s).bldRemaining = s.bldRemaining := rfl
@[simp] theorem dmaStartEffect_dma (s : State) : (dmaStartEffect s).dma = .active 0 0 := rfl
@[simp] theorem dmaStartEffect_engine (s : State) : (dmaStartEffect s).engine = some s.dmaIdx := rfl
@[simp] theorem dmaStartEffect_cbAddr (s : State) : (dmaStartEffect s).cbAddr = s.chainHead := rfl
@[simp] theorem dmaStartEffect_prioritySet (s : State) : (dmaStartEffect s).prioritySet = true := rfl
@[simp] theorem dmaStartEffect_primedInv (s : State) : (dmaStartEffect s).primedInv = s.primedInv := rfl
@[simp] theorem dmaStartEffect_chainValid (s : State) : (dmaStartEffect s).chainValid = s.chainValid := rfl
@[simp] theorem dmaStartEffect_chainFor (s : State) : (dmaStartEffect s).chainFor = s.chainFor := rfl
@[simp] theorem dmaStartEffect_dirty (s : State) : (dmaStartEffect s).dirty = s.dirty := rfl
@[simp] theorem dmaStartEffect_descDirty (s : State) : (dmaStartEffect s).descDirty = s.descDirty := rfl
@[simp] theorem dmaStartEffect_frameOk (s : State) : (dmaStartEffect s).frameOk = s.frameOk := rfl
@[simp] theorem dmaStartEffect_stale (s : State) : (dmaStartEffect s).stale = s.stale := rfl
@[simp] theorem dmaStartEffect_cmds (s : State) : (dmaStartEffect s).cmds = s.cmds := rfl
@[simp] theorem dmaStartEffect_report (s : State) : (dmaStartEffect s).report = s.report := rfl
@[simp] theorem dmaStartEffect_turn (s : State) : (dmaStartEffect s).turn = s.turn := rfl
@[simp] theorem dmaStartEffect_tick (s : State) : (dmaStartEffect s).tick = s.tick := rfl
@[simp] theorem dmaStartEffect_draws (s : State) : (dmaStartEffect s).draws = s.draws := rfl

/-! ### emitDescEffect -/

@[simp] theorem emitDescEffect_params (i : Nat) (a : Word) (s : State) : (emitDescEffect i a s).params = s.params := rfl
@[simp] theorem emitDescEffect_freq (i : Nat) (a : Word) (s : State) : (emitDescEffect i a s).freq = s.freq := rfl
@[simp] theorem emitDescEffect_dmaIdx (i : Nat) (a : Word) (s : State) : (emitDescEffect i a s).dmaIdx = s.dmaIdx := rfl
@[simp] theorem emitDescEffect_pin (i : Nat) (a : Word) (s : State) : (emitDescEffect i a s).pin = s.pin := rfl
@[simp] theorem emitDescEffect_invert (i : Nat) (a : Word) (s : State) : (emitDescEffect i a s).invert = s.invert := rfl
@[simp] theorem emitDescEffect_count (i : Nat) (a : Word) (s : State) : (emitDescEffect i a s).count = s.count := rfl
@[simp] theorem emitDescEffect_col (i : Nat) (a : Word) (s : State) : (emitDescEffect i a s).col = s.col := rfl
@[simp] theorem emitDescEffect_regsMapped (i : Nat) (a : Word) (s : State) : (emitDescEffect i a s).regsMapped = s.regsMapped := rfl
@[simp] theorem emitDescEffect_pinsBound (i : Nat) (a : Word) (s : State) : (emitDescEffect i a s).pinsBound = s.pinsBound := rfl
@[simp] theorem emitDescEffect_pwmOn (i : Nat) (a : Word) (s : State) : (emitDescEffect i a s).pwmOn = s.pwmOn := rfl
@[simp] theorem emitDescEffect_chainHead (i : Nat) (a : Word) (s : State) : (emitDescEffect i a s).chainHead = s.chainHead := rfl
@[simp] theorem emitDescEffect_descBus (i : Nat) (a : Word) (s : State) : (emitDescEffect i a s).descBus = s.descBus := rfl
@[simp] theorem emitDescEffect_descVA (i : Nat) (a : Word) (s : State) : (emitDescEffect i a s).descVA = s.descVA := rfl
@[simp] theorem emitDescEffect_descBytes (i : Nat) (a : Word) (s : State) : (emitDescEffect i a s).descBytes = s.descBytes := rfl
@[simp] theorem emitDescEffect_bufVA (i : Nat) (a : Word) (s : State) : (emitDescEffect i a s).bufVA = s.bufVA := rfl
@[simp] theorem emitDescEffect_pages (i : Nat) (a : Word) (s : State) : (emitDescEffect i a s).pages = s.pages := rfl
@[simp] theorem emitDescEffect_maxLeds (i : Nat) (a : Word) (s : State) : (emitDescEffect i a s).maxLeds = s.maxLeds := rfl
@[simp] theorem emitDescEffect_bufBytes (i : Nat) (a : Word) (s : State) : (emitDescEffect i a s).bufBytes = s.bufBytes := rfl
@[simp] theorem emitDescEffect_phase (i : Nat) (a : Word) (s : State) : (emitDescEffect i a s).phase = s.phase := rfl
@[simp] theorem emitDescEffect_inInit (i : Nat) (a : Word) (s : State) : (emitDescEffect i a s).inInit = s.inInit := rfl
@[simp] theorem emitDescEffect_blocked (i : Nat) (a : Word) (s : State) : (emitDescEffect i a s).blocked = none := rfl
@[simp] theorem emitDescEffect_polls (i : Nat) (a : Word) (s : State) : (emitDescEffect i a s).polls = 0 := rfl
@[simp] theorem emitDescEffect_result (i : Nat) (a : Word) (s : State) : (emitDescEffect i a s).result = .ok := rfl
@[simp] theorem emitDescEffect_buf (i : Nat) (a : Word) (s : State) : (emitDescEffect i a s).buf = s.buf := rfl
@[simp] theorem emitDescEffect_busbuf (i : Nat) (a : Word) (s : State) : (emitDescEffect i a s).busbuf = s.busbuf := rfl
@[simp] theorem emitDescEffect_flushed (i : Nat) (a : Word) (s : State) : (emitDescEffect i a s).flushed = s.flushed := rfl
@[simp] theorem emitDescEffect_desc (i : Nat) (a : Word) (s : State) :
    (emitDescEffect i a s).desc = s.desc.writeDesc i (descRecord s.params (orZero s.descBus) i s.bldRemaining a) := rfl
@[simp] theorem emitDescEffect_descWritten (i : Nat) (a : Word) (s : State) :
    (emitDescEffect i a s).descWritten = NatSet.insert s.descWritten i := rfl
@[simp] theorem emitDescEffect_fifo (i : Nat) (a : Word) (s : State) : (emitDescEffect i a s).fifo = s.fifo := rfl
@[simp] theorem emitDescEffect_wireCut (i : Nat) (a : Word) (s : State) : (emitDescEffect i a s).wireCut = s.wireCut := rfl
@[simp] theorem emitDescEffect_cursor (i : Nat) (a : Word) (s : State) : (emitDescEffect i a s).cursor = s.cursor := rfl
@[simp] theorem emitDescEffect_bldPages (i : Nat) (a : Word) (s : State) : (emitDescEffect i a s).bldPages = s.bldPages := rfl
@[simp] theorem emitDescEffect_bldIdx (i : Nat) (a : Word) (s : State) : (emitDescEffect i a s).bldIdx = i + 1 := rfl
@[simp] theorem emitDescEffect_bldRemaining (i : Nat) (a : Word) (s : State) :
    (emitDescEffect i a s).bldRemaining = s.bldRemaining - min pageSize s.bldRemaining := rfl
@[simp] theorem emitDescEffect_dma (i : Nat) (a : Word) (s : State) : (emitDescEffect i a s).dma = s.dma := rfl
@[simp] theorem emitDescEffect_engine (i : Nat) (a : Word) (s : State) : (emitDescEffect i a s).engine = s.engine := rfl
@[simp] theorem emitDescEffect_cbAddr (i : Nat) (a : Word) (s : State) : (emitDescEffect i a s).cbAddr = s.cbAddr := rfl
@[simp] theorem emitDescEffect_prioritySet (i : Nat) (a : Word) (s : State) :
    (emitDescEffect i a s).prioritySet = s.prioritySet := rfl
@[simp] theorem emitDescEffect_primedInv (i : Nat) (a : Word) (s : State) : (emitDescEffect i a s).primedInv = s.primedInv := rfl
@[simp] theorem emitDescEffect_chainValid (i : Nat) (a : Word) (s : State) : (emitDescEffect i a s).chainValid = s.chainValid := rfl
@[simp] theorem emitDescEffect_chainFor (i : Nat) (a : Word) (s : State) : (emitDescEffect i a s).chainFor = s.chainFor := rfl
@[simp] theorem emitDescEffect_dirty (i : Nat) (a : Word) (s : State) : (emitDescEffect i a s).dirty = s.dirty := rfl
@[simp] theorem emitDescEffect_descDirty (i : Nat) (a : Word) (s : State) :
    (emitDescEffect i a s).descDirty = s.descDirtyAfterStore := rfl
@[simp] theorem emitDescEffect_frameOk (i : Nat) (a : Word) (s : State) : (emitDescEffect i a s).frameOk = s.frameOk := rfl
@[simp] theorem emitDescEffect_stale (i : Nat) (a : Word) (s : State) : (emitDescEffect i a s).stale = s.stale := rfl
@[simp] theorem emitDescEffect_cmds (i : Nat) (a : Word) (s : State) : (emitDescEffect i a s).cmds = s.cmds := rfl
@[simp] theorem emitDescEffect_report (i : Nat) (a : Word) (s : State) : (emitDescEffect i a s).report = s.report := rfl
@[simp] theorem emitDescEffect_turn (i : Nat) (a : Word) (s : State) : (emitDescEffect i a s).turn = s.turn := rfl
@[simp] theorem emitDescEffect_tick (i : Nat) (a : Word) (s : State) : (emitDescEffect i a s).tick = s.tick := rfl
@[simp] theorem emitDescEffect_draws (i : Nat) (a : Word) (s : State) : (emitDescEffect i a s).draws = s.draws := rfl

/-! ### terminateEffect -/

@[simp] theorem terminateEffect_params (n : Nat) (s : State) : (terminateEffect n s).params = s.params := rfl
@[simp] theorem terminateEffect_freq (n : Nat) (s : State) : (terminateEffect n s).freq = s.freq := rfl
@[simp] theorem terminateEffect_dmaIdx (n : Nat) (s : State) : (terminateEffect n s).dmaIdx = s.dmaIdx := rfl
@[simp] theorem terminateEffect_pin (n : Nat) (s : State) : (terminateEffect n s).pin = s.pin := rfl
@[simp] theorem terminateEffect_invert (n : Nat) (s : State) : (terminateEffect n s).invert = s.invert := rfl
@[simp] theorem terminateEffect_count (n : Nat) (s : State) : (terminateEffect n s).count = s.count := rfl
@[simp] theorem terminateEffect_col (n : Nat) (s : State) : (terminateEffect n s).col = s.col := rfl
@[simp] theorem terminateEffect_regsMapped (n : Nat) (s : State) : (terminateEffect n s).regsMapped = s.regsMapped := rfl
@[simp] theorem terminateEffect_pinsBound (n : Nat) (s : State) : (terminateEffect n s).pinsBound = s.pinsBound := rfl
@[simp] theorem terminateEffect_pwmOn (n : Nat) (s : State) : (terminateEffect n s).pwmOn = s.pwmOn := rfl
@[simp] theorem terminateEffect_chainHead (n : Nat) (s : State) : (terminateEffect n s).chainHead = s.chainHead := rfl
@[simp] theorem terminateEffect_descBus (n : Nat) (s : State) : (terminateEffect n s).descBus = s.descBus := rfl
@[simp] theorem terminateEffect_descVA (n : Nat) (s : State) : (terminateEffect n s).descVA = s.descVA := rfl
@[simp] theorem terminateEffect_descBytes (n : Nat) (s : State) : (terminateEffect n s).descBytes = s.descBytes := rfl
@[simp] theorem terminateEffect_bufVA (n : Nat) (s : State) : (terminateEffect n s).bufVA = s.bufVA := rfl
@[simp] theorem terminateEffect_pages (n : Nat) (s : State) : (terminateEffect n s).pages = s.pages := rfl
@[simp] theorem terminateEffect_maxLeds (n : Nat) (s : State) : (terminateEffect n s).maxLeds = s.maxLeds := rfl
@[simp] theorem terminateEffect_bufBytes (n : Nat) (s : State) : (terminateEffect n s).bufBytes = s.bufBytes := rfl
@[simp] theorem terminateEffect_phase (n : Nat) (s : State) : (terminateEffect n s).phase = s.phase := rfl
@[simp] theorem terminateEffect_inInit (n : Nat) (s : State) : (terminateEffect n s).inInit = s.inInit := rfl
@[simp] theorem terminateEffect_blocked (n : Nat) (s : State) : (terminateEffect n s).blocked = none := rfl
@[simp] theorem terminateEffect_polls (n : Nat) (s : State) : (terminateEffect n s).polls = 0 := rfl
@[simp] theorem terminateEffect_result (n : Nat) (s : State) : (terminateEffect n s).result = .ok := rfl
@[simp] theorem terminateEffect_buf (n : Nat) (s : State) : (terminateEffect n s).buf = s.buf := rfl
@[simp] theorem terminateEffect_busbuf (n : Nat) (s : State) : (terminateEffect n s).busbuf = s.busbuf := rfl
@[simp] theorem terminateEffect_flushed (n : Nat) (s : State) : (terminateEffect n s).flushed = s.flushed := rfl
@[simp] theorem terminateEffect_desc (n : Nat) (s : State) : (terminateEffect n s).desc = terminateLink s.desc n := rfl
@[simp] theorem terminateEffect_descWritten (n : Nat) (s : State) : (terminateEffect n s).descWritten = s.descWritten := rfl
@[simp] theorem terminateEffect_fifo (n : Nat) (s : State) : (terminateEffect n s).fifo = s.fifo := rfl
@[simp] theorem terminateEffect_wireCut (n : Nat) (s : State) : (terminateEffect n s).wireCut = s.wireCut := rfl
@[simp] theorem terminateEffect_cursor (n : Nat) (s : State) : (terminateEffect n s).cursor = s.cursor := rfl
@[simp] theorem terminateEffect_bldPages (n : Nat) (s : State) : (terminateEffect n s).bldPages = s.bldPages := rfl
@[simp] theorem terminateEffect_bldIdx (n : Nat) (s : State) : (terminateEffect n s).bldIdx = s.bldIdx := rfl
@[simp] theorem terminateEffect_bldRemaining (n : Nat) (s : State) : (terminateEffect n s).bldRemaining = s.bldRemaining := rfl
@[simp] theorem terminateEffect_dma (n : Nat) (s : State) : (terminateEffect n s).dma = s.dma := rfl
@[simp] theorem terminateEffect_engine (n : Nat) (s : State) : (terminateEffect n s).engine = s.engine := rfl
@[simp] theorem terminateEffect_cbAddr (n : Nat) (s : State) : (terminateEffect n s).cbAddr = s.cbAddr := rfl
@[simp] theorem terminateEffect_prioritySet (n : Nat) (s : State) : (terminateEffect n s).prioritySet = s.prioritySet := rfl
@[simp] theorem terminateEffect_primedInv (n : Nat) (s : State) : (terminateEffect n s).primedInv = s.primedInv := rfl
@[simp] theorem terminateEffect_chainValid (n : Nat) (s : State) : (terminateEffect n s).chainValid = s.chainValid := rfl
@[simp] theorem terminateEffect_chainFor (n : Nat) (s : State) : (terminateEffect n s).chainFor = s.chainFor := rfl
@[simp] theorem terminateEffect_dirty (n : Nat) (s : State) : (terminateEffect n s).dirty = s.dirty := rfl
@[simp] theorem terminateEffect_descDirty (n : Nat) (s : State) : (terminateEffect n s).descDirty = s.descDirtyAfterStore := rfl
@[simp] theorem terminateEffect_frameOk (n : Nat) (s : State) : (terminateEffect n s).frameOk = s.frameOk := rfl
@[simp] theorem terminateEffect_stale (n : Nat) (s : State) : (terminateEffect n s).stale = s.stale := rfl
@[simp] theorem terminateEffect_cmds (n : Nat) (s : State) : (terminateEffect n s).cmds = s.cmds := rfl
@[simp] theorem terminateEffect_report (n : Nat) (s : State) : (terminateEffect n s).report = s.report := rfl
@[simp] theorem terminateEffect_turn (n : Nat) (s : State) : (terminateEffect n s).turn = s.turn := rfl
@[simp] theorem terminateEffect_tick (n : Nat) (s : State) : (terminateEffect n s).tick = s.tick := rfl
@[simp] theorem terminateEffect_draws (n : Nat) (s : State) : (terminateEffect n s).draws = s.draws := rfl

/-! ### tiWordEffect -/

@[simp] theorem tiWordEffect_params (i : Nat) (s : State) : (tiWordEffect i s).params = s.params := rfl
@[simp] theorem tiWordEffect_freq (i : Nat) (s : State) : (tiWordEffect i s).freq = s.freq := rfl
@[simp] theorem tiWordEffect_dmaIdx (i : Nat) (s : State) : (tiWordEffect i s).dmaIdx = s.dmaIdx := rfl
@[simp] theorem tiWordEffect_pin (i : Nat) (s : State) : (tiWordEffect i s).pin = s.pin := rfl
@[simp] theorem tiWordEffect_invert (i : Nat) (s : State) : (tiWordEffect i s).invert = s.invert := rfl
@[simp] theorem tiWordEffect_count (i : Nat) (s : State) : (tiWordEffect i s).count = s.count := rfl
@[simp] theorem tiWordEffect_col (i : Nat) (s : State) : (tiWordEffect i s).col = s.col := rfl
@[simp] theorem tiWordEffect_regsMapped (i : Nat) (s : State) : (tiWordEffect i s).regsMapped = s.regsMapped := rfl
@[simp] theorem tiWordEffect_pinsBound (i : Nat) (s : State) : (tiWordEffect i s).pinsBound = s.pinsBound := rfl
@[simp] theorem tiWordEffect_pwmOn (i : Nat) (s : State) : (tiWordEffect i s).pwmOn = s.pwmOn := rfl
@[simp] theorem tiWordEffect_chainHead (i : Nat) (s : State) : (tiWordEffect i s).chainHead = s.chainHead := rfl
@[simp] theorem tiWordEffect_descBus (i : Nat) (s : State) : (tiWordEffect i s).descBus = s.descBus := rfl
@[simp] theorem tiWordEffect_descVA (i : Nat) (s : State) : (tiWordEffect i s).descVA = s.descVA := rfl
@[simp] theorem tiWordEffect_descBytes (i : Nat) (s : State) : (tiWordEffect i s).descBytes = s.descBytes := rfl
@[simp] theorem tiWordEffect_bufVA (i : Nat) (s : State) : (tiWordEffect i s).bufVA = s.bufVA := rfl
@[simp] theorem tiWordEffect_pages (i : Nat) (s : State) : (tiWordEffect i s).pages = s.pages := rfl
@[simp] theorem tiWordEffect_maxLeds (i : Nat) (s : State) : (tiWordEffect i s).maxLeds = s.maxLeds := rfl
@[simp] theorem tiWordEffect_bufBytes (i : Nat) (s : State) : (tiWordEffect i s).bufBytes = s.bufBytes := rfl
@[simp] theorem tiWordEffect_phase (i : Nat) (s : State) : (tiWordEffect i s).phase = s.phase := rfl
@[simp] theorem tiWordEffect_inInit (i : Nat) (s : State) : (tiWordEffect i s).inInit = s.inInit := rfl
@[simp] theorem tiWordEffect_blocked (i : Nat) (s : State) : (tiWordEffect i s).blocked = none := rfl
@[simp] theorem tiWordEffect_polls (i : Nat) (s : State) : (tiWordEffect i s).polls = 0 := rfl
@[simp] theorem tiWordEffect_result (i : Nat) (s : State) : (tiWordEffect i s).result = .ok := rfl
@[simp] theorem tiWordEffect_buf (i : Nat) (s : State) : (tiWordEffect i s).buf = s.buf := rfl
@[simp] theorem tiWordEffect_busbuf (i : Nat) (s : State) : (tiWordEffect i s).busbuf = s.busbuf := rfl
@[simp] theorem tiWordEffect_flushed (i : Nat) (s : State) : (tiWordEffect i s).flushed = s.flushed := rfl
@[simp] theorem tiWordEffect_desc (i : Nat) (s : State) :
    (tiWordEffect i s).desc = s.desc.writeWord (descWord i 0) s.params.tiWord := rfl
@[simp] theorem tiWordEffect_descWritten (i : Nat) (s : State) : (tiWordEffect i s).descWritten = s.descWritten := rfl
@[simp] theorem tiWordEffect_fifo (i : Nat) (s : State) : (tiWordEffect i s).fifo = s.fifo := rfl
@[simp] theorem tiWordEffect_wireCut (i : Nat) (s : State) : (tiWordEffect i s).wireCut = s.wireCut := rfl
@[simp] theorem tiWordEffect_cursor (i : Nat) (s : State) : (tiWordEffect i s).cursor = s.cursor := rfl
@[simp] theorem tiWordEffect_bldPages (i : Nat) (s : State) : (tiWordEffect i s).bldPages = s.bldPages := rfl
@[simp] theorem tiWordEffect_bldIdx (i : Nat) (s : State) : (tiWordEffect i s).bldIdx = s.bldIdx := rfl
@[simp] theorem tiWordEffect_bldRemaining (i : Nat) (s : State) : (tiWordEffect i s).bldRemaining = s.bldRemaining := rfl
@[simp] theorem tiWordEffect_dma (i : Nat) (s : State) : (tiWordEffect i s).dma = s.dma := rfl
@[simp] theorem tiWordEffect_engine (i : Nat) (s : State) : (tiWordEffect i s).engine = s.engine := rfl
@[simp] theorem tiWordEffect_cbAddr (i : Nat) (s : State) : (tiWordEffect i s).cbAddr = s.cbAddr := rfl
@[simp] theorem tiWordEffect_prioritySet (i : Nat) (s : State) : (tiWordEffect i s).prioritySet = s.prioritySet := rfl
@[simp] theorem tiWordEffect_primedInv (i : Nat) (s : State) : (tiWordEffect i s).primedInv = s.primedInv := rfl
@[simp] theorem tiWordEffect_chainValid (i : Nat) (s : State) : (tiWordEffect i s).chainValid = s.chainValid := rfl
@[simp] theorem tiWordEffect_chainFor (i : Nat) (s : State) : (tiWordEffect i s).chainFor = s.chainFor := rfl
@[simp] theorem tiWordEffect_dirty (i : Nat) (s : State) : (tiWordEffect i s).dirty = s.dirty := rfl
@[simp] theorem tiWordEffect_descDirty (i : Nat) (s : State) : (tiWordEffect i s).descDirty = s.descDirtyAfterStore := rfl
@[simp] theorem tiWordEffect_frameOk (i : Nat) (s : State) : (tiWordEffect i s).frameOk = s.frameOk := rfl
@[simp] theorem tiWordEffect_stale (i : Nat) (s : State) : (tiWordEffect i s).stale = s.stale := rfl
@[simp] theorem tiWordEffect_cmds (i : Nat) (s : State) : (tiWordEffect i s).cmds = s.cmds := rfl
@[simp] theorem tiWordEffect_report (i : Nat) (s : State) : (tiWordEffect i s).report = s.report := rfl
@[simp] theorem tiWordEffect_turn (i : Nat) (s : State) : (tiWordEffect i s).turn = s.turn := rfl
@[simp] theorem tiWordEffect_tick (i : Nat) (s : State) : (tiWordEffect i s).tick = s.tick := rfl
@[simp] theorem tiWordEffect_draws (i : Nat) (s : State) : (tiWordEffect i s).draws = s.draws := rfl

/-! ### descEffect -/

@[simp] theorem descEffect_params (i : Nat) (r : Desc) (s : State) : (descEffect i r s).params = s.params := rfl
@[simp] theorem descEffect_freq (i : Nat) (r : Desc) (s : State) : (descEffect i r s).freq = s.freq := rfl
@[simp] theorem descEffect_dmaIdx (i : Nat) (r : Desc) (s : State) : (descEffect i r s).dmaIdx = s.dmaIdx := rfl
@[simp] theorem descEffect_pin (i : Nat) (r : Desc) (s : State) : (descEffect i r s).pin = s.pin := rfl
@[simp] theorem descEffect_invert (i : Nat) (r : Desc) (s : State) : (descEffect i r s).invert = s.invert := rfl
@[simp] theorem descEffect_count (i : Nat) (r : Desc) (s : State) : (descEffect i r s).count = s.count := rfl
@[simp] theorem descEffect_col (i : Nat) (r : Desc) (s : State) : (descEffect i r s).col = s.col := rfl
@[simp] theorem descEffect_regsMapped (i : Nat) (r : Desc) (s : State) : (descEffect i r s).regsMapped = s.regsMapped := rfl
@[simp] theorem descEffect_pinsBound (i : Nat) (r : Desc) (s : State) : (descEffect i r s).pinsBound = s.pinsBound := rfl
@[simp] theorem descEffect_pwmOn (i : Nat) (r : Desc) (s : State) : (descEffect i r s).pwmOn = s.pwmOn := rfl
@[simp] theorem descEffect_chainHead (i : Nat) (r : Desc) (s : State) : (descEffect i r s).chainHead = s.chainHead := rfl
@[simp] theorem descEffect_descBus (i : Nat) (r : Desc) (s : State) : (descEffect i r s).descBus = s.descBus := rfl
@[simp] theorem descEffect_descVA (i : Nat) (r : Desc) (s : State) : (descEffect i r s).descVA = s.descVA := rfl
@[simp] theorem descEffect_descBytes (i : Nat) (r : Desc) (s : State) : (descEffect i r s).descBytes = s.descBytes := rfl
@[simp] theorem descEffect_bufVA (i : Nat) (r : Desc) (s : State) : (descEffect i r s).bufVA = s.bufVA := rfl
@[simp] theorem descEffect_pages (i : Nat) (r : Desc) (s : State) : (descEffect i r s).pages = s.pages := rfl
@[simp] theorem descEffect_maxLeds (i : Nat) (r : Desc) (s : State) : (descEffect i r s).maxLeds = s.maxLeds := rfl
@[simp] theorem descEffect_bufBytes (i : Nat) (r : Desc) (s : State) : (descEffect i r s).bufBytes = s.bufBytes := rfl
@[simp] theorem descEffect_phase (i : Nat) (r : Desc) (s : State) : (descEffect i r s).phase = s.phase := rfl
@[simp] theorem descEffect_inInit (i : Nat) (r : Desc) (s : State) : (descEffect i r s).inInit = s.inInit := rfl
@[simp] theorem descEffect_blocked (i : Nat) (r : Desc) (s : State) : (descEffect i r s).blocked = none := rfl
@[simp] theorem descEffect_polls (i : Nat) (r : Desc) (s : State) : (descEffect i r s).polls = 0 := rfl
@[simp] theorem descEffect_result (i : Nat) (r : Desc) (s : State) : (descEffect i r s).result = .ok := rfl
@[simp] theorem descEffect_buf (i : Nat) (r : Desc) (s : State) : (descEffect i r s).buf = s.buf := rfl
@[simp] theorem descEffect_busbuf (i : Nat) (r : Desc) (s : State) : (descEffect i r s).busbuf = s.busbuf := rfl
@[simp] theorem descEffect_flushed (i : Nat) (r : Desc) (s : State) : (descEffect i r s).flushed = s.flushed := rfl
@[simp] theorem descEffect_desc (i : Nat) (r : Desc) (s : State) : (descEffect i r s).desc = s.desc.writeDesc i r := rfl
@[simp] theorem descEffect_descWritten (i : Nat) (r : Desc) (s : State) :
    (descEffect i r s).descWritten = NatSet.insert s.descWritten i := rfl
@[simp] theorem descEffect_fifo (i : Nat) (r : Desc) (s : State) : (descEffect i r s).fifo = s.fifo := rfl
@[simp] theorem descEffect_wireCut (i : Nat) (r : Desc) (s : State) : (descEffect i r s).wireCut = s.wireCut := rfl
@[simp] theorem descEffect_cursor (i : Nat) (r : Desc) (s : State) : (descEffect i r s).cursor = s.cursor := rfl
@[simp] theorem descEffect_bldPages (i : Nat) (r : Desc) (s : State) : (descEffect i r s).bldPages = s.bldPages := rfl
@[simp] theorem descEffect_bldIdx (i : Nat) (r : Desc) (s : State) : (descEffect i r s).bldIdx = s.bldIdx := rfl
@[simp] theorem descEffect_bldRemaining (i : Nat) (r : Desc) (s : State) : (descEffect i r s).bldRemaining = s.bldRemaining := rfl
@[simp] theorem descEffect_dma (i : Nat) (r : Desc) (s : State) : (descEffect i r s).dma = s.dma := rfl
@[simp] theorem descEffect_engine (i : Nat) (r : Desc) (s : State) : (descEffect i r s).engine = s.engine := rfl
@[simp] theorem descEffect_cbAddr (i : Nat) (r : Desc) (s : State) : (descEffect i r s).cbAddr = s.cbAddr := rfl
@[simp] theorem descEffect_prioritySet (i : Nat) (r : Desc) (s : State) : (descEffect i r s).prioritySet = s.prioritySet := rfl
@[simp] theorem descEffect_primedInv (i : Nat) (r : Desc) (s : State) : (descEffect i r s).primedInv = s.primedInv := rfl
@[simp] theorem descEffect_chainValid (i : Nat) (r : Desc) (s : State) : (descEffect i r s).chainValid = s.chainValid := rfl
@[simp] theorem descEffect_chainFor (i : Nat) (r : Desc) (s : State) : (descEffect i r s).chainFor = s.chainFor := rfl
@[simp] theorem descEffect_dirty (i : Nat) (r : Desc) (s : State) : (descEffect i r s).dirty = s.dirty := rfl
@[simp] theorem descEffect_descDirty (i : Nat) (r : Desc) (s : State) : (descEffect i r s).descDirty = s.descDirtyAfterStore := rfl
@[simp] theorem descEffect_frameOk (i : Nat) (r : Desc) (s : State) : (descEffect i r s).frameOk = s.frameOk := rfl
@[simp] theorem descEffect_stale (i : Nat) (r : Desc) (s : State) : (descEffect i r s).stale = s.stale := rfl
@[simp] theorem descEffect_cmds (i : Nat) (r : Desc) (s : State) : (descEffect i r s).cmds = s.cmds := rfl
@[simp] theorem descEffect_report (i : Nat) (r : Desc) (s : State) : (descEffect i r s).report = s.report := rfl
@[simp] theorem descEffect_turn (i : Nat) (r : Desc) (s : State) : (descEffect i r s).turn = s.turn := rfl
@[simp] theorem descEffect_tick (i : Nat) (r : Desc) (s : State) : (descEffect i r s).tick = s.tick := rfl
@[simp] theorem descEffect_draws (i : Nat) (r : Desc) (s : State) : (descEffect i r s).draws = s.draws := rfl

/-! ### colorEffect -/

@[simp] theorem colorEffect_params (c : Chan) (i : Nat) (v : Word) (s : State) : (colorEffect c i v s).params = s.params := rfl
@[simp] theorem colorEffect_freq (c : Chan) (i : Nat) (v : Word) (s : State) : (colorEffect c i v s).freq = s.freq := rfl
@[simp] theorem colorEffect_dmaIdx (c : Chan) (i : Nat) (v : Word) (s : State) : (colorEffect c i v s).dmaIdx = s.dmaIdx := rfl
@[simp] theorem colorEffect_pin (c : Chan) (i : Nat) (v : Word) (s : State) : (colorEffect c i v s).pin = s.pin := rfl
@[simp] theorem colorEffect_invert (c : Chan) (i : Nat) (v : Word) (s : State) : (colorEffect c i v s).invert = s.invert := rfl
@[simp] theorem colorEffect_count (c : Chan) (i : Nat) (v : Word) (s : State) : (colorEffect c i v s).count = s.count := rfl
@[simp] theorem colorEffect_col (c : Chan) (i : Nat) (v : Word) (s : State) :
    (colorEffect c i v s).col = s.col.set c (storeColour (s.col.get c) c i v) := rfl
@[simp] theorem colorEffect_regsMapped (c : Chan) (i : Nat) (v : Word) (s : State) :
    (colorEffect c i v s).regsMapped = s.regsMapped := rfl
@[simp] theorem colorEffect_pinsBound (c : Chan) (i : Nat) (v : Word) (s : State) :
    (colorEffect c i v s).pinsBound = s.pinsBound := rfl
@[simp] theorem colorEffect_pwmOn (c : Chan) (i : Nat) (v : Word) (s : State) : (colorEffect c i v s).pwmOn = s.pwmOn := rfl
@[simp] theorem colorEffect_chainHead (c : Chan) (i : Nat) (v : Word) (s : State) :
    (colorEffect c i v s).chainHead = s.chainHead := rfl
@[simp] theorem colorEffect_descBus (c : Chan) (i : Nat) (v : Word) (s : State) : (colorEffect c i v s).descBus = s.descBus := rfl
@[simp] theorem colorEffect_descVA (c : Chan) (i : Nat) (v : Word) (s : State) :
    (colorEffect c i v s).descVA = s.descVA := rfl
@[simp] theorem colorEffect_descBytes (c : Chan) (i : Nat) (v : Word) (s : State) :
    (colorEffect c i v s).descBytes = s.descBytes := rfl
@[simp] theorem colorEffect_bufVA (c : Chan) (i : Nat) (v : Word) (s : State) : (colorEffect c i v s).bufVA = s.bufVA := rfl
@[simp] theorem colorEffect_pages (c : Chan) (i : Nat) (v : Word) (s : State) : (colorEffect c i v s).pages = s.pages := rfl
@[simp] theorem colorEffect_maxLeds (c : Chan) (i : Nat) (v : Word) (s : State) : (colorEffect c i v s).maxLeds = s.maxLeds := rfl
@[simp] theorem colorEffect_bufBytes (c : Chan) (i : Nat) (v : Word) (s : State) :
    (colorEffect c i v s).bufBytes = s.bufBytes := rfl
@[simp] theorem colorEffect_phase (c : Chan) (i : Nat) (v : Word) (s : State) : (colorEffect c i v s).phase = s.phase := rfl
@[simp] theorem colorEffect_inInit (c : Chan) (i : Nat) (v : Word) (s : State) : (colorEffect c i v s).inInit = s.inInit := rfl
@[simp] theorem colorEffect_blocked (c : Chan) (i : Nat) (v : Word) (s : State) : (colorEffect c i v s).blocked = s.blocked := rfl
@[simp] theorem colorEffect_polls (c : Chan) (i : Nat) (v : Word) (s : State) : (colorEffect c i v s).polls = s.polls := rfl
@[simp] theorem colorEffect_result (c : Chan) (i : Nat) (v : Word) (s : State) : (colorEffect c i v s).result = s.result := rfl
@[simp] theorem colorEffect_buf (c : Chan) (i : Nat) (v : Word) (s : State) : (colorEffect c i v s).buf = s.buf := rfl
@[simp] theorem colorEffect_busbuf (c : Chan) (i : Nat) (v : Word) (s : State) : (colorEffect c i v s).busbuf = s.busbuf := rfl
@[simp] theorem colorEffect_flushed (c : Chan) (i : Nat) (v : Word) (s : State) : (colorEffect c i v s).flushed = s.flushed := rfl
@[simp] theorem colorEffect_desc (c : Chan) (i : Nat) (v : Word) (s : State) : (colorEffect c i v s).desc = s.desc := rfl
@[simp] theorem colorEffect_descWritten (c : Chan) (i : Nat) (v : Word) (s : State) :
    (colorEffect c i v s).descWritten = s.descWritten := rfl
@[simp] theorem colorEffect_fifo (c : Chan) (i : Nat) (v : Word) (s : State) : (colorEffect c i v s).fifo = s.fifo := rfl
@[simp] theorem colorEffect_wireCut (c : Chan) (i : Nat) (v : Word) (s : State) : (colorEffect c i v s).wireCut = s.wireCut := rfl
@[simp] theorem colorEffect_cursor (c : Chan) (i : Nat) (v : Word) (s : State) : (colorEffect c i v s).cursor = s.cursor := rfl
@[simp] theorem colorEffect_bldPages (c : Chan) (i : Nat) (v : Word) (s : State) :
    (colorEffect c i v s).bldPages = s.bldPages := rfl
@[simp] theorem colorEffect_bldIdx (c : Chan) (i : Nat) (v : Word) (s : State) : (colorEffect c i v s).bldIdx = s.bldIdx := rfl
@[simp] theorem colorEffect_bldRemaining (c : Chan) (i : Nat) (v : Word) (s : State) :
    (colorEffect c i v s).bldRemaining = s.bldRemaining := rfl
@[simp] theorem colorEffect_dma (c : Chan) (i : Nat) (v : Word) (s : State) : (colorEffect c i v s).dma = s.dma := rfl
@[simp] theorem colorEffect_engine (c : Chan) (i : Nat) (v : Word) (s : State) : (colorEffect c i v s).engine = s.engine := rfl
@[simp] theorem colorEffect_cbAddr (c : Chan) (i : Nat) (v : Word) (s : State) : (colorEffect c i v s).cbAddr = s.cbAddr := rfl
@[simp] theorem colorEffect_prioritySet (c : Chan) (i : Nat) (v : Word) (s : State) :
    (colorEffect c i v s).prioritySet = s.prioritySet := rfl
@[simp] theorem colorEffect_primedInv (c : Chan) (i : Nat) (v : Word) (s : State) :
    (colorEffect c i v s).primedInv = s.primedInv := rfl
@[simp] theorem colorEffect_chainValid (c : Chan) (i : Nat) (v : Word) (s : State) :
    (colorEffect c i v s).chainValid = s.chainValid := rfl
@[simp] theorem colorEffect_chainFor (c : Chan) (i : Nat) (v : Word) (s : State) :
    (colorEffect c i v s).chainFor = s.chainFor := rfl
@[simp] theorem colorEffect_dirty (c : Chan) (i : Nat) (v : Word) (s : State) : (colorEffect c i v s).dirty = s.dirty := rfl
@[simp] theorem colorEffect_descDirty (c : Chan) (i : Nat) (v : Word) (s : State) :
    (colorEffect c i v s).descDirty = s.descDirty := rfl
@[simp] theorem colorEffect_frameOk (c : Chan) (i : Nat) (v : Word) (s : State) : (colorEffect c i v s).frameOk = s.frameOk := rfl
@[simp] theorem colorEffect_stale (c : Chan) (i : Nat) (v : Word) (s : State) : (colorEffect c i v s).stale = s.stale := rfl
@[simp] theorem colorEffect_cmds (c : Chan) (i : Nat) (v : Word) (s : State) : (colorEffect c i v s).cmds = s.cmds := rfl
@[simp] theorem colorEffect_report (c : Chan) (i : Nat) (v : Word) (s : State) : (colorEffect c i v s).report = s.report := rfl
@[simp] theorem colorEffect_turn (c : Chan) (i : Nat) (v : Word) (s : State) : (colorEffect c i v s).turn = s.turn := rfl
@[simp] theorem colorEffect_tick (c : Chan) (i : Nat) (v : Word) (s : State) : (colorEffect c i v s).tick = s.tick := rfl
@[simp] theorem colorEffect_draws (c : Chan) (i : Nat) (v : Word) (s : State) : (colorEffect c i v s).draws = s.draws := rfl

/-! ### xferEffect -/

@[simp] theorem xferEffect_params (d o : Nat) (s : State) : (xferEffect d o s).params = s.params := rfl
@[simp] theorem xferEffect_freq (d o : Nat) (s : State) : (xferEffect d o s).freq = s.freq := rfl
@[simp] theorem xferEffect_dmaIdx (d o : Nat) (s : State) : (xferEffect d o s).dmaIdx = s.dmaIdx := rfl
@[simp] theorem xferEffect_pin (d o : Nat) (s : State) : (xferEffect d o s).pin = s.pin := rfl
@[simp] theorem xferEffect_invert (d o : Nat) (s : State) : (xferEffect d o s).invert = s.invert := rfl
@[simp] theorem xferEffect_count (d o : Nat) (s : State) : (xferEffect d o s).count = s.count := rfl
@[simp] theorem xferEffect_col (d o : Nat) (s : State) : (xferEffect d o s).col = s.col := rfl
@[simp] theorem xferEffect_regsMapped (d o : Nat) (s : State) : (xferEffect d o s).regsMapped = s.regsMapped := rfl
@[simp] theorem xferEffect_pinsBound (d o : Nat) (s : State) : (xferEffect d o s).pinsBound = s.pinsBound := rfl
@[simp] theorem xferEffect_pwmOn (d o : Nat) (s : State) : (xferEffect d o s).pwmOn = s.pwmOn := rfl
@[simp] theorem xferEffect_chainHead (d o : Nat) (s : State) : (xferEffect d o s).chainHead = s.chainHead := rfl
@[simp] theorem xferEffect_descBus (d o : Nat) (s : State) : (xferEffect d o s).descBus = s.descBus := rfl
@[simp] theorem xferEffect_descVA (d o : Nat) (s : State) : (xferEffect d o s).descVA = s.descVA := rfl
@[simp] theorem xferEffect_descBytes (d o : Nat) (s : State) : (xferEffect d o s).descBytes = s.descBytes := rfl
@[simp] theorem xferEffect_bufVA (d o : Nat) (s : State) : (xferEffect d o s).bufVA = s.bufVA := rfl
@[simp] theorem xferEffect_pages (d o : Nat) (s : State) : (xferEffect d o s).pages = s.pages := rfl
@[simp] theorem xferEffect_maxLeds (d o : Nat) (s : State) : (xferEffect d o s).maxLeds = s.maxLeds := rfl
@[simp] theorem xferEffect_bufBytes (d o : Nat) (s : State) : (xferEffect d o s).bufBytes = s.bufBytes := rfl
@[simp] theorem xferEffect_phase (d o : Nat) (s : State) : (xferEffect d o s).phase = s.phase := rfl
@[simp] theorem xferEffect_inInit (d o : Nat) (s : State) : (xferEffect d o s).inInit = s.inInit := rfl
@[simp] theorem xferEffect_blocked (d o : Nat) (s : State) : (xferEffect d o s).blocked = s.blocked := rfl
@[simp] theorem xferEffect_polls (d o : Nat) (s : State) : (xferEffect d o s).polls = s.polls := rfl
@[simp] theorem xferEffect_result (d o : Nat) (s : State) : (xferEffect d o s).result = s.result := rfl
@[simp] theorem xferEffect_buf (d o : Nat) (s : State) : (xferEffect d o s).buf = s.buf := rfl
@[simp] theorem xferEffect_busbuf (d o : Nat) (s : State) : (xferEffect d o s).busbuf = s.busbuf := rfl
@[simp] theorem xferEffect_flushed (d o : Nat) (s : State) : (xferEffect d o s).flushed = s.flushed := rfl
@[simp] theorem xferEffect_desc (d o : Nat) (s : State) : (xferEffect d o s).desc = s.desc := rfl
@[simp] theorem xferEffect_descWritten (d o : Nat) (s : State) : (xferEffect d o s).descWritten = s.descWritten := rfl
@[simp] theorem xferEffect_fifo (d o : Nat) (s : State) :
    (xferEffect d o s).fifo = if (s.loaded d).dst = s.params.fifoBus then s.fifo ++ [s.sourceRead d o] else s.fifo := rfl
@[simp] theorem xferEffect_wireCut (d o : Nat) (s : State) : (xferEffect d o s).wireCut = s.wireCut := rfl
@[simp] theorem xferEffect_cursor (d o : Nat) (s : State) : (xferEffect d o s).cursor = s.cursor := rfl
@[simp] theorem xferEffect_bldPages (d o : Nat) (s : State) : (xferEffect d o s).bldPages = s.bldPages := rfl
@[simp] theorem xferEffect_bldIdx (d o : Nat) (s : State) : (xferEffect d o s).bldIdx = s.bldIdx := rfl
@[simp] theorem xferEffect_bldRemaining (d o : Nat) (s : State) : (xferEffect d o s).bldRemaining = s.bldRemaining := rfl
@[simp] theorem xferEffect_dma (d o : Nat) (s : State) : (xferEffect d o s).dma = .active d (o + 4) := rfl
@[simp] theorem xferEffect_engine (d o : Nat) (s : State) : (xferEffect d o s).engine = s.engine := rfl
@[simp] theorem xferEffect_cbAddr (d o : Nat) (s : State) : (xferEffect d o s).cbAddr = s.cbAddr := rfl
@[simp] theorem xferEffect_prioritySet (d o : Nat) (s : State) : (xferEffect d o s).prioritySet = s.prioritySet := rfl
@[simp] theorem xferEffect_primedInv (d o : Nat) (s : State) : (xferEffect d o s).primedInv = s.primedInv := rfl
@[simp] theorem xferEffect_chainValid (d o : Nat) (s : State) : (xferEffect d o s).chainValid = s.chainValid := rfl
@[simp] theorem xferEffect_chainFor (d o : Nat) (s : State) : (xferEffect d o s).chainFor = s.chainFor := rfl
@[simp] theorem xferEffect_dirty (d o : Nat) (s : State) : (xferEffect d o s).dirty = s.dirty := rfl
@[simp] theorem xferEffect_descDirty (d o : Nat) (s : State) : (xferEffect d o s).descDirty = s.descDirty := rfl
@[simp] theorem xferEffect_frameOk (d o : Nat) (s : State) : (xferEffect d o s).frameOk = s.frameOk := rfl
@[simp] theorem xferEffect_stale (d o : Nat) (s : State) : (xferEffect d o s).stale = s.stale := rfl
@[simp] theorem xferEffect_cmds (d o : Nat) (s : State) : (xferEffect d o s).cmds = s.cmds := rfl
@[simp] theorem xferEffect_report (d o : Nat) (s : State) : (xferEffect d o s).report = s.report := rfl
@[simp] theorem xferEffect_turn (d o : Nat) (s : State) : (xferEffect d o s).turn = s.turn := rfl
@[simp] theorem xferEffect_tick (d o : Nat) (s : State) : (xferEffect d o s).tick = s.tick := rfl
@[simp] theorem xferEffect_draws (d o : Nat) (s : State) :
    (xferEffect d o s).draws = s.draws + s.sourceDraws d o := rfl

/-! ### initStart -/

@[simp] theorem initStart_params (s : State) : (initStart s).params = s.params := rfl
@[simp] theorem initStart_freq (s : State) : (initStart s).freq = s.freq := rfl
@[simp] theorem initStart_dmaIdx (s : State) : (initStart s).dmaIdx = s.dmaIdx := rfl
@[simp] theorem initStart_pin (s : State) : (initStart s).pin = s.pin := rfl
@[simp] theorem initStart_invert (s : State) : (initStart s).invert = s.invert := rfl
@[simp] theorem initStart_count (s : State) : (initStart s).count = s.count := rfl
@[simp] theorem initStart_col (s : State) : (initStart s).col = s.col := rfl
@[simp] theorem initStart_regsMapped (s : State) : (initStart s).regsMapped = s.regsMapped := rfl
@[simp] theorem initStart_pinsBound (s : State) : (initStart s).pinsBound = s.pinsBound := rfl
@[simp] theorem initStart_pwmOn (s : State) : (initStart s).pwmOn = s.pwmOn := rfl
@[simp] theorem initStart_chainHead (s : State) : (initStart s).chainHead = s.chainHead := rfl
@[simp] theorem initStart_descBus (s : State) : (initStart s).descBus = s.descBus := rfl
@[simp] theorem initStart_descVA (s : State) : (initStart s).descVA = s.descVA := rfl
@[simp] theorem initStart_descBytes (s : State) : (initStart s).descBytes = s.descBytes := rfl
@[simp] theorem initStart_bufVA (s : State) : (initStart s).bufVA = s.bufVA := rfl
@[simp] theorem initStart_pages (s : State) : (initStart s).pages = s.pages := rfl
@[simp] theorem initStart_maxLeds (s : State) : (initStart s).maxLeds = s.maxLeds := rfl
@[simp] theorem initStart_bufBytes (s : State) : (initStart s).bufBytes = s.bufBytes := rfl
@[simp] theorem initStart_phase (s : State) : (initStart s).phase = s.phase := rfl
@[simp] theorem initStart_inInit (s : State) : (initStart s).inInit = true := rfl
@[simp] theorem initStart_blocked (s : State) : (initStart s).blocked = none := rfl
@[simp] theorem initStart_polls (s : State) : (initStart s).polls = 0 := rfl
@[simp] theorem initStart_result (s : State) : (initStart s).result = .ok := rfl
@[simp] theorem initStart_buf (s : State) : (initStart s).buf = s.buf := rfl
@[simp] theorem initStart_busbuf (s : State) : (initStart s).busbuf = s.busbuf := rfl
@[simp] theorem initStart_flushed (s : State) : (initStart s).flushed = s.flushed := rfl
@[simp] theorem initStart_desc (s : State) : (initStart s).desc = s.desc := rfl
@[simp] theorem initStart_descWritten (s : State) : (initStart s).descWritten = s.descWritten := rfl
@[simp] theorem initStart_fifo (s : State) : (initStart s).fifo = s.fifo := rfl
@[simp] theorem initStart_wireCut (s : State) : (initStart s).wireCut = s.wireCut := rfl
@[simp] theorem initStart_cursor (s : State) : (initStart s).cursor = s.cursor := rfl
@[simp] theorem initStart_bldPages (s : State) : (initStart s).bldPages = s.bldPages := rfl
@[simp] theorem initStart_bldIdx (s : State) : (initStart s).bldIdx = s.bldIdx := rfl
@[simp] theorem initStart_bldRemaining (s : State) : (initStart s).bldRemaining = s.bldRemaining := rfl
@[simp] theorem initStart_dma (s : State) : (initStart s).dma = s.dma := rfl
@[simp] theorem initStart_engine (s : State) : (initStart s).engine = s.engine := rfl
@[simp] theorem initStart_cbAddr (s : State) : (initStart s).cbAddr = s.cbAddr := rfl
@[simp] theorem initStart_prioritySet (s : State) : (initStart s).prioritySet = s.prioritySet := rfl
@[simp] theorem initStart_primedInv (s : State) : (initStart s).primedInv = s.primedInv := rfl
@[simp] theorem initStart_chainValid (s : State) : (initStart s).chainValid = s.chainValid := rfl
@[simp] theorem initStart_chainFor (s : State) : (initStart s).chainFor = s.chainFor := rfl
@[simp] theorem initStart_dirty (s : State) : (initStart s).dirty = s.dirty := rfl
@[simp] theorem initStart_descDirty (s : State) : (initStart s).descDirty = s.descDirty := rfl
@[simp] theorem initStart_frameOk (s : State) : (initStart s).frameOk = s.frameOk := rfl
@[simp] theorem initStart_stale (s : State) : (initStart s).stale = s.stale := rfl
@[simp] theorem initStart_cmds (s : State) : (initStart s).cmds = s.cmds := rfl
@[simp] theorem initStart_report (s : State) : (initStart s).report = s.report := rfl
@[simp] theorem initStart_turn (s : State) : (initStart s).turn = s.turn := rfl
@[simp] theorem initStart_tick (s : State) : (initStart s).tick = s.tick := rfl
@[simp] theorem initStart_draws (s : State) : (initStart s).draws = s.draws := rfl

/-! ### coloursEffect -/

@[simp] theorem coloursEffect_params (s : State) : (coloursEffect s).params = s.params := rfl
@[simp] theorem coloursEffect_freq (s : State) : (coloursEffect s).freq = s.freq := rfl
@[simp] theorem coloursEffect_dmaIdx (s : State) : (coloursEffect s).dmaIdx = s.dmaIdx := rfl
@[simp] theorem coloursEffect_pin (s : State) : (coloursEffect s).pin = s.pin := rfl
@[simp] theorem coloursEffect_invert (s : State) : (coloursEffect s).invert = s.invert := rfl
@[simp] theorem coloursEffect_count (s : State) : (coloursEffect s).count = s.count := rfl
@[simp] theorem coloursEffect_col (s : State) :
    (coloursEffect s).col = ⟨List.replicate s.count.c0 0, List.replicate s.count.c1 0⟩ := rfl
@[simp] theorem coloursEffect_regsMapped (s : State) : (coloursEffect s).regsMapped = s.regsMapped := rfl
@[simp] theorem coloursEffect_pinsBound (s : State) : (coloursEffect s).pinsBound = s.pinsBound := rfl
@[simp] theorem coloursEffect_pwmOn (s : State) : (coloursEffect s).pwmOn = s.pwmOn := rfl
@[simp] theorem coloursEffect_chainHead (s : State) : (coloursEffect s).chainHead = s.chainHead := rfl
@[simp] theorem coloursEffect_descBus (s : State) : (coloursEffect s).descBus = s.descBus := rfl
@[simp] theorem coloursEffect_descVA (s : State) : (coloursEffect s).descVA = s.descVA := rfl
@[simp] theorem coloursEffect_descBytes (s : State) : (coloursEffect s).descBytes = s.descBytes := rfl
@[simp] theorem coloursEffect_bufVA (s : State) : (coloursEffect s).bufVA = s.bufVA := rfl
@[simp] theorem coloursEffect_pages (s : State) : (coloursEffect s).pages = s.pages := rfl
@[simp] theorem coloursEffect_maxLeds (s : State) : (coloursEffect s).maxLeds = s.maxLeds := rfl
@[simp] theorem coloursEffect_bufBytes (s : State) : (coloursEffect s).bufBytes = s.bufBytes := rfl
@[simp] theorem coloursEffect_phase (s : State) : (coloursEffect s).phase = s.phase := rfl
@[simp] theorem coloursEffect_inInit (s : State) : (coloursEffect s).inInit = s.inInit := rfl
@[simp] theorem coloursEffect_blocked (s : State) : (coloursEffect s).blocked = none := rfl
@[simp] theorem coloursEffect_polls (s : State) : (coloursEffect s).polls = 0 := rfl
@[simp] theorem coloursEffect_result (s : State) : (coloursEffect s).result = .ok := rfl
@[simp] theorem coloursEffect_buf (s : State) : (coloursEffect s).buf = s.buf := rfl
@[simp] theorem coloursEffect_busbuf (s : State) : (coloursEffect s).busbuf = s.busbuf := rfl
@[simp] theorem coloursEffect_flushed (s : State) : (coloursEffect s).flushed = s.flushed := rfl
@[simp] theorem coloursEffect_desc (s : State) : (coloursEffect s).desc = s.desc := rfl
@[simp] theorem coloursEffect_descWritten (s : State) : (coloursEffect s).descWritten = s.descWritten := rfl
@[simp] theorem coloursEffect_fifo (s : State) : (coloursEffect s).fifo = s.fifo := rfl
@[simp] theorem coloursEffect_wireCut (s : State) : (coloursEffect s).wireCut = s.wireCut := rfl
@[simp] theorem coloursEffect_cursor (s : State) : (coloursEffect s).cursor = s.cursor := rfl
@[simp] theorem coloursEffect_bldPages (s : State) : (coloursEffect s).bldPages = s.bldPages := rfl
@[simp] theorem coloursEffect_bldIdx (s : State) : (coloursEffect s).bldIdx = s.bldIdx := rfl
@[simp] theorem coloursEffect_bldRemaining (s : State) : (coloursEffect s).bldRemaining = s.bldRemaining := rfl
@[simp] theorem coloursEffect_dma (s : State) : (coloursEffect s).dma = s.dma := rfl
@[simp] theorem coloursEffect_engine (s : State) : (coloursEffect s).engine = s.engine := rfl
@[simp] theorem coloursEffect_cbAddr (s : State) : (coloursEffect s).cbAddr = s.cbAddr := rfl
@[simp] theorem coloursEffect_prioritySet (s : State) : (coloursEffect s).prioritySet = s.prioritySet := rfl
@[simp] theorem coloursEffect_primedInv (s : State) : (coloursEffect s).primedInv = s.primedInv := rfl
@[simp] theorem coloursEffect_chainValid (s : State) : (coloursEffect s).chainValid = s.chainValid := rfl
@[simp] theorem coloursEffect_chainFor (s : State) : (coloursEffect s).chainFor = s.chainFor := rfl
@[simp] theorem coloursEffect_dirty (s : State) : (coloursEffect s).dirty = s.dirty := rfl
@[simp] theorem coloursEffect_descDirty (s : State) : (coloursEffect s).descDirty = s.descDirty := rfl
@[simp] theorem coloursEffect_frameOk (s : State) : (coloursEffect s).frameOk = s.frameOk := rfl
@[simp] theorem coloursEffect_stale (s : State) : (coloursEffect s).stale = s.stale := rfl
@[simp] theorem coloursEffect_cmds (s : State) : (coloursEffect s).cmds = s.cmds := rfl
@[simp] theorem coloursEffect_report (s : State) : (coloursEffect s).report = s.report := rfl
@[simp] theorem coloursEffect_turn (s : State) : (coloursEffect s).turn = s.turn := rfl
@[simp] theorem coloursEffect_tick (s : State) : (coloursEffect s).tick = s.tick := rfl
@[simp] theorem coloursEffect_draws (s : State) : (coloursEffect s).draws = s.draws := rfl

/-! ### bufferEffect -/

@[simp] theorem bufferEffect_params (va : Nat) (s : State) : (bufferEffect va s).params = s.params := rfl
@[simp] theorem bufferEffect_freq (va : Nat) (s : State) : (bufferEffect va s).freq = s.freq := rfl
@[simp] theorem bufferEffect_dmaIdx (va : Nat) (s : State) : (bufferEffect va s).dmaIdx = s.dmaIdx := rfl
@[simp] theorem bufferEffect_pin (va : Nat) (s : State) : (bufferEffect va s).pin = s.pin := rfl
@[simp] theorem bufferEffect_invert (va : Nat) (s : State) : (bufferEffect va s).invert = s.invert := rfl
@[simp] theorem bufferEffect_count (va : Nat) (s : State) : (bufferEffect va s).count = s.count := rfl
@[simp] theorem bufferEffect_col (va : Nat) (s : State) : (bufferEffect va s).col = s.col := rfl
@[simp] theorem bufferEffect_regsMapped (va : Nat) (s : State) : (bufferEffect va s).regsMapped = s.regsMapped := rfl
@[simp] theorem bufferEffect_pinsBound (va : Nat) (s : State) : (bufferEffect va s).pinsBound = s.pinsBound := rfl
@[simp] theorem bufferEffect_pwmOn (va : Nat) (s : State) : (bufferEffect va s).pwmOn = s.pwmOn := rfl
@[simp] theorem bufferEffect_chainHead (va : Nat) (s : State) : (bufferEffect va s).chainHead = s.chainHead := rfl
@[simp] theorem bufferEffect_descBus (va : Nat) (s : State) : (bufferEffect va s).descBus = s.descBus := rfl
@[simp] theorem bufferEffect_descVA (va : Nat) (s : State) : (bufferEffect va s).descVA = s.descVA := rfl
@[simp] theorem bufferEffect_descBytes (va : Nat) (s : State) : (bufferEffect va s).descBytes = s.descBytes := rfl
@[simp] theorem bufferEffect_bufVA (va : Nat) (s : State) : (bufferEffect va s).bufVA = some va := rfl
@[simp] theorem bufferEffect_pages (va : Nat) (s : State) : (bufferEffect va s).pages = pageList va s.pageCount := rfl
@[simp] theorem bufferEffect_maxLeds (va : Nat) (s : State) : (bufferEffect va s).maxLeds = s.maxLeds := rfl
@[simp] theorem bufferEffect_bufBytes (va : Nat) (s : State) : (bufferEffect va s).bufBytes = s.bufBytes := rfl
@[simp] theorem bufferEffect_phase (va : Nat) (s : State) : (bufferEffect va s).phase = s.phase := rfl
@[simp] theorem bufferEffect_inInit (va : Nat) (s : State) : (bufferEffect va s).inInit = s.inInit := rfl
@[simp] theorem bufferEffect_blocked (va : Nat) (s : State) : (bufferEffect va s).blocked = none := rfl
@[simp] theorem bufferEffect_polls (va : Nat) (s : State) : (bufferEffect va s).polls = 0 := rfl
@[simp] theorem bufferEffect_result (va : Nat) (s : State) : (bufferEffect va s).result = .ok := rfl
@[simp] theorem bufferEffect_buf (va : Nat) (s : State) : (bufferEffect va s).buf = [] := rfl
@[simp] theorem bufferEffect_busbuf (va : Nat) (s : State) : (bufferEffect va s).busbuf = [] := rfl
@[simp] theorem bufferEffect_flushed (va : Nat) (s : State) : (bufferEffect va s).flushed = [] := rfl
@[simp] theorem bufferEffect_desc (va : Nat) (s : State) : (bufferEffect va s).desc = s.desc := rfl
@[simp] theorem bufferEffect_descWritten (va : Nat) (s : State) : (bufferEffect va s).descWritten = s.descWritten := rfl
@[simp] theorem bufferEffect_fifo (va : Nat) (s : State) : (bufferEffect va s).fifo = s.fifo := rfl
@[simp] theorem bufferEffect_wireCut (va : Nat) (s : State) : (bufferEffect va s).wireCut = s.wireCut := rfl
@[simp] theorem bufferEffect_cursor (va : Nat) (s : State) : (bufferEffect va s).cursor = s.cursor := rfl
@[simp] theorem bufferEffect_bldPages (va : Nat) (s : State) : (bufferEffect va s).bldPages = s.bldPages := rfl
@[simp] theorem bufferEffect_bldIdx (va : Nat) (s : State) : (bufferEffect va s).bldIdx = s.bldIdx := rfl
@[simp] theorem bufferEffect_bldRemaining (va : Nat) (s : State) : (bufferEffect va s).bldRemaining = s.bldRemaining := rfl
@[simp] theorem bufferEffect_dma (va : Nat) (s : State) : (bufferEffect va s).dma = s.dma := rfl
@[simp] theorem bufferEffect_engine (va : Nat) (s : State) : (bufferEffect va s).engine = s.engine := rfl
@[simp] theorem bufferEffect_cbAddr (va : Nat) (s : State) : (bufferEffect va s).cbAddr = s.cbAddr := rfl
@[simp] theorem bufferEffect_prioritySet (va : Nat) (s : State) : (bufferEffect va s).prioritySet = s.prioritySet := rfl
@[simp] theorem bufferEffect_primedInv (va : Nat) (s : State) : (bufferEffect va s).primedInv = s.primedInv := rfl
@[simp] theorem bufferEffect_chainValid (va : Nat) (s : State) : (bufferEffect va s).chainValid = s.chainValid := rfl
@[simp] theorem bufferEffect_chainFor (va : Nat) (s : State) : (bufferEffect va s).chainFor = s.chainFor := rfl
@[simp] theorem bufferEffect_dirty (va : Nat) (s : State) : (bufferEffect va s).dirty = [] := rfl
@[simp] theorem bufferEffect_descDirty (va : Nat) (s : State) : (bufferEffect va s).descDirty = s.descDirty := rfl
@[simp] theorem bufferEffect_frameOk (va : Nat) (s : State) : (bufferEffect va s).frameOk = s.frameOk := rfl
@[simp] theorem bufferEffect_stale (va : Nat) (s : State) : (bufferEffect va s).stale = s.stale := rfl
@[simp] theorem bufferEffect_cmds (va : Nat) (s : State) : (bufferEffect va s).cmds = s.cmds := rfl
@[simp] theorem bufferEffect_report (va : Nat) (s : State) : (bufferEffect va s).report = s.report := rfl
@[simp] theorem bufferEffect_turn (va : Nat) (s : State) : (bufferEffect va s).turn = s.turn := rfl
@[simp] theorem bufferEffect_tick (va : Nat) (s : State) : (bufferEffect va s).tick = s.tick := rfl
@[simp] theorem bufferEffect_draws (va : Nat) (s : State) : (bufferEffect va s).draws = s.draws := rfl

/-! ### storageEffect -/

@[simp] theorem storageEffect_params (va n : Nat) (s : State) : (storageEffect va n s).params = s.params := rfl
@[simp] theorem storageEffect_freq (va n : Nat) (s : State) : (storageEffect va n s).freq = s.freq := rfl
@[simp] theorem storageEffect_dmaIdx (va n : Nat) (s : State) : (storageEffect va n s).dmaIdx = s.dmaIdx := rfl
@[simp] theorem storageEffect_pin (va n : Nat) (s : State) : (storageEffect va n s).pin = s.pin := rfl
@[simp] theorem storageEffect_invert (va n : Nat) (s : State) : (storageEffect va n s).invert = s.invert := rfl
@[simp] theorem storageEffect_count (va n : Nat) (s : State) : (storageEffect va n s).count = s.count := rfl
@[simp] theorem storageEffect_col (va n : Nat) (s : State) : (storageEffect va n s).col = s.col := rfl
@[simp] theorem storageEffect_regsMapped (va n : Nat) (s : State) : (storageEffect va n s).regsMapped = s.regsMapped := rfl
@[simp] theorem storageEffect_pinsBound (va n : Nat) (s : State) : (storageEffect va n s).pinsBound = s.pinsBound := rfl
@[simp] theorem storageEffect_pwmOn (va n : Nat) (s : State) : (storageEffect va n s).pwmOn = s.pwmOn := rfl
@[simp] theorem storageEffect_chainHead (va n : Nat) (s : State) : (storageEffect va n s).chainHead = s.chainHead := rfl
@[simp] theorem storageEffect_descBus (va n : Nat) (s : State) : (storageEffect va n s).descBus = s.descBus := rfl
@[simp] theorem storageEffect_descVA (va n : Nat) (s : State) : (storageEffect va n s).descVA = some va := rfl
@[simp] theorem storageEffect_descBytes (va n : Nat) (s : State) : (storageEffect va n s).descBytes = n := rfl
@[simp] theorem storageEffect_bufVA (va n : Nat) (s : State) : (storageEffect va n s).bufVA = s.bufVA := rfl
@[simp] theorem storageEffect_pages (va n : Nat) (s : State) : (storageEffect va n s).pages = s.pages := rfl
@[simp] theorem storageEffect_maxLeds (va n : Nat) (s : State) : (storageEffect va n s).maxLeds = s.maxLeds := rfl
@[simp] theorem storageEffect_bufBytes (va n : Nat) (s : State) : (storageEffect va n s).bufBytes = s.bufBytes := rfl
@[simp] theorem storageEffect_phase (va n : Nat) (s : State) : (storageEffect va n s).phase = s.phase := rfl
@[simp] theorem storageEffect_inInit (va n : Nat) (s : State) : (storageEffect va n s).inInit = s.inInit := rfl
@[simp] theorem storageEffect_blocked (va n : Nat) (s : State) : (storageEffect va n s).blocked = none := rfl
@[simp] theorem storageEffect_polls (va n : Nat) (s : State) : (storageEffect va n s).polls = 0 := rfl
@[simp] theorem storageEffect_result (va n : Nat) (s : State) : (storageEffect va n s).result = .ok := rfl
@[simp] theorem storageEffect_buf (va n : Nat) (s : State) : (storageEffect va n s).buf = s.buf := rfl
@[simp] theorem storageEffect_busbuf (va n : Nat) (s : State) : (storageEffect va n s).busbuf = s.busbuf := rfl
@[simp] theorem storageEffect_flushed (va n : Nat) (s : State) : (storageEffect va n s).flushed = s.flushed := rfl
@[simp] theorem storageEffect_desc (va n : Nat) (s : State) : (storageEffect va n s).desc = [] := rfl
@[simp] theorem storageEffect_descWritten (va n : Nat) (s : State) : (storageEffect va n s).descWritten = [] := rfl
@[simp] theorem storageEffect_fifo (va n : Nat) (s : State) : (storageEffect va n s).fifo = s.fifo := rfl
@[simp] theorem storageEffect_wireCut (va n : Nat) (s : State) : (storageEffect va n s).wireCut = s.wireCut := rfl
@[simp] theorem storageEffect_cursor (va n : Nat) (s : State) : (storageEffect va n s).cursor = s.cursor := rfl
@[simp] theorem storageEffect_bldPages (va n : Nat) (s : State) : (storageEffect va n s).bldPages = s.bldPages := rfl
@[simp] theorem storageEffect_bldIdx (va n : Nat) (s : State) : (storageEffect va n s).bldIdx = s.bldIdx := rfl
@[simp] theorem storageEffect_bldRemaining (va n : Nat) (s : State) : (storageEffect va n s).bldRemaining = s.bldRemaining := rfl
@[simp] theorem storageEffect_dma (va n : Nat) (s : State) : (storageEffect va n s).dma = s.dma := rfl
@[simp] theorem storageEffect_engine (va n : Nat) (s : State) : (storageEffect va n s).engine = s.engine := rfl
@[simp] theorem storageEffect_cbAddr (va n : Nat) (s : State) : (storageEffect va n s).cbAddr = s.cbAddr := rfl
@[simp] theorem storageEffect_prioritySet (va n : Nat) (s : State) : (storageEffect va n s).prioritySet = s.prioritySet := rfl
@[simp] theorem storageEffect_primedInv (va n : Nat) (s : State) : (storageEffect va n s).primedInv = s.primedInv := rfl
@[simp] theorem storageEffect_chainValid (va n : Nat) (s : State) : (storageEffect va n s).chainValid = false := rfl
@[simp] theorem storageEffect_chainFor (va n : Nat) (s : State) : (storageEffect va n s).chainFor = s.chainFor := rfl
@[simp] theorem storageEffect_dirty (va n : Nat) (s : State) : (storageEffect va n s).dirty = s.dirty := rfl
@[simp] theorem storageEffect_descDirty (va n : Nat) (s : State) : (storageEffect va n s).descDirty = s.descDirty := rfl
@[simp] theorem storageEffect_frameOk (va n : Nat) (s : State) : (storageEffect va n s).frameOk = s.frameOk := rfl
@[simp] theorem storageEffect_stale (va n : Nat) (s : State) : (storageEffect va n s).stale = s.stale := rfl
@[simp] theorem storageEffect_cmds (va n : Nat) (s : State) : (storageEffect va n s).cmds = s.cmds := rfl
@[simp] theorem storageEffect_report (va n : Nat) (s : State) : (storageEffect va n s).report = s.report := rfl
@[simp] theorem storageEffect_turn (va n : Nat) (s : State) : (storageEffect va n s).turn = s.turn := rfl
@[simp] theorem storageEffect_tick (va n : Nat) (s : State) : (storageEffect va n s).tick = s.tick := rfl
@[simp] theorem storageEffect_draws (va n : Nat) (s : State) : (storageEffect va n s).draws = s.draws := rfl

/-! ### resolveEffect -/

@[simp] theorem resolveEffect_params (a : Word) (s : State) : (resolveEffect a s).params = s.params := rfl
@[simp] theorem resolveEffect_freq (a : Word) (s : State) : (resolveEffect a s).freq = s.freq := rfl
@[simp] theorem resolveEffect_dmaIdx (a : Word) (s : State) : (resolveEffect a s).dmaIdx = s.dmaIdx := rfl
@[simp] theorem resolveEffect_pin (a : Word) (s : State) : (resolveEffect a s).pin = s.pin := rfl
@[simp] theorem resolveEffect_invert (a : Word) (s : State) : (resolveEffect a s).invert = s.invert := rfl
@[simp] theorem resolveEffect_count (a : Word) (s : State) : (resolveEffect a s).count = s.count := rfl
@[simp] theorem resolveEffect_col (a : Word) (s : State) : (resolveEffect a s).col = s.col := rfl
@[simp] theorem resolveEffect_regsMapped (a : Word) (s : State) : (resolveEffect a s).regsMapped = s.regsMapped := rfl
@[simp] theorem resolveEffect_pinsBound (a : Word) (s : State) : (resolveEffect a s).pinsBound = s.pinsBound := rfl
@[simp] theorem resolveEffect_pwmOn (a : Word) (s : State) : (resolveEffect a s).pwmOn = s.pwmOn := rfl
@[simp] theorem resolveEffect_chainHead (a : Word) (s : State) : (resolveEffect a s).chainHead = s.chainHead := rfl
@[simp] theorem resolveEffect_descBus (a : Word) (s : State) : (resolveEffect a s).descBus = some a := rfl
@[simp] theorem resolveEffect_descVA (a : Word) (s : State) : (resolveEffect a s).descVA = s.descVA := rfl
@[simp] theorem resolveEffect_descBytes (a : Word) (s : State) : (resolveEffect a s).descBytes = s.descBytes := rfl
@[simp] theorem resolveEffect_bufVA (a : Word) (s : State) : (resolveEffect a s).bufVA = s.bufVA := rfl
@[simp] theorem resolveEffect_pages (a : Word) (s : State) : (resolveEffect a s).pages = s.pages := rfl
@[simp] theorem resolveEffect_maxLeds (a : Word) (s : State) : (resolveEffect a s).maxLeds = s.maxLeds := rfl
@[simp] theorem resolveEffect_bufBytes (a : Word) (s : State) : (resolveEffect a s).bufBytes = s.bufBytes := rfl
@[simp] theorem resolveEffect_phase (a : Word) (s : State) : (resolveEffect a s).phase = s.phase := rfl
@[simp] theorem resolveEffect_inInit (a : Word) (s : State) : (resolveEffect a s).inInit = s.inInit := rfl
@[simp] theorem resolveEffect_blocked (a : Word) (s : State) : (resolveEffect a s).blocked = none := rfl
@[simp] theorem resolveEffect_polls (a : Word) (s : State) : (resolveEffect a s).polls = 0 := rfl
@[simp] theorem resolveEffect_result (a : Word) (s : State) : (resolveEffect a s).result = .ok := rfl
@[simp] theorem resolveEffect_buf (a : Word) (s : State) : (resolveEffect a s).buf = s.buf := rfl
@[simp] theorem resolveEffect_busbuf (a : Word) (s : State) : (resolveEffect a s).busbuf = s.busbuf := rfl
@[simp] theorem resolveEffect_flushed (a : Word) (s : State) : (resolveEffect a s).flushed = s.flushed := rfl
@[simp] theorem resolveEffect_desc (a : Word) (s : State) : (resolveEffect a s).desc = s.desc := rfl
@[simp] theorem resolveEffect_descWritten (a : Word) (s : State) : (resolveEffect a s).descWritten = s.descWritten := rfl
@[simp] theorem resolveEffect_fifo (a : Word) (s : State) : (resolveEffect a s).fifo = s.fifo := rfl
@[simp] theorem resolveEffect_wireCut (a : Word) (s : State) : (resolveEffect a s).wireCut = s.wireCut := rfl
@[simp] theorem resolveEffect_cursor (a : Word) (s : State) : (resolveEffect a s).cursor = s.cursor := rfl
@[simp] theorem resolveEffect_bldPages (a : Word) (s : State) : (resolveEffect a s).bldPages = s.bldPages := rfl
@[simp] theorem resolveEffect_bldIdx (a : Word) (s : State) : (resolveEffect a s).bldIdx = s.bldIdx := rfl
@[simp] theorem resolveEffect_bldRemaining (a : Word) (s : State) : (resolveEffect a s).bldRemaining = s.bldRemaining := rfl
@[simp] theorem resolveEffect_dma (a : Word) (s : State) : (resolveEffect a s).dma = s.dma := rfl
@[simp] theorem resolveEffect_engine (a : Word) (s : State) : (resolveEffect a s).engine = s.engine := rfl
@[simp] theorem resolveEffect_cbAddr (a : Word) (s : State) : (resolveEffect a s).cbAddr = s.cbAddr := rfl
@[simp] theorem resolveEffect_prioritySet (a : Word) (s : State) : (resolveEffect a s).prioritySet = s.prioritySet := rfl
@[simp] theorem resolveEffect_primedInv (a : Word) (s : State) : (resolveEffect a s).primedInv = s.primedInv := rfl
@[simp] theorem resolveEffect_chainValid (a : Word) (s : State) : (resolveEffect a s).chainValid = s.chainValid := rfl
@[simp] theorem resolveEffect_chainFor (a : Word) (s : State) : (resolveEffect a s).chainFor = s.chainFor := rfl
@[simp] theorem resolveEffect_dirty (a : Word) (s : State) : (resolveEffect a s).dirty = s.dirty := rfl
@[simp] theorem resolveEffect_descDirty (a : Word) (s : State) : (resolveEffect a s).descDirty = s.descDirty := rfl
@[simp] theorem resolveEffect_frameOk (a : Word) (s : State) : (resolveEffect a s).frameOk = s.frameOk := rfl
@[simp] theorem resolveEffect_stale (a : Word) (s : State) : (resolveEffect a s).stale = s.stale := rfl
@[simp] theorem resolveEffect_cmds (a : Word) (s : State) : (resolveEffect a s).cmds = s.cmds := rfl
@[simp] theorem resolveEffect_report (a : Word) (s : State) : (resolveEffect a s).report = s.report := rfl
@[simp] theorem resolveEffect_turn (a : Word) (s : State) : (resolveEffect a s).turn = s.turn := rfl
@[simp] theorem resolveEffect_tick (a : Word) (s : State) : (resolveEffect a s).tick = s.tick := rfl
@[simp] theorem resolveEffect_draws (a : Word) (s : State) : (resolveEffect a s).draws = s.draws := rfl

/-! ### mapEffect -/

@[simp] theorem mapEffect_params (s : State) : (mapEffect s).params = s.params := rfl
@[simp] theorem mapEffect_freq (s : State) : (mapEffect s).freq = s.freq := rfl
@[simp] theorem mapEffect_dmaIdx (s : State) : (mapEffect s).dmaIdx = s.dmaIdx := rfl
@[simp] theorem mapEffect_pin (s : State) : (mapEffect s).pin = s.pin := rfl
@[simp] theorem mapEffect_invert (s : State) : (mapEffect s).invert = s.invert := rfl
@[simp] theorem mapEffect_count (s : State) : (mapEffect s).count = s.count := rfl
@[simp] theorem mapEffect_col (s : State) : (mapEffect s).col = s.col := rfl
@[simp] theorem mapEffect_regsMapped (s : State) : (mapEffect s).regsMapped = true := rfl
@[simp] theorem mapEffect_pinsBound (s : State) : (mapEffect s).pinsBound = s.pinsBound := rfl
@[simp] theorem mapEffect_pwmOn (s : State) : (mapEffect s).pwmOn = s.pwmOn := rfl
@[simp] theorem mapEffect_chainHead (s : State) : (mapEffect s).chainHead = s.chainHead := rfl
@[simp] theorem mapEffect_descBus (s : State) : (mapEffect s).descBus = s.descBus := rfl
@[simp] theorem mapEffect_descVA (s : State) : (mapEffect s).descVA = s.descVA := rfl
@[simp] theorem mapEffect_descBytes (s : State) : (mapEffect s).descBytes = s.descBytes := rfl
@[simp] theorem mapEffect_bufVA (s : State) : (mapEffect s).bufVA = s.bufVA := rfl
@[simp] theorem mapEffect_pages (s : State) : (mapEffect s).pages = s.pages := rfl
@[simp] theorem mapEffect_maxLeds (s : State) : (mapEffect s).maxLeds = s.maxLeds := rfl
@[simp] theorem mapEffect_bufBytes (s : State) : (mapEffect s).bufBytes = s.bufBytes := rfl
@[simp] theorem mapEffect_phase (s : State) : (mapEffect s).phase = s.phase := rfl
@[simp] theorem mapEffect_inInit (s : State) : (mapEffect s).inInit = s.inInit := rfl
@[simp] theorem mapEffect_blocked (s : State) : (mapEffect s).blocked = none := rfl
@[simp] theorem mapEffect_polls (s : State) : (mapEffect s).polls = 0 := rfl
@[simp] theorem mapEffect_result (s : State) : (mapEffect s).result = .ok := rfl
@[simp] theorem mapEffect_buf (s : State) : (mapEffect s).buf = s.buf := rfl
@[simp] theorem mapEffect_busbuf (s : State) : (mapEffect s).busbuf = s.busbuf := rfl
@[simp] theorem mapEffect_flushed (s : State) : (mapEffect s).flushed = s.flushed := rfl
@[simp] theorem mapEffect_desc (s : State) : (mapEffect s).desc = s.desc := rfl
@[simp] theorem mapEffect_descWritten (s : State) : (mapEffect s).descWritten = s.descWritten := rfl
@[simp] theorem mapEffect_fifo (s : State) : (mapEffect s).fifo = s.fifo := rfl
@[simp] theorem mapEffect_wireCut (s : State) : (mapEffect s).wireCut = s.wireCut := rfl
@[simp] theorem mapEffect_cursor (s : State) : (mapEffect s).cursor = s.cursor := rfl
@[simp] theorem mapEffect_bldPages (s : State) : (mapEffect s).bldPages = s.bldPages := rfl
@[simp] theorem mapEffect_bldIdx (s : State) : (mapEffect s).bldIdx = s.bldIdx := rfl
@[simp] theorem mapEffect_bldRemaining (s : State) : (mapEffect s).bldRemaining = s.bldRemaining := rfl
@[simp] theorem mapEffect_dma (s : State) : (mapEffect s).dma = s.dma := rfl
@[simp] theorem mapEffect_engine (s : State) : (mapEffect s).engine = s.engine := rfl
@[simp] theorem mapEffect_cbAddr (s : State) : (mapEffect s).cbAddr = s.cbAddr := rfl
@[simp] theorem mapEffect_prioritySet (s : State) : (mapEffect s).prioritySet = s.prioritySet := rfl
@[simp] theorem mapEffect_primedInv (s : State) : (mapEffect s).primedInv = s.primedInv := rfl
@[simp] theorem mapEffect_chainValid (s : State) : (mapEffect s).chainValid = s.chainValid := rfl
@[simp] theorem mapEffect_chainFor (s : State) : (mapEffect s).chainFor = s.chainFor := rfl
@[simp] theorem mapEffect_dirty (s : State) : (mapEffect s).dirty = s.dirty := rfl
@[simp] theorem mapEffect_descDirty (s : State) : (mapEffect s).descDirty = s.descDirty := rfl
@[simp] theorem mapEffect_frameOk (s : State) : (mapEffect s).frameOk = s.frameOk := rfl
@[simp] theorem mapEffect_stale (s : State) : (mapEffect s).stale = s.stale := rfl
@[simp] theorem mapEffect_cmds (s : State) : (mapEffect s).cmds = s.cmds := rfl
@[simp] theorem mapEffect_report (s : State) : (mapEffect s).report = s.report := rfl
@[simp] theorem mapEffect_turn (s : State) : (mapEffect s).turn = s.turn := rfl
@[simp] theorem mapEffect_tick (s : State) : (mapEffect s).tick = s.tick := rfl
@[simp] theorem mapEffect_draws (s : State) : (mapEffect s).draws = s.draws := rfl

/-! ### pinsEffect -/

@[simp] theorem pinsEffect_params (s : State) : (pinsEffect s).params = s.params := rfl
@[simp] theorem pinsEffect_freq (s : State) : (pinsEffect s).freq = s.freq := rfl
@[simp] theorem pinsEffect_dmaIdx (s : State) : (pinsEffect s).dmaIdx = s.dmaIdx := rfl
@[simp] theorem pinsEffect_pin (s : State) : (pinsEffect s).pin = s.pin := rfl
@[simp] theorem pinsEffect_invert (s : State) : (pinsEffect s).invert = s.invert := rfl
@[simp] theorem pinsEffect_count (s : State) : (pinsEffect s).count = s.count := rfl
@[simp] theorem pinsEffect_col (s : State) : (pinsEffect s).col = s.col := rfl
@[simp] theorem pinsEffect_regsMapped (s : State) : (pinsEffect s).regsMapped = s.regsMapped := rfl
@[simp] theorem pinsEffect_pinsBound (s : State) : (pinsEffect s).pinsBound = true := rfl
@[simp] theorem pinsEffect_pwmOn (s : State) : (pinsEffect s).pwmOn = s.pwmOn := rfl
@[simp] theorem pinsEffect_chainHead (s : State) : (pinsEffect s).chainHead = s.chainHead := rfl
@[simp] theorem pinsEffect_descBus (s : State) : (pinsEffect s).descBus = s.descBus := rfl
@[simp] theorem pinsEffect_descVA (s : State) : (pinsEffect s).descVA = s.descVA := rfl
@[simp] theorem pinsEffect_descBytes (s : State) : (pinsEffect s).descBytes = s.descBytes := rfl
@[simp] theorem pinsEffect_bufVA (s : State) : (pinsEffect s).bufVA = s.bufVA := rfl
@[simp] theorem pinsEffect_pages (s : State) : (pinsEffect s).pages = s.pages := rfl
@[simp] theorem pinsEffect_maxLeds (s : State) : (pinsEffect s).maxLeds = s.maxLeds := rfl
@[simp] theorem pinsEffect_bufBytes (s : State) : (pinsEffect s).bufBytes = s.bufBytes := rfl
@[simp] theorem pinsEffect_phase (s : State) : (pinsEffect s).phase = s.phase := rfl
@[simp] theorem pinsEffect_inInit (s : State) : (pinsEffect s).inInit = s.inInit := rfl
@[simp] theorem pinsEffect_blocked (s : State) : (pinsEffect s).blocked = none := rfl
@[simp] theorem pinsEffect_polls (s : State) : (pinsEffect s).polls = 0 := rfl
@[simp] theorem pinsEffect_result (s : State) : (pinsEffect s).result = .ok := rfl
@[simp] theorem pinsEffect_buf (s : State) : (pinsEffect s).buf = s.buf := rfl
@[simp] theorem pinsEffect_busbuf (s : State) : (pinsEffect s).busbuf = s.busbuf := rfl
@[simp] theorem pinsEffect_flushed (s : State) : (pinsEffect s).flushed = s.flushed := rfl
@[simp] theorem pinsEffect_desc (s : State) : (pinsEffect s).desc = s.desc := rfl
@[simp] theorem pinsEffect_descWritten (s : State) : (pinsEffect s).descWritten = s.descWritten := rfl
@[simp] theorem pinsEffect_fifo (s : State) : (pinsEffect s).fifo = s.fifo := rfl
@[simp] theorem pinsEffect_wireCut (s : State) : (pinsEffect s).wireCut = s.wireCut := rfl
@[simp] theorem pinsEffect_cursor (s : State) : (pinsEffect s).cursor = s.cursor := rfl
@[simp] theorem pinsEffect_bldPages (s : State) : (pinsEffect s).bldPages = s.bldPages := rfl
@[simp] theorem pinsEffect_bldIdx (s : State) : (pinsEffect s).bldIdx = s.bldIdx := rfl
@[simp] theorem pinsEffect_bldRemaining (s : State) : (pinsEffect s).bldRemaining = s.bldRemaining := rfl
@[simp] theorem pinsEffect_dma (s : State) : (pinsEffect s).dma = s.dma := rfl
@[simp] theorem pinsEffect_engine (s : State) : (pinsEffect s).engine = s.engine := rfl
@[simp] theorem pinsEffect_cbAddr (s : State) : (pinsEffect s).cbAddr = s.cbAddr := rfl
@[simp] theorem pinsEffect_prioritySet (s : State) : (pinsEffect s).prioritySet = s.prioritySet := rfl
@[simp] theorem pinsEffect_primedInv (s : State) : (pinsEffect s).primedInv = s.primedInv := rfl
@[simp] theorem pinsEffect_chainValid (s : State) : (pinsEffect s).chainValid = s.chainValid := rfl
@[simp] theorem pinsEffect_chainFor (s : State) : (pinsEffect s).chainFor = s.chainFor := rfl
@[simp] theorem pinsEffect_dirty (s : State) : (pinsEffect s).dirty = s.dirty := rfl
@[simp] theorem pinsEffect_descDirty (s : State) : (pinsEffect s).descDirty = s.descDirty := rfl
@[simp] theorem pinsEffect_frameOk (s : State) : (pinsEffect s).frameOk = s.frameOk := rfl
@[simp] theorem pinsEffect_stale (s : State) : (pinsEffect s).stale = s.stale := rfl
@[simp] theorem pinsEffect_cmds (s : State) : (pinsEffect s).cmds = s.cmds := rfl
@[simp] theorem pinsEffect_report (s : State) : (pinsEffect s).report = s.report := rfl
@[simp] theorem pinsEffect_turn (s : State) : (pinsEffect s).turn = s.turn := rfl
@[simp] theorem pinsEffect_tick (s : State) : (pinsEffect s).tick = s.tick := rfl
@[simp] theorem pinsEffect_draws (s : State) : (pinsEffect s).draws = s.draws := rfl

/-! ### clockEffect -/

@[simp] theorem clockEffect_params (s : State) : (clockEffect s).params = s.params := rfl
@[simp] theorem clockEffect_freq (s : State) : (clockEffect s).freq = s.freq := rfl
@[simp] theorem clockEffect_dmaIdx (s : State) : (clockEffect s).dmaIdx = s.dmaIdx := rfl
@[simp] theorem clockEffect_pin (s : State) : (clockEffect s).pin = s.pin := rfl
@[simp] theorem clockEffect_invert (s : State) : (clockEffect s).invert = s.invert := rfl
@[simp] theorem clockEffect_count (s : State) : (clockEffect s).count = s.count := rfl
@[simp] theorem clockEffect_col (s : State) : (clockEffect s).col = s.col := rfl
@[simp] theorem clockEffect_regsMapped (s : State) : (clockEffect s).regsMapped = s.regsMapped := rfl
@[simp] theorem clockEffect_pinsBound (s : State) : (clockEffect s).pinsBound = s.pinsBound := rfl
@[simp] theorem clockEffect_pwmOn (s : State) : (clockEffect s).pwmOn = true := rfl
@[simp] theorem clockEffect_chainHead (s : State) : (clockEffect s).chainHead = s.chainHead := rfl
@[simp] theorem clockEffect_descBus (s : State) : (clockEffect s).descBus = s.descBus := rfl
@[simp] theorem clockEffect_descVA (s : State) : (clockEffect s).descVA = s.descVA := rfl
@[simp] theorem clockEffect_descBytes (s : State) : (clockEffect s).descBytes = s.descBytes := rfl
@[simp] theorem clockEffect_bufVA (s : State) : (clockEffect s).bufVA = s.bufVA := rfl
@[simp] theorem clockEffect_pages (s : State) : (clockEffect s).pages = s.pages := rfl
@[simp] theorem clockEffect_maxLeds (s : State) : (clockEffect s).maxLeds = s.maxLeds := rfl
@[simp] theorem clockEffect_bufBytes (s : State) : (clockEffect s).bufBytes = s.bufBytes := rfl
@[simp] theorem clockEffect_phase (s : State) : (clockEffect s).phase = s.phase := rfl
@[simp] theorem clockEffect_inInit (s : State) : (clockEffect s).inInit = s.inInit := rfl
@[simp] theorem clockEffect_blocked (s : State) : (clockEffect s).blocked = none := rfl
@[simp] theorem clockEffect_polls (s : State) : (clockEffect s).polls = 0 := rfl
@[simp] theorem clockEffect_result (s : State) : (clockEffect s).result = .ok := rfl
@[simp] theorem clockEffect_buf (s : State) : (clockEffect s).buf = s.buf := rfl
@[simp] theorem clockEffect_busbuf (s : State) : (clockEffect s).busbuf = s.busbuf := rfl
@[simp] theorem clockEffect_flushed (s : State) : (clockEffect s).flushed = s.flushed := rfl
@[simp] theorem clockEffect_desc (s : State) : (clockEffect s).desc = s.desc := rfl
@[simp] theorem clockEffect_descWritten (s : State) : (clockEffect s).descWritten = s.descWritten := rfl
@[simp] theorem clockEffect_fifo (s : State) : (clockEffect s).fifo = [] := rfl
@[simp] theorem clockEffect_wireCut (s : State) : (clockEffect s).wireCut = s.wireCut := rfl
@[simp] theorem clockEffect_cursor (s : State) : (clockEffect s).cursor = s.cursor := rfl
@[simp] theorem clockEffect_bldPages (s : State) : (clockEffect s).bldPages = s.bldPages := rfl
@[simp] theorem clockEffect_bldIdx (s : State) : (clockEffect s).bldIdx = s.bldIdx := rfl
@[simp] theorem clockEffect_bldRemaining (s : State) : (clockEffect s).bldRemaining = s.bldRemaining := rfl
@[simp] theorem clockEffect_dma (s : State) : (clockEffect s).dma = s.dma := rfl
@[simp] theorem clockEffect_engine (s : State) : (clockEffect s).engine = s.engine := rfl
@[simp] theorem clockEffect_cbAddr (s : State) : (clockEffect s).cbAddr = s.cbAddr := rfl
@[simp] theorem clockEffect_prioritySet (s : State) : (clockEffect s).prioritySet = s.prioritySet := rfl
@[simp] theorem clockEffect_primedInv (s : State) : (clockEffect s).primedInv = s.primedInv := rfl
@[simp] theorem clockEffect_chainValid (s : State) : (clockEffect s).chainValid = s.chainValid := rfl
@[simp] theorem clockEffect_chainFor (s : State) : (clockEffect s).chainFor = s.chainFor := rfl
@[simp] theorem clockEffect_dirty (s : State) : (clockEffect s).dirty = s.dirty := rfl
@[simp] theorem clockEffect_descDirty (s : State) : (clockEffect s).descDirty = s.descDirty := rfl
@[simp] theorem clockEffect_frameOk (s : State) : (clockEffect s).frameOk = s.frameOk := rfl
@[simp] theorem clockEffect_stale (s : State) : (clockEffect s).stale = s.stale := rfl
@[simp] theorem clockEffect_cmds (s : State) : (clockEffect s).cmds = s.cmds := rfl
@[simp] theorem clockEffect_report (s : State) : (clockEffect s).report = s.report := rfl
@[simp] theorem clockEffect_turn (s : State) : (clockEffect s).turn = s.turn := rfl
@[simp] theorem clockEffect_tick (s : State) : (clockEffect s).tick = s.tick := rfl
@[simp] theorem clockEffect_draws (s : State) : (clockEffect s).draws = s.draws := rfl

/-! ### readyEffect -/

@[simp] theorem readyEffect_params (s : State) : (readyEffect s).params = s.params := rfl
@[simp] theorem readyEffect_freq (s : State) : (readyEffect s).freq = s.freq := rfl
@[simp] theorem readyEffect_dmaIdx (s : State) : (readyEffect s).dmaIdx = s.dmaIdx := rfl
@[simp] theorem readyEffect_pin (s : State) : (readyEffect s).pin = s.pin := rfl
@[simp] theorem readyEffect_invert (s : State) : (readyEffect s).invert = s.invert := rfl
@[simp] theorem readyEffect_count (s : State) : (readyEffect s).count = s.count := rfl
@[simp] theorem readyEffect_col (s : State) : (readyEffect s).col = s.col := rfl
@[simp] theorem readyEffect_regsMapped (s : State) : (readyEffect s).regsMapped = s.regsMapped := rfl
@[simp] theorem readyEffect_pinsBound (s : State) : (readyEffect s).pinsBound = s.pinsBound := rfl
@[simp] theorem readyEffect_pwmOn (s : State) : (readyEffect s).pwmOn = s.pwmOn := rfl
@[simp] theorem readyEffect_chainHead (s : State) : (readyEffect s).chainHead = s.chainHead := rfl
@[simp] theorem readyEffect_descBus (s : State) : (readyEffect s).descBus = s.descBus := rfl
@[simp] theorem readyEffect_descVA (s : State) : (readyEffect s).descVA = s.descVA := rfl
@[simp] theorem readyEffect_descBytes (s : State) : (readyEffect s).descBytes = s.descBytes := rfl
@[simp] theorem readyEffect_bufVA (s : State) : (readyEffect s).bufVA = s.bufVA := rfl
@[simp] theorem readyEffect_pages (s : State) : (readyEffect s).pages = s.pages := rfl
@[simp] theorem readyEffect_maxLeds (s : State) : (readyEffect s).maxLeds = s.maxLeds := rfl
@[simp] theorem readyEffect_bufBytes (s : State) : (readyEffect s).bufBytes = s.bufBytes := rfl
@[simp] theorem readyEffect_phase (s : State) : (readyEffect s).phase = .ready := rfl
@[simp] theorem readyEffect_inInit (s : State) : (readyEffect s).inInit = false := rfl
@[simp] theorem readyEffect_blocked (s : State) : (readyEffect s).blocked = none := rfl
@[simp] theorem readyEffect_polls (s : State) : (readyEffect s).polls = 0 := rfl
@[simp] theorem readyEffect_result (s : State) : (readyEffect s).result = .ok := rfl
@[simp] theorem readyEffect_buf (s : State) : (readyEffect s).buf = s.buf := rfl
@[simp] theorem readyEffect_busbuf (s : State) : (readyEffect s).busbuf = s.busbuf := rfl
@[simp] theorem readyEffect_flushed (s : State) : (readyEffect s).flushed = s.flushed := rfl
@[simp] theorem readyEffect_desc (s : State) : (readyEffect s).desc = s.desc := rfl
@[simp] theorem readyEffect_descWritten (s : State) : (readyEffect s).descWritten = s.descWritten := rfl
@[simp] theorem readyEffect_fifo (s : State) : (readyEffect s).fifo = s.fifo := rfl
@[simp] theorem readyEffect_wireCut (s : State) : (readyEffect s).wireCut = s.wireCut := rfl
@[simp] theorem readyEffect_cursor (s : State) : (readyEffect s).cursor = s.cursor := rfl
@[simp] theorem readyEffect_bldPages (s : State) : (readyEffect s).bldPages = s.bldPages := rfl
@[simp] theorem readyEffect_bldIdx (s : State) : (readyEffect s).bldIdx = s.bldIdx := rfl
@[simp] theorem readyEffect_bldRemaining (s : State) : (readyEffect s).bldRemaining = s.bldRemaining := rfl
@[simp] theorem readyEffect_dma (s : State) : (readyEffect s).dma = s.dma := rfl
@[simp] theorem readyEffect_engine (s : State) : (readyEffect s).engine = s.engine := rfl
@[simp] theorem readyEffect_cbAddr (s : State) : (readyEffect s).cbAddr = s.cbAddr := rfl
@[simp] theorem readyEffect_prioritySet (s : State) : (readyEffect s).prioritySet = s.prioritySet := rfl
@[simp] theorem readyEffect_primedInv (s : State) : (readyEffect s).primedInv = s.primedInv := rfl
@[simp] theorem readyEffect_chainValid (s : State) : (readyEffect s).chainValid = s.chainValid := rfl
@[simp] theorem readyEffect_chainFor (s : State) : (readyEffect s).chainFor = s.chainFor := rfl
@[simp] theorem readyEffect_dirty (s : State) : (readyEffect s).dirty = s.dirty := rfl
@[simp] theorem readyEffect_descDirty (s : State) : (readyEffect s).descDirty = s.descDirty := rfl
@[simp] theorem readyEffect_frameOk (s : State) : (readyEffect s).frameOk = s.frameOk := rfl
@[simp] theorem readyEffect_stale (s : State) : (readyEffect s).stale = s.stale := rfl
@[simp] theorem readyEffect_cmds (s : State) : (readyEffect s).cmds = s.cmds := rfl
@[simp] theorem readyEffect_report (s : State) : (readyEffect s).report = s.report := rfl
@[simp] theorem readyEffect_turn (s : State) : (readyEffect s).turn = s.turn := rfl
@[simp] theorem readyEffect_tick (s : State) : (readyEffect s).tick = s.tick := rfl
@[simp] theorem readyEffect_draws (s : State) : (readyEffect s).draws = s.draws := rfl

/-! ### initStuck -/

@[simp] theorem initStuck_params (s : State) : (initStuck s).params = s.params := rfl
@[simp] theorem initStuck_freq (s : State) : (initStuck s).freq = s.freq := rfl
@[simp] theorem initStuck_dmaIdx (s : State) : (initStuck s).dmaIdx = s.dmaIdx := rfl
@[simp] theorem initStuck_pin (s : State) : (initStuck s).pin = s.pin := rfl
@[simp] theorem initStuck_invert (s : State) : (initStuck s).invert = s.invert := rfl
@[simp] theorem initStuck_count (s : State) : (initStuck s).count = s.count := rfl
@[simp] theorem initStuck_col (s : State) : (initStuck s).col = s.col := rfl
@[simp] theorem initStuck_regsMapped (s : State) : (initStuck s).regsMapped = s.regsMapped := rfl
@[simp] theorem initStuck_pinsBound (s : State) : (initStuck s).pinsBound = s.pinsBound := rfl
@[simp] theorem initStuck_pwmOn (s : State) : (initStuck s).pwmOn = s.pwmOn := rfl
@[simp] theorem initStuck_chainHead (s : State) : (initStuck s).chainHead = s.chainHead := rfl
@[simp] theorem initStuck_descBus (s : State) : (initStuck s).descBus = s.descBus := rfl
@[simp] theorem initStuck_descVA (s : State) : (initStuck s).descVA = s.descVA := rfl
@[simp] theorem initStuck_descBytes (s : State) : (initStuck s).descBytes = s.descBytes := rfl
@[simp] theorem initStuck_bufVA (s : State) : (initStuck s).bufVA = s.bufVA := rfl
@[simp] theorem initStuck_pages (s : State) : (initStuck s).pages = s.pages := rfl
@[simp] theorem initStuck_maxLeds (s : State) : (initStuck s).maxLeds = s.maxLeds := rfl
@[simp] theorem initStuck_bufBytes (s : State) : (initStuck s).bufBytes = s.bufBytes := rfl
@[simp] theorem initStuck_phase (s : State) : (initStuck s).phase = s.phase := rfl
@[simp] theorem initStuck_inInit (s : State) : (initStuck s).inInit = false := rfl
@[simp] theorem initStuck_blocked (s : State) : (initStuck s).blocked = some .clock := rfl
@[simp] theorem initStuck_polls (s : State) : (initStuck s).polls = 0 := rfl
@[simp] theorem initStuck_result (s : State) : (initStuck s).result = .none := rfl
@[simp] theorem initStuck_buf (s : State) : (initStuck s).buf = s.buf := rfl
@[simp] theorem initStuck_busbuf (s : State) : (initStuck s).busbuf = s.busbuf := rfl
@[simp] theorem initStuck_flushed (s : State) : (initStuck s).flushed = s.flushed := rfl
@[simp] theorem initStuck_desc (s : State) : (initStuck s).desc = s.desc := rfl
@[simp] theorem initStuck_descWritten (s : State) : (initStuck s).descWritten = s.descWritten := rfl
@[simp] theorem initStuck_fifo (s : State) : (initStuck s).fifo = s.fifo := rfl
@[simp] theorem initStuck_wireCut (s : State) : (initStuck s).wireCut = s.wireCut := rfl
@[simp] theorem initStuck_cursor (s : State) : (initStuck s).cursor = s.cursor := rfl
@[simp] theorem initStuck_bldPages (s : State) : (initStuck s).bldPages = s.bldPages := rfl
@[simp] theorem initStuck_bldIdx (s : State) : (initStuck s).bldIdx = s.bldIdx := rfl
@[simp] theorem initStuck_bldRemaining (s : State) : (initStuck s).bldRemaining = s.bldRemaining := rfl
@[simp] theorem initStuck_dma (s : State) : (initStuck s).dma = s.dma := rfl
@[simp] theorem initStuck_engine (s : State) : (initStuck s).engine = s.engine := rfl
@[simp] theorem initStuck_cbAddr (s : State) : (initStuck s).cbAddr = s.cbAddr := rfl
@[simp] theorem initStuck_prioritySet (s : State) : (initStuck s).prioritySet = s.prioritySet := rfl
@[simp] theorem initStuck_primedInv (s : State) : (initStuck s).primedInv = s.primedInv := rfl
@[simp] theorem initStuck_chainValid (s : State) : (initStuck s).chainValid = s.chainValid := rfl
@[simp] theorem initStuck_chainFor (s : State) : (initStuck s).chainFor = s.chainFor := rfl
@[simp] theorem initStuck_dirty (s : State) : (initStuck s).dirty = s.dirty := rfl
@[simp] theorem initStuck_descDirty (s : State) : (initStuck s).descDirty = s.descDirty := rfl
@[simp] theorem initStuck_frameOk (s : State) : (initStuck s).frameOk = s.frameOk := rfl
@[simp] theorem initStuck_stale (s : State) : (initStuck s).stale = s.stale := rfl
@[simp] theorem initStuck_cmds (s : State) : (initStuck s).cmds = s.cmds := rfl
@[simp] theorem initStuck_report (s : State) : (initStuck s).report = s.report := rfl
@[simp] theorem initStuck_turn (s : State) : (initStuck s).turn = s.turn := rfl
@[simp] theorem initStuck_tick (s : State) : (initStuck s).tick = s.tick := rfl
@[simp] theorem initStuck_draws (s : State) : (initStuck s).draws = s.draws := rfl

/-! ### finalizeStop -/

@[simp] theorem finalizeStop_params (s : State) : (finalizeStop s).params = s.params := rfl
@[simp] theorem finalizeStop_freq (s : State) : (finalizeStop s).freq = s.freq := rfl
@[simp] theorem finalizeStop_dmaIdx (s : State) : (finalizeStop s).dmaIdx = s.dmaIdx := rfl
@[simp] theorem finalizeStop_pin (s : State) : (finalizeStop s).pin = s.pin := rfl
@[simp] theorem finalizeStop_invert (s : State) : (finalizeStop s).invert = s.invert := rfl
@[simp] theorem finalizeStop_count (s : State) : (finalizeStop s).count = s.count := rfl
@[simp] theorem finalizeStop_col (s : State) : (finalizeStop s).col = s.col := rfl
@[simp] theorem finalizeStop_regsMapped (s : State) : (finalizeStop s).regsMapped = s.regsMapped := rfl
@[simp] theorem finalizeStop_pinsBound (s : State) : (finalizeStop s).pinsBound = s.pinsBound := rfl
@[simp] theorem finalizeStop_pwmOn (s : State) : (finalizeStop s).pwmOn = s.pwmOn := rfl
@[simp] theorem finalizeStop_chainHead (s : State) : (finalizeStop s).chainHead = s.chainHead := rfl
@[simp] theorem finalizeStop_descBus (s : State) : (finalizeStop s).descBus = s.descBus := rfl
@[simp] theorem finalizeStop_descVA (s : State) : (finalizeStop s).descVA = s.descVA := rfl
@[simp] theorem finalizeStop_descBytes (s : State) : (finalizeStop s).descBytes = s.descBytes := rfl
@[simp] theorem finalizeStop_bufVA (s : State) : (finalizeStop s).bufVA = s.bufVA := rfl
@[simp] theorem finalizeStop_pages (s : State) : (finalizeStop s).pages = s.pages := rfl
@[simp] theorem finalizeStop_maxLeds (s : State) : (finalizeStop s).maxLeds = s.maxLeds := rfl
@[simp] theorem finalizeStop_bufBytes (s : State) : (finalizeStop s).bufBytes = s.bufBytes := rfl
@[simp] theorem finalizeStop_phase (s : State) : (finalizeStop s).phase = if s.isOpen && s.dma == .idle then .ready else s.phase := rfl
@[simp] theorem finalizeStop_inInit (s : State) : (finalizeStop s).inInit = s.inInit := rfl
@[simp] theorem finalizeStop_blocked (s : State) : (finalizeStop s).blocked = s.blocked := rfl
@[simp] theorem finalizeStop_polls (s : State) : (finalizeStop s).polls = s.polls := rfl
@[simp] theorem finalizeStop_result (s : State) : (finalizeStop s).result = s.result := rfl
@[simp] theorem finalizeStop_buf (s : State) : (finalizeStop s).buf = s.buf := rfl
@[simp] theorem finalizeStop_busbuf (s : State) : (finalizeStop s).busbuf = s.busbuf := rfl
@[simp] theorem finalizeStop_flushed (s : State) : (finalizeStop s).flushed = s.flushed := rfl
@[simp] theorem finalizeStop_desc (s : State) : (finalizeStop s).desc = s.desc := rfl
@[simp] theorem finalizeStop_descWritten (s : State) : (finalizeStop s).descWritten = s.descWritten := rfl
@[simp] theorem finalizeStop_fifo (s : State) : (finalizeStop s).fifo = s.fifo := rfl
@[simp] theorem finalizeStop_wireCut (s : State) :
    (finalizeStop s).wireCut = if s.cutsOff then some ⟨Config.cutLength s.draws 0, Config.cutLength s.draws 1⟩ else s.wireCut := rfl
@[simp] theorem finalizeStop_cursor (s : State) : (finalizeStop s).cursor = s.cursor := rfl
@[simp] theorem finalizeStop_bldPages (s : State) : (finalizeStop s).bldPages = s.bldPages := rfl
@[simp] theorem finalizeStop_bldIdx (s : State) : (finalizeStop s).bldIdx = s.bldIdx := rfl
@[simp] theorem finalizeStop_bldRemaining (s : State) : (finalizeStop s).bldRemaining = s.bldRemaining := rfl
@[simp] theorem finalizeStop_dma (s : State) : (finalizeStop s).dma = s.dma := rfl
@[simp] theorem finalizeStop_engine (s : State) : (finalizeStop s).engine = s.engine := rfl
@[simp] theorem finalizeStop_cbAddr (s : State) : (finalizeStop s).cbAddr = s.cbAddr := rfl
@[simp] theorem finalizeStop_prioritySet (s : State) : (finalizeStop s).prioritySet = s.prioritySet := rfl
@[simp] theorem finalizeStop_primedInv (s : State) : (finalizeStop s).primedInv = s.primedInv := rfl
@[simp] theorem finalizeStop_chainValid (s : State) : (finalizeStop s).chainValid = s.chainValid := rfl
@[simp] theorem finalizeStop_chainFor (s : State) : (finalizeStop s).chainFor = s.chainFor := rfl
@[simp] theorem finalizeStop_dirty (s : State) : (finalizeStop s).dirty = s.dirty := rfl
@[simp] theorem finalizeStop_descDirty (s : State) : (finalizeStop s).descDirty = s.descDirty := rfl
@[simp] theorem finalizeStop_frameOk (s : State) : (finalizeStop s).frameOk = s.frameOk := rfl
@[simp] theorem finalizeStop_stale (s : State) : (finalizeStop s).stale = s.stale := rfl
@[simp] theorem finalizeStop_cmds (s : State) : (finalizeStop s).cmds = s.cmds := rfl
@[simp] theorem finalizeStop_report (s : State) : (finalizeStop s).report = s.report := rfl
@[simp] theorem finalizeStop_turn (s : State) : (finalizeStop s).turn = s.turn := rfl
@[simp] theorem finalizeStop_tick (s : State) : (finalizeStop s).tick = s.tick := rfl
@[simp] theorem finalizeStop_draws (s : State) : (finalizeStop s).draws = if s.cutsOff then s.draws + 1 else s.draws := rfl

/-! ### finalizeStuck -/

@[simp] theorem finalizeStuck_params (s : State) : (finalizeStuck s).params = s.params := rfl
@[simp] theorem finalizeStuck_freq (s : State) : (finalizeStuck s).freq = s.freq := rfl
@[simp] theorem finalizeStuck_dmaIdx (s : State) : (finalizeStuck s).dmaIdx = s.dmaIdx := rfl
@[simp] theorem finalizeStuck_pin (s : State) : (finalizeStuck s).pin = s.pin := rfl
@[simp] theorem finalizeStuck_invert (s : State) : (finalizeStuck s).invert = s.invert := rfl
@[simp] theorem finalizeStuck_count (s : State) : (finalizeStuck s).count = s.count := rfl
@[simp] theorem finalizeStuck_col (s : State) : (finalizeStuck s).col = s.col := rfl
@[simp] theorem finalizeStuck_regsMapped (s : State) : (finalizeStuck s).regsMapped = s.regsMapped := rfl
@[simp] theorem finalizeStuck_pinsBound (s : State) : (finalizeStuck s).pinsBound = s.pinsBound := rfl
@[simp] theorem finalizeStuck_pwmOn (s : State) : (finalizeStuck s).pwmOn = s.pwmOn := rfl
@[simp] theorem finalizeStuck_chainHead (s : State) : (finalizeStuck s).chainHead = s.chainHead := rfl
@[simp] theorem finalizeStuck_descBus (s : State) : (finalizeStuck s).descBus = s.descBus := rfl
@[simp] theorem finalizeStuck_descVA (s : State) : (finalizeStuck s).descVA = s.descVA := rfl
@[simp] theorem finalizeStuck_descBytes (s : State) : (finalizeStuck s).descBytes = s.descBytes := rfl
@[simp] theorem finalizeStuck_bufVA (s : State) : (finalizeStuck s).bufVA = s.bufVA := rfl
@[simp] theorem finalizeStuck_pages (s : State) : (finalizeStuck s).pages = s.pages := rfl
@[simp] theorem finalizeStuck_maxLeds (s : State) : (finalizeStuck s).maxLeds = s.maxLeds := rfl
@[simp] theorem finalizeStuck_bufBytes (s : State) : (finalizeStuck s).bufBytes = s.bufBytes := rfl
@[simp] theorem finalizeStuck_phase (s : State) : (finalizeStuck s).phase = if s.isOpen && s.dma == .idle then .ready else s.phase := rfl
@[simp] theorem finalizeStuck_inInit (s : State) : (finalizeStuck s).inInit = s.inInit := rfl
@[simp] theorem finalizeStuck_blocked (s : State) : (finalizeStuck s).blocked = some .clock := rfl
@[simp] theorem finalizeStuck_polls (s : State) : (finalizeStuck s).polls = 0 := rfl
@[simp] theorem finalizeStuck_result (s : State) : (finalizeStuck s).result = .none := rfl
@[simp] theorem finalizeStuck_buf (s : State) : (finalizeStuck s).buf = s.buf := rfl
@[simp] theorem finalizeStuck_busbuf (s : State) : (finalizeStuck s).busbuf = s.busbuf := rfl
@[simp] theorem finalizeStuck_flushed (s : State) : (finalizeStuck s).flushed = s.flushed := rfl
@[simp] theorem finalizeStuck_desc (s : State) : (finalizeStuck s).desc = s.desc := rfl
@[simp] theorem finalizeStuck_descWritten (s : State) : (finalizeStuck s).descWritten = s.descWritten := rfl
@[simp] theorem finalizeStuck_fifo (s : State) : (finalizeStuck s).fifo = s.fifo := rfl
@[simp] theorem finalizeStuck_wireCut (s : State) :
    (finalizeStuck s).wireCut = if s.cutsOff then some ⟨Config.cutLength s.draws 0, Config.cutLength s.draws 1⟩ else s.wireCut := rfl
@[simp] theorem finalizeStuck_cursor (s : State) : (finalizeStuck s).cursor = s.cursor := rfl
@[simp] theorem finalizeStuck_bldPages (s : State) : (finalizeStuck s).bldPages = s.bldPages := rfl
@[simp] theorem finalizeStuck_bldIdx (s : State) : (finalizeStuck s).bldIdx = s.bldIdx := rfl
@[simp] theorem finalizeStuck_bldRemaining (s : State) : (finalizeStuck s).bldRemaining = s.bldRemaining := rfl
@[simp] theorem finalizeStuck_dma (s : State) : (finalizeStuck s).dma = s.dma := rfl
@[simp] theorem finalizeStuck_engine (s : State) : (finalizeStuck s).engine = s.engine := rfl
@[simp] theorem finalizeStuck_cbAddr (s : State) : (finalizeStuck s).cbAddr = s.cbAddr := rfl
@[simp] theorem finalizeStuck_prioritySet (s : State) : (finalizeStuck s).prioritySet = s.prioritySet := rfl
@[simp] theorem finalizeStuck_primedInv (s : State) : (finalizeStuck s).primedInv = s.primedInv := rfl
@[simp] theorem finalizeStuck_chainValid (s : State) : (finalizeStuck s).chainValid = s.chainValid := rfl
@[simp] theorem finalizeStuck_chainFor (s : State) : (finalizeStuck s).chainFor = s.chainFor := rfl
@[simp] theorem finalizeStuck_dirty (s : State) : (finalizeStuck s).dirty = s.dirty := rfl
@[simp] theorem finalizeStuck_descDirty (s : State) : (finalizeStuck s).descDirty = s.descDirty := rfl
@[simp] theorem finalizeStuck_frameOk (s : State) : (finalizeStuck s).frameOk = s.frameOk := rfl
@[simp] theorem finalizeStuck_stale (s : State) : (finalizeStuck s).stale = s.stale := rfl
@[simp] theorem finalizeStuck_cmds (s : State) : (finalizeStuck s).cmds = s.cmds := rfl
@[simp] theorem finalizeStuck_report (s : State) : (finalizeStuck s).report = s.report := rfl
@[simp] theorem finalizeStuck_turn (s : State) : (finalizeStuck s).turn = s.turn := rfl
@[simp] theorem finalizeStuck_tick (s : State) : (finalizeStuck s).tick = s.tick := rfl
@[simp] theorem finalizeStuck_draws (s : State) : (finalizeStuck s).draws = if s.cutsOff then s.draws + 1 else s.draws := rfl

/-! ### finalizeEffect -/

@[simp] theorem finalizeEffect_params (s : State) : (finalizeEffect s).params = s.params := rfl
@[simp] theorem finalizeEffect_freq (s : State) : (finalizeEffect s).freq = s.freq := rfl
@[simp] theorem finalizeEffect_dmaIdx (s : State) : (finalizeEffect s).dmaIdx = s.dmaIdx := rfl
@[simp] theorem finalizeEffect_pin (s : State) : (finalizeEffect s).pin = s.pin := rfl
@[simp] theorem finalizeEffect_invert (s : State) : (finalizeEffect s).invert = s.invert := rfl
@[simp] theorem finalizeEffect_count (s : State) : (finalizeEffect s).count = s.count := rfl
@[simp] theorem finalizeEffect_col (s : State) : (finalizeEffect s).col = ⟨[], []⟩ := rfl
@[simp] theorem finalizeEffect_regsMapped (s : State) : (finalizeEffect s).regsMapped = false := rfl
@[simp] theorem finalizeEffect_pinsBound (s : State) : (finalizeEffect s).pinsBound = false := rfl
@[simp] theorem finalizeEffect_pwmOn (s : State) : (finalizeEffect s).pwmOn = false := rfl
@[simp] theorem finalizeEffect_chainHead (s : State) : (finalizeEffect s).chainHead = none := rfl
@[simp] theorem finalizeEffect_descBus (s : State) : (finalizeEffect s).descBus = none := rfl
@[simp] theorem finalizeEffect_descVA (s : State) : (finalizeEffect s).descVA = none := rfl
@[simp] theorem finalizeEffect_descBytes (s : State) : (finalizeEffect s).descBytes = 0 := rfl
@[simp] theorem finalizeEffect_bufVA (s : State) : (finalizeEffect s).bufVA = none := rfl
@[simp] theorem finalizeEffect_pages (s : State) : (finalizeEffect s).pages = [] := rfl
@[simp] theorem finalizeEffect_maxLeds (s : State) : (finalizeEffect s).maxLeds = 0 := rfl
@[simp] theorem finalizeEffect_bufBytes (s : State) : (finalizeEffect s).bufBytes = 0 := rfl
@[simp] theorem finalizeEffect_phase (s : State) : (finalizeEffect s).phase = .finalized := rfl
@[simp] theorem finalizeEffect_inInit (s : State) : (finalizeEffect s).inInit = false := rfl
@[simp] theorem finalizeEffect_blocked (s : State) : (finalizeEffect s).blocked = none := rfl
@[simp] theorem finalizeEffect_polls (s : State) : (finalizeEffect s).polls = 0 := rfl
@[simp] theorem finalizeEffect_result (s : State) : (finalizeEffect s).result = .ok := rfl
@[simp] theorem finalizeEffect_buf (s : State) : (finalizeEffect s).buf = [] := rfl
@[simp] theorem finalizeEffect_busbuf (s : State) : (finalizeEffect s).busbuf = [] := rfl
@[simp] theorem finalizeEffect_flushed (s : State) : (finalizeEffect s).flushed = [] := rfl
@[simp] theorem finalizeEffect_desc (s : State) : (finalizeEffect s).desc = [] := rfl
@[simp] theorem finalizeEffect_descWritten (s : State) : (finalizeEffect s).descWritten = [] := rfl
@[simp] theorem finalizeEffect_fifo (s : State) : (finalizeEffect s).fifo = s.fifo := rfl
@[simp] theorem finalizeEffect_wireCut (s : State) :
    (finalizeEffect s).wireCut = if s.cutsOff then some ⟨Config.cutLength s.draws 0, Config.cutLength s.draws 1⟩ else s.wireCut := rfl
@[simp] theorem finalizeEffect_cursor (s : State) : (finalizeEffect s).cursor = ⟨⟨0, 31⟩, ⟨0, 31⟩⟩ := rfl
@[simp] theorem finalizeEffect_bldPages (s : State) : (finalizeEffect s).bldPages = [] := rfl
@[simp] theorem finalizeEffect_bldIdx (s : State) : (finalizeEffect s).bldIdx = 0 := rfl
@[simp] theorem finalizeEffect_bldRemaining (s : State) : (finalizeEffect s).bldRemaining = 0 := rfl
@[simp] theorem finalizeEffect_dma (s : State) : (finalizeEffect s).dma = .idle := rfl
@[simp] theorem finalizeEffect_engine (s : State) : (finalizeEffect s).engine = s.engine := rfl
@[simp] theorem finalizeEffect_cbAddr (s : State) : (finalizeEffect s).cbAddr = s.cbAddr := rfl
@[simp] theorem finalizeEffect_prioritySet (s : State) : (finalizeEffect s).prioritySet = s.prioritySet := rfl
@[simp] theorem finalizeEffect_primedInv (s : State) : (finalizeEffect s).primedInv = ⟨none, none⟩ := rfl
@[simp] theorem finalizeEffect_chainValid (s : State) : (finalizeEffect s).chainValid = false := rfl
@[simp] theorem finalizeEffect_chainFor (s : State) : (finalizeEffect s).chainFor = none := rfl
@[simp] theorem finalizeEffect_dirty (s : State) : (finalizeEffect s).dirty = [] := rfl
@[simp] theorem finalizeEffect_descDirty (s : State) : (finalizeEffect s).descDirty = false := rfl
@[simp] theorem finalizeEffect_frameOk (s : State) : (finalizeEffect s).frameOk = false := rfl
@[simp] theorem finalizeEffect_stale (s : State) : (finalizeEffect s).stale = ⟨0, 0⟩ := rfl
@[simp] theorem finalizeEffect_cmds (s : State) : (finalizeEffect s).cmds = s.cmds := rfl
@[simp] theorem finalizeEffect_report (s : State) : (finalizeEffect s).report = s.report := rfl
@[simp] theorem finalizeEffect_turn (s : State) : (finalizeEffect s).turn = s.turn := rfl
@[simp] theorem finalizeEffect_tick (s : State) : (finalizeEffect s).tick = s.tick := rfl
@[simp] theorem finalizeEffect_draws (s : State) : (finalizeEffect s).draws = if s.cutsOff then s.draws + 1 else s.draws := rfl

/-! ### renderEnd -/

@[simp] theorem renderEnd_params (s t : State) : (renderEnd s t).params = t.params := by unfold renderEnd; split <;> rfl
@[simp] theorem renderEnd_freq (s t : State) : (renderEnd s t).freq = t.freq := by unfold renderEnd; split <;> rfl
@[simp] theorem renderEnd_dmaIdx (s t : State) : (renderEnd s t).dmaIdx = t.dmaIdx := by unfold renderEnd; split <;> rfl
@[simp] theorem renderEnd_pin (s t : State) : (renderEnd s t).pin = t.pin := by unfold renderEnd; split <;> rfl
@[simp] theorem renderEnd_invert (s t : State) : (renderEnd s t).invert = t.invert := by unfold renderEnd; split <;> rfl
@[simp] theorem renderEnd_count (s t : State) : (renderEnd s t).count = t.count := by unfold renderEnd; split <;> rfl
@[simp] theorem renderEnd_col (s t : State) : (renderEnd s t).col = t.col := by unfold renderEnd; split <;> rfl
@[simp] theorem renderEnd_regsMapped (s t : State) : (renderEnd s t).regsMapped = t.regsMapped := by unfold renderEnd; split <;> rfl
@[simp] theorem renderEnd_pinsBound (s t : State) : (renderEnd s t).pinsBound = t.pinsBound := by unfold renderEnd; split <;> rfl
@[simp] theorem renderEnd_pwmOn (s t : State) : (renderEnd s t).pwmOn = t.pwmOn := by unfold renderEnd; split <;> rfl
@[simp] theorem renderEnd_chainHead (s t : State) : (renderEnd s t).chainHead = t.chainHead := by unfold renderEnd; split <;> rfl
@[simp] theorem renderEnd_descBus (s t : State) : (renderEnd s t).descBus = t.descBus := by unfold renderEnd; split <;> rfl
@[simp] theorem renderEnd_descVA (s t : State) : (renderEnd s t).descVA = t.descVA := by unfold renderEnd; split <;> rfl
@[simp] theorem renderEnd_descBytes (s t : State) : (renderEnd s t).descBytes = t.descBytes := by unfold renderEnd; split <;> rfl
@[simp] theorem renderEnd_bufVA (s t : State) : (renderEnd s t).bufVA = t.bufVA := by unfold renderEnd; split <;> rfl
@[simp] theorem renderEnd_pages (s t : State) : (renderEnd s t).pages = t.pages := by unfold renderEnd; split <;> rfl
@[simp] theorem renderEnd_maxLeds (s t : State) : (renderEnd s t).maxLeds = t.maxLeds := by unfold renderEnd; split <;> rfl
@[simp] theorem renderEnd_bufBytes (s t : State) : (renderEnd s t).bufBytes = t.bufBytes := by unfold renderEnd; split <;> rfl
@[simp] theorem renderEnd_phase (s t : State) :
    (renderEnd s t).phase = if t.result.isError then s.phase else t.phase := by unfold renderEnd; split <;> rfl
@[simp] theorem renderEnd_inInit (s t : State) : (renderEnd s t).inInit = t.inInit := by unfold renderEnd; split <;> rfl
@[simp] theorem renderEnd_blocked (s t : State) : (renderEnd s t).blocked = t.blocked := by unfold renderEnd; split <;> rfl
@[simp] theorem renderEnd_polls (s t : State) : (renderEnd s t).polls = t.polls := by unfold renderEnd; split <;> rfl
@[simp] theorem renderEnd_result (s t : State) : (renderEnd s t).result = t.result := by unfold renderEnd; split <;> rfl
@[simp] theorem renderEnd_buf (s t : State) : (renderEnd s t).buf = t.buf := by unfold renderEnd; split <;> rfl
@[simp] theorem renderEnd_busbuf (s t : State) : (renderEnd s t).busbuf = t.busbuf := by unfold renderEnd; split <;> rfl
@[simp] theorem renderEnd_flushed (s t : State) : (renderEnd s t).flushed = t.flushed := by unfold renderEnd; split <;> rfl
@[simp] theorem renderEnd_desc (s t : State) : (renderEnd s t).desc = t.desc := by unfold renderEnd; split <;> rfl
@[simp] theorem renderEnd_descWritten (s t : State) : (renderEnd s t).descWritten = t.descWritten := by unfold renderEnd; split <;> rfl
@[simp] theorem renderEnd_fifo (s t : State) : (renderEnd s t).fifo = t.fifo := by unfold renderEnd; split <;> rfl
@[simp] theorem renderEnd_wireCut (s t : State) : (renderEnd s t).wireCut = t.wireCut := by unfold renderEnd; split <;> rfl
@[simp] theorem renderEnd_cursor (s t : State) : (renderEnd s t).cursor = t.cursor := by unfold renderEnd; split <;> rfl
@[simp] theorem renderEnd_bldPages (s t : State) : (renderEnd s t).bldPages = t.bldPages := by unfold renderEnd; split <;> rfl
@[simp] theorem renderEnd_bldIdx (s t : State) : (renderEnd s t).bldIdx = t.bldIdx := by unfold renderEnd; split <;> rfl
@[simp] theorem renderEnd_bldRemaining (s t : State) : (renderEnd s t).bldRemaining = t.bldRemaining := by unfold renderEnd; split <;> rfl
@[simp] theorem renderEnd_dma (s t : State) : (renderEnd s t).dma = t.dma := by unfold renderEnd; split <;> rfl
@[simp] theorem renderEnd_engine (s t : State) : (renderEnd s t).engine = t.engine := by unfold renderEnd; split <;> rfl
@[simp] theorem renderEnd_cbAddr (s t : State) : (renderEnd s t).cbAddr = t.cbAddr := by unfold renderEnd; split <;> rfl
@[simp] theorem renderEnd_prioritySet (s t : State) : (renderEnd s t).prioritySet = t.prioritySet := by unfold renderEnd; split <;> rfl
@[simp] theorem renderEnd_primedInv (s t : State) : (renderEnd s t).primedInv = t.primedInv := by unfold renderEnd; split <;> rfl
@[simp] theorem renderEnd_chainValid (s t : State) : (renderEnd s t).chainValid = t.chainValid := by unfold renderEnd; split <;> rfl
@[simp] theorem renderEnd_chainFor (s t : State) : (renderEnd s t).chainFor = t.chainFor := by unfold renderEnd; split <;> rfl
@[simp] theorem renderEnd_dirty (s t : State) : (renderEnd s t).dirty = t.dirty := by unfold renderEnd; split <;> rfl
@[simp] theorem renderEnd_descDirty (s t : State) : (renderEnd s t).descDirty = t.descDirty := by unfold renderEnd; split <;> rfl
@[simp] theorem renderEnd_frameOk (s t : State) : (renderEnd s t).frameOk = t.frameOk := by unfold renderEnd; split <;> rfl
@[simp] theorem renderEnd_stale (s t : State) : (renderEnd s t).stale = t.stale := by unfold renderEnd; split <;> rfl
@[simp] theorem renderEnd_cmds (s t : State) : (renderEnd s t).cmds = t.cmds := by unfold renderEnd; split <;> rfl
@[simp] theorem renderEnd_report (s t : State) : (renderEnd s t).report = t.report := by unfold renderEnd; split <;> rfl
@[simp] theorem renderEnd_turn (s t : State) : (renderEnd s t).turn = t.turn := by unfold renderEnd; split <;> rfl
@[simp] theorem renderEnd_tick (s t : State) : (renderEnd s t).tick = t.tick := by unfold renderEnd; split <;> rfl
@[simp] theorem renderEnd_draws (s t : State) : (renderEnd s t).draws = t.draws := by unfold renderEnd; split <;> rfl

end Sys2Proof.Machine
end

