-- ==== Sys2Proof/Laws/Encoder.lean ====
section
/-!
SUPPORT. What the encoder's shared operations do: one sub-bit's store, a row of stores, a channel, PRIME's fill.
-/

namespace Sys2Proof.Machine

/-! ### Channels and cursors -/

theorem Chan.ofWord_idx (c : Chan) (j : Nat) : Chan.ofWord (c.idx + 2 * j) = c := by
  cases c <;> simp [Chan.ofWord, Chan.idx]

theorem Chan.idx_ofWord (w : Nat) : (Chan.ofWord w).idx = w % 2 := by
  unfold Chan.ofWord; split <;> simp [Chan.idx] <;> omega

theorem Chan.idx_lt (c : Chan) : c.idx < 2 := by cases c <;> simp [Chan.idx]

theorem Chan.ofWord_eq_iff (c : Chan) (w : Nat) : Chan.ofWord w = c ↔ w % 2 = c.idx := by
  constructor
  · rintro rfl; exact (Chan.idx_ofWord w).symm
  · intro h
    have := Chan.ofWord_idx c (w / 2)
    rwa [show c.idx + 2 * (w / 2) = w by omega] at this

@[simp] theorem PerChan.get_set (α : Type) (v : PerChan α) (c : Chan) (x : α) : (v.set c x).get c = x := by cases c <;> rfl

/-- The cursor's step is to the next stream bit (R119, R122). -/
theorem Cursor.streamBit_next (k : Cursor) : k.next.streamBit = k.streamBit + 1 := by
  obtain ⟨j, p⟩ := k
  unfold Cursor.next Cursor.streamBit
  by_cases h : p = 0
  · subst h; simp; omega
  · rw [if_neg h]
    have hp : p.val ≠ 0 := fun e => h (Fin.ext e)
    have : (p - 1).val = p.val - 1 := by
      rw [Fin.sub_val_of_le]; · rfl
      · exact Fin.mk_le_of_le_val (by simp; omega)
    simp only [this]; have := p.isLt; omega

@[simp] theorem Cursor.streamBit_start : Cursor.start.streamBit = 0 := rfl

/-- A cursor is where its stream bit is (R122). -/
theorem Cursor.eq_of_streamBit (k : Cursor) : k.j = k.streamBit / 32 ∧ k.p.val = 31 - k.streamBit % 32 := by
  have := k.p.isLt
  unfold Cursor.streamBit
  omega

/-- Two cursors at one stream bit are one. -/
theorem Cursor.ext_streamBit (k l : Cursor) (h : k.streamBit = l.streamBit) : k = l := by
  obtain ⟨h1, h2⟩ := Cursor.eq_of_streamBit k
  obtain ⟨h3, h4⟩ := Cursor.eq_of_streamBit l
  have hj : k.j = l.j := by rw [h1, h3, h]
  have hp : k.p = l.p := Fin.ext (by rw [h2, h4, h])
  obtain ⟨j, p⟩ := k
  obtain ⟨j', p'⟩ := l
  cases show j = j' from hj
  cases show p = p' from hp
  rfl

/-- A bit of a word is the one a cursor stands at exactly where its stream bit is the cursor's. -/
theorem laneWord_eq_iff (c : Chan) (k : Cursor) (w q : Nat) (hq : q < 32) :
    (w = laneWord c k ∧ q = k.p.val) ↔ (w % 2 = c.idx ∧ 32 * (w / 2) + (31 - q) = k.streamBit) := by
  have := k.p.isLt
  have := Chan.idx_lt c
  unfold laneWord Cursor.streamBit
  omega

/-! ### A row of stores -/

theorem laneFold_streamBit (c : Chan) (xs : List Bool) : ∀ l : Lane,
    (xs.foldl (lanePutBit c) l).cur.streamBit = l.cur.streamBit + xs.length := by
  induction xs with
  | nil => simp
  | cons x xs ih =>
    intro l
    rw [List.foldl_cons, ih]
    simp only [lanePutBit, Cursor.streamBit_next, List.length_cons]; omega

/-- Sub-bits stored in a row land at their stream bits, and every other bit of every word is left alone (R119, R122, R124). -/
theorem laneFold_readBit (c : Chan) (xs : List Bool) : ∀ (l : Lane) (w q : Nat), q < 32 →
    (xs.foldl (lanePutBit c) l).buf.readBit w q =
      if w % 2 = c.idx ∧ l.cur.streamBit ≤ 32 * (w / 2) + (31 - q) ∧ 32 * (w / 2) + (31 - q) < l.cur.streamBit + xs.length
      then xs.getD (32 * (w / 2) + (31 - q) - l.cur.streamBit) false
      else l.buf.readBit w q := by
  induction xs with
  | nil =>
    intro l w q hq
    rw [if_neg (by simp)]; rfl
  | cons x xs ih =>
    intro l w q hq
    rw [List.foldl_cons, ih _ _ _ hq]
    simp only [lanePutBit, Cursor.streamBit_next, List.length_cons]
    rw [Memory.readBit_writeWord_setBit _ _ _ _ _ _ hq]
    have key := laneWord_eq_iff c l.cur w q hq
    set n := 32 * (w / 2) + (31 - q) with hn
    by_cases hw : w % 2 = c.idx
    · by_cases h0 : n = l.cur.streamBit
      · rw [if_neg (by omega), if_pos (key.mpr ⟨hw, h0⟩), if_pos ⟨hw, by omega, by omega⟩]
        simp [h0]
      · rw [if_neg (fun h => h0 (key.mp h).2)]
        by_cases hr : l.cur.streamBit < n ∧ n < l.cur.streamBit + (xs.length + 1)
        · rw [if_pos ⟨hw, by omega, by omega⟩, if_pos ⟨hw, by omega, by omega⟩,
            show n - l.cur.streamBit = (n - (l.cur.streamBit + 1)) + 1 by omega, List.getD_cons_succ]
        · rw [if_neg (by omega), if_neg (by omega)]
    · rw [if_neg (fun h => hw h.1), if_neg (fun h => hw (key.mp h).1), if_neg (fun h => hw h.1)]

/-- The dirty words after a row of stores are the earlier ones and the words stored to (R119). -/
theorem laneFold_dirty (c : Chan) (xs : List Bool) : ∀ (l : Lane) (w : Nat),
    w ∈ (xs.foldl (lanePutBit c) l).dirty ↔
      w ∈ l.dirty ∨ (w % 2 = c.idx ∧ l.cur.streamBit / 32 ≤ w / 2 ∧ 32 * (w / 2) < l.cur.streamBit + xs.length ∧ xs ≠ []) := by
  induction xs with
  | nil => simp
  | cons x xs ih =>
    intro l w
    rw [List.foldl_cons, ih]
    obtain ⟨hj, -⟩ := Cursor.eq_of_streamBit l.cur
    have := Chan.idx_lt c
    simp only [lanePutBit, Cursor.streamBit_next, List.length_cons, NatSet.mem_insert, laneWord, ne_eq, reduceCtorEq,
      not_false_eq_true, and_true]
    by_cases hm : w ∈ l.dirty
    · simp [hm]
    · by_cases hx : xs = []
      · subst hx; simp [hm]; omega
      · simp [hx, hm]; omega

theorem laneFold_bufWf (c : Chan) (xs : List Bool) : ∀ l : Lane, Memory.wf l.buf → Memory.wf (xs.foldl (lanePutBit c) l).buf := by
  induction xs with
  | nil => exact fun l h => h
  | cons x xs ih => exact fun l h => ih _ (Memory.wf_writeWord _ _ _ h)

theorem laneFold_dirtyWf (c : Chan) (xs : List Bool) : ∀ l : Lane, NatSet.wf l.dirty → NatSet.wf (xs.foldl (lanePutBit c) l).dirty := by
  induction xs with
  | nil => exact fun l h => h
  | cons x xs ih => exact fun l h => ih _ (NatSet.wf_insert _ _ h)

/-- The bytes of the words that a row of stores does not touch. -/
theorem laneFold_readByte (c : Chan) (xs : List Bool) (l : Lane) (a : Nat)
    (h : ¬ ((a / 4) % 2 = c.idx ∧ l.cur.streamBit / 32 ≤ a / 4 / 2 ∧ 32 * (a / 4 / 2) < l.cur.streamBit + xs.length)) :
    (xs.foldl (lanePutBit c) l).buf.readByte a = l.buf.readByte a := by
  apply Memory.readByte_congr
  apply Memory.readWord_congr
  intro q hq
  rw [laneFold_readBit c xs l _ _ hq, if_neg]
  omega

/-! ### A channel -/

/-- The 72 sub-bits of one LED (R87, R122). -/
def ledStream (inv : Bool) (v : Word) : List Bool := (ledBits v).flatMap (fun d => symbolBits (sym d inv))

/-- The sub-bits of a channel (R121). -/
def channelStream (inv : Bool) (vs : List Word) : List Bool := vs.flatMap (ledStream inv)

theorem laneLed_eq (c : Chan) (inv : Bool) (l : Lane) (v : Word) :
    laneLed c inv l v = (ledStream inv v).foldl (lanePutBit c) l := by
  simp only [laneLed, ledStream, List.foldl_flatMap]; rfl

/-- A channel of ENCODE is the row of its sub-bits from its first word on (R121, R122). -/
theorem laneChannel_eq (s : State) (c : Chan) (m : Memory) (d : NatSet) :
    laneChannel s c m d =
      (channelStream (s.invert.get c) (colours (s.col.get c) c (s.count.get c))).foldl (lanePutBit c) ⟨m, d, Cursor.start⟩ := by
  have h : laneLed c (s.invert.get c) = fun l v => (ledStream (s.invert.get c) v).foldl (lanePutBit c) l := by
    funext l v
    exact laneLed_eq c _ l v
  rw [laneChannel, channelStream, List.foldl_flatMap, h]

theorem flatMap_getD {α β : Type} (f : α → List β) (k : Nat) (hk : 0 < k) (hf : ∀ a, (f a).length = k) (d : β) (da : α)
    (l : List α) : ∀ n, n < k * l.length → (l.flatMap f).getD n d = (f (l.getD (n / k) da)).getD (n % k) d := by
  induction l with
  | nil => simp
  | cons a l ih =>
    intro n hn
    rw [List.length_cons, Nat.mul_succ] at hn
    rw [List.flatMap_cons]
    by_cases h : n < k
    · rw [List.getD_append _ _ _ _ (by rw [hf]; exact h), Nat.div_eq_of_lt h, Nat.mod_eq_of_lt h]; rfl
    · have hge : k ≤ n := by omega
      rw [List.getD_append_right _ _ _ _ (by rw [hf]; exact hge), hf, Nat.div_eq_sub_div hk hge, Nat.mod_eq_sub_mod hge,
        List.getD_cons_succ]
      exact ih (n - k) (by omega)

theorem length_flatMap_const {α β : Type} (f : α → List β) (k : Nat) (hf : ∀ a, (f a).length = k) (l : List α) :
    (l.flatMap f).length = k * l.length := by
  induction l with
  | nil => rfl
  | cons a l ih => rw [List.flatMap_cons, List.length_append, hf, ih, List.length_cons, Nat.mul_succ, Nat.add_comm]

theorem length_ledBits (v : Word) : (ledBits v).length = 24 := rfl

theorem length_ledStream (inv : Bool) (v : Word) : (ledStream inv v).length = 72 := by
  rw [ledStream, length_flatMap_const _ 3 (fun _ => rfl), length_ledBits]

theorem length_channelStream (inv : Bool) (vs : List Word) : (channelStream inv vs).length = 72 * vs.length :=
  length_flatMap_const _ 72 (length_ledStream inv) vs

theorem symbolBits_getD (x : BitVec 3) (r : Nat) (hr : r < 3) : (symbolBits x).getD r false = x.getLsbD (2 - r) := by
  interval_cases r <;> rfl

theorem dataBits_getD (b : Byte) (r : Nat) (hr : r < 8) : (dataBits b).getD r false = b.getLsbD (7 - r) := by
  interval_cases r <;> rfl

theorem ledBits_getD (v : Word) (q : Nat) (hq : q < 24) :
    (ledBits v).getD q false = (componentAt v (q / 8)).getLsbD (7 - q % 8) := by
  rw [ledBits, flatMap_getD dataBits 8 (by omega) (fun _ => rfl) false 0 _ _ (by simpa [components] using hq),
    dataBits_getD _ _ (by omega)]
  rfl

theorem ledStream_getD (inv : Bool) (v : Word) (r : Nat) (hr : r < 72) :
    (ledStream inv v).getD r false =
      (sym ((componentAt v (r / 24)).getLsbD (7 - r % 24 / 3)) inv).getLsbD (2 - r % 3) := by
  rw [ledStream, flatMap_getD _ 3 (by omega) (fun _ => rfl) false false _ _ (by rw [length_ledBits]; omega),
    symbolBits_getD _ _ (by omega), ledBits_getD _ _ (by omega)]
  rw [show r / 3 / 8 = r / 24 by omega, show r / 3 % 8 = r % 24 / 3 by omega]

theorem channelStream_getD (inv : Bool) (vs : List Word) (n : Nat) (dflt : Word) (hn : n < 72 * vs.length) :
    (channelStream inv vs).getD n false = (ledStream inv (vs.getD (n / 72) dflt)).getD (n % 72) false :=
  flatMap_getD _ 72 (by omega) (length_ledStream inv) false dflt vs n hn

/-- Stream bit `n` of a channel is the closed form of rule R122. -/
theorem channelStream_streamValue (l : List Word) (c : Chan) (inv : Bool) (k n : Nat) (hn : n < 72 * k) :
    (channelStream inv (colours l c k)).getD n false = streamValue l c inv n := by
  have hk : n / 72 < k := by omega
  rw [channelStream_getD inv _ n 0 (by rw [colours, List.length_map, List.length_range]; exact hn), ledStream_getD _ _ _ (by omega)]
  have : (colours l c k).getD (n / 72) 0 = colourAt l c (n / 72) := by
    simp [colours, hk]
  rw [this]
  rfl

theorem length_colours (l : List Word) (c : Chan) (k : Nat) : (colours l c k).length = k := by simp [colours]

/-- What a channel of ENCODE leaves of every bit of the buffer (R122, R124, R125). -/
theorem laneChannel_readBit (s : State) (c : Chan) (m : Memory) (d : NatSet) (w q : Nat) (hq : q < 32) :
    (laneChannel s c m d).buf.readBit w q =
      if w % 2 = c.idx ∧ 32 * (w / 2) + (31 - q) < 72 * s.count.get c
      then streamValue (s.col.get c) c (s.invert.get c) (32 * (w / 2) + (31 - q))
      else m.readBit w q := by
  rw [laneChannel_eq, laneFold_readBit _ _ _ _ _ hq]
  simp only [Cursor.streamBit_start, length_channelStream, length_colours, Nat.zero_add, Nat.sub_zero, Nat.zero_le, true_and]
  split
  · rename_i h; exact channelStream_streamValue _ _ _ _ _ h.2
  · rfl

/-- The cursor a channel of ENCODE ends at (R123). -/
theorem laneChannel_cur (s : State) (c : Chan) (m : Memory) (d : NatSet) :
    (laneChannel s c m d).cur.streamBit = 72 * s.count.get c := by
  rw [laneChannel_eq, laneFold_streamBit]
  simp [length_channelStream, length_colours]

/-- The words a channel of ENCODE dirties (R119, R128). -/
theorem laneChannel_dirty (s : State) (c : Chan) (m : Memory) (d : NatSet) (w : Nat) :
    w ∈ (laneChannel s c m d).dirty ↔ w ∈ d ∨ (w % 2 = c.idx ∧ 32 * (w / 2) < 72 * s.count.get c) := by
  rw [laneChannel_eq, laneFold_dirty]
  simp only [Cursor.streamBit_start, length_channelStream, length_colours]
  constructor
  · rintro (h | ⟨h1, -, h3, -⟩)
    · exact .inl h
    · exact .inr ⟨h1, by omega⟩
  · rintro (h | ⟨h1, h2⟩)
    · exact .inl h
    · refine .inr ⟨h1, by omega, by omega, fun h => ?_⟩
      have := congrArg List.length h
      rw [length_channelStream, length_colours] at this
      simp at this; omega

theorem laneChannel_wf (s : State) (c : Chan) (m : Memory) (d : NatSet) (hm : Memory.wf m) (hd : NatSet.wf d) :
    Memory.wf (laneChannel s c m d).buf ∧ NatSet.wf (laneChannel s c m d).dirty := by
  rw [laneChannel_eq]
  exact ⟨laneFold_bufWf c _ _ hm, laneFold_dirtyWf c _ _ hd⟩

/-! ### ENCODE -/

/-- Every bit of every word after ENCODE: the stream bit of its channel, or what stood there before (R120, R122, R124, R125). -/
theorem encodeEffect_readBit (s : State) (w q : Nat) (hq : q < 32) : (encodeEffect s).buf.readBit w q =
    if 32 * (w / 2) + (31 - q) < 72 * s.count.get (Chan.ofWord w) then
      streamValue (s.col.get (Chan.ofWord w)) (Chan.ofWord w) (s.invert.get (Chan.ofWord w)) (32 * (w / 2) + (31 - q))
    else s.buf.readBit w q := by
  show (laneChannel s .c1 _ _).buf.readBit w q = _
  rw [laneChannel_readBit _ _ _ _ _ _ hq, laneChannel_readBit _ _ _ _ _ _ hq]
  unfold Chan.ofWord
  by_cases hw : w % 2 = 0
  · simp [hw, Chan.idx]
  · simp [Chan.idx, show w % 2 = 1 by omega]

/-- The dirty words after ENCODE (R119, R128). -/
theorem encodeEffect_dirty (s : State) (w : Nat) :
    w ∈ (encodeEffect s).dirty ↔ w ∈ s.dirty ∨ 32 * (w / 2) < 72 * s.count.get (Chan.ofWord w) := by
  show w ∈ (laneChannel s .c1 _ _).dirty ↔ _
  rw [laneChannel_dirty, laneChannel_dirty]
  unfold Chan.ofWord
  by_cases hw : w % 2 = 0
  · simp [hw, Chan.idx]
  · simp [Chan.idx, show w % 2 = 1 by omega]

/-- The cursors after ENCODE (R123). -/
theorem encodeEffect_cursor (s : State) (c : Chan) : ((encodeEffect s).cursor.get c).streamBit = 72 * s.count.get c := by
  cases c
  · exact laneChannel_cur s .c0 _ _
  · exact laneChannel_cur s .c1 _ _

/-! ### PRIME's fill -/

/-- PRIME gives every word of the buffer its channel's idle value and leaves the rest alone (R115). -/
theorem primeWords_readWord (inv : PerChan Bool) (m : Memory) (n w : Nat) :
    (primeWords inv m n).readWord w = if w < n then idleWord (inv.get (Chan.ofWord w)) else m.readWord w := by
  induction n with
  | zero => simp [primeWords]
  | succ n ih =>
    have : primeWords inv m (n + 1) = (primeWords inv m n).writeWord n (idleWord (inv.get (Chan.ofWord n))) := by
      simp [primeWords, List.range_succ]
    rw [this, Memory.readWord_writeWord, ih]
    by_cases h : w = n
    · subst h; simp
    · rw [if_neg h]
      by_cases h2 : w < n
      · rw [if_pos h2, if_pos (by omega)]
      · rw [if_neg h2, if_neg (by omega)]

theorem primeWords_wf (inv : PerChan Bool) (m : Memory) (n : Nat) (h : Memory.wf m) : Memory.wf (primeWords inv m n) := by
  induction n with
  | zero => simpa [primeWords] using h
  | succ n ih =>
    have : primeWords inv m (n + 1) = (primeWords inv m n).writeWord n (idleWord (inv.get (Chan.ofWord n))) := by
      simp [primeWords, List.range_succ]
    rw [this]; exact Memory.wf_writeWord _ _ _ ih

end Sys2Proof.Machine
end

