-- ==== Sys2Proof/Laws/State.lean ====
section
/-!
SUPPORT. What each named update of the state does to each field: one lemma per field and update, so that no proof unfolds an
update. Updates in order: raise, finish, hold, refuse, withCmds, advance, withBuild, withPacket, powerOn.
-/

namespace Sys2Proof.Machine

/-! ### raise -/

@[simp] theorem State.raise_params (s : State) (e : ErrorKind) : (s.raise e).params = s.params := rfl
@[simp] theorem State.raise_freq (s : State) (e : ErrorKind) : (s.raise e).freq = s.freq := rfl
@[simp] theorem State.raise_dmaIdx (s : State) (e : ErrorKind) : (s.raise e).dmaIdx = s.dmaIdx := rfl
@[simp] theorem State.raise_pin (s : State) (e : ErrorKind) : (s.raise e).pin = s.pin := rfl
@[simp] theorem State.raise_invert (s : State) (e : ErrorKind) : (s.raise e).invert = s.invert := rfl
@[simp] theorem State.raise_count (s : State) (e : ErrorKind) : (s.raise e).count = s.count := rfl
@[simp] theorem State.raise_col (s : State) (e : ErrorKind) : (s.raise e).col = s.col := rfl
@[simp] theorem State.raise_regsMapped (s : State) (e : ErrorKind) : (s.raise e).regsMapped = s.regsMapped := rfl
@[simp] theorem State.raise_pinsBound (s : State) (e : ErrorKind) : (s.raise e).pinsBound = s.pinsBound := rfl
@[simp] theorem State.raise_pwmOn (s : State) (e : ErrorKind) : (s.raise e).pwmOn = s.pwmOn := rfl
@[simp] theorem State.raise_chainHead (s : State) (e : ErrorKind) : (s.raise e).chainHead = s.chainHead := rfl
@[simp] theorem State.raise_descBus (s : State) (e : ErrorKind) : (s.raise e).descBus = s.descBus := rfl
@[simp] theorem State.raise_descVA (s : State) (e : ErrorKind) : (s.raise e).descVA = s.descVA := rfl
@[simp] theorem State.raise_descBytes (s : State) (e : ErrorKind) : (s.raise e).descBytes = s.descBytes := rfl
@[simp] theorem State.raise_bufVA (s : State) (e : ErrorKind) : (s.raise e).bufVA = s.bufVA := rfl
@[simp] theorem State.raise_pages (s : State) (e : ErrorKind) : (s.raise e).pages = s.pages := rfl
@[simp] theorem State.raise_maxLeds (s : State) (e : ErrorKind) : (s.raise e).maxLeds = s.maxLeds := rfl
@[simp] theorem State.raise_bufBytes (s : State) (e : ErrorKind) : (s.raise e).bufBytes = s.bufBytes := rfl
@[simp] theorem State.raise_phase (s : State) (e : ErrorKind) : (s.raise e).phase = s.phase := rfl
@[simp] theorem State.raise_inInit (s : State) (e : ErrorKind) : (s.raise e).inInit = s.inInit := rfl
@[simp] theorem State.raise_blocked (s : State) (e : ErrorKind) : (s.raise e).blocked = none := rfl
@[simp] theorem State.raise_polls (s : State) (e : ErrorKind) : (s.raise e).polls = 0 := rfl
@[simp] theorem State.raise_result (s : State) (e : ErrorKind) : (s.raise e).result = .error e := rfl
@[simp] theorem State.raise_buf (s : State) (e : ErrorKind) : (s.raise e).buf = s.buf := rfl
@[simp] theorem State.raise_busbuf (s : State) (e : ErrorKind) : (s.raise e).busbuf = s.busbuf := rfl
@[simp] theorem State.raise_flushed (s : State) (e : ErrorKind) : (s.raise e).flushed = s.flushed := rfl
@[simp] theorem State.raise_desc (s : State) (e : ErrorKind) : (s.raise e).desc = s.desc := rfl
@[simp] theorem State.raise_descWritten (s : State) (e : ErrorKind) : (s.raise e).descWritten = s.descWritten := rfl
@[simp] theorem State.raise_fifo (s : State) (e : ErrorKind) : (s.raise e).fifo = s.fifo := rfl
@[simp] theorem State.raise_wireCut (s : State) (e : ErrorKind) : (s.raise e).wireCut = s.wireCut := rfl
@[simp] theorem State.raise_cursor (s : State) (e : ErrorKind) : (s.raise e).cursor = s.cursor := rfl
@[simp] theorem State.raise_bldPages (s : State) (e : ErrorKind) : (s.raise e).bldPages = s.bldPages := rfl
@[simp] theorem State.raise_bldIdx (s : State) (e : ErrorKind) : (s.raise e).bldIdx = s.bldIdx := rfl
@[simp] theorem State.raise_bldRemaining (s : State) (e : ErrorKind) : (s.raise e).bldRemaining = s.bldRemaining := rfl
@[simp] theorem State.raise_dma (s : State) (e : ErrorKind) : (s.raise e).dma = s.dma := rfl
@[simp] theorem State.raise_engine (s : State) (e : ErrorKind) : (s.raise e).engine = s.engine := rfl
@[simp] theorem State.raise_cbAddr (s : State) (e : ErrorKind) : (s.raise e).cbAddr = s.cbAddr := rfl
@[simp] theorem State.raise_prioritySet (s : State) (e : ErrorKind) : (s.raise e).prioritySet = s.prioritySet := rfl
@[simp] theorem State.raise_primedInv (s : State) (e : ErrorKind) : (s.raise e).primedInv = s.primedInv := rfl
@[simp] theorem State.raise_chainValid (s : State) (e : ErrorKind) : (s.raise e).chainValid = s.chainValid := rfl
@[simp] theorem State.raise_chainFor (s : State) (e : ErrorKind) : (s.raise e).chainFor = s.chainFor := rfl
@[simp] theorem State.raise_dirty (s : State) (e : ErrorKind) : (s.raise e).dirty = s.dirty := rfl
@[simp] theorem State.raise_descDirty (s : State) (e : ErrorKind) : (s.raise e).descDirty = s.descDirty := rfl
@[simp] theorem State.raise_frameOk (s : State) (e : ErrorKind) : (s.raise e).frameOk = s.frameOk := rfl
@[simp] theorem State.raise_stale (s : State) (e : ErrorKind) : (s.raise e).stale = s.stale := rfl
@[simp] theorem State.raise_cmds (s : State) (e : ErrorKind) : (s.raise e).cmds = s.cmds := rfl
@[simp] theorem State.raise_report (s : State) (e : ErrorKind) : (s.raise e).report = s.report := rfl
@[simp] theorem State.raise_turn (s : State) (e : ErrorKind) : (s.raise e).turn = s.turn := rfl
@[simp] theorem State.raise_tick (s : State) (e : ErrorKind) : (s.raise e).tick = s.tick := rfl
@[simp] theorem State.raise_draws (s : State) (e : ErrorKind) : (s.raise e).draws = s.draws := rfl

/-! ### finish -/

@[simp] theorem State.finish_params (s : State) (r : Result) : (s.finish r).params = s.params := rfl
@[simp] theorem State.finish_freq (s : State) (r : Result) : (s.finish r).freq = s.freq := rfl
@[simp] theorem State.finish_dmaIdx (s : State) (r : Result) : (s.finish r).dmaIdx = s.dmaIdx := rfl
@[simp] theorem State.finish_pin (s : State) (r : Result) : (s.finish r).pin = s.pin := rfl
@[simp] theorem State.finish_invert (s : State) (r : Result) : (s.finish r).invert = s.invert := rfl
@[simp] theorem State.finish_count (s : State) (r : Result) : (s.finish r).count = s.count := rfl
@[simp] theorem State.finish_col (s : State) (r : Result) : (s.finish r).col = s.col := rfl
@[simp] theorem State.finish_regsMapped (s : State) (r : Result) : (s.finish r).regsMapped = s.regsMapped := rfl
@[simp] theorem State.finish_pinsBound (s : State) (r : Result) : (s.finish r).pinsBound = s.pinsBound := rfl
@[simp] theorem State.finish_pwmOn (s : State) (r : Result) : (s.finish r).pwmOn = s.pwmOn := rfl
@[simp] theorem State.finish_chainHead (s : State) (r : Result) : (s.finish r).chainHead = s.chainHead := rfl
@[simp] theorem State.finish_descBus (s : State) (r : Result) : (s.finish r).descBus = s.descBus := rfl
@[simp] theorem State.finish_descVA (s : State) (r : Result) : (s.finish r).descVA = s.descVA := rfl
@[simp] theorem State.finish_descBytes (s : State) (r : Result) : (s.finish r).descBytes = s.descBytes := rfl
@[simp] theorem State.finish_bufVA (s : State) (r : Result) : (s.finish r).bufVA = s.bufVA := rfl
@[simp] theorem State.finish_pages (s : State) (r : Result) : (s.finish r).pages = s.pages := rfl
@[simp] theorem State.finish_maxLeds (s : State) (r : Result) : (s.finish r).maxLeds = s.maxLeds := rfl
@[simp] theorem State.finish_bufBytes (s : State) (r : Result) : (s.finish r).bufBytes = s.bufBytes := rfl
@[simp] theorem State.finish_phase (s : State) (r : Result) : (s.finish r).phase = s.phase := rfl
@[simp] theorem State.finish_inInit (s : State) (r : Result) : (s.finish r).inInit = s.inInit := rfl
@[simp] theorem State.finish_blocked (s : State) (r : Result) : (s.finish r).blocked = none := rfl
@[simp] theorem State.finish_polls (s : State) (r : Result) : (s.finish r).polls = 0 := rfl
@[simp] theorem State.finish_result (s : State) (r : Result) : (s.finish r).result = r := rfl
@[simp] theorem State.finish_buf (s : State) (r : Result) : (s.finish r).buf = s.buf := rfl
@[simp] theorem State.finish_busbuf (s : State) (r : Result) : (s.finish r).busbuf = s.busbuf := rfl
@[simp] theorem State.finish_flushed (s : State) (r : Result) : (s.finish r).flushed = s.flushed := rfl
@[simp] theorem State.finish_desc (s : State) (r : Result) : (s.finish r).desc = s.desc := rfl
@[simp] theorem State.finish_descWritten (s : State) (r : Result) : (s.finish r).descWritten = s.descWritten := rfl
@[simp] theorem State.finish_fifo (s : State) (r : Result) : (s.finish r).fifo = s.fifo := rfl
@[simp] theorem State.finish_wireCut (s : State) (r : Result) : (s.finish r).wireCut = s.wireCut := rfl
@[simp] theorem State.finish_cursor (s : State) (r : Result) : (s.finish r).cursor = s.cursor := rfl
@[simp] theorem State.finish_bldPages (s : State) (r : Result) : (s.finish r).bldPages = s.bldPages := rfl
@[simp] theorem State.finish_bldIdx (s : State) (r : Result) : (s.finish r).bldIdx = s.bldIdx := rfl
@[simp] theorem State.finish_bldRemaining (s : State) (r : Result) : (s.finish r).bldRemaining = s.bldRemaining := rfl
@[simp] theorem State.finish_dma (s : State) (r : Result) : (s.finish r).dma = s.dma := rfl
@[simp] theorem State.finish_engine (s : State) (r : Result) : (s.finish r).engine = s.engine := rfl
@[simp] theorem State.finish_cbAddr (s : State) (r : Result) : (s.finish r).cbAddr = s.cbAddr := rfl
@[simp] theorem State.finish_prioritySet (s : State) (r : Result) : (s.finish r).prioritySet = s.prioritySet := rfl
@[simp] theorem State.finish_primedInv (s : State) (r : Result) : (s.finish r).primedInv = s.primedInv := rfl
@[simp] theorem State.finish_chainValid (s : State) (r : Result) : (s.finish r).chainValid = s.chainValid := rfl
@[simp] theorem State.finish_chainFor (s : State) (r : Result) : (s.finish r).chainFor = s.chainFor := rfl
@[simp] theorem State.finish_dirty (s : State) (r : Result) : (s.finish r).dirty = s.dirty := rfl
@[simp] theorem State.finish_descDirty (s : State) (r : Result) : (s.finish r).descDirty = s.descDirty := rfl
@[simp] theorem State.finish_frameOk (s : State) (r : Result) : (s.finish r).frameOk = s.frameOk := rfl
@[simp] theorem State.finish_stale (s : State) (r : Result) : (s.finish r).stale = s.stale := rfl
@[simp] theorem State.finish_cmds (s : State) (r : Result) : (s.finish r).cmds = s.cmds := rfl
@[simp] theorem State.finish_report (s : State) (r : Result) : (s.finish r).report = s.report := rfl
@[simp] theorem State.finish_turn (s : State) (r : Result) : (s.finish r).turn = s.turn := rfl
@[simp] theorem State.finish_tick (s : State) (r : Result) : (s.finish r).tick = s.tick := rfl
@[simp] theorem State.finish_draws (s : State) (r : Result) : (s.finish r).draws = s.draws := rfl

/-! ### hold -/

@[simp] theorem State.hold_params (s : State) (b : Blocked) : (s.hold b).params = s.params := rfl
@[simp] theorem State.hold_freq (s : State) (b : Blocked) : (s.hold b).freq = s.freq := rfl
@[simp] theorem State.hold_dmaIdx (s : State) (b : Blocked) : (s.hold b).dmaIdx = s.dmaIdx := rfl
@[simp] theorem State.hold_pin (s : State) (b : Blocked) : (s.hold b).pin = s.pin := rfl
@[simp] theorem State.hold_invert (s : State) (b : Blocked) : (s.hold b).invert = s.invert := rfl
@[simp] theorem State.hold_count (s : State) (b : Blocked) : (s.hold b).count = s.count := rfl
@[simp] theorem State.hold_col (s : State) (b : Blocked) : (s.hold b).col = s.col := rfl
@[simp] theorem State.hold_regsMapped (s : State) (b : Blocked) : (s.hold b).regsMapped = s.regsMapped := rfl
@[simp] theorem State.hold_pinsBound (s : State) (b : Blocked) : (s.hold b).pinsBound = s.pinsBound := rfl
@[simp] theorem State.hold_pwmOn (s : State) (b : Blocked) : (s.hold b).pwmOn = s.pwmOn := rfl
@[simp] theorem State.hold_chainHead (s : State) (b : Blocked) : (s.hold b).chainHead = s.chainHead := rfl
@[simp] theorem State.hold_descBus (s : State) (b : Blocked) : (s.hold b).descBus = s.descBus := rfl
@[simp] theorem State.hold_descVA (s : State) (b : Blocked) : (s.hold b).descVA = s.descVA := rfl
@[simp] theorem State.hold_descBytes (s : State) (b : Blocked) : (s.hold b).descBytes = s.descBytes := rfl
@[simp] theorem State.hold_bufVA (s : State) (b : Blocked) : (s.hold b).bufVA = s.bufVA := rfl
@[simp] theorem State.hold_pages (s : State) (b : Blocked) : (s.hold b).pages = s.pages := rfl
@[simp] theorem State.hold_maxLeds (s : State) (b : Blocked) : (s.hold b).maxLeds = s.maxLeds := rfl
@[simp] theorem State.hold_bufBytes (s : State) (b : Blocked) : (s.hold b).bufBytes = s.bufBytes := rfl
@[simp] theorem State.hold_phase (s : State) (b : Blocked) : (s.hold b).phase = s.phase := rfl
@[simp] theorem State.hold_inInit (s : State) (b : Blocked) : (s.hold b).inInit = s.inInit := rfl
@[simp] theorem State.hold_blocked (s : State) (b : Blocked) : (s.hold b).blocked = some b := rfl
@[simp] theorem State.hold_polls (s : State) (b : Blocked) : (s.hold b).polls = s.polls + 1 := rfl
@[simp] theorem State.hold_result (s : State) (b : Blocked) : (s.hold b).result = s.result := rfl
@[simp] theorem State.hold_buf (s : State) (b : Blocked) : (s.hold b).buf = s.buf := rfl
@[simp] theorem State.hold_busbuf (s : State) (b : Blocked) : (s.hold b).busbuf = s.busbuf := rfl
@[simp] theorem State.hold_flushed (s : State) (b : Blocked) : (s.hold b).flushed = s.flushed := rfl
@[simp] theorem State.hold_desc (s : State) (b : Blocked) : (s.hold b).desc = s.desc := rfl
@[simp] theorem State.hold_descWritten (s : State) (b : Blocked) : (s.hold b).descWritten = s.descWritten := rfl
@[simp] theorem State.hold_fifo (s : State) (b : Blocked) : (s.hold b).fifo = s.fifo := rfl
@[simp] theorem State.hold_wireCut (s : State) (b : Blocked) : (s.hold b).wireCut = s.wireCut := rfl
@[simp] theorem State.hold_cursor (s : State) (b : Blocked) : (s.hold b).cursor = s.cursor := rfl
@[simp] theorem State.hold_bldPages (s : State) (b : Blocked) : (s.hold b).bldPages = s.bldPages := rfl
@[simp] theorem State.hold_bldIdx (s : State) (b : Blocked) : (s.hold b).bldIdx = s.bldIdx := rfl
@[simp] theorem State.hold_bldRemaining (s : State) (b : Blocked) : (s.hold b).bldRemaining = s.bldRemaining := rfl
@[simp] theorem State.hold_dma (s : State) (b : Blocked) : (s.hold b).dma = s.dma := rfl
@[simp] theorem State.hold_engine (s : State) (b : Blocked) : (s.hold b).engine = s.engine := rfl
@[simp] theorem State.hold_cbAddr (s : State) (b : Blocked) : (s.hold b).cbAddr = s.cbAddr := rfl
@[simp] theorem State.hold_prioritySet (s : State) (b : Blocked) : (s.hold b).prioritySet = s.prioritySet := rfl
@[simp] theorem State.hold_primedInv (s : State) (b : Blocked) : (s.hold b).primedInv = s.primedInv := rfl
@[simp] theorem State.hold_chainValid (s : State) (b : Blocked) : (s.hold b).chainValid = s.chainValid := rfl
@[simp] theorem State.hold_chainFor (s : State) (b : Blocked) : (s.hold b).chainFor = s.chainFor := rfl
@[simp] theorem State.hold_dirty (s : State) (b : Blocked) : (s.hold b).dirty = s.dirty := rfl
@[simp] theorem State.hold_descDirty (s : State) (b : Blocked) : (s.hold b).descDirty = s.descDirty := rfl
@[simp] theorem State.hold_frameOk (s : State) (b : Blocked) : (s.hold b).frameOk = s.frameOk := rfl
@[simp] theorem State.hold_stale (s : State) (b : Blocked) : (s.hold b).stale = s.stale := rfl
@[simp] theorem State.hold_cmds (s : State) (b : Blocked) : (s.hold b).cmds = s.cmds := rfl
@[simp] theorem State.hold_report (s : State) (b : Blocked) : (s.hold b).report = s.report := rfl
@[simp] theorem State.hold_turn (s : State) (b : Blocked) : (s.hold b).turn = s.turn := rfl
@[simp] theorem State.hold_tick (s : State) (b : Blocked) : (s.hold b).tick = s.tick := rfl
@[simp] theorem State.hold_draws (s : State) (b : Blocked) : (s.hold b).draws = s.draws := rfl

/-! ### refuse -/

@[simp] theorem State.refuse_params (s : State) (r : Refusal) : (s.refuse r).params = s.params := rfl
@[simp] theorem State.refuse_freq (s : State) (r : Refusal) : (s.refuse r).freq = s.freq := rfl
@[simp] theorem State.refuse_dmaIdx (s : State) (r : Refusal) : (s.refuse r).dmaIdx = s.dmaIdx := rfl
@[simp] theorem State.refuse_pin (s : State) (r : Refusal) : (s.refuse r).pin = s.pin := rfl
@[simp] theorem State.refuse_invert (s : State) (r : Refusal) : (s.refuse r).invert = s.invert := rfl
@[simp] theorem State.refuse_count (s : State) (r : Refusal) : (s.refuse r).count = s.count := rfl
@[simp] theorem State.refuse_col (s : State) (r : Refusal) : (s.refuse r).col = s.col := rfl
@[simp] theorem State.refuse_regsMapped (s : State) (r : Refusal) : (s.refuse r).regsMapped = s.regsMapped := rfl
@[simp] theorem State.refuse_pinsBound (s : State) (r : Refusal) : (s.refuse r).pinsBound = s.pinsBound := rfl
@[simp] theorem State.refuse_pwmOn (s : State) (r : Refusal) : (s.refuse r).pwmOn = s.pwmOn := rfl
@[simp] theorem State.refuse_chainHead (s : State) (r : Refusal) : (s.refuse r).chainHead = s.chainHead := rfl
@[simp] theorem State.refuse_descBus (s : State) (r : Refusal) : (s.refuse r).descBus = s.descBus := rfl
@[simp] theorem State.refuse_descVA (s : State) (r : Refusal) : (s.refuse r).descVA = s.descVA := rfl
@[simp] theorem State.refuse_descBytes (s : State) (r : Refusal) : (s.refuse r).descBytes = s.descBytes := rfl
@[simp] theorem State.refuse_bufVA (s : State) (r : Refusal) : (s.refuse r).bufVA = s.bufVA := rfl
@[simp] theorem State.refuse_pages (s : State) (r : Refusal) : (s.refuse r).pages = s.pages := rfl
@[simp] theorem State.refuse_maxLeds (s : State) (r : Refusal) : (s.refuse r).maxLeds = s.maxLeds := rfl
@[simp] theorem State.refuse_bufBytes (s : State) (r : Refusal) : (s.refuse r).bufBytes = s.bufBytes := rfl
@[simp] theorem State.refuse_phase (s : State) (r : Refusal) : (s.refuse r).phase = s.phase := rfl
@[simp] theorem State.refuse_inInit (s : State) (r : Refusal) : (s.refuse r).inInit = s.inInit := rfl
@[simp] theorem State.refuse_blocked (s : State) (r : Refusal) : (s.refuse r).blocked = none := rfl
@[simp] theorem State.refuse_polls (s : State) (r : Refusal) : (s.refuse r).polls = 0 := rfl
@[simp] theorem State.refuse_result (s : State) (r : Refusal) : (s.refuse r).result = s.result := rfl
@[simp] theorem State.refuse_buf (s : State) (r : Refusal) : (s.refuse r).buf = s.buf := rfl
@[simp] theorem State.refuse_busbuf (s : State) (r : Refusal) : (s.refuse r).busbuf = s.busbuf := rfl
@[simp] theorem State.refuse_flushed (s : State) (r : Refusal) : (s.refuse r).flushed = s.flushed := rfl
@[simp] theorem State.refuse_desc (s : State) (r : Refusal) : (s.refuse r).desc = s.desc := rfl
@[simp] theorem State.refuse_descWritten (s : State) (r : Refusal) : (s.refuse r).descWritten = s.descWritten := rfl
@[simp] theorem State.refuse_fifo (s : State) (r : Refusal) : (s.refuse r).fifo = s.fifo := rfl
@[simp] theorem State.refuse_wireCut (s : State) (r : Refusal) : (s.refuse r).wireCut = s.wireCut := rfl
@[simp] theorem State.refuse_cursor (s : State) (r : Refusal) : (s.refuse r).cursor = s.cursor := rfl
@[simp] theorem State.refuse_bldPages (s : State) (r : Refusal) : (s.refuse r).bldPages = s.bldPages := rfl
@[simp] theorem State.refuse_bldIdx (s : State) (r : Refusal) : (s.refuse r).bldIdx = s.bldIdx := rfl
@[simp] theorem State.refuse_bldRemaining (s : State) (r : Refusal) : (s.refuse r).bldRemaining = s.bldRemaining := rfl
@[simp] theorem State.refuse_dma (s : State) (r : Refusal) : (s.refuse r).dma = s.dma := rfl
@[simp] theorem State.refuse_engine (s : State) (r : Refusal) : (s.refuse r).engine = s.engine := rfl
@[simp] theorem State.refuse_cbAddr (s : State) (r : Refusal) : (s.refuse r).cbAddr = s.cbAddr := rfl
@[simp] theorem State.refuse_prioritySet (s : State) (r : Refusal) : (s.refuse r).prioritySet = s.prioritySet := rfl
@[simp] theorem State.refuse_primedInv (s : State) (r : Refusal) : (s.refuse r).primedInv = s.primedInv := rfl
@[simp] theorem State.refuse_chainValid (s : State) (r : Refusal) : (s.refuse r).chainValid = s.chainValid := rfl
@[simp] theorem State.refuse_chainFor (s : State) (r : Refusal) : (s.refuse r).chainFor = s.chainFor := rfl
@[simp] theorem State.refuse_dirty (s : State) (r : Refusal) : (s.refuse r).dirty = s.dirty := rfl
@[simp] theorem State.refuse_descDirty (s : State) (r : Refusal) : (s.refuse r).descDirty = s.descDirty := rfl
@[simp] theorem State.refuse_frameOk (s : State) (r : Refusal) : (s.refuse r).frameOk = s.frameOk := rfl
@[simp] theorem State.refuse_stale (s : State) (r : Refusal) : (s.refuse r).stale = s.stale := rfl
@[simp] theorem State.refuse_cmds (s : State) (r : Refusal) : (s.refuse r).cmds = s.cmds := rfl
@[simp] theorem State.refuse_report (s : State) (r : Refusal) : (s.refuse r).report = s.report ++ [r] := rfl
@[simp] theorem State.refuse_turn (s : State) (r : Refusal) : (s.refuse r).turn = s.turn := rfl
@[simp] theorem State.refuse_tick (s : State) (r : Refusal) : (s.refuse r).tick = s.tick := rfl
@[simp] theorem State.refuse_draws (s : State) (r : Refusal) : (s.refuse r).draws = s.draws := rfl

/-! ### withCmds -/

@[simp] theorem State.withCmds_params (s : State) (rest : List HostItem) : (s.withCmds rest).params = s.params := rfl
@[simp] theorem State.withCmds_freq (s : State) (rest : List HostItem) : (s.withCmds rest).freq = s.freq := rfl
@[simp] theorem State.withCmds_dmaIdx (s : State) (rest : List HostItem) : (s.withCmds rest).dmaIdx = s.dmaIdx := rfl
@[simp] theorem State.withCmds_pin (s : State) (rest : List HostItem) : (s.withCmds rest).pin = s.pin := rfl
@[simp] theorem State.withCmds_invert (s : State) (rest : List HostItem) : (s.withCmds rest).invert = s.invert := rfl
@[simp] theorem State.withCmds_count (s : State) (rest : List HostItem) : (s.withCmds rest).count = s.count := rfl
@[simp] theorem State.withCmds_col (s : State) (rest : List HostItem) : (s.withCmds rest).col = s.col := rfl
@[simp] theorem State.withCmds_regsMapped (s : State) (rest : List HostItem) : (s.withCmds rest).regsMapped = s.regsMapped := rfl
@[simp] theorem State.withCmds_pinsBound (s : State) (rest : List HostItem) : (s.withCmds rest).pinsBound = s.pinsBound := rfl
@[simp] theorem State.withCmds_pwmOn (s : State) (rest : List HostItem) : (s.withCmds rest).pwmOn = s.pwmOn := rfl
@[simp] theorem State.withCmds_chainHead (s : State) (rest : List HostItem) : (s.withCmds rest).chainHead = s.chainHead := rfl
@[simp] theorem State.withCmds_descBus (s : State) (rest : List HostItem) : (s.withCmds rest).descBus = s.descBus := rfl
@[simp] theorem State.withCmds_descVA (s : State) (rest : List HostItem) : (s.withCmds rest).descVA = s.descVA := rfl
@[simp] theorem State.withCmds_descBytes (s : State) (rest : List HostItem) : (s.withCmds rest).descBytes = s.descBytes := rfl
@[simp] theorem State.withCmds_bufVA (s : State) (rest : List HostItem) : (s.withCmds rest).bufVA = s.bufVA := rfl
@[simp] theorem State.withCmds_pages (s : State) (rest : List HostItem) : (s.withCmds rest).pages = s.pages := rfl
@[simp] theorem State.withCmds_maxLeds (s : State) (rest : List HostItem) : (s.withCmds rest).maxLeds = s.maxLeds := rfl
@[simp] theorem State.withCmds_bufBytes (s : State) (rest : List HostItem) : (s.withCmds rest).bufBytes = s.bufBytes := rfl
@[simp] theorem State.withCmds_phase (s : State) (rest : List HostItem) : (s.withCmds rest).phase = s.phase := rfl
@[simp] theorem State.withCmds_inInit (s : State) (rest : List HostItem) : (s.withCmds rest).inInit = s.inInit := rfl
@[simp] theorem State.withCmds_blocked (s : State) (rest : List HostItem) : (s.withCmds rest).blocked = s.blocked := rfl
@[simp] theorem State.withCmds_polls (s : State) (rest : List HostItem) : (s.withCmds rest).polls = s.polls := rfl
@[simp] theorem State.withCmds_result (s : State) (rest : List HostItem) : (s.withCmds rest).result = s.result := rfl
@[simp] theorem State.withCmds_buf (s : State) (rest : List HostItem) : (s.withCmds rest).buf = s.buf := rfl
@[simp] theorem State.withCmds_busbuf (s : State) (rest : List HostItem) : (s.withCmds rest).busbuf = s.busbuf := rfl
@[simp] theorem State.withCmds_flushed (s : State) (rest : List HostItem) : (s.withCmds rest).flushed = s.flushed := rfl
@[simp] theorem State.withCmds_desc (s : State) (rest : List HostItem) : (s.withCmds rest).desc = s.desc := rfl
@[simp] theorem State.withCmds_descWritten (s : State) (rest : List HostItem) : (s.withCmds rest).descWritten = s.descWritten := rfl
@[simp] theorem State.withCmds_fifo (s : State) (rest : List HostItem) : (s.withCmds rest).fifo = s.fifo := rfl
@[simp] theorem State.withCmds_wireCut (s : State) (rest : List HostItem) : (s.withCmds rest).wireCut = s.wireCut := rfl
@[simp] theorem State.withCmds_cursor (s : State) (rest : List HostItem) : (s.withCmds rest).cursor = s.cursor := rfl
@[simp] theorem State.withCmds_bldPages (s : State) (rest : List HostItem) : (s.withCmds rest).bldPages = s.bldPages := rfl
@[simp] theorem State.withCmds_bldIdx (s : State) (rest : List HostItem) : (s.withCmds rest).bldIdx = s.bldIdx := rfl
@[simp] theorem State.withCmds_bldRemaining (s : State) (rest : List HostItem) : (s.withCmds rest).bldRemaining = s.bldRemaining := rfl
@[simp] theorem State.withCmds_dma (s : State) (rest : List HostItem) : (s.withCmds rest).dma = s.dma := rfl
@[simp] theorem State.withCmds_engine (s : State) (rest : List HostItem) : (s.withCmds rest).engine = s.engine := rfl
@[simp] theorem State.withCmds_cbAddr (s : State) (rest : List HostItem) : (s.withCmds rest).cbAddr = s.cbAddr := rfl
@[simp] theorem State.withCmds_prioritySet (s : State) (rest : List HostItem) : (s.withCmds rest).prioritySet = s.prioritySet := rfl
@[simp] theorem State.withCmds_primedInv (s : State) (rest : List HostItem) : (s.withCmds rest).primedInv = s.primedInv := rfl
@[simp] theorem State.withCmds_chainValid (s : State) (rest : List HostItem) : (s.withCmds rest).chainValid = s.chainValid := rfl
@[simp] theorem State.withCmds_chainFor (s : State) (rest : List HostItem) : (s.withCmds rest).chainFor = s.chainFor := rfl
@[simp] theorem State.withCmds_dirty (s : State) (rest : List HostItem) : (s.withCmds rest).dirty = s.dirty := rfl
@[simp] theorem State.withCmds_descDirty (s : State) (rest : List HostItem) : (s.withCmds rest).descDirty = s.descDirty := rfl
@[simp] theorem State.withCmds_frameOk (s : State) (rest : List HostItem) : (s.withCmds rest).frameOk = s.frameOk := rfl
@[simp] theorem State.withCmds_stale (s : State) (rest : List HostItem) : (s.withCmds rest).stale = s.stale := rfl
@[simp] theorem State.withCmds_cmds (s : State) (rest : List HostItem) : (s.withCmds rest).cmds = rest := rfl
@[simp] theorem State.withCmds_report (s : State) (rest : List HostItem) : (s.withCmds rest).report = s.report := rfl
@[simp] theorem State.withCmds_turn (s : State) (rest : List HostItem) : (s.withCmds rest).turn = s.turn := rfl
@[simp] theorem State.withCmds_tick (s : State) (rest : List HostItem) : (s.withCmds rest).tick = s.tick := rfl
@[simp] theorem State.withCmds_draws (s : State) (rest : List HostItem) : (s.withCmds rest).draws = s.draws := rfl

/-! ### advance -/

@[simp] theorem State.advance_params (s : State) : (s.advance).params = s.params := rfl
@[simp] theorem State.advance_freq (s : State) : (s.advance).freq = s.freq := rfl
@[simp] theorem State.advance_dmaIdx (s : State) : (s.advance).dmaIdx = s.dmaIdx := rfl
@[simp] theorem State.advance_pin (s : State) : (s.advance).pin = s.pin := rfl
@[simp] theorem State.advance_invert (s : State) : (s.advance).invert = s.invert := rfl
@[simp] theorem State.advance_count (s : State) : (s.advance).count = s.count := rfl
@[simp] theorem State.advance_col (s : State) : (s.advance).col = s.col := rfl
@[simp] theorem State.advance_regsMapped (s : State) : (s.advance).regsMapped = s.regsMapped := rfl
@[simp] theorem State.advance_pinsBound (s : State) : (s.advance).pinsBound = s.pinsBound := rfl
@[simp] theorem State.advance_pwmOn (s : State) : (s.advance).pwmOn = s.pwmOn := rfl
@[simp] theorem State.advance_chainHead (s : State) : (s.advance).chainHead = s.chainHead := rfl
@[simp] theorem State.advance_descBus (s : State) : (s.advance).descBus = s.descBus := rfl
@[simp] theorem State.advance_descVA (s : State) : (s.advance).descVA = s.descVA := rfl
@[simp] theorem State.advance_descBytes (s : State) : (s.advance).descBytes = s.descBytes := rfl
@[simp] theorem State.advance_bufVA (s : State) : (s.advance).bufVA = s.bufVA := rfl
@[simp] theorem State.advance_pages (s : State) : (s.advance).pages = s.pages := rfl
@[simp] theorem State.advance_maxLeds (s : State) : (s.advance).maxLeds = s.maxLeds := rfl
@[simp] theorem State.advance_bufBytes (s : State) : (s.advance).bufBytes = s.bufBytes := rfl
@[simp] theorem State.advance_phase (s : State) : (s.advance).phase = s.phase := rfl
@[simp] theorem State.advance_inInit (s : State) : (s.advance).inInit = s.inInit := rfl
@[simp] theorem State.advance_blocked (s : State) : (s.advance).blocked = s.blocked := rfl
@[simp] theorem State.advance_polls (s : State) : (s.advance).polls = s.polls := rfl
@[simp] theorem State.advance_result (s : State) : (s.advance).result = s.result := rfl
@[simp] theorem State.advance_buf (s : State) : (s.advance).buf = s.buf := rfl
@[simp] theorem State.advance_busbuf (s : State) : (s.advance).busbuf = s.busbuf := rfl
@[simp] theorem State.advance_flushed (s : State) : (s.advance).flushed = s.flushed := rfl
@[simp] theorem State.advance_desc (s : State) : (s.advance).desc = s.desc := rfl
@[simp] theorem State.advance_descWritten (s : State) : (s.advance).descWritten = s.descWritten := rfl
@[simp] theorem State.advance_fifo (s : State) : (s.advance).fifo = s.fifo := rfl
@[simp] theorem State.advance_wireCut (s : State) : (s.advance).wireCut = s.wireCut := rfl
@[simp] theorem State.advance_cursor (s : State) : (s.advance).cursor = s.cursor := rfl
@[simp] theorem State.advance_bldPages (s : State) : (s.advance).bldPages = s.bldPages := rfl
@[simp] theorem State.advance_bldIdx (s : State) : (s.advance).bldIdx = s.bldIdx := rfl
@[simp] theorem State.advance_bldRemaining (s : State) : (s.advance).bldRemaining = s.bldRemaining := rfl
@[simp] theorem State.advance_dma (s : State) : (s.advance).dma = s.dma := rfl
@[simp] theorem State.advance_engine (s : State) : (s.advance).engine = s.engine := rfl
@[simp] theorem State.advance_cbAddr (s : State) : (s.advance).cbAddr = s.cbAddr := rfl
@[simp] theorem State.advance_prioritySet (s : State) : (s.advance).prioritySet = s.prioritySet := rfl
@[simp] theorem State.advance_primedInv (s : State) : (s.advance).primedInv = s.primedInv := rfl
@[simp] theorem State.advance_chainValid (s : State) : (s.advance).chainValid = s.chainValid := rfl
@[simp] theorem State.advance_chainFor (s : State) : (s.advance).chainFor = s.chainFor := rfl
@[simp] theorem State.advance_dirty (s : State) : (s.advance).dirty = s.dirty := rfl
@[simp] theorem State.advance_descDirty (s : State) : (s.advance).descDirty = s.descDirty := rfl
@[simp] theorem State.advance_frameOk (s : State) : (s.advance).frameOk = s.frameOk := rfl
@[simp] theorem State.advance_stale (s : State) : (s.advance).stale = s.stale := rfl
@[simp] theorem State.advance_cmds (s : State) : (s.advance).cmds = s.cmds := rfl
@[simp] theorem State.advance_report (s : State) : (s.advance).report = s.report := rfl
@[simp] theorem State.advance_turn (s : State) : (s.advance).turn = if s.dma.isActive then Config.schedule s.tick else .host := rfl
@[simp] theorem State.advance_tick (s : State) : (s.advance).tick = s.tick + 1 := rfl
@[simp] theorem State.advance_draws (s : State) : (s.advance).draws = s.draws := rfl

/-! ### withBuild -/

@[simp] theorem State.withBuild_params (s : State) (l : List Nat) (b : Build) : (s.withBuild l b).params = s.params := rfl
@[simp] theorem State.withBuild_freq (s : State) (l : List Nat) (b : Build) : (s.withBuild l b).freq = s.freq := rfl
@[simp] theorem State.withBuild_dmaIdx (s : State) (l : List Nat) (b : Build) : (s.withBuild l b).dmaIdx = s.dmaIdx := rfl
@[simp] theorem State.withBuild_pin (s : State) (l : List Nat) (b : Build) : (s.withBuild l b).pin = s.pin := rfl
@[simp] theorem State.withBuild_invert (s : State) (l : List Nat) (b : Build) : (s.withBuild l b).invert = s.invert := rfl
@[simp] theorem State.withBuild_count (s : State) (l : List Nat) (b : Build) : (s.withBuild l b).count = s.count := rfl
@[simp] theorem State.withBuild_col (s : State) (l : List Nat) (b : Build) : (s.withBuild l b).col = s.col := rfl
@[simp] theorem State.withBuild_regsMapped (s : State) (l : List Nat) (b : Build) : (s.withBuild l b).regsMapped = s.regsMapped := rfl
@[simp] theorem State.withBuild_pinsBound (s : State) (l : List Nat) (b : Build) : (s.withBuild l b).pinsBound = s.pinsBound := rfl
@[simp] theorem State.withBuild_pwmOn (s : State) (l : List Nat) (b : Build) : (s.withBuild l b).pwmOn = s.pwmOn := rfl
@[simp] theorem State.withBuild_chainHead (s : State) (l : List Nat) (b : Build) : (s.withBuild l b).chainHead = s.chainHead := rfl
@[simp] theorem State.withBuild_descBus (s : State) (l : List Nat) (b : Build) : (s.withBuild l b).descBus = s.descBus := rfl
@[simp] theorem State.withBuild_descVA (s : State) (l : List Nat) (b : Build) : (s.withBuild l b).descVA = s.descVA := rfl
@[simp] theorem State.withBuild_descBytes (s : State) (l : List Nat) (b : Build) : (s.withBuild l b).descBytes = s.descBytes := rfl
@[simp] theorem State.withBuild_bufVA (s : State) (l : List Nat) (b : Build) : (s.withBuild l b).bufVA = s.bufVA := rfl
@[simp] theorem State.withBuild_pages (s : State) (l : List Nat) (b : Build) : (s.withBuild l b).pages = s.pages := rfl
@[simp] theorem State.withBuild_maxLeds (s : State) (l : List Nat) (b : Build) : (s.withBuild l b).maxLeds = s.maxLeds := rfl
@[simp] theorem State.withBuild_bufBytes (s : State) (l : List Nat) (b : Build) : (s.withBuild l b).bufBytes = s.bufBytes := rfl
@[simp] theorem State.withBuild_phase (s : State) (l : List Nat) (b : Build) : (s.withBuild l b).phase = s.phase := rfl
@[simp] theorem State.withBuild_inInit (s : State) (l : List Nat) (b : Build) : (s.withBuild l b).inInit = s.inInit := rfl
@[simp] theorem State.withBuild_blocked (s : State) (l : List Nat) (b : Build) : (s.withBuild l b).blocked = s.blocked := rfl
@[simp] theorem State.withBuild_polls (s : State) (l : List Nat) (b : Build) : (s.withBuild l b).polls = s.polls := rfl
@[simp] theorem State.withBuild_result (s : State) (l : List Nat) (b : Build) : (s.withBuild l b).result = s.result := rfl
@[simp] theorem State.withBuild_buf (s : State) (l : List Nat) (b : Build) : (s.withBuild l b).buf = s.buf := rfl
@[simp] theorem State.withBuild_busbuf (s : State) (l : List Nat) (b : Build) : (s.withBuild l b).busbuf = s.busbuf := rfl
@[simp] theorem State.withBuild_flushed (s : State) (l : List Nat) (b : Build) : (s.withBuild l b).flushed = s.flushed := rfl
@[simp] theorem State.withBuild_desc (s : State) (l : List Nat) (b : Build) : (s.withBuild l b).desc = b.desc := rfl
@[simp] theorem State.withBuild_descWritten (s : State) (l : List Nat) (b : Build) : (s.withBuild l b).descWritten = b.written := rfl
@[simp] theorem State.withBuild_fifo (s : State) (l : List Nat) (b : Build) : (s.withBuild l b).fifo = s.fifo := rfl
@[simp] theorem State.withBuild_wireCut (s : State) (l : List Nat) (b : Build) : (s.withBuild l b).wireCut = s.wireCut := rfl
@[simp] theorem State.withBuild_cursor (s : State) (l : List Nat) (b : Build) : (s.withBuild l b).cursor = s.cursor := rfl
@[simp] theorem State.withBuild_bldPages (s : State) (l : List Nat) (b : Build) : (s.withBuild l b).bldPages = l := rfl
@[simp] theorem State.withBuild_bldIdx (s : State) (l : List Nat) (b : Build) : (s.withBuild l b).bldIdx = b.idx := rfl
@[simp] theorem State.withBuild_bldRemaining (s : State) (l : List Nat) (b : Build) : (s.withBuild l b).bldRemaining = b.remaining := rfl
@[simp] theorem State.withBuild_dma (s : State) (l : List Nat) (b : Build) : (s.withBuild l b).dma = s.dma := rfl
@[simp] theorem State.withBuild_engine (s : State) (l : List Nat) (b : Build) : (s.withBuild l b).engine = s.engine := rfl
@[simp] theorem State.withBuild_cbAddr (s : State) (l : List Nat) (b : Build) : (s.withBuild l b).cbAddr = s.cbAddr := rfl
@[simp] theorem State.withBuild_prioritySet (s : State) (l : List Nat) (b : Build) : (s.withBuild l b).prioritySet = s.prioritySet := rfl
@[simp] theorem State.withBuild_primedInv (s : State) (l : List Nat) (b : Build) : (s.withBuild l b).primedInv = s.primedInv := rfl
@[simp] theorem State.withBuild_chainValid (s : State) (l : List Nat) (b : Build) : (s.withBuild l b).chainValid = s.chainValid := rfl
@[simp] theorem State.withBuild_chainFor (s : State) (l : List Nat) (b : Build) : (s.withBuild l b).chainFor = s.chainFor := rfl
@[simp] theorem State.withBuild_dirty (s : State) (l : List Nat) (b : Build) : (s.withBuild l b).dirty = s.dirty := rfl
@[simp] theorem State.withBuild_descDirty (s : State) (l : List Nat) (b : Build) : (s.withBuild l b).descDirty = if b.idx = 0 then s.descDirty else s.descDirtyAfterStore := rfl
@[simp] theorem State.withBuild_frameOk (s : State) (l : List Nat) (b : Build) : (s.withBuild l b).frameOk = s.frameOk := rfl
@[simp] theorem State.withBuild_stale (s : State) (l : List Nat) (b : Build) : (s.withBuild l b).stale = s.stale := rfl
@[simp] theorem State.withBuild_cmds (s : State) (l : List Nat) (b : Build) : (s.withBuild l b).cmds = s.cmds := rfl
@[simp] theorem State.withBuild_report (s : State) (l : List Nat) (b : Build) : (s.withBuild l b).report = s.report := rfl
@[simp] theorem State.withBuild_turn (s : State) (l : List Nat) (b : Build) : (s.withBuild l b).turn = s.turn := rfl
@[simp] theorem State.withBuild_tick (s : State) (l : List Nat) (b : Build) : (s.withBuild l b).tick = s.tick := rfl
@[simp] theorem State.withBuild_draws (s : State) (l : List Nat) (b : Build) : (s.withBuild l b).draws = s.draws := rfl

/-! ### withPacket -/

@[simp] theorem State.withPacket_params (s : State) (p : Packet) : (s.withPacket p).params = s.params := rfl
@[simp] theorem State.withPacket_freq (s : State) (p : Packet) : (s.withPacket p).freq = s.freq := rfl
@[simp] theorem State.withPacket_dmaIdx (s : State) (p : Packet) : (s.withPacket p).dmaIdx = s.dmaIdx := rfl
@[simp] theorem State.withPacket_pin (s : State) (p : Packet) : (s.withPacket p).pin = s.pin := rfl
@[simp] theorem State.withPacket_invert (s : State) (p : Packet) : (s.withPacket p).invert = s.invert := rfl
@[simp] theorem State.withPacket_count (s : State) (p : Packet) : (s.withPacket p).count = s.count := rfl
@[simp] theorem State.withPacket_col (s : State) (p : Packet) : (s.withPacket p).col = s.col := rfl
@[simp] theorem State.withPacket_regsMapped (s : State) (p : Packet) : (s.withPacket p).regsMapped = s.regsMapped := rfl
@[simp] theorem State.withPacket_pinsBound (s : State) (p : Packet) : (s.withPacket p).pinsBound = s.pinsBound := rfl
@[simp] theorem State.withPacket_pwmOn (s : State) (p : Packet) : (s.withPacket p).pwmOn = s.pwmOn := rfl
@[simp] theorem State.withPacket_chainHead (s : State) (p : Packet) : (s.withPacket p).chainHead = s.chainHead := rfl
@[simp] theorem State.withPacket_descBus (s : State) (p : Packet) : (s.withPacket p).descBus = s.descBus := rfl
@[simp] theorem State.withPacket_descVA (s : State) (p : Packet) : (s.withPacket p).descVA = s.descVA := rfl
@[simp] theorem State.withPacket_descBytes (s : State) (p : Packet) : (s.withPacket p).descBytes = s.descBytes := rfl
@[simp] theorem State.withPacket_bufVA (s : State) (p : Packet) : (s.withPacket p).bufVA = s.bufVA := rfl
@[simp] theorem State.withPacket_pages (s : State) (p : Packet) : (s.withPacket p).pages = s.pages := rfl
@[simp] theorem State.withPacket_maxLeds (s : State) (p : Packet) : (s.withPacket p).maxLeds = s.maxLeds := rfl
@[simp] theorem State.withPacket_bufBytes (s : State) (p : Packet) : (s.withPacket p).bufBytes = s.bufBytes := rfl
@[simp] theorem State.withPacket_phase (s : State) (p : Packet) : (s.withPacket p).phase = s.phase := rfl
@[simp] theorem State.withPacket_inInit (s : State) (p : Packet) : (s.withPacket p).inInit = s.inInit := rfl
@[simp] theorem State.withPacket_blocked (s : State) (p : Packet) : (s.withPacket p).blocked = none := rfl
@[simp] theorem State.withPacket_polls (s : State) (p : Packet) : (s.withPacket p).polls = s.polls := rfl
@[simp] theorem State.withPacket_result (s : State) (p : Packet) : (s.withPacket p).result = s.result := rfl
@[simp] theorem State.withPacket_buf (s : State) (p : Packet) : (s.withPacket p).buf = s.buf := rfl
@[simp] theorem State.withPacket_busbuf (s : State) (p : Packet) : (s.withPacket p).busbuf = s.busbuf := rfl
@[simp] theorem State.withPacket_flushed (s : State) (p : Packet) : (s.withPacket p).flushed = s.flushed := rfl
@[simp] theorem State.withPacket_desc (s : State) (p : Packet) : (s.withPacket p).desc = s.desc := rfl
@[simp] theorem State.withPacket_descWritten (s : State) (p : Packet) : (s.withPacket p).descWritten = s.descWritten := rfl
@[simp] theorem State.withPacket_fifo (s : State) (p : Packet) : (s.withPacket p).fifo = s.fifo := rfl
@[simp] theorem State.withPacket_wireCut (s : State) (p : Packet) : (s.withPacket p).wireCut = s.wireCut := rfl
@[simp] theorem State.withPacket_cursor (s : State) (p : Packet) : (s.withPacket p).cursor = s.cursor := rfl
@[simp] theorem State.withPacket_bldPages (s : State) (p : Packet) : (s.withPacket p).bldPages = s.bldPages := rfl
@[simp] theorem State.withPacket_bldIdx (s : State) (p : Packet) : (s.withPacket p).bldIdx = s.bldIdx := rfl
@[simp] theorem State.withPacket_bldRemaining (s : State) (p : Packet) : (s.withPacket p).bldRemaining = s.bldRemaining := rfl
@[simp] theorem State.withPacket_dma (s : State) (p : Packet) : (s.withPacket p).dma = s.dma := rfl
@[simp] theorem State.withPacket_engine (s : State) (p : Packet) : (s.withPacket p).engine = s.engine := rfl
@[simp] theorem State.withPacket_cbAddr (s : State) (p : Packet) : (s.withPacket p).cbAddr = s.cbAddr := rfl
@[simp] theorem State.withPacket_prioritySet (s : State) (p : Packet) : (s.withPacket p).prioritySet = s.prioritySet := rfl
@[simp] theorem State.withPacket_primedInv (s : State) (p : Packet) : (s.withPacket p).primedInv = s.primedInv := rfl
@[simp] theorem State.withPacket_chainValid (s : State) (p : Packet) : (s.withPacket p).chainValid = s.chainValid := rfl
@[simp] theorem State.withPacket_chainFor (s : State) (p : Packet) : (s.withPacket p).chainFor = s.chainFor := rfl
@[simp] theorem State.withPacket_dirty (s : State) (p : Packet) : (s.withPacket p).dirty = s.dirty := rfl
@[simp] theorem State.withPacket_descDirty (s : State) (p : Packet) : (s.withPacket p).descDirty = s.descDirty := rfl
@[simp] theorem State.withPacket_frameOk (s : State) (p : Packet) : (s.withPacket p).frameOk = s.frameOk := rfl
@[simp] theorem State.withPacket_stale (s : State) (p : Packet) : (s.withPacket p).stale = s.stale := rfl
@[simp] theorem State.withPacket_cmds (s : State) (p : Packet) : (s.withPacket p).cmds = .issue p :: s.cmds := rfl
@[simp] theorem State.withPacket_report (s : State) (p : Packet) : (s.withPacket p).report = s.report := rfl
@[simp] theorem State.withPacket_turn (s : State) (p : Packet) : (s.withPacket p).turn = .host := rfl
@[simp] theorem State.withPacket_tick (s : State) (p : Packet) : (s.withPacket p).tick = s.tick := rfl
@[simp] theorem State.withPacket_draws (s : State) (p : Packet) : (s.withPacket p).draws = s.draws := rfl

/-! ### powerOn -/

@[simp] theorem State.powerOn_params (s : State) : (s.powerOn).params = s.params := rfl
@[simp] theorem State.powerOn_freq (s : State) : (s.powerOn).freq = s.freq := rfl
@[simp] theorem State.powerOn_dmaIdx (s : State) : (s.powerOn).dmaIdx = s.dmaIdx := rfl
@[simp] theorem State.powerOn_pin (s : State) : (s.powerOn).pin = s.pin := rfl
@[simp] theorem State.powerOn_invert (s : State) : (s.powerOn).invert = s.invert := rfl
@[simp] theorem State.powerOn_count (s : State) : (s.powerOn).count = s.count := rfl
@[simp] theorem State.powerOn_col (s : State) : (s.powerOn).col = ⟨[], []⟩ := rfl
@[simp] theorem State.powerOn_regsMapped (s : State) : (s.powerOn).regsMapped = false := rfl
@[simp] theorem State.powerOn_pinsBound (s : State) : (s.powerOn).pinsBound = false := rfl
@[simp] theorem State.powerOn_pwmOn (s : State) : (s.powerOn).pwmOn = false := rfl
@[simp] theorem State.powerOn_chainHead (s : State) : (s.powerOn).chainHead = none := rfl
@[simp] theorem State.powerOn_descBus (s : State) : (s.powerOn).descBus = none := rfl
@[simp] theorem State.powerOn_descVA (s : State) : (s.powerOn).descVA = none := rfl
@[simp] theorem State.powerOn_descBytes (s : State) : (s.powerOn).descBytes = 0 := rfl
@[simp] theorem State.powerOn_bufVA (s : State) : (s.powerOn).bufVA = none := rfl
@[simp] theorem State.powerOn_pages (s : State) : (s.powerOn).pages = [] := rfl
@[simp] theorem State.powerOn_maxLeds (s : State) : (s.powerOn).maxLeds = 0 := rfl
@[simp] theorem State.powerOn_bufBytes (s : State) : (s.powerOn).bufBytes = 0 := rfl
@[simp] theorem State.powerOn_phase (s : State) : (s.powerOn).phase = .uninitialized := rfl
@[simp] theorem State.powerOn_inInit (s : State) : (s.powerOn).inInit = false := rfl
@[simp] theorem State.powerOn_blocked (s : State) : (s.powerOn).blocked = none := rfl
@[simp] theorem State.powerOn_polls (s : State) : (s.powerOn).polls = 0 := rfl
@[simp] theorem State.powerOn_result (s : State) : (s.powerOn).result = s.result := rfl
@[simp] theorem State.powerOn_buf (s : State) : (s.powerOn).buf = [] := rfl
@[simp] theorem State.powerOn_busbuf (s : State) : (s.powerOn).busbuf = [] := rfl
@[simp] theorem State.powerOn_flushed (s : State) : (s.powerOn).flushed = [] := rfl
@[simp] theorem State.powerOn_desc (s : State) : (s.powerOn).desc = [] := rfl
@[simp] theorem State.powerOn_descWritten (s : State) : (s.powerOn).descWritten = [] := rfl
@[simp] theorem State.powerOn_fifo (s : State) : (s.powerOn).fifo = s.fifo := rfl
@[simp] theorem State.powerOn_wireCut (s : State) : (s.powerOn).wireCut = s.wireCut := rfl
@[simp] theorem State.powerOn_cursor (s : State) : (s.powerOn).cursor = ⟨⟨0, 31⟩, ⟨0, 31⟩⟩ := rfl
@[simp] theorem State.powerOn_bldPages (s : State) : (s.powerOn).bldPages = [] := rfl
@[simp] theorem State.powerOn_bldIdx (s : State) : (s.powerOn).bldIdx = 0 := rfl
@[simp] theorem State.powerOn_bldRemaining (s : State) : (s.powerOn).bldRemaining = 0 := rfl
@[simp] theorem State.powerOn_dma (s : State) : (s.powerOn).dma = .idle := rfl
@[simp] theorem State.powerOn_engine (s : State) : (s.powerOn).engine = s.engine := rfl
@[simp] theorem State.powerOn_cbAddr (s : State) : (s.powerOn).cbAddr = s.cbAddr := rfl
@[simp] theorem State.powerOn_prioritySet (s : State) : (s.powerOn).prioritySet = s.prioritySet := rfl
@[simp] theorem State.powerOn_primedInv (s : State) : (s.powerOn).primedInv = ⟨none, none⟩ := rfl
@[simp] theorem State.powerOn_chainValid (s : State) : (s.powerOn).chainValid = false := rfl
@[simp] theorem State.powerOn_chainFor (s : State) : (s.powerOn).chainFor = none := rfl
@[simp] theorem State.powerOn_dirty (s : State) : (s.powerOn).dirty = [] := rfl
@[simp] theorem State.powerOn_descDirty (s : State) : (s.powerOn).descDirty = false := rfl
@[simp] theorem State.powerOn_frameOk (s : State) : (s.powerOn).frameOk = false := rfl
@[simp] theorem State.powerOn_stale (s : State) : (s.powerOn).stale = ⟨0, 0⟩ := rfl
@[simp] theorem State.powerOn_cmds (s : State) : (s.powerOn).cmds = s.cmds := rfl
@[simp] theorem State.powerOn_report (s : State) : (s.powerOn).report = s.report := rfl
@[simp] theorem State.powerOn_turn (s : State) : (s.powerOn).turn = s.turn := rfl
@[simp] theorem State.powerOn_tick (s : State) : (s.powerOn).tick = s.tick := rfl
@[simp] theorem State.powerOn_draws (s : State) : (s.powerOn).draws = s.draws := rfl

end Sys2Proof.Machine
end

