-- ==== Sys2Proof/Laws/Step.lean ====
section
/-!
SUPPORT. What one step can do, said once: who moved and what the outcome is; and what a row of operations can do.
-/

namespace Sys2Proof.Machine

/-- What the host's program sees of an operation that answers a next state: its own, or the report of a refusal (log 11). -/
def HostSees (i : Instr) (s u : State) : Prop := exec i s = .next u ∨ ∃ r, exec i s = .refused r ∧ u = s.refuse r

theorem hostOutcome_next {s u : State} {o : Out} (h : hostOutcome s o = .next u) :
    o = .next u ∨ ∃ r, o = .refused r ∧ u = s.refuse r := by
  cases o with
  | next t => exact .inl h
  | fault f => cases h
  | refused r => cases h; exact .inr ⟨r, rfl, rfl⟩

/-- Everything the host's move can be: a poll of the operation it is held in, nothing where it is stuck, nothing where its list is empty, a
store of the caller's, a store refused, a packet that is no operation, an operation. -/
inductive HostMove (s u : State) : Prop where
  | pollWait (hb : s.blocked = some .wait) (h : HostSees .wait s u)
  | pollFinalize (hb : s.blocked = some .finalize) (h : HostSees .finalize s u)
  | stuck (hb : s.blocked = some .clock) (h : u = s)
  | nothing (hb : s.blocked = none) (hc : s.cmds = []) (h : u = s)
  | store (st : Store) (rest : List HostItem) (hb : s.blocked = none) (hc : s.cmds = .store st :: rest)
      (hp : s.phase ≠ .finalized) (h : u = applyStore st (s.withCmds rest))
  | storeRefused (st : Store) (rest : List HostItem) (hb : s.blocked = none) (hc : s.cmds = .store st :: rest)
      (hp : s.phase = .finalized) (h : u = (s.withCmds rest).refuse .wrongPhase)
  | noOperation (p : Packet) (rest : List HostItem) (r : Reject) (hb : s.blocked = none) (hc : s.cmds = .issue p :: rest)
      (hd : decode p = .error r) (h : u = (s.withCmds rest).refuse (.badPacket r))
  | operation (p : Packet) (rest : List HostItem) (i : Instr) (hb : s.blocked = none) (hc : s.cmds = .issue p :: rest)
      (hd : decode p = .ok i) (h : HostSees i (s.withCmds rest) u)

theorem hostTurn_cases {s u : State} (h : hostTurn s = .next u) : HostMove s u := by
  unfold hostTurn at h
  cases hb : s.blocked with
  | some b =>
    rw [hb] at h
    cases b with
    | wait => exact .pollWait hb (hostOutcome_next h)
    | finalize => exact .pollFinalize hb (hostOutcome_next h)
    | clock => cases h; exact .stuck hb rfl
  | none =>
    rw [hb] at h
    cases hc : s.cmds with
    | nil => rw [hc] at h; cases h; exact .nothing hb hc rfl
    | cons x rest =>
      rw [hc] at h
      cases x with
      | store st =>
        simp only [hostItem, execStore, admittedIf] at h
        split at h <;> cases h
        · exact .store st rest hb hc ‹_› rfl
        · exact .storeRefused st rest hb hc (Decidable.not_not.mp ‹_›) rfl
      | issue p =>
        simp only [hostItem] at h
        cases hd : decode p with
        | error r => rw [hd] at h; cases h; exact .noOperation p rest r hb hc hd rfl
        | ok i => rw [hd] at h; exact .operation p rest i hb hc hd (hostOutcome_next h)

/-- Everything a step can be: a step of the DMA reader that its guard admits, its error step while a transfer is in flight, or the host's
move; and the next mover is drawn. -/
theorem step_cases {s t : State} (h : step s = .next t) : ∃ u, t = u.advance ∧
    ((∃ i, s.readerStep = some i ∧ exec i s = .next u) ∨ (∃ v, exec (.dmaError v) s = .next u) ∨ HostMove s u) := by
  unfold step at h
  have hm : ∃ u, move s = .next u ∧ t = u.advance := by
    cases hm : move s with
    | next u => rw [hm] at h; cases h; exact ⟨u, rfl, rfl⟩
    | fault f => rw [hm] at h; cases h
    | refused r => rw [hm] at h; cases h
  obtain ⟨u, hm, rfl⟩ := hm
  refine ⟨u, rfl, ?_⟩
  have hreader : ∀ i, readerTurn i s = .next u → exec i s = .next u ∨ HostMove s u := by
    intro i hr
    unfold readerTurn at hr
    split at hr
    · exact .inr (hostTurn_cases hr)
    · cases hr; exact .inl ‹_›
    · cases hr
  unfold move at hm
  split at hm
  · rename_i i _ hi
    exact (hreader i hm).elim (fun e => .inl ⟨i, hi, e⟩) (fun e => .inr (.inr e))
  · rename_i v _ _ _
    exact (hreader _ hm).elim (fun e => .inr (.inl ⟨v, e⟩)) (fun e => .inr (.inr e))
  · exact .inr (.inr (hostTurn_cases hm))
  · exact .inr (.inr (hostTurn_cases hm))
  · exact .inr (.inr (hostTurn_cases hm))

/-- The steps of the DMA reader. -/
def Instr.isReaderStep : Instr → Bool
  | .dmaXferWord | .dmaFollowLink | .dmaComplete | .dmaError _ => true
  | .size | .prime | .encode | .translate _ | .buildChain _ _ | .flush _ | .dmaStart | .wait | .reserved0 | .reserved9
  | .reservedAB _ | .reservedCF _ | .init _ | .render | .finalize | .expandLed _ | .emitSymbol _ _ | .putBit _ _ | .emitDesc _
  | .terminate _ | .sym1 _ | .sym0 _ | .sym1Inv _ | .sym0Inv _ | .color _ _ _ | .tiWord _ | .busaddr _ _ | .desc _ _ => false

theorem isReaderStep_of_readerStep {s : State} {i : Instr} (h : s.readerStep = some i) : Instr.isReaderStep i = true := by
  unfold State.readerStep at h
  split at h
  · cases h
    split
    · rfl
    · split <;> rfl
  · cases h
  · cases h

/-- A property that every operation, every store and the machine's own bookkeeping keep is kept by every step. The bookkeeping is the
command list, the report, the hold and the draw of the next mover. While the host thread is stuck only the DMA reader moves. -/
theorem step_keeps {P : State → Prop} {s t : State} (hs : P s) (h : step s = .next t)
    (hexec : ∀ i u v, (Instr.isReaderStep i = true ∨ u.blocked ≠ some .clock) → P u → exec i u = .next v → P v)
    (hstore : ∀ st u, P u → P (applyStore st u))
    (hcmds : ∀ u rest, P u → P (u.withCmds rest)) (hrefuse : ∀ u r, u.blocked ≠ some .clock → P u → P (u.refuse r))
    (hadvance : ∀ u, P u → P u.advance) : P t := by
  have hsees : ∀ i u v, u.blocked ≠ some .clock → P u → HostSees i u v → P v := by
    rintro i u v hb hu (h | ⟨r, -, rfl⟩)
    · exact hexec i u v (.inr hb) hu h
    · exact hrefuse u r hb hu
  have free : ∀ rest, s.blocked = none → (s.withCmds rest).blocked ≠ some .clock := fun _ hb => by
    show s.blocked ≠ _; rw [hb]; decide
  obtain ⟨u, rfl, ⟨i, hi, h⟩ | ⟨v, h⟩ | h⟩ := step_cases h
  · exact hadvance _ (hexec i s u (.inl (isReaderStep_of_readerStep hi)) hs h)
  · exact hadvance _ (hexec _ s u (.inl rfl) hs h)
  · refine hadvance _ ?_
    cases h with
    | pollWait hb h => exact hsees _ _ _ (by rw [hb]; decide) hs h
    | pollFinalize hb h => exact hsees _ _ _ (by rw [hb]; decide) hs h
    | stuck _ h => exact h ▸ hs
    | nothing _ _ h => exact h ▸ hs
    | store st rest _ _ _ h => exact h ▸ hstore st _ (hcmds s rest hs)
    | storeRefused st rest hb _ _ h => exact h ▸ hrefuse _ _ (free rest hb) (hcmds s rest hs)
    | noOperation p rest r hb _ _ h => exact h ▸ hrefuse _ _ (free rest hb) (hcmds s rest hs)
    | operation p rest i hb _ _ h => exact hsees i _ _ (free rest hb) (hcmds s rest hs) h

/-! ### Rows of operations -/

theorem andThen_next {o : Out} {k : State → Out} {t : State} (h : andThen o k = .next t) :
    ∃ s, o = .next s ∧ ((s.result.isError = true ∧ t = s) ∨ (s.result.isError = false ∧ k s = .next t)) := by
  cases o with
  | next s =>
    refine ⟨s, rfl, ?_⟩
    simp only [andThen] at h
    split at h
    · cases h; exact .inl ⟨‹_›, rfl⟩
    · exact .inr ⟨Bool.eq_false_iff.mpr ‹_›, h⟩
  | fault f => cases h
  | refused r => cases h

@[simp] theorem andThen_of_ok (s : State) (k : State → Out) (h : s.result.isError = false) : andThen (.next s) k = k s := by
  simp [andThen, h]

@[simp] theorem andThen_of_error (s : State) (k : State → Out) (h : s.result.isError = true) : andThen (.next s) k = .next s := by
  simp [andThen, h]

/-- A property that each operation of a row keeps is kept by the row. -/
theorem runAll_keeps {P : State → Prop} (fs : List (State → Out)) (hf : ∀ f ∈ fs, ∀ s t, P s → f s = .next t → P t) :
    ∀ s t, P s → runAll fs s = .next t → P t := by
  induction fs with
  | nil => intro s t hs h; cases h; exact hs
  | cons f fs ih =>
    intro s t hs h
    obtain ⟨u, hu, ⟨-, rfl⟩ | ⟨-, h⟩⟩ := andThen_next h
    · exact hf f List.mem_cons_self s _ hs hu
    · exact ih (fun g hg => hf g (List.mem_cons_of_mem _ hg)) u t (hf f List.mem_cons_self s u hs hu) h

/-- A row with one more operation at its end: the row ended with an error, or that operation came last. -/
theorem runAll_snoc (fs : List (State → Out)) (g : State → Out) : ∀ s t, runAll (fs ++ [g]) s = .next t →
    (runAll fs s = .next t ∧ t.result.isError = true) ∨ ∃ u, runAll fs s = .next u ∧ g u = .next t := by
  induction fs with
  | nil =>
    intro s t h
    obtain ⟨u, hu, ⟨-, rfl⟩ | ⟨-, h⟩⟩ := andThen_next h
    · exact .inr ⟨s, rfl, hu⟩
    · cases h; exact .inr ⟨s, rfl, hu⟩
  | cons f fs ih =>
    intro s t h
    obtain ⟨u, hu, ⟨he, rfl⟩ | ⟨hn, h⟩⟩ := andThen_next h
    · left
      refine ⟨?_, he⟩
      show andThen (f s) _ = _
      rw [hu]; exact andThen_of_error _ _ he
    · have e : runAll (f :: fs) s = runAll fs u := by
        show andThen (f s) _ = _
        rw [hu]; exact andThen_of_ok _ _ hn
      rw [e]
      exact ih u t h

end Sys2Proof.Machine
end

