-- ==== Sys2Proof/Laws/Exec.lean ====
section
/-!
SUPPORT. What each shared operation can do where it answers a next state, guards included: one lemma per operation, which the proofs
cite in place of unfolding it.
-/

namespace Sys2Proof.Machine

/-! ### The encoder family -/

theorem execSize_next {s t : State} (h : execSize s = .next t) :
    s.inInit = true ∧ sizeRefusal s = none ∧ t = sizeEffect s := by
  unfold execSize at h
  split at h
  · split at h
    · cases h
    · cases h; exact ⟨‹_›, ‹_›, rfl⟩
  · cases h

theorem execPrime_next {s t : State} (h : execPrime s = .next t) :
    (s.inInit = true ∨ s.phase = .ready) ∧ s.dma.isActive = false ∧ t = primeEffect s := by
  unfold execPrime at h
  split at h
  · split at h
    · cases h
    · split at h
      · cases h; exact ⟨by simpa using ‹(s.inInit || decide (s.phase = .ready)) = true›, Bool.eq_false_iff.mpr ‹_›, rfl⟩
      · cases h
  · cases h

theorem admittedIf_next {p : Prop} [Decidable p] {t u : State} (h : admittedIf p t = .next u) : p ∧ u = t := by
  unfold admittedIf at h
  split at h <;> cases h
  exact ⟨‹_›, rfl⟩

theorem execExpandLed_next {v : Word} {s t : State} (h : execExpandLed v s = .next t) :
    s.isOpen = true ∧ t = s.finish (.components (green v) (red v) (blue v)) := admittedIf_next h

theorem execBusaddr_next {f : BitVec 20} {o : BitVec 12} {s t : State} (h : execBusaddr f o s = .next t) :
    (s.inInit || s.isOpen) = true ∧ t = s.finish (.addr (busAddress s.params.aliasBit f o)) := admittedIf_next h

theorem execStore_next {st : Store} {s t : State} (h : execStore st s = .next t) :
    s.phase ≠ .finalized ∧ t = applyStore st s := admittedIf_next h

theorem execEncode_next {s t : State} (h : execEncode s = .next t) :
    s.isOpen = true ∧ s.dma.isActive = false ∧ s.encodeFits = true ∧ t = encodeEffect s := by
  unfold execEncode at h
  split at h
  · split at h
    · cases h
    · split at h
      · cases h; exact ⟨‹_›, Bool.eq_false_iff.mpr ‹_›, ‹_›, rfl⟩
      · cases h
  · cases h

theorem putBitStep_next {c : Chan} {x : Bool} {s t : State} (h : putBitStep c x s = .next t) :
    s.isOpen = true ∧ s.dma.isActive = false ∧ laneWord c (s.cursor.get c) < s.bufWords ∧ t = putBitEffect c x s := by
  unfold putBitStep at h
  split at h
  · split at h
    · cases h
    · split at h
      · cases h; exact ⟨‹_›, Bool.eq_false_iff.mpr ‹_›, ‹_›, rfl⟩
      · cases h
  · cases h

theorem putBitStep_of_fits {c : Chan} {x : Bool} {s : State} (ho : s.isOpen = true) (hd : s.dma.isActive = false)
    (hw : laneWord c (s.cursor.get c) < s.bufWords) : putBitStep c x s = .next (putBitEffect c x s) := by
  simp [putBitStep, ho, hd, hw]

/-- A property that every sub-bit's store keeps is kept by a row of them. -/
theorem putBits_keeps {P : State → Prop} {c : Chan} {xs : List Bool} {s t : State} (hs : P s) (h : putBits c xs s = .next t)
    (hp : ∀ x u, P u → u.isOpen = true → u.dma.isActive = false → laneWord c (u.cursor.get c) < u.bufWords →
      P (putBitEffect c x u)) : P t := by
  refine runAll_keeps _ ?_ s t hs h
  intro f hf u v hu hv
  obtain ⟨x, -, rfl⟩ := List.mem_map.mp hf
  obtain ⟨h1, h2, h3, rfl⟩ := putBitStep_next hv
  exact hp x u hu h1 h2 h3

/-! ### The chain family -/

theorem execTranslate_next {va : Nat} {s t : State} (h : execTranslate va s = .next t) :
    s.inInit = true ∧ ((∃ a, translateVA s.params va = .ok a ∧ t = s.finish (.addr a)) ∨
      (translateVA s.params va = .error ∧ t = s.raise (.translation none))) := by
  unfold execTranslate at h
  split at h
  · split at h
    · cases h; exact ⟨‹_›, .inl ⟨_, ‹_›, rfl⟩⟩
    · cases h; exact ⟨‹_›, .inr ⟨‹_›, rfl⟩⟩
    · cases h
  · cases h

theorem execBuildChain_next {pages : List Nat} {n : Nat} {s t : State} (h : execBuildChain pages n s = .next t) :
    (s.inInit = true ∨ s.phase = .ready) ∧ s.dma.isActive = false ∧ buildRefusal pages n s = none ∧
      buildRun pages n s = .next t := by
  unfold execBuildChain at h
  split at h
  · split at h
    · cases h
    · split at h
      · split at h
        · cases h
        · exact ⟨by simpa using ‹(s.inInit || decide (s.phase = .ready)) = true›, Bool.eq_false_iff.mpr ‹_›, ‹_›, h⟩
      · cases h
  · cases h

/-- How a build ends: with a complete chain, or with the records before the first page that does not translate (R145, R149). -/
theorem buildRun_next {pages : List Nat} {n : Nat} {s t : State} (h : buildRun pages n s = .next t) :
    (∃ b, buildLoop s.params (orZero s.descBus) pages 0 (buildStart n s) = .done b ∧
      t = { (s.withBuild pages { b with desc := terminateLink b.desc b.idx }).finish (.addr (orZero s.descBus)) with
        chainHead := s.descBus, chainValid := true, chainFor := some s.sizing }) ∨
    (∃ i b, buildLoop s.params (orZero s.descBus) pages 0 (buildStart n s) = .failed i b ∧
      t = { (s.withBuild pages b).raise (.translation (some i)) with chainValid := false }) := by
  unfold buildRun at h
  split at h
  · cases h
  · cases h; exact .inr ⟨_, _, ‹_›, rfl⟩
  · cases h; exact .inl ⟨_, ‹_›, rfl⟩

theorem execBuildChain_of_ready {pages : List Nat} {n : Nat} {s : State} (hp : s.inInit = true ∨ s.phase = .ready)
    (hd : s.dma.isActive = false) (hr : buildRefusal pages n s = none) : execBuildChain pages n s = buildRun pages n s := by
  have h1 : (s.inInit || decide (s.phase = .ready)) = true := by simpa using hp
  have h2 : (s.inInit || s.isOpen) = true := by
    rcases hp with h | h <;> simp [State.isOpen, h]
  simp [execBuildChain, h1, h2, hd, hr]

theorem chainStep_next {i : Nat} {s t : State} {k : State → Out} (h : chainStep i s k = .next t) :
    (s.inInit = true ∨ s.phase = .ready) ∧ s.dma.isActive = false ∧ s.chainValid = false ∧ i < s.params.maxPages ∧
      storageOk s.descBus s.descBytes (i + 1) = true ∧ k s = .next t := by
  unfold chainStep at h
  split at h
  · split at h
    · cases h
    · split at h
      · split at h
        · cases h
        · split at h
          · rename_i hg
            exact ⟨by simpa using ‹(s.inInit || decide (s.phase = .ready)) = true›, Bool.eq_false_iff.mpr ‹_›,
              Bool.eq_false_iff.mpr ‹_›, hg.1, hg.2, h⟩
          · cases h
      · cases h
  · cases h

theorem chainStep_of_build {i : Nat} {s : State} (k : State → Out) (hp : s.inInit = true ∨ s.phase = .ready)
    (hd : s.dma.isActive = false) (hc : s.chainValid = false) (hi : i < s.params.maxPages)
    (ho : storageOk s.descBus s.descBytes (i + 1) = true) : chainStep i s k = k s := by
  have h1 : (s.inInit || decide (s.phase = .ready)) = true := by simpa using hp
  have h2 : (s.inInit || s.isOpen) = true := by
    rcases hp with h | h <;> simp [State.isOpen, h]
  simp [chainStep, h1, h2, hd, hc, hi, ho]

theorem execEmitDesc_next {i : Nat} {s t : State} (h : execEmitDesc i s = .next t) :
    s.dma.isActive = false ∧ s.chainValid = false ∧ (s.inInit = true ∨ s.phase = .ready) ∧
      ((∃ a, translateVA s.params (s.bldPages.getD i 0) = .ok a ∧ t = emitDescEffect i a s) ∨
        t = s.raise (.translation (some i))) := by
  obtain ⟨h0, h1, h2, -, -, h⟩ := chainStep_next h
  refine ⟨h1, h2, h0, ?_⟩
  split at h
  · split at h
    · cases h; exact .inl ⟨_, ‹_›, rfl⟩
    · cases h; exact .inr rfl
    · cases h
  · cases h

theorem execTerminate_next {n : Nat} {s t : State} (h : execTerminate n s = .next t) :
    s.dma.isActive = false ∧ s.chainValid = false ∧ (s.inInit = true ∨ s.phase = .ready) ∧
      t = terminateEffect n s := by
  obtain ⟨h0, h1, h2, -, -, h⟩ := chainStep_next h
  refine ⟨h1, h2, h0, ?_⟩
  split at h
  · cases h
  · cases h; rfl

theorem execTiWord_next {i : Nat} {s t : State} (h : execTiWord i s = .next t) :
    s.dma.isActive = false ∧ s.chainValid = false ∧ (s.inInit = true ∨ s.phase = .ready) ∧
      t = tiWordEffect i s := by
  obtain ⟨h0, h1, h2, -, -, h⟩ := chainStep_next h
  cases h
  exact ⟨h1, h2, h0, rfl⟩

theorem execDesc_next {i : Nat} {r : Desc} {s t : State} (h : execDesc i r s = .next t) :
    s.dma.isActive = false ∧ s.chainValid = false ∧ (s.inInit = true ∨ s.phase = .ready) ∧
      t = descEffect i r s := by
  obtain ⟨h0, h1, h2, -, -, h⟩ := chainStep_next h
  cases h
  exact ⟨h1, h2, h0, rfl⟩

theorem execEmitDesc_of_build {i : Nat} {s : State} {a : Word} (hp : s.inInit = true ∨ s.phase = .ready)
    (hd : s.dma.isActive = false) (hc : s.chainValid = false) (hi : i < s.params.maxPages)
    (ho : storageOk s.descBus s.descBytes (i + 1) = true) (hl : i < s.bldPages.length) (hr : s.bldRemaining ≠ 0)
    (ha : translateVA s.params (s.bldPages.getD i 0) = .ok a) : execEmitDesc i s = .next (emitDescEffect i a s) := by
  rw [execEmitDesc, chainStep_of_build _ hp hd hc hi ho, if_pos ⟨hl, hr⟩, ha]

theorem execTerminate_of_build {n : Nat} {s : State} (hp : s.inInit = true ∨ s.phase = .ready)
    (hd : s.dma.isActive = false) (hc : s.chainValid = false) (h1 : 1 ≤ n) (hn : n ≤ s.params.maxPages)
    (ho : storageOk s.descBus s.descBytes n = true) : execTerminate n s = .next (terminateEffect n s) := by
  rw [execTerminate, chainStep_of_build _ hp hd hc (by omega) (by rw [Nat.sub_add_cancel h1]; exact ho), if_neg (by omega)]

theorem execTiWord_of_build {i : Nat} {s : State} (hp : s.inInit = true ∨ s.phase = .ready)
    (hd : s.dma.isActive = false) (hc : s.chainValid = false) (hi : i < s.params.maxPages)
    (ho : storageOk s.descBus s.descBytes (i + 1) = true) : execTiWord i s = .next (tiWordEffect i s) := by
  rw [execTiWord, chainStep_of_build _ hp hd hc hi ho]

theorem execDesc_of_build {i : Nat} {r : Desc} {s : State} (hp : s.inInit = true ∨ s.phase = .ready)
    (hd : s.dma.isActive = false) (hc : s.chainValid = false) (hi : i < s.params.maxPages)
    (ho : storageOk s.descBus s.descBytes (i + 1) = true) : execDesc i r s = .next (descEffect i r s) := by
  rw [execDesc, chainStep_of_build _ hp hd hc hi ho]

/-! ### The synchronisation group -/

theorem execFlush_next {a : FlushArg} {s t : State} (h : execFlush a s = .next t) :
    (s.inInit = true ∨ s.isOpen = true) ∧
    ((∃ lo hi, a = .range lo hi ∧ lo ≤ hi ∧ hi ≤ s.bufBytes ∧ t = flushEffect lo hi s) ∨
      (a = .desc ∧ t = flushDescEffect s)) := by
  unfold execFlush at h
  split at h
  · refine ⟨by simpa using ‹(s.inInit || s.isOpen) = true›, ?_⟩
    split at h
    · unfold flushRange at h
      split at h
      · rename_i hr
        cases h; exact .inl ⟨_, _, rfl, hr.1, hr.2, rfl⟩
      · cases h
    · cases h; exact .inr ⟨rfl, rfl⟩
  · cases h

theorem execFlush_of_range {lo hi : Nat} {s : State} (ho : s.isOpen = true) (h1 : lo ≤ hi) (h2 : hi ≤ s.bufBytes) :
    execFlush (.range lo hi) s = .next (flushEffect lo hi s) := by
  simp [execFlush, flushRange, ho, h1, h2]

theorem execDmaStart_next {s t : State} (h : execDmaStart s = .next t) :
    s.isOpen = true ∧ s.dma = .idle ∧ s.chainCurrent = true ∧ s.descDirty = false ∧ t = dmaStartEffect s := by
  unfold execDmaStart at h
  split at h
  · split at h
    · cases h
    · cases h
    · split at h
      · split at h
        · cases h
        · cases h; exact ⟨‹_›, ‹_›, ‹_›, Bool.eq_false_iff.mpr ‹_›, rfl⟩
      · cases h
  · cases h

theorem execWait_next {s t : State} (h : execWait s = .next t) :
    s.isOpen = true ∧ ((∃ v, s.dma = .error v ∧ t = s.raise (.dma v)) ∨
      (s.dma = .idle ∧ t = waitEffect s) ∨
      (s.dma.isActive = true ∧ (t = s.raise .timeout ∨ t = s.hold .wait))) := by
  unfold execWait at h
  split at h
  · refine ⟨‹_›, ?_⟩
    split at h
    · cases h; exact .inl ⟨_, ‹_›, rfl⟩
    · cases h; exact .inr (.inl ⟨‹_›, rfl⟩)
    · rename_i hd
      refine .inr (.inr ⟨by rw [hd]; rfl, ?_⟩)
      split at h
      · cases h; exact .inl rfl
      · cases h; exact .inr rfl
  · cases h

/-! ### The host operations -/

theorem execColor_next {c : Chan} {i : Nat} {v : Word} {s t : State} (h : execColor c i v s = .next t) :
    s.isOpen = true ∧ i < s.count.get c ∧ t = colorEffect c i v s := by
  unfold execColor at h
  split at h
  · split at h
    · cases h; exact ⟨‹_›, ‹_›, rfl⟩
    · cases h
  · cases h

theorem buildOwn_next {s t : State} (h : buildOwn s = .next t) :
    ∃ u, execBuildChain s.pages s.bufBytes s = .next u ∧ (t = u ∨ execFlush .desc u = .next t) := by
  obtain ⟨u, hu, ⟨-, rfl⟩ | ⟨-, h⟩⟩ := andThen_next h
  · exact ⟨t, hu, .inl rfl⟩
  · refine ⟨u, hu, ?_⟩
    split at h
    · cases h; exact .inl rfl
    · exact .inr h

theorem renderFlush_next {s t : State} (h : renderFlush s = .next t) : t = s ∨ ∃ n, execFlush (.range 0 n) s = .next t := by
  unfold renderFlush at h
  split at h <;> split at h
  · cases h; exact .inl rfl
  · exact .inr ⟨_, h⟩
  · cases h; exact .inl rfl
  · exact .inr ⟨_, h⟩

/-- The end of RENDER, and what an error at its end says: a host that was admitted, and no transfer in flight. -/
theorem execRender_next {s t : State} (h : execRender s = .next t) :
    ∃ u, runAll renderSteps s = .next u ∧ t = renderEnd s u ∧
      (u.result.isError = true → s.isOpen = true ∧ u.dma.isActive = false) := by
  unfold execRender at h
  split at h
  · rename_i u hu
    cases h
    refine ⟨u, hu, rfl, fun he => ?_⟩
    have first : ∀ v, execEncode s = .next v → s.isOpen = true ∧ v.dma.isActive = false := by
      intro v hv
      obtain ⟨ho, hd, -, rfl⟩ := execEncode_next hv
      exact ⟨ho, hd⟩
    obtain ⟨v, hv, ⟨-, rfl⟩ | ⟨-, hrest⟩⟩ := andThen_next (k := runAll [renderFlush, execWait, renderBuild, execDmaStart]) hu
    · exact first _ hv
    refine ⟨(first v hv).1, ?_⟩
    have keeps : ∀ f ∈ [renderFlush, execWait, renderBuild], ∀ x y : State, x.dma.isActive = false → f x = .next y →
        y.dma.isActive = false := by
      have build : ∀ x y : State, x.dma.isActive = false → execBuildChain x.pages x.bufBytes x = .next y →
          y.dma.isActive = false := by
        intro x y hx hy
        obtain ⟨-, -, -, hy⟩ := execBuildChain_next hy
        obtain ⟨b, -, rfl⟩ | ⟨i, b, -, rfl⟩ := buildRun_next hy <;> exact hx
      have flush : ∀ (a : FlushArg) (x y : State), x.dma.isActive = false → execFlush a x = .next y → y.dma.isActive = false := by
        intro a x y hx hy
        obtain ⟨-, ⟨lo, hi, -, -, -, rfl⟩ | ⟨-, rfl⟩⟩ := execFlush_next hy <;> exact hx
      intro f hf x y hx hy
      simp only [List.mem_cons, List.not_mem_nil, or_false] at hf
      rcases hf with rfl | rfl | rfl
      · obtain rfl | ⟨n, hn⟩ := renderFlush_next hy
        · exact hx
        · exact flush _ x y hx hn
      · obtain ⟨-, ⟨v, hv, rfl⟩ | ⟨hv, rfl⟩ | ⟨hv, rfl | rfl⟩⟩ := execWait_next hy <;> exact hx
      · unfold renderBuild at hy
        split at hy
        · cases hy; exact hx
        · obtain ⟨w, hw, rfl | h⟩ := buildOwn_next hy
          · exact build x _ hx hw
          · exact flush _ w y (build x w hx hw) h
    obtain ⟨h, -⟩ | ⟨w, -, h⟩ := runAll_snoc [renderFlush, execWait, renderBuild] execDmaStart v u hrest
    · exact runAll_keeps _ keeps v u (first v hv).2 h
    · obtain ⟨-, -, -, -, rfl⟩ := execDmaStart_next h
      cases he
  · cases h
  · cases h

/-- A property that each of RENDER's operations keeps, and the phase put back after an error, is kept by RENDER. -/
theorem execRender_keeps {P : State → Prop} {s t : State} (hs : P s) (h : execRender s = .next t)
    (hencode : ∀ u v, P u → execEncode u = .next v → P v)
    (hflush : ∀ a u v, P u → execFlush a u = .next v → P v)
    (hwait : ∀ u v, P u → execWait u = .next v → P v)
    (hbuild : ∀ u v, P u → execBuildChain u.pages u.bufBytes u = .next v → P v)
    (hstart : ∀ u v, P u → execDmaStart u = .next v → P v)
    (hend : ∀ u, P u → s.isOpen = true → u.dma.isActive = false → P { u with phase := s.phase }) : P t := by
  obtain ⟨w, hw, rfl, he⟩ := execRender_next h
  have key : P w := by
    refine runAll_keeps _ ?_ s w hs hw
    intro f hf u v hu hv
    simp only [renderSteps, List.mem_cons, List.not_mem_nil, or_false] at hf
    rcases hf with rfl | rfl | rfl | rfl | rfl
    · exact hencode u v hu hv
    · obtain rfl | ⟨n, hn⟩ := renderFlush_next hv
      · exact hu
      · exact hflush _ u v hu hn
    · exact hwait u v hu hv
    · unfold renderBuild at hv
      split at hv
      · cases hv; exact hu
      · obtain ⟨w, hw, rfl | h⟩ := buildOwn_next hv
        · exact hbuild u _ hu hw
        · exact hflush _ w v (hbuild u w hu hw) h
    · exact hstart u v hu hv
  unfold renderEnd
  split
  · exact hend w key (he ‹_›).1 (he ‹_›).2
  · exact key

/-- The guards of INITIALIZE and its end. -/
theorem execInit_next {e : InitEnv} {s t : State} (h : execInit e s = .next t) :
    s.phase = .uninitialized ∧ s.inInit = false ∧ sizeRefusal s = none ∧
      ∃ u, runAll (initSteps e) (initStart s) = .next u ∧ t = initEnd u := by
  unfold execInit at h
  split at h
  · rename_i hp
    split at h
    · cases h
    · split at h
      · cases h; exact ⟨hp.1, hp.2, ‹_›, _, ‹_›, rfl⟩
      · cases h
      · cases h
  · cases h

/-- How INITIALIZE ends: rolled back after an error, or `Ready`, or stuck in the clock's busy-wait (R172, R173, R184). -/
theorem initEnd_cases (t : State) : (t.result.isError = true ∧ initEnd t = t.powerOn) ∨
    (t.result.isError = false ∧ ((t.params.clockStarts = true ∧ initEnd t = readyEffect (clockEffect t)) ∨
      (t.params.clockStarts = false ∧ initEnd t = initStuck t))) := by
  unfold initEnd
  cases t.result.isError <;> cases t.params.clockStarts <;> simp

/-- A property that INITIALIZE's own steps and the operations it runs keep, from its start to the step before its end. -/
theorem initSteps_keeps {P : State → Prop} {e : InitEnv} {s t : State} (hs : P s) (h : runAll (initSteps e) s = .next t)
    (hcolours : ∀ u v, P u → initColours e u = .next v → P v) (hsize : ∀ u v, P u → execSize u = .next v → P v)
    (hbuffer : ∀ u v, P u → initBuffer e u = .next v → P v) (hprime : ∀ u v, P u → execPrime u = .next v → P v)
    (hstorage : ∀ u v, P u → initStorage e u = .next v → P v)
    (htranslate : ∀ d u v, P u → execTranslate d u = .next v → P v)
    (hbus : ∀ u a, P u → P (resolveEffect a u)) (hraise : ∀ u k, P u → P (u.raise k))
    (hbuild : ∀ u v, P u → execBuildChain u.pages u.bufBytes u = .next v → P v)
    (hflush : ∀ u v, P u → execFlush .desc u = .next v → P v)
    (hmap : ∀ u, P u → P (mapEffect u))
    (hpins : ∀ u, P u → P (pinsEffect u)) : P t := by
  refine runAll_keeps _ ?_ s t hs h
  intro f hf u v hu hv
  simp only [initSteps, List.mem_cons, List.not_mem_nil, or_false] at hf
  rcases hf with rfl | rfl | rfl | rfl | rfl | rfl | rfl | rfl | rfl
  · exact hcolours u v hu hv
  · exact hsize u v hu hv
  · exact hbuffer u v hu hv
  · exact hprime u v hu hv
  · exact hstorage u v hu hv
  · unfold initResolve at hv
    split at hv
    · obtain ⟨w, hw, ⟨-, rfl⟩ | ⟨-, h⟩⟩ := andThen_next hv
      · exact htranslate _ u _ hu hw
      · have := htranslate _ u w hu hw
        split at h
        · cases h; exact hbus w _ this
        all_goals cases h; exact this
    · cases hv; exact hraise u _ hu
  · unfold initChain at hv
    split at hv
    · obtain ⟨w, hw, rfl | h⟩ := buildOwn_next hv
      · exact hbuild u _ hu hw
      · exact hflush w v (hbuild u w hu hw) h
    · cases hv; exact hu
  · unfold initMap at hv
    split at hv
    · cases hv; exact hmap u hu
    · cases hv; exact hraise u _ hu
  · unfold initPins at hv
    split at hv
    · cases hv; exact hpins u hu
    · cases hv; exact hraise u _ hu

theorem initColours_next {e : InitEnv} {s t : State} (h : initColours e s = .next t) :
    t = coloursEffect s ∨ t = s.raise .allocation := by
  unfold initColours at h
  split at h <;> cases h
  · exact .inl rfl
  · exact .inr rfl

theorem initBuffer_next {e : InitEnv} {s t : State} (h : initBuffer e s = .next t) :
    (∃ va, e.bufAlloc = some va ∧ s.pageCount ≤ s.params.maxPages ∧ t = bufferEffect va s) ∨
      t = s.raise .allocation := by
  unfold initBuffer at h
  split at h
  · split at h <;> cases h
    · exact .inl ⟨_, ‹_›, ‹_›, rfl⟩
    · exact .inr rfl
  · cases h; exact .inr rfl

theorem initStorage_next {e : InitEnv} {s t : State} (h : initStorage e s = .next t) :
    (∃ va n, t = storageEffect va n s) ∨ t = s.raise .allocation := by
  unfold initStorage at h
  split at h <;> cases h
  · exact .inl ⟨_, _, rfl⟩
  · exact .inr rfl

theorem execFinalize_next {s t : State} (h : execFinalize s = .next t) :
    (s.isOpen = true ∧ s.dma.isActive = true ∧ s.timedOut = false ∧ t = s.hold .finalize) ∨
      ((s.isOpen && s.dma.isActive && !s.timedOut) = false ∧
        ((s.pwmOn = true ∧ s.params.clockStops = false ∧ t = finalizeStuck s) ∨ t = finalizeEffect s)) := by
  unfold execFinalize at h
  split at h
  · rename_i hc
    cases h
    simp only [Bool.and_eq_true, Bool.not_eq_true'] at hc
    exact .inl ⟨hc.1.1, hc.1.2, hc.2, rfl⟩
  · rename_i hc
    split at h
    · rename_i hp
      cases h
      simp only [Bool.and_eq_true, Bool.not_eq_true'] at hp
      exact .inr ⟨Bool.eq_false_iff.mpr hc, .inl ⟨hp.1, hp.2, rfl⟩⟩
    · cases h; exact .inr ⟨Bool.eq_false_iff.mpr hc, .inr rfl⟩

/-! ### The DMA reader -/

/-- A clean word that was flushed reads as its last flushed value, whatever is drawn (R61). -/
theorem busRead_of_clean {s : State} {w : Nat} (hd : w ∉ s.dirty) (hf : w ∈ s.flushed) : s.busRead w = s.busbuf.readWord w := by
  simp [State.busRead, State.oldWord, hd, hf]

/-- Every read gives the current value or the one before the host's writes since the last flush (R61). -/
theorem busRead_cases (s : State) (w : Nat) :
    s.busRead w = s.oldWord w ∨ (w ∈ s.dirty ∧ s.busRead w = s.buf.readWord w) := by
  unfold State.busRead
  split
  · exact .inr ⟨(‹_ ∧ _› : _ ∧ _).1, rfl⟩
  · exact .inl rfl

/-- Where descriptor storage stands at its bus address the reader loads the records that were written there (R157, R234). -/
theorem loaded_of_stands {s : State} (h : s.descStands = true) (d : Nat) : s.loaded d = s.desc.readDesc d := if_pos h

theorem loadable_of_stands {s : State} (h : s.descStands = true) (d : Nat) : s.loadable d = true ↔ d ∈ s.descWritten := by
  simp [State.loadable, h]

/-- Where it does not, the reader loads whatever stands there (R234). -/
theorem loaded_of_misled {s : State} (h : s.descStands = false) (d : Nat) :
    s.loaded d = foreignRecord (descAddress (orZero s.descBus) d) := if_neg (by simp [h])

theorem loadable_of_misled {s : State} (h : s.descStands = false) (d : Nat) : s.loadable d = true := by
  simp [State.loadable, h]

theorem execDmaXferWord_next {s t : State} (h : execDmaXferWord s = .next t) :
    ∃ d o, s.dma = .active d o ∧ s.loadable d = true ∧ o < (s.loaded d).len.toNat ∧ t = xferEffect d o s := by
  unfold execDmaXferWord at h
  split at h
  · split at h
    · rename_i hg
      cases h; exact ⟨_, _, ‹_›, hg.1, hg.2, rfl⟩
    · cases h
  · cases h
  · cases h

/-- Where a page of the buffer stands at the record's source, the reader gets that page's word (R52, R156). -/
theorem sourceWord_of_page {s : State} {d q o : Nat} (h : s.pageAt (s.loaded d).src = some q)
    (ho : o < pageSize) (hw : (q * pageSize + o) / 4 < s.bufWords) : s.sourceWord d o = some ((q * pageSize + o) / 4) := by
  simp only [State.sourceWord, h]
  rw [if_pos ⟨ho, hw⟩]

theorem execDmaFollowLink_next {s t : State} (h : execDmaFollowLink s = .next t) :
    ∃ d o i, s.dma = .active d o ∧ s.loadable d = true ∧ (s.loaded d).len.toNat ≤ o ∧
      (s.loaded d).next ≠ 0 ∧ s.linkTarget (s.loaded d).next = some i ∧ t = { s with dma := .active i 0 } := by
  unfold execDmaFollowLink at h
  split at h
  · split at h
    · rename_i hg
      split at h
      · cases h; exact ⟨_, _, _, ‹_›, hg.1, hg.2.1, hg.2.2, ‹_›, rfl⟩
      · cases h
    · cases h
  · cases h
  · cases h

theorem execDmaComplete_next {s t : State} (h : execDmaComplete s = .next t) :
    ∃ d o, s.dma = .active d o ∧ s.loadable d = true ∧ (s.loaded d).len.toNat ≤ o ∧
      (s.loaded d).next = 0 ∧ t = { s with dma := .idle } := by
  unfold execDmaComplete at h
  split at h
  · split at h
    · rename_i hg
      cases h; exact ⟨_, _, ‹_›, hg.1, hg.2.1, hg.2.2, rfl⟩
    · cases h
  · cases h
  · cases h

theorem execDmaError_next {v : Word} {s t : State} (h : execDmaError v s = .next t) :
    s.dma.isActive = true ∧ t = { s with dma := .error v } := by
  unfold execDmaError at h
  split at h
  · cases h; exact ⟨‹_›, rfl⟩
  · cases h

end Sys2Proof.Machine
end

