-- ==== Sys2Proof/Laws/PerInstr.lean ====
section
/-!
SUPPORT. What holds of every operation as syntax, one lemma per constructor. The family EncodeFits: the packet of an operation is a
word of its format's length with no bit above its format's width, or, where the operation has no code, the operation by name
(30_encoding R80, R85, R91, R93, R95, R96, R101).
-/

namespace Sys2Proof.Laws

/-- The bytes a word of a format is stored in. -/
def formatBytes : Format → Nat
  | .cmd | .symbol => 1
  | .color | .ti | .busaddr => 4
  | .desc => 32

/-- The bits above a format's width are 0 in its only byte: a command has four bits (R96), a symbol three (R85). -/
def widthOk : Format → List Byte → Bool
  | .cmd, bs => bs.all (fun b => b.toNat < 16)
  | .symbol, bs => bs.all (fun b => b.toNat < 8)
  | .color, _ | .ti, _ | .busaddr, _ | .desc, _ => true

/-- A packet carries operation `i` in the form its row of the table has. -/
def packetFits (i : Instr) : Packet → Prop
  | .word fmt bytes _ => i.isNamed = false ∧ bytes.length = formatBytes fmt ∧ widthOk fmt bytes = true
  | .named j => i.isNamed = true ∧ j = i

/-- The packet the encoder gives an operation is in the form its row has. -/
def EncodeFits.Statement (i : Instr) : Prop := packetFits i (encode i)

theorem EncodeFits.size : EncodeFits.Statement .size := ⟨rfl, rfl, rfl⟩
theorem EncodeFits.prime : EncodeFits.Statement .prime := ⟨rfl, rfl, rfl⟩
theorem EncodeFits.encode : EncodeFits.Statement .encode := ⟨rfl, rfl, rfl⟩
theorem EncodeFits.translate (va : Nat) : EncodeFits.Statement (.translate va) := ⟨rfl, rfl, rfl⟩
theorem EncodeFits.buildChain (pages : List Nat) (totalBytes : Nat) : EncodeFits.Statement (.buildChain pages totalBytes) := ⟨rfl, rfl, rfl⟩
theorem EncodeFits.flush (arg : FlushArg) : EncodeFits.Statement (.flush arg) := ⟨rfl, rfl, rfl⟩
theorem EncodeFits.dmaStart : EncodeFits.Statement .dmaStart := ⟨rfl, rfl, rfl⟩
theorem EncodeFits.wait : EncodeFits.Statement .wait := ⟨rfl, rfl, rfl⟩
theorem EncodeFits.reserved0 : EncodeFits.Statement .reserved0 := ⟨rfl, rfl, rfl⟩
theorem EncodeFits.reserved9 : EncodeFits.Statement .reserved9 := ⟨rfl, rfl, rfl⟩
theorem EncodeFits.reservedAB (x : BitVec 1) : EncodeFits.Statement (.reservedAB x) := by
  refine ⟨rfl, rfl, ?_⟩
  obtain ⟨x⟩ := x
  fin_cases x <;> rfl
theorem EncodeFits.reservedCF (x : BitVec 2) : EncodeFits.Statement (.reservedCF x) := by
  refine ⟨rfl, rfl, ?_⟩
  obtain ⟨x⟩ := x
  fin_cases x <;> rfl
theorem EncodeFits.init (env : InitEnv) : EncodeFits.Statement (.init env) := ⟨rfl, rfl⟩
theorem EncodeFits.render : EncodeFits.Statement .render := ⟨rfl, rfl⟩
theorem EncodeFits.finalize : EncodeFits.Statement .finalize := ⟨rfl, rfl⟩
theorem EncodeFits.expandLed (v : Word) : EncodeFits.Statement (.expandLed v) := ⟨rfl, rfl⟩
theorem EncodeFits.emitSymbol (c : Chan) (d : Bool) : EncodeFits.Statement (.emitSymbol c d) := ⟨rfl, rfl⟩
theorem EncodeFits.putBit (c : Chan) (x : Bool) : EncodeFits.Statement (.putBit c x) := ⟨rfl, rfl⟩
theorem EncodeFits.emitDesc (i : Nat) : EncodeFits.Statement (.emitDesc i) := ⟨rfl, rfl⟩
theorem EncodeFits.terminate (n : Nat) : EncodeFits.Statement (.terminate n) := ⟨rfl, rfl⟩
theorem EncodeFits.dmaXferWord : EncodeFits.Statement .dmaXferWord := ⟨rfl, rfl⟩
theorem EncodeFits.dmaFollowLink : EncodeFits.Statement .dmaFollowLink := ⟨rfl, rfl⟩
theorem EncodeFits.dmaComplete : EncodeFits.Statement .dmaComplete := ⟨rfl, rfl⟩
theorem EncodeFits.dmaError (v : Word) : EncodeFits.Statement (.dmaError v) := ⟨rfl, rfl⟩
theorem EncodeFits.sym1 (c : Chan) : EncodeFits.Statement (.sym1 c) := ⟨rfl, rfl, rfl⟩
theorem EncodeFits.sym0 (c : Chan) : EncodeFits.Statement (.sym0 c) := ⟨rfl, rfl, rfl⟩
theorem EncodeFits.sym1Inv (c : Chan) : EncodeFits.Statement (.sym1Inv c) := ⟨rfl, rfl, rfl⟩
theorem EncodeFits.sym0Inv (c : Chan) : EncodeFits.Statement (.sym0Inv c) := ⟨rfl, rfl, rfl⟩
theorem EncodeFits.color (c : Chan) (i : Nat) (v : Word) : EncodeFits.Statement (.color c i v) := ⟨rfl, rfl, rfl⟩
theorem EncodeFits.tiWord (i : Nat) : EncodeFits.Statement (.tiWord i) := ⟨rfl, rfl, rfl⟩
theorem EncodeFits.busaddr (f : BitVec 20) (o : BitVec 12) : EncodeFits.Statement (.busaddr f o) := ⟨rfl, rfl, rfl⟩
theorem EncodeFits.desc (i : Nat) (r : Desc) : EncodeFits.Statement (.desc i r) := ⟨rfl, rfl, rfl⟩

end Sys2Proof.Laws
end

