-- ==== Sys2Proof/Tests/Slice0.lean ====
section
/-!
SUPPORT. Small tests whose expected values are the spec's (95_test_vectors, 30_encoding), the refusals of WellFormed, and for every
obligation with hypotheses a state and operands that meet them.
-/

namespace Sys2Proof.Tests

open Sys2Proof Sys2Proof.Machine

-- One theorem after the other: each kernel evaluation would hold a thread of its own.
set_option Elab.async false

/-! ### Helpers -/

/-- The outcome is a next state. -/
def isNext (o : Out) : Bool :=
  match o with
  | .next _ => true
  | .fault _ => false
  | .refused _ => false

theorem exists_of_isNext {o : Out} (h : isNext o = true) : ∃ t, o = .next t := by
  cases o with
  | next t => exact ⟨t, rfl⟩
  | fault f => cases h
  | refused r => cases h

/-- A view of the next state, where there is one. -/
def view {α : Type} (o : Out) (f : State → α) : Option α :=
  match o with
  | .next t => some (f t)
  | .fault _ => none
  | .refused _ => none

theorem exists_of_view {α : Type} {o : Out} {f : State → α} {x : α} (h : view o f = some x) : ∃ t, o = .next t ∧ f t = x := by
  cases o with
  | next t => cases h; exact ⟨t, rfl, rfl⟩
  | fault f => cases h
  | refused r => cases h

/-- The state after, or the state itself where there is none. -/
def after (o : Out) (s : State) : State := (view o id).getD s

/-- The first `n` words of a memory. -/
def wordsOf (n : Nat) (m : Memory) : List Word := (List.range n).map m.readWord

/-- The words of one channel: every second word from its own on. -/
def channelWords (c : Chan) (n : Nat) (m : Memory) : List Word := (List.range n).map (fun j => m.readWord (c.idx + 2 * j))

/-- The parameters at reset, with a clock that settles (log 40). -/
def base : Params := { resetParams with clockStarts := true, clockStops := true }

/-- The handle of P1 before INITIALIZE: one LED on channel 0 at 800 kHz, pin 18. -/
def bare : State := { State.reset with params := base, freq := 800000, pin := ⟨18, 0⟩, count := ⟨1, 0⟩ }

/-- `bare` inside INITIALIZE. -/
def opening : State := { bare with inInit := true }

/-- The allocator and the mapper of P1: the buffer at 0x10000, descriptor storage at 0x20000. -/
def env : InitEnv := ⟨true, some 0x10000, some (0x20000, 16384), true⟩

/-- The chain of P1 in memory. -/
def chain1 : Memory := Memory.writeDesc [] 0 ⟨0x04050148#32, 0x5A2B3000#32, 0x7E20C018#32, 56#32, 0#32⟩

/-- P1 after INITIALIZE, before the caller stores a colour. -/
def ready : State :=
  { bare with
    phase := .ready, col := ⟨[0x000000#32], []⟩, maxLeds := 1, bufBytes := 56, bufVA := some 0x10000, pages := [0x10000]
    dirty := List.range 14, primedInv := ⟨some false, some false⟩, descVA := some 0x20000
    descBus := some 0x5C0DE000#32, descBytes := 16384
    desc := chain1, descWritten := [0], chainHead := some 0x5C0DE000#32, chainValid := true, chainFor := some (800000, 1)
    regsMapped := true, pinsBound := true, pwmOn := true, result := .ok }

/-- `ready` with a colour of the caller's on LED 0. -/
def coloured (v : Word) : State := { ready with col := ⟨[v], []⟩ }

/-- `ready` with every word flushed and a transfer in flight. -/
def sending : State :=
  { ready with phase := .rendering, dma := .active 0 0, dirty := [], flushed := List.range 14 }

/-- `sending` with a page that really stands elsewhere than the oracle answered. -/
def misled : State := { sending with params := { base with frames := [(0x10, 0x77777), (0x20, 0x1C0DE)] } }

/-- `sending` with descriptor storage really standing elsewhere than the oracle answered. -/
def astray : State := { sending with params := { base with frames := [(0x10, 0x1A2B3), (0x20, 0x77777)] } }

/-- `ready` after a transfer that erred. -/
def erred : State := { ready with phase := .rendering, dma := .error 0x00000105#32 }

/-- `ready` before its chain was built, the builder set to its one page. -/
def building : State :=
  { ready with chainValid := false, chainFor := none, chainHead := none, desc := [], descWritten := [],
               bldPages := [0x10000], bldIdx := 0, bldRemaining := 56 }

/-- A handle of two pages (P3), the chain not built. -/
def twoPages : State :=
  { building with count := ⟨300, 300⟩, maxLeds := 300, bufBytes := 5440, pages := [0x10000, 0x11000] }

/-- A handle of two pages the second of which the oracle does not resolve. -/
def badPages : State := { twoPages with bufVA := some 0x12000, pages := [0x12000, 0x13000] }

/-- A handle that was given back. -/
def closed : State := { bare with phase := .finalized }

/-- The host about to issue a command word. -/
def issuing (s : State) (i : Instr) : State := { s with cmds := [.issue (encode i)] }

/-! ### WellFormed refuses -/

theorem test_wf_terminate_none : (Instr.terminate 0).wf = false := by decide
theorem test_wf_len_zero : (Instr.desc 0 ⟨0, 0, 0, 0, 0⟩).wf = false := by decide
theorem test_wf_len_long : (Instr.desc 0 ⟨0, 0, 0, 4100, 0⟩).wf = false := by decide
theorem test_wf_len_odd : (Instr.desc 0 ⟨0, 0, 0, 54, 0⟩).wf = false := by decide

/-! ### Decoding: words written out from 30_encoding R96, R85, R80, R93, R95, R91, R98 -/

/-- Ports of the decoding tests. -/
def ports : Ports := ⟨0x10A04, [0x10000], 56, .range 0 20, .c1, 3⟩

theorem test_dec_size : decode (.word .cmd [0b00000001#8] ports) = .ok .size := rfl
theorem test_dec_prime : decode (.word .cmd [0b00000010#8] ports) = .ok .prime := rfl
theorem test_dec_encode : decode (.word .cmd [0b00000011#8] ports) = .ok .encode := rfl
theorem test_dec_translate : decode (.word .cmd [0b00000100#8] ports) = .ok (.translate 0x10A04) := rfl
theorem test_dec_buildChain : decode (.word .cmd [0b00000101#8] ports) = .ok (.buildChain [0x10000] 56) := rfl
theorem test_dec_flush : decode (.word .cmd [0b00000110#8] ports) = .ok (.flush (.range 0 20)) := rfl
theorem test_dec_flush_desc : decode (.word .cmd [0b00000110#8] { ports with flush := .desc }) = .ok (.flush .desc) := rfl
theorem test_dec_dmaStart : decode (.word .cmd [0b00000111#8] ports) = .ok .dmaStart := rfl
theorem test_dec_wait : decode (.word .cmd [0b00001000#8] ports) = .ok .wait := rfl
theorem test_dec_reserved0 : decode (.word .cmd [0b00000000#8] ports) = .ok .reserved0 := rfl
theorem test_dec_reserved9 : decode (.word .cmd [0b00001001#8] ports) = .ok .reserved9 := rfl
theorem test_dec_reservedAB : decode (.word .cmd [0b00001011#8] ports) = .ok (.reservedAB 1) := rfl
theorem test_dec_reservedCF : decode (.word .cmd [0b00001110#8] ports) = .ok (.reservedCF 2) := rfl
theorem test_dec_cmd_wide : decode (.word .cmd [0b00010001#8] ports) = .error .bitsAboveWidth := rfl
theorem test_dec_sym1 : decode (.word .symbol [0b110#8] ports) = .ok (.sym1 .c1) := rfl
theorem test_dec_sym0 : decode (.word .symbol [0b100#8] ports) = .ok (.sym0 .c1) := rfl
theorem test_dec_sym1Inv : decode (.word .symbol [0b001#8] ports) = .ok (.sym1Inv .c1) := rfl
theorem test_dec_sym0Inv : decode (.word .symbol [0b011#8] ports) = .ok (.sym0Inv .c1) := rfl
theorem test_dec_symbol_none : decode (.word .symbol [0b101#8] ports) = .error .noSuchSymbol := rfl
/-- Red 0x12, green 0x34, blue 0x56: little-endian bytes of 0x00123456 (R80, R53). -/
theorem test_dec_color : decode (.word .color [0x56#8, 0x34#8, 0x12#8, 0x00#8] ports) = .ok (.color .c1 3 0x123456#32) := rfl
/-- NO_WIDE_BURSTS 26, permap 5 in 20:16, DEST_DREQ 6, INTEN/SRC_INC 8, WAIT_RESP 3: 0x04050148 (R93). -/
theorem test_dec_tiWord :
    decode (.word .ti [0b01001000#8, 0b00000001#8, 0b00000101#8, 0b00000100#8] ports) = .ok (.tiWord 3) := rfl
theorem test_dec_ti_other : decode (.word .ti [0#8, 0#8, 0#8, 0#8] ports) = .error .unknownTransferInfo := rfl
/-- Frame 0x1A2B3 in 31:12, offset 0xA04 in 11:0 (R95). -/
theorem test_dec_busaddr : decode (.word .busaddr [0x04#8, 0x3A#8, 0x2B#8, 0x1A#8] ports) = .ok (.busaddr 0x1A2B3#20 0xA04#12) := by
  decide +kernel
/-- The record of P1: info, src, dst, len 56, stride 0, link 0, two reserved words 0 (R91). -/
theorem test_dec_desc :
    decode (.word .desc
      [0x48, 0x01, 0x05, 0x04, 0x00, 0x30, 0x2B, 0x5A, 0x18, 0xC0, 0x20, 0x7E, 56, 0, 0, 0,
       0, 0, 0, 0, 0, 0, 0, 0, 0, 0, 0, 0, 0, 0, 0, 0] ports) =
      .ok (.desc 3 ⟨0x04050148#32, 0x5A2B3000#32, 0x7E20C018#32, 56#32, 0#32⟩) := by
  decide +kernel
/-- A stride that is not 0 (R98). -/
theorem test_dec_desc_stride :
    decode (.word .desc
      [0, 0, 0, 0, 0, 0, 0, 0, 0, 0, 0, 0, 56, 0, 0, 0, 1, 0, 0, 0, 0, 0, 0, 0, 0, 0, 0, 0, 0, 0, 0, 0] ports) =
      .error .reservedFieldSet := by
  decide +kernel
theorem test_dec_named :
    decode (.named .render) = .ok .render ∧ decode (.named .finalize) = .ok .finalize ∧ decode (.named (.init env)) = .ok (.init env) ∧
    decode (.named (.expandLed 7)) = .ok (.expandLed 7) ∧ decode (.named (.emitSymbol .c0 true)) = .ok (.emitSymbol .c0 true) ∧
    decode (.named (.putBit .c1 true)) = .ok (.putBit .c1 true) ∧ decode (.named (.emitDesc 2)) = .ok (.emitDesc 2) ∧
    decode (.named (.terminate 1)) = .ok (.terminate 1) ∧ decode (.named .dmaXferWord) = .ok .dmaXferWord ∧
    decode (.named .dmaFollowLink) = .ok .dmaFollowLink ∧ decode (.named .dmaComplete) = .ok .dmaComplete ∧
    decode (.named (.dmaError 5)) = .ok (.dmaError 5) ∧ decode (.named .size) = .error .hasCode ∧
    decode (.named (.terminate 0)) = .error .illFormed :=
  ⟨rfl, rfl, rfl, rfl, rfl, rfl, rfl, rfl, rfl, rfl, rfl, rfl, rfl, rfl⟩

/-! ### The encoder family: 95_test_vectors 2.1 to 2.6 -/

theorem test_size_114 : view (exec .size { opening with count := ⟨114, 0⟩ }) (fun t => (t.maxLeds, t.bufBytes)) = some (114, 2088) := by
  decide +kernel
theorem test_size_790k : view (exec .size { opening with freq := 790000, count := ⟨3, 0⟩ }) (fun t => t.bufBytes) = some 88 := by
  decide +kernel
theorem test_prime_inverted :
    view (exec .prime { ready with bufBytes := 16, invert := ⟨true, false⟩ }) (fun t => (wordsOf 4 t.buf, t.primedInv.c0)) =
      some ([0xFFFFFFFF#32, 0#32, 0xFFFFFFFF#32, 0#32], some true) := by
  decide +kernel
theorem test_encode_123456 :
    view (exec .encode (coloured 0x123456#32)) (fun t => (channelWords .c0 3 t.buf, t.cursor)) =
      some ([0x9369A492#32, 0x69349A69#32, 0xB4000000#32], ⟨⟨2, 23⟩, ⟨0, 31⟩⟩) := by
  decide +kernel
/-- H-1: the second LED's old symbols stay. -/
theorem test_encode_lowered_count :
    view (exec .encode { coloured 0#32 with
      bufBytes := 72, maxLeds := 2, stale := ⟨2, 0⟩
      buf := (((((Memory.writeWord [] 0 0xDB6DB6DB#32).writeWord 2 0x6DB6DB6D#32).writeWord 4 0xB6DB6DB6#32).writeWord 6
        0xDB6DB6DB#32).writeWord 8 0x6DB60000#32) }) (fun t => (channelWords .c0 6 t.buf, t.frameOk)) =
      some ([0x92492492#32, 0x49249249#32, 0x24DB6DB6#32, 0xDB6DB6DB#32, 0x6DB60000#32, 0#32], false) := by
  decide +kernel
theorem test_expandLed : exec (.expandLed 0x123456#32) ready = .next (ready.finish (.components 0x34#8 0x12#8 0x56#8)) := rfl
theorem test_emitSymbol_inverted :
    view (exec (.emitSymbol .c0 true) { ready with invert := ⟨true, false⟩ }) (fun t => (t.buf.readWord 0, t.cursor.c0)) =
      some (0x20000000#32, ⟨0, 28⟩) := by
  decide +kernel
/-- Assignment, not OR. -/
theorem test_putBit_assigns :
    view (exec (.putBit .c0 false) { ready with buf := Memory.writeWord [] 0 0xFFFFFFFF#32 })
      (fun t => (t.buf.readWord 0, t.cursor.c0)) = some (0x7FFFFFFF#32, ⟨0, 30⟩) := by
  decide +kernel
theorem test_putBit_channel1 :
    view (exec (.putBit .c1 true) { ready with cursor := ⟨⟨0, 31⟩, ⟨3, 5⟩⟩ }) (fun t => (t.buf.readWord 7, t.cursor.c1)) =
      some (0x00000020#32, ⟨3, 4⟩) := by
  decide +kernel
theorem test_sym1 : view (exec (.sym1 .c0) ready) (fun t => t.buf.readWord 0) = some 0xC0000000#32 := by decide +kernel
theorem test_sym0 : view (exec (.sym0 .c0) ready) (fun t => t.buf.readWord 0) = some 0x80000000#32 := by decide +kernel
theorem test_sym1Inv : view (exec (.sym1Inv .c1) ready) (fun t => t.buf.readWord 1) = some 0x20000000#32 := by decide +kernel
theorem test_sym0Inv : view (exec (.sym0Inv .c1) ready) (fun t => t.buf.readWord 1) = some 0x60000000#32 := by decide +kernel
theorem test_color : view (exec (.color .c0 0 0xAB00FF00#32) ready) (fun t => t.col) = some ⟨[0xAB00FF00#32], []⟩ := by decide +kernel

/-! ### The chain family: 95_test_vectors 2.7 -/

theorem test_translate_offset : exec (.translate 0x10A04) opening = .next (opening.finish (.addr 0x5A2B3A04#32)) := by rfl
theorem test_translate_collision : exec (.translate 0x14000) opening = .refused .frameOutOfRange := by rfl
theorem test_busaddr :
    view (exec (.busaddr 0x1A2B3#20 0xA04#12) { ready with params := { base with aliasBit := 0xC0000000#32 } })
      (fun t => t.result) = some (.addr 0xDA2B3A04#32) := by
  decide +kernel
theorem test_buildChain_5440 :
    view (exec (.buildChain [0x10000, 0x11000] 5440) twoPages)
      (fun t => (t.result, (t.desc.readDesc 0).next, (t.desc.readDesc 1).src, (t.desc.readDesc 1).len, (t.desc.readDesc 1).next)) =
      some (.addr 0x5C0DE000#32, 0x5C0DE020#32, 0x4F00D000#32, 1344#32, 0#32) := by
  decide +kernel
theorem test_buildChain_fails :
    view (exec (.buildChain [0x12000, 0x13000] 5440) badPages)
      (fun t => (t.result, t.chainValid, (t.desc.readDesc 0).next, t.descWritten)) =
      some (.error (.translation (some 1)), false, 0x5C0DE020#32, [0]) := by
  decide +kernel
theorem test_emitDesc :
    view (exec (.emitDesc 0) building) (fun t => t.desc.readDesc 0) =
      some ⟨0x04050148#32, 0x5A2B3000#32, 0x7E20C018#32, 56#32, 0x5C0DE020#32⟩ := by
  decide +kernel
theorem test_terminate :
    view (exec (.terminate 1) { building with desc := Memory.writeDesc [] 0 ⟨1, 2, 3, 56, 0x5C0DE020#32⟩ })
      (fun t => t.desc.readDesc 0) = some ⟨1, 2, 3, 56, 0⟩ := by
  decide +kernel
theorem test_tiWord : view (exec (.tiWord 1) building) (fun t => (t.desc.readDesc 1).info) = some 0x04050148#32 := by decide +kernel
theorem test_desc : view (exec (.desc 1 ⟨1, 2, 3, 4, 5⟩) building) (fun t => t.desc.readDesc 1) = some ⟨1, 2, 3, 4, 5⟩ := by
  decide +kernel

/-! ### Synchronisation and the DMA reader: 95_test_vectors 2.8, 2.9 -/

theorem test_flush_16 : view (exec (.flush (.range 0 16)) { ready with dirty := [0, 2, 4] }) (fun t => t.dirty) = some [4] := by
  decide +kernel
theorem test_flush_17_18 : view (exec (.flush (.range 17 18)) { ready with dirty := [4] }) (fun t => t.dirty) = some [] := by
  decide +kernel
theorem test_dmaStart : view (exec .dmaStart ready) (fun t => (t.dma, t.phase)) = some (.active 0 0, .rendering) := by decide +kernel
/-- T8. -/
theorem test_wait_error :
    view (exec .wait erred) (fun t => (t.result, t.phase, t.dma)) =
      some (.error (.dma 0x00000105#32), .rendering, .error 0x00000105#32) := by
  decide +kernel
theorem test_wait_done : view (exec .wait { ready with phase := .rendering }) (fun t => (t.result, t.phase)) = some (.ok, .ready) := by
  decide +kernel
/-- At `Active(1, 8)` the next word read is 1026. -/
theorem test_sourceWord :
    { twoPages with desc := Memory.writeDesc [] 1 ⟨0x04050148#32, 0x4F00D000#32, 0x7E20C018#32, 1344#32, 0#32⟩ }.sourceWord 1 8 =
      some 1026 := by
  decide +kernel
/-- A wrong bus address is silent: where no page of the buffer stands, something else is read (R234). -/
theorem test_sourceWord_wrong :
    { sending with desc := Memory.writeDesc [] 0 ⟨0x04050148#32, 0x4F00D000#32, 0x7E20C018#32, 56#32, 0#32⟩ }.sourceWord 0 8 = none := by
  decide +kernel
/-- A misresolved descriptor address is silent too: the reader loads what stands there (R234). -/
theorem test_loaded_astray : astray.loaded 0 = foreignRecord 0x5C0DE000#32 := if_neg (by decide +kernel)
theorem test_color_outside : exec (.color .c0 1 0#32) ready = .refused (.badPacket .noSuchElement) := rfl
theorem test_xfer : view (exec .dmaXferWord sending) (fun t => (t.fifo, t.dma)) = some ([0#32], .active 0 4) := by decide +kernel
theorem test_followLink :
    view (exec .dmaFollowLink { twoPages with
      dma := .active 0 4096, descWritten := [0, 1]
      desc := Memory.writeDesc [] 0 ⟨0x04050148#32, 0x5A2B3000#32, 0x7E20C018#32, 4096#32, 0x5C0DE020#32⟩ }) (fun t => t.dma) =
      some (.active 1 0) := by
  decide +kernel
theorem test_complete : view (exec .dmaComplete { sending with dma := .active 0 56 }) (fun t => t.dma) = some .idle := by
  decide +kernel
theorem test_dmaError : view (exec (.dmaError 0x105#32) sending) (fun t => t.dma) = some (.error 0x105#32) := by decide +kernel
theorem test_reserved : exec .reserved9 ready = .refused .reservedCommand ∧ exec (.reservedCF 3) closed = .refused .reservedCommand :=
  ⟨rfl, rfl⟩

/-! ### The host operations: programs P1, P4, P5, P6, P7 -/

theorem test_init_P1 :
    view (exec (.init env) bare) (fun t => (t.phase, t.bufBytes, t.desc.readDesc 0, t.chainHead)) =
      some (.ready, 56, ⟨0x04050148#32, 0x5A2B3000#32, 0x7E20C018#32, 56#32, 0#32⟩, some 0x5C0DE000#32) := by
  decide +kernel
/-- A misaligned buffer is BUILD_CHAIN's BadPageList (R141, R206); without that build INITIALIZE ends well. -/
theorem test_init_misaligned :
    exec (.init { env with bufAlloc := some 0x10004 }) bare = .refused .badPageList ∧
    view (exec (.init { env with bufAlloc := some 0x10004 }) { bare with params := { base with buildAtInit := false } })
      (fun t => t.phase) = some .ready :=
  ⟨by rfl, by decide +kernel⟩
/-- P6: pin 5 has no PWM function. -/
theorem test_init_P6 :
    view (exec (.init env) { bare with pin := ⟨5, 0⟩ }) (fun t => (t.phase, t.result, t.bufVA, t.descBus, t.regsMapped)) =
      some (.uninitialized, .error .unsupportedPin, none, none, false) := by
  decide +kernel
/-- P4, the second frame: red. -/
theorem test_render_P4 :
    view (exec .render { coloured 0xFF0000#32 with dirty := [] })
      (fun t => (channelWords .c0 3 t.busbuf, t.dirty, t.dma, t.phase)) =
      some ([0x924924DB#32, 0x6DB69249#32, 0x24000000#32], [], .active 0 0, .rendering) := by
  decide +kernel
/-- P5: TranslationError inside RENDER's rebuild, the phase as it was (D37). -/
theorem test_render_P5 :
    view (exec .render { badPages with count := ⟨1, 0⟩ }) (fun t => (t.result, t.phase, t.dma, t.dirty, t.chainValid)) =
      some (.error (.translation (some 1)), .ready, .idle, [], false) ∧
    view (exec .render { badPages with count := ⟨1, 0⟩, phase := .rendering }) (fun t => t.phase) = some .rendering := by
  decide +kernel
/-- P7: the internal wait's error is swallowed. -/
theorem test_finalize_P7 : view (exec .finalize erred) (fun t => (t.phase, t.result, t.bufBytes)) = some (.finalized, .ok, 0) := by
  decide +kernel

/-! ### Witnesses: for every obligation with hypotheses, a state and operands that meet them, clause by clause -/

theorem ready_memOk : ready.MemOk :=
  ⟨by decide +kernel, by decide +kernel, by decide +kernel, by decide +kernel, by decide +kernel, by decide +kernel⟩

theorem chain1_form : ChainForm base chain1 [0] 0x5C0DE000#32 0x10000 1 56 :=
  ⟨by decide, by decide +kernel, by decide +kernel, by decide +kernel, by decide +kernel, by decide +kernel, by decide +kernel⟩

/-- A state with the handle and chain of P1 has a complete chain. -/
theorem chainOk_of_P1 (s : State) (hf : ChainForm s.params chain1 [0] 0x5C0DE000#32 0x10000 1 56) (hm : 1 ≤ s.params.maxPages)
    (hd : s.desc = chain1) (hw : s.descWritten = [0]) (hb : s.descBus = some 0x5C0DE000#32)
    (hh : s.chainHead = some 0x5C0DE000#32) (hv : s.bufVA = some 0x10000) (hn : s.bufBytes = 56) : s.ChainOk := by
  intro _
  have h1 : s.pageCount = 1 := by rw [State.pageCount, hn]; decide
  refine ⟨0x5C0DE000#32, 0x10000, hb, hh, hv, by decide, by rw [h1]; decide, by omega, by omega, by omega, ?_⟩
  rw [h1, hd, hw, hn]; exact hf

theorem ready_chainInv : ready.ChainInv :=
  ⟨chainOk_of_P1 _ chain1_form (by decide) rfl rfl rfl rfl rfl rfl, ⟨rfl, fun h => by cases h⟩, fun _ _ h => by cases h⟩

/-- `sending` at a byte offset of its one record. -/
theorem sending_chainInv (o : Nat) (h4 : o % 4 = 0) (h : o ≤ 56) : ({ sending with dma := .active 0 o } : State).ChainInv := by
  refine ⟨chainOk_of_P1 _ chain1_form (by decide : 1 ≤ base.maxPages) rfl rfl rfl rfl rfl rfl, ⟨rfl, fun h => by cases h⟩, ?_⟩
  intro d o' hd
  cases hd
  have hl : (sending.desc.readDesc 0).len.toNat = 56 := by decide +kernel
  exact ⟨rfl, rfl, fun _ => ⟨(by decide : 0 < sending.pageCount), h4, Nat.le_trans h (Nat.le_of_eq hl.symm)⟩⟩

theorem sending_frames_chainInv (l : List (Nat × Nat)) : ({ sending with params := { base with frames := l } } : State).ChainInv := by
  refine ⟨chainOk_of_P1 _ ?_ (by decide : 1 ≤ base.maxPages) rfl rfl rfl rfl rfl rfl, ⟨rfl, fun h => by cases h⟩, fun d o hd => ?_⟩
  · exact ⟨chain1_form.nonempty, chain1_form.written, chain1_form.info, chain1_form.src, chain1_form.dst, chain1_form.len, chain1_form.next⟩
  · obtain ⟨h1, h2, -⟩ := (sending_chainInv 0 (by decide) (by decide)).transfer d o hd
    refine ⟨h1, h2, fun _ => ?_⟩
    cases hd
    exact ⟨(by decide : 0 < sending.pageCount), rfl, Nat.zero_le _⟩

theorem sending_visibleInv : sending.VisibleInv := ⟨rfl, fun w hw _ => ⟨(by decide : ∀ w < 14, w ∈ sending.flushed) w hw, rfl⟩⟩

theorem sending_oracleOk (o : Nat) : ({ sending with dma := .active 0 o } : State).OracleOk := by
  refine ⟨fun va hva q hq a ha => ?_, (by decide +kernel : sending.descStands = true)⟩
  cases hva
  have h1 : sending.pageCount = 1 := by decide
  have hq : q < sending.pageCount := hq
  obtain rfl : q = 0 := by omega
  have h2 : translateVA base 0x10000 = .ok 0x5A2B3000#32 := by decide
  have h3 : Translation.ok 0x5A2B3000#32 = .ok a := h2.symm.trans ha
  cases h3
  show sending.pageAt 0x5A2B3000#32 = some 0
  decide +kernel

theorem ready_dirtyInv : ready.DirtyInv := ⟨by decide, rfl, by decide, by decide⟩

theorem ready_paddingOk : ready.PaddingOk := by
  intro c b h n _ _
  have hb : b = false := by cases c <;> cases h <;> rfl
  subst hb
  show (wordOfBytes 0 0 0 0).getLsbD _ = false
  rw [show wordOfBytes 0 0 0 0 = 0#32 by decide]
  simp

theorem issuing_hostOnly (s : State) (i : Instr) (hw : i.isHostOp = true) (hd : decode (encode i) = .ok i) :
    (issuing s i).HostOnly := by
  intro p j hp hj
  have : p = encode i := by simpa [issuing] using hp
  rw [this, hd] at hj
  cases hj
  exact hw

/-- A chain of two records in memory (P3). -/
def chain2 : Memory :=
  (Memory.writeDesc [] 0 ⟨0x04050148#32, 0x5A2B3000#32, 0x7E20C018#32, 4096#32, 0x5C0DE020#32⟩).writeDesc 1
    ⟨0x04050148#32, 0x4F00D000#32, 0x7E20C018#32, 1344#32, 0#32⟩

/-- P3 with its chain, at the end of the first record. -/
def atLink : State :=
  { twoPages with
    desc := chain2, descWritten := [0, 1], chainHead := some 0x5C0DE000#32, chainValid := true, chainFor := some (800000, 300)
    phase := .rendering, dma := .active 0 4096 }

theorem atLink_chainInv : atLink.ChainInv := by
  have hn : atLink.pageCount = 2 := by decide
  refine ⟨fun _ => ⟨0x5C0DE000#32, 0x10000, rfl, rfl, rfl, by decide, by rw [hn]; decide, by decide, by decide, by rw [hn]; decide, ?_⟩,
    ⟨rfl, fun h => by cases h⟩, ?_⟩
  · rw [hn]
    exact ⟨by decide, by decide +kernel, by decide +kernel, by decide +kernel, by decide +kernel, by decide +kernel, by decide +kernel⟩
  · intro d o hd
    cases hd
    exact ⟨rfl, rfl, fun _ => ⟨by decide, by decide, by decide +kernel⟩⟩

theorem witness_StepKeepsParameters : ∃ t, step (issuing ready .encode) = .next t := exists_of_isNext (by decide +kernel)

theorem witness_StepKeepsCanonicalMemory : (issuing ready .encode).MemOk ∧ ∃ t, step (issuing ready .encode) = .next t :=
  ⟨⟨ready_memOk.buf, ready_memOk.busbuf, ready_memOk.desc, ready_memOk.dirty, ready_memOk.flushed, ready_memOk.descWritten⟩,
    exists_of_isNext (by decide +kernel)⟩

theorem witness_StepKeepsChainAndTransfer :
    (atLink.ChainInv ∧ ∃ t, step { atLink with turn := .agent } = .next t) ∧ ready.ChainInv ∧ ∃ t, step ready = .next t :=
  ⟨⟨atLink_chainInv, exists_of_isNext (by decide +kernel)⟩, ready_chainInv, ⟨_, rfl⟩⟩

theorem witness_StepKeepsDirtyInside :
    ((issuing ready .encode).DirtyInv ∧ ∃ t, step (issuing ready .encode) = .next t) ∧
    sending.VisibleInv ∧ ∃ t, step { sending with turn := .agent } = .next t :=
  ⟨⟨⟨by decide, rfl, by decide, by decide⟩, exists_of_isNext (by decide +kernel)⟩, sending_visibleInv, exists_of_isNext (by decide +kernel)⟩

theorem witness_StepKeepsPadding : (issuing ready .encode).PaddingInv ∧ ∃ t, step (issuing ready .encode) = .next t :=
  ⟨⟨ready_paddingOk, rfl, issuing_hostOnly _ _ rfl rfl⟩, exists_of_isNext (by decide +kernel)⟩

theorem witness_FinalizedIsTerminal :
    ((issuing closed .finalize).phase = .finalized ∧ ∃ t, step (issuing closed .finalize) = .next t) ∧
    closed.phase = .finalized ∧ closed.inInit = false ∧ closed.dma.isActive = false ∧ Instr.expandLed 7 ≠ .finalize :=
  ⟨⟨rfl, exists_of_isNext (by decide +kernel)⟩, rfl, rfl, rfl, by decide⟩

theorem witness_DmaErrorIsSticky :
    erred.isOpen = true ∧ erred.dma = .error 0x105#32 ∧ Instr.wait ≠ .finalize ∧ ∃ t, exec .wait erred = .next t :=
  ⟨rfl, rfl, by decide, exists_of_isNext (by decide +kernel)⟩

theorem witness_StepRunsDecoded :
    ((issuing ready .encode).turn = .host ∧ (issuing ready .encode).blocked = none ∧
      (issuing ready .encode).cmds = .issue (encode .encode) :: [] ∧ decode (encode .encode) = .ok .encode ∧ Instr.encode.wf = true) ∧
    decodeTableWord 8 0b0011 = some .encode :=
  ⟨⟨rfl, rfl, rfl, rfl, rfl⟩, rfl⟩

theorem witness_RefusalChangesNothing :
    ((issuing closed .encode).turn = .host ∧ (issuing closed .encode).blocked = none ∧
      (issuing closed .encode).cmds = .issue (encode .encode) :: [] ∧ decode (encode .encode) = .ok .encode ∧
      exec .encode { issuing closed .encode with cmds := [] } = .refused .wrongPhase) ∧
    decode (.word .cmd [0b00010000#8] Ports.zero) = .error .bitsAboveWidth :=
  ⟨⟨rfl, rfl, rfl, rfl, rfl⟩, rfl⟩

theorem witness_CallerStores :
    ready.turn = .host ∧ ready.blocked = none ∧ ready.phase ≠ .finalized ∧
    (closed.turn = .host ∧ closed.blocked = none ∧ closed.phase = .finalized ∧
      ({ closed with cmds := [.store (.freq 400000)] } : State).cmds = .store (.freq 400000) :: []) ∧
    ({ ready with cmds := [.store (.freq 400000)] } : State).cmds = .store (.freq 400000) :: [] ∧
    ({ ready with cmds := [.store (.dmaIdx 5)] } : State).cmds = .store (.dmaIdx 5) :: [] ∧
    ({ ready with cmds := [.store (.pin .c1 13)] } : State).cmds = .store (.pin .c1 13) :: [] ∧
    ({ ready with cmds := [.store (.invert .c0 true)] } : State).cmds = .store (.invert .c0 true) :: [] ∧
    ({ ready with cmds := [.store (.count .c1 2)] } : State).cmds = .store (.count .c1 2) :: [] :=
  ⟨rfl, rfl, by decide, ⟨rfl, rfl, rfl, rfl⟩, rfl, rfl, rfl, rfl, rfl⟩

theorem witness_StepRunsReader :
    (({ sending with turn := .agent } : State).turn = .agent ∧
      ({ sending with turn := .agent } : State).readerStep = some .dmaXferWord ∧
      ∃ t, exec .dmaXferWord { sending with turn := .agent } = .next t) ∧
    (({ sending with turn := .agentError 5 } : State).turn = .agentError 5 ∧
      ({ sending with turn := .agentError 5 } : State).dma.isActive = true) ∧
    ready.readerStep = none :=
  ⟨⟨rfl, by decide +kernel, exists_of_isNext (by decide +kernel)⟩, ⟨rfl, rfl⟩, rfl⟩

theorem witness_DecodeEncode :
    (Instr.desc 3 ⟨0, 0, 0, 4096, 0⟩).wf = true ∧ (Instr.init env).wf = true ∧ (Instr.terminate 1).wf = true := by decide

theorem witness_DecodeIsWellFormed : decode (encode (.desc 3 ⟨0, 0, 0, 4, 0⟩)) = .ok (.desc 3 ⟨0, 0, 0, 4, 0⟩) := by
  decide +kernel

theorem witness_WrongPhaseRefused :
    (bare.phase = .uninitialized ∧ bare.inInit = false ∧ bare.dma.isActive = false ∧ Instr.wait ≠ .finalize ∧
      ∀ e, Instr.wait ≠ .init e) ∧
    ready.phase ≠ .uninitialized ∧ ready.inInit = false ∧ closed.isOpen = false ∧ closed.inInit = false ∧
    erred.phase = .rendering ∧ erred.inInit = false ∧ erred.dma.isActive = false :=
  ⟨⟨rfl, rfl, rfl, by decide, fun _ h => by cases h⟩, by decide⟩

theorem witness_SizeComputesBuffer :
    (({ opening with freq := 0 } : State).inInit = true ∧ ({ opening with freq := 0 } : State).freq = 0) ∧
    (opening.freq ≠ 0 ∧ opening.params.maxLedsCap < ({ opening with count := ⟨0, 65537⟩ } : State).count.c1) ∧
    (({ opening with count := ⟨65536, 0⟩ } : State).freq ≠ 0 ∧
      ({ opening with count := ⟨65536, 0⟩ } : State).count.c0 ≤ opening.params.maxLedsCap ∧
      ({ opening with count := ⟨65536, 0⟩ } : State).count.c1 ≤ opening.params.maxLedsCap) := by decide

theorem witness_SizeHoldsFrameAndReset :
    paramsOk base = true ∧ paramsOk { base with sizes := [((1, 800000), 64)] } = true := by decide

theorem witness_PrimeFillsIdle :
    (ready.phase = .ready ∧ ready.dma.isActive = false) ∧ (opening.inInit = true ∧ opening.dma.isActive = false) ∧
    (sending.isOpen = true ∧ sending.dma.isActive = true) ∧
    (({ opening with dma := .active 0 0 } : State).inInit = true ∧ ({ opening with dma := .active 0 0 } : State).dma.isActive = true) := by
  decide

theorem witness_EncodeStoresStream : ready.isOpen = true ∧ ready.dma.isActive = false ∧ ready.encodeFits = true ∧
    71 < 72 * ready.count.get .c0 ∧ 72 * ready.count.get (Chan.ofWord 4) ≤ 32 * (4 / 2) + (31 - 23) ∧
    72 * ready.count.get (Chan.ofWord (24 / 4)) ≤ 32 * (24 / 4 / 2) := by decide

theorem witness_EncodeCursorEnd : ∃ t, exec .encode ready = .next t := exists_of_isNext (by decide +kernel)

theorem witness_EncodeGhostUpdates :
    (∃ t, exec .encode ready = .next t) ∧ 32 * (4 / 2) < 72 * ready.count.get (Chan.ofWord 4) :=
  ⟨exists_of_isNext (by decide +kernel), by decide⟩

theorem witness_EncodeStops :
    (sending.isOpen = true ∧ sending.dma.isActive = true) ∧
    (({ ready with count := ⟨2, 0⟩ } : State).isOpen = true ∧ ({ ready with count := ⟨2, 0⟩ } : State).dma.isActive = false ∧
      ({ ready with count := ⟨2, 0⟩ } : State).maxLeds < ({ ready with count := ⟨2, 0⟩ } : State).count.c0) := by decide

theorem witness_EncodedFrameDecodes : (∃ t, exec .encode (coloured 0x123456#32) = .next t) ∧ 23 < 24 * (coloured 0x123456#32).count.get .c0 :=
  ⟨exists_of_isNext (by decide +kernel), by decide⟩

theorem witness_InversionComplements :
    (∃ s1, exec .prime ready = .next s1) ∧ (∃ s2, exec .encode (after (exec .prime ready) ready) = .next s2) ∧
    (∃ u1, exec .prime { ready with invert := ready.invert.set .c0 (!ready.invert.get .c0) } = .next u1) ∧
    (∃ u2, exec .encode (after (exec .prime { ready with invert := ready.invert.set .c0 (!ready.invert.get .c0) }) ready) = .next u2) ∧
    13 < ready.bufWords :=
  ⟨exists_of_isNext (by decide +kernel), exists_of_isNext (by decide +kernel), exists_of_isNext (by decide +kernel),
    exists_of_isNext (by decide +kernel), by decide⟩

theorem witness_FrameOkGivesWire :
    ready.PaddingOk ∧ ready.bufBytes % 8 = 0 ∧ ∃ t, exec .encode ready = .next t ∧ t.frameOk = true :=
  ⟨ready_paddingOk, by decide, exists_of_view (f := fun t => t.frameOk) (by decide +kernel)⟩

theorem witness_SymbolsAreStored :
    ready.isOpen = true ∧ ready.dma.isActive = false ∧
    Chan.c1.idx + 2 * (((({ ready with cursor := ⟨⟨0, 31⟩, ⟨6, 2⟩⟩ } : State).cursor.get .c1).streamBit + 2) / 32) < ready.bufWords := by
  decide

theorem witness_PutBitAssigns :
    (sending.isOpen = true ∧ sending.dma.isActive = true) ∧
    (ready.isOpen = true ∧ ready.dma.isActive = false ∧
      ready.bufWords ≤ Chan.c0.idx + 2 * (({ ready with cursor := ⟨⟨7, 31⟩, ⟨0, 31⟩⟩ } : State).cursor.get .c0).j) ∧
    Chan.c1.idx + 2 * (({ ready with cursor := ⟨⟨0, 31⟩, ⟨6, 0⟩⟩ } : State).cursor.get .c1).j < ready.bufWords := by decide

theorem witness_ColourStore :
    ready.isOpen = true ∧ ready.count.get .c0 ≤ 1 ∧ 0 < ready.count.get .c0 ∧
    (sending.isOpen = true ∧ 0 < sending.count.get .c0 ∧ sending.count.get .c1 ≤ 0) := by decide

theorem witness_TranslateFormula :
    opening.inInit = true ∧ lookupFrame opening.params.pfn (0x13000 / 4096) = none ∧
    (lookupFrame opening.params.pfn (0x15000 / 4096) = some (2 ^ 20)) ∧
    (lookupFrame opening.params.pfn (0x14000 / 4096) = some 0x40000 ∧
      (BitVec.ofNat 32 0x40000 <<< 12) &&& opening.params.aliasBit ≠ 0) ∧
    (lookupFrame opening.params.pfn (0x10A04 / 4096) = some 0x1A2B3 ∧ 0x1A2B3 < 2 ^ 20 ∧
      (BitVec.ofNat 32 0x1A2B3 <<< 12) &&& opening.params.aliasBit = 0) := by decide

theorem witness_BusAddressFields : opening.inInit = true ∧ ready.isOpen = true ∧ ready.params.aliasBit &&& 0xFFF#32 = 0 := by decide

theorem witness_ExpandLedComponents : ready.isOpen = true ∧ sending.isOpen = true := by decide

theorem test_finalized_refuses : exec (.expandLed 7) closed = .refused .wrongPhase ∧ exec (.busaddr 1 2) closed = .refused .wrongPhase :=
  ⟨rfl, rfl⟩
theorem test_uninitialized_refuses : exec (.expandLed 7) bare = .refused .wrongPhase ∧ exec (.busaddr 1 2) bare = .refused .wrongPhase :=
  ⟨rfl, rfl⟩

theorem witness_BuildChainClosedForm :
    building.phase = .ready ∧ building.dma.isActive = false ∧ buildRefusal [0x10000] 56 building = none ∧
    building.descBus = some 0x5C0DE000#32 ∧
    ∀ i < cdiv 56 pageSize, translateVA building.params ([0x10000].getD i 0) = .ok 0x5A2B3000#32 := by decide

theorem witness_BuiltChainSumsAndLinks :
    (∃ t, exec (.buildChain [0x10000, 0x11000] 5440) twoPages = .next t ∧ t.result.isError = false) ∧
    (0 < cdiv 5440 pageSize ∧ 0 + 1 < cdiv 5440 pageSize) :=
  ⟨exists_of_view (f := fun t => t.result.isError) (by decide +kernel), by decide⟩

theorem witness_BuildChainPreconditions :
    (sending.isOpen = true ∧ sending.dma.isActive = true) ∧ building.phase = .ready ∧
    (building.dma.isActive = false ∧ pagesOk building.params.maxPages building.bufVA [0x10004] = false) ∧
    (pagesOk building.params.maxPages building.bufVA [0x10000] = true ∧ 54 % 4 ≠ 0) ∧
    (twoPages.bufBytes = 5440 ∧ [0x10000].length * pageSize < 5440 ∧
      pagesOk twoPages.params.maxPages twoPages.bufVA [0x10000] = true) ∧
    (56 ≤ [0x10000].length * pageSize ∧ storageOk (some 0x5C0DE010#32) building.descBytes [0x10000].length = false) := by decide

theorem witness_BuildChainFailure :
    badPages.phase = .ready ∧ badPages.dma.isActive = false ∧ buildRefusal badPages.pages 5440 badPages = none ∧
    badPages.descBus = some 0x5C0DE000#32 ∧ 1 < cdiv 5440 pageSize ∧
    (∀ i < 1, translateVA badPages.params (badPages.pages.getD i 0) = .ok 0x40777000#32) ∧
    translateVA badPages.params (badPages.pages.getD 1 0) = .error := by decide

theorem witness_EmitDescWritesRecord :
    building.phase = .ready ∧ building.dma.isActive = false ∧ building.chainValid = false ∧ 0 < building.params.maxPages ∧
    building.descBus = some 0x5C0DE000#32 ∧ storageOk building.descBus building.descBytes 1 = true ∧
    0 < building.bldPages.length ∧ building.bldRemaining ≠ 0 ∧
    translateVA building.params (building.bldPages.getD 0 0) = .ok 0x5A2B3000#32 := by decide

theorem witness_TerminateZeroesLink :
    building.phase = .ready ∧ building.dma.isActive = false ∧ building.chainValid = false ∧ 1 ≤ 512 ∧ 512 ≤ building.params.maxPages ∧
    storageOk building.descBus building.descBytes 512 = true := by decide

theorem witness_RecordStores :
    building.phase = .ready ∧ building.dma.isActive = false ∧ building.chainValid = false ∧ 511 < building.params.maxPages ∧
    storageOk building.descBus building.descBytes (511 + 1) = true := by decide

theorem witness_FlushCoversRange :
    ready.isOpen = true ∧ ¬ (24 ≤ 20 ∧ 20 ≤ ready.bufBytes) ∧ ¬ (0 ≤ 60 ∧ 60 ≤ ready.bufBytes) ∧ (0 ≤ 56 ∧ 56 ≤ ready.bufBytes) ∧
    (4 * 4 < 18 ∧ 17 < 4 * 4 + 4) ∧ ¬ (4 * (12 / 4) < 8 ∧ 8 < 4 * (12 / 4) + 4) := by decide

theorem witness_ReaderSeesFlushedWords :
    13 ∈ sending.flushed ∧ (∃ t, exec (.flush (.range 17 18)) ready = .next t) ∧ 4 * 4 < 18 ∧ 17 < 4 * 4 + 4 :=
  ⟨by decide, exists_of_isNext (by decide +kernel), by decide, by decide⟩

theorem witness_DmaStartStarts :
    (sending.isOpen = true ∧ sending.dma.isActive = true) ∧ (erred.isOpen = true ∧ erred.dma = .error 0x105#32) ∧
    (building.dma = .idle ∧ ¬ (building.chainValid = true ∧ building.chainFor = some (building.freq, building.maxLeds))) ∧
    (ready.isOpen = true ∧ ready.dma = .idle ∧ ready.chainValid = true ∧ ready.chainFor = some (ready.freq, ready.maxLeds) ∧
      ready.descDirty = false ∧ ({ ready with descDirty := true } : State).descDirty = true) := by decide

theorem witness_WaitPolls :
    (ready.isOpen = true ∧ ready.dma = .idle) ∧ (erred.isOpen = true ∧ erred.dma = .error 0x105#32) ∧
    (sending.isOpen = true ∧ sending.dma.isActive = true ∧ sending.params.waitTimeout = none) ∧
    ({ sending with params := { base with waitTimeout := some 1 } } : State).params.waitTimeout = some 1 := by decide

theorem witness_WaitHoldsHost :
    sending.isOpen = true ∧ sending.dma.isActive = true ∧ sending.params.waitTimeout = none ∧ sending.turn = .host ∧
    ({ sending with blocked := some .wait } : State).blocked = some .wait ∧
    ({ sending with blocked := some .finalize } : State).blocked = some .finalize ∧
    (bare.turn = .host ∧ ({ bare with blocked := some .clock } : State).blocked = some .clock) := by decide

/-- P1 with other parameters for the clock or for when the chain is built. -/
theorem bare_allocates (p : Params) (hs : p.sizes = []) (hr : p.resetUs = 55) (hm : p.maxPages = 512) (hl : p.maxLedsCap = 65536)
    (ho : p.pfn = base.pfn) (ha : p.aliasBit = base.aliasBit) : InitAllocates env { bare with params := p } 56 0x10000 16384 0x5C0DE000#32 where
  phase := rfl
  quiet := rfl
  inFlight := rfl
  sizes := by simp [sizeRefusal, bare, hl]
  bytes := by
    simp only [pwmByteCount, sizeR113, resetBits, hs, hr]
    decide
  colours := rfl
  buffer := rfl
  pages := by rw [hm]; decide
  storage := ⟨0x20000, rfl, by simp only [translateVA, translateBy, ho, ha]; decide⟩

theorem env_buildOk : OwnBuildOk 56 0x10000 16384 0x5C0DE000#32 := ⟨by decide, by decide, by decide, by decide⟩

theorem bare_translates : ∀ q < cdiv 56 pageSize, ∃ a, translateVA base (0x10000 + q * pageSize) = .ok a := by
  intro q hq
  have h1 : cdiv 56 pageSize = 1 := by decide
  obtain rfl : q = 0 := by omega
  exact ⟨0x5A2B3000#32, by decide⟩

/-- Both values of `BUILD_AT_INIT`, the second with a page that does not translate (P5), and both of the clock. -/
theorem witness_InitializeReachesReady :
    (InitAllocates env bare 56 0x10000 16384 0x5C0DE000#32 ∧ bare.descDirty = false ∧
      bare.params.buildAtInit = true ∧ OwnBuildOk 56 0x10000 16384 0x5C0DE000#32 ∧
      (∀ q < cdiv 56 pageSize, ∃ a, translateVA bare.params (0x10000 + q * pageSize) = .ok a) ∧
      env.mapOk = true ∧ bare.pinOk .c0 = true ∧ bare.pinOk .c1 = true ∧ bare.params.clockStarts = true) ∧
    (InitAllocates env { bare with params := { base with buildAtInit := false } } 56 0x10000 16384 0x5C0DE000#32 ∧
      ({ base with buildAtInit := false } : Params).buildAtInit = false) ∧
    (InitAllocates env { bare with params := { base with clockStarts := false } } 56 0x10000 16384 0x5C0DE000#32 ∧
      ({ base with clockStarts := false } : Params).clockStarts = false) :=
  ⟨⟨bare_allocates base rfl rfl rfl rfl rfl rfl, rfl, rfl, env_buildOk, bare_translates, rfl, by decide, by decide, rfl⟩,
    ⟨bare_allocates _ rfl rfl rfl rfl rfl rfl, rfl⟩, ⟨bare_allocates _ rfl rfl rfl rfl rfl rfl, rfl⟩⟩

theorem witness_InitializeRollsBack :
    ∃ t, exec (.init env) { bare with pin := ⟨5, 0⟩ } = .next t ∧ t.result = .error .unsupportedPin :=
  exists_of_view (f := fun t => t.result) (by decide +kernel)

/-- P5's buffer: the oracle resolves its first page and not its second. -/
def env5 : InitEnv := { env with bufAlloc := some 0x12000 }

theorem twoPages_allocates : InitAllocates env5 { bare with count := ⟨300, 300⟩ } 5440 0x12000 16384 0x5C0DE000#32 where
  phase := rfl
  quiet := rfl
  inFlight := rfl
  sizes := by decide
  bytes := by decide
  colours := rfl
  buffer := rfl
  pages := by decide
  storage := ⟨0x20000, rfl, by decide⟩

theorem witness_InitializeReportsFirstError :
    (bare.phase = .uninitialized ∧ bare.inInit = false ∧ sizeRefusal bare = none) ∧
    ({ env with colOk := false } : InitEnv).colOk = false ∧ ({ env with bufAlloc := none } : InitEnv).bufAlloc = none ∧
    ({ base with maxPages := 0 } : Params).maxPages <
      cdiv (pwmByteCount bare.params (max bare.count.c0 bare.count.c1) bare.freq) pageSize ∧
    (env.colOk = true ∧ env.bufAlloc = some 0x10000 ∧ bare.dma.isActive = false ∧
      cdiv (pwmByteCount bare.params (max bare.count.c0 bare.count.c1) bare.freq) pageSize ≤ bare.params.maxPages) ∧
    ({ env with descAlloc := none } : InitEnv).descAlloc = none ∧ translateVA bare.params 0x13000 = .error ∧
    (InitAllocates env5 { bare with count := ⟨300, 300⟩ } 5440 0x12000 16384 0x5C0DE000#32 ∧ 1 < cdiv 5440 pageSize ∧
      bare.params.buildAtInit = true ∧ OwnBuildOk 5440 0x12000 16384 0x5C0DE000#32 ∧
      (∀ q < 1, ∃ a, translateVA bare.params (0x12000 + q * pageSize) = .ok a) ∧
      translateVA bare.params (0x12000 + 1 * pageSize) = .error) ∧
    (InitAllocates env bare 56 0x10000 16384 0x5C0DE000#32 ∧ OwnBuildOk 56 0x10000 16384 0x5C0DE000#32 ∧
      (∀ q < cdiv 56 pageSize, ∃ a, translateVA bare.params (0x10000 + q * pageSize) = .ok a) ∧
      ({ env with mapOk := false } : InitEnv).mapOk = false ∧ env.mapOk = true ∧
      (({ bare with pin := ⟨18, 5⟩ } : State).pinOk .c0 && ({ bare with pin := ⟨18, 5⟩ } : State).pinOk .c1) = false) := by
  refine ⟨by decide, rfl, rfl, by decide, by decide, rfl, by decide,
    ⟨twoPages_allocates, by decide, rfl, ⟨by decide, by decide, by decide, by decide⟩, ?_, by decide⟩,
    ⟨bare_allocates base rfl rfl rfl rfl rfl rfl, env_buildOk, bare_translates, rfl, rfl, by decide⟩⟩
  intro q hq
  obtain rfl : q = 0 := by omega
  exact ⟨0x40777000#32, by decide⟩

theorem witness_RenderStartsFrame :
    ready.isOpen = true ∧ ready.dma = .idle ∧ ready.encodeFits = true ∧ ready.DirtyInv ∧ ready.params.renderFlush = .dirty ∧
    ready.chainCurrent = true ∧ ready.descDirty = false ∧ 71 < 72 * ready.count.get .c0 ∧ 13 ∈ ready.dirty ∧ 12 ≤ 13 ∧
    ∀ w', (w' ∈ ready.dirty ∨ 32 * (w' / 2) < 72 * ready.count.get (Chan.ofWord w')) → w' < 56 / 4 := by
  refine ⟨rfl, rfl, by decide, ready_dirtyInv, rfl, by decide, rfl, by decide, by decide, by decide, ?_⟩
  rintro w (h | h)
  · exact (by decide : ∀ w ∈ ready.dirty, w < 14) w h
  · have : ready.count.get (Chan.ofWord w) ≤ 1 := by cases Chan.ofWord w <;> decide
    omega

theorem witness_RenderAgainstTransfer :
    (sending.isOpen = true ∧ sending.dma.isActive = true) ∧
    (erred.isOpen = true ∧ erred.dma = .error 0x105#32 ∧ erred.encodeFits = true ∧ erred.DirtyInv ∧ erred.params.renderFlush = .dirty) :=
  ⟨by decide, rfl, rfl, by decide, ⟨by decide, rfl, by decide, by decide⟩, rfl⟩

theorem witness_RenderBuildFailure :
    badPages.isOpen = true ∧ badPages.dma = .idle ∧ badPages.encodeFits = true ∧ badPages.DirtyInv ∧ badPages.params.renderFlush = .dirty ∧
    badPages.chainCurrent = false ∧ buildRefusal badPages.pages badPages.bufBytes badPages = none ∧
    1 < cdiv badPages.bufBytes pageSize ∧ (∀ i < 1, translateVA badPages.params (badPages.pages.getD i 0) = .ok 0x40777000#32) ∧
    translateVA badPages.params (badPages.pages.getD 1 0) = .error :=
  ⟨by decide, rfl, by decide, ⟨by decide, rfl, by decide, by decide⟩, rfl, by decide, by decide, by decide, by decide, by decide⟩

/-- `building` after the ENCODE and the flush of a RENDER. -/
def flushedFrame : State :=
  after (exec (.flush (.range 0 56)) (after (exec .encode building) building)) building

theorem witness_RenderFlushesAndRebuilds :
    (ready.isOpen = true ∧ ready.dma = .idle ∧ ready.encodeFits = true ∧ ready.DirtyInv ∧ ready.params.renderFlush = .dirty ∧
      ready.chainCurrent = true) ∧
    (({ ready with params := { base with renderFlush := .encoded } } : State).DirtyInv ∧ ready.encodedEnd ≠ 0) ∧
    (building.isOpen = true ∧ building.dma = .idle ∧ building.encodeFits = true ∧ building.DirtyInv ∧ building.chainCurrent = false ∧
      (after (exec .encode building) building).dirtyEnd = 56 ∧
      ∃ g, exec (.buildChain flushedFrame.pages flushedFrame.bufBytes) { flushedFrame.finish .ok with phase := .ready } = .next g ∧
        g.result.isError = false) ∧
    ({ building with params := { base with descUncached := false } } : State).DirtyInv := by
  refine ⟨⟨rfl, rfl, by decide, ready_dirtyInv, rfl, by decide⟩, ⟨⟨by decide, rfl, by decide, by decide⟩, by decide⟩,
    ⟨rfl, rfl, by decide, ⟨by decide, rfl, by decide, by decide⟩, by decide, by decide +kernel, ?_⟩,
    ⟨by decide, rfl, by decide, by decide⟩⟩
  exact exists_of_view (f := fun t => t.result.isError) (by decide +kernel)

theorem witness_FinalizeReleases :
    (sending.isOpen = true ∧ sending.dma.isActive = true ∧ sending.params.waitTimeout = none) ∧
    (ready.params.clockStops = true ∧ ready.dma = .idle) ∧ (closed.pwmOn = false ∧ closed.isOpen = false) ∧
    (erred.params.clockStops = true ∧ erred.isOpen = true ∧ erred.dma = .error 0x105#32) ∧
    (({ sending with params := { base with waitTimeout := some 1 } } : State).params.waitTimeout = some 1) ∧
    (ready.pwmOn = true ∧ erred.pwmOn = true ∧ ({ base with clockStops := false } : Params).clockStops = false) := by
  decide

theorem witness_ReaderTransfersWord :
    (({ sending with dma := .active 0 52 } : State).ChainInv ∧ ({ sending with dma := .active 0 52 } : State).OracleOk ∧
      52 < (sending.desc.readDesc 0).len.toNat) ∧
    (misled.ChainInv ∧ misled.dma = .active 0 0 ∧ misled.descStands = true ∧ 0 < (misled.desc.readDesc 0).len.toNat ∧
      misled.pageAt (misled.desc.readDesc 0).src = none) ∧
    (astray.ChainInv ∧ astray.dma = .active 0 0 ∧ astray.descStands = false) :=
  ⟨⟨sending_chainInv 52 (by decide) (by decide), sending_oracleOk 52, by decide +kernel⟩,
    ⟨sending_frames_chainInv _, rfl, by decide +kernel, by decide +kernel, by decide +kernel⟩,
    ⟨sending_frames_chainInv _, rfl, by decide +kernel⟩⟩

theorem witness_ReaderFollowsLink :
    (atLink.ChainInv ∧ atLink.dma = .active 0 4096 ∧ atLink.descStands = true ∧ 4096 = (atLink.desc.readDesc 0).len.toNat ∧
      (atLink.desc.readDesc 0).next ≠ 0) ∧
    (astray.ChainInv ∧ astray.dma = .active 0 0 ∧ astray.descStands = false) :=
  ⟨⟨atLink_chainInv, rfl, by decide +kernel, by decide +kernel, by decide +kernel⟩, ⟨sending_frames_chainInv _, rfl, by decide +kernel⟩⟩

theorem witness_ReaderCompletes :
    (({ sending with dma := .active 0 56 } : State).ChainInv ∧ ({ sending with dma := .active 0 56 } : State).descStands = true ∧
      56 = (sending.desc.readDesc 0).len.toNat ∧ (sending.desc.readDesc 0).next = 0) ∧
    (astray.ChainInv ∧ astray.dma = .active 0 0 ∧ astray.descStands = false) :=
  ⟨⟨sending_chainInv 56 (by decide) (by decide), by decide +kernel, by decide +kernel, by decide +kernel⟩,
    ⟨sending_frames_chainInv _, rfl, by decide +kernel⟩⟩

theorem witness_ReaderErrs : sending.dma.isActive = true ∧ ready.dma.isActive = false := by decide

theorem witness_WholeTransferSendsBuffer :
    sending.ChainInv ∧ sending.VisibleInv ∧ sending.OracleOk ∧ sending.dma = .active 0 0 ∧ sending.dirty = [] :=
  ⟨sending_chainInv 0 (by decide) (by decide), sending_visibleInv, sending_oracleOk 0, rfl, rfl⟩

end Sys2Proof.Tests
end

section
/-!
SUPPORT. The elementary changes of the state that operations consist of, guards included, said once as a relation; and that a property
which each of them keeps is kept by every operation and every step.
-/

namespace Sys2Proof.Machine

/-- The operations that store sub-bits of the caller's choice at a cursor: no host program holds them (log 15). -/
def Instr.storesSubBits : Instr → Bool
  | .emitSymbol _ _ | .putBit _ _ | .sym1 _ | .sym0 _ | .sym1Inv _ | .sym0Inv _ => true
  | .size | .prime | .encode | .translate _ | .buildChain _ _ | .flush _ | .dmaStart | .wait | .reserved0 | .reserved9
  | .reservedAB _ | .reservedCF _ | .init _ | .render | .finalize | .expandLed _ | .emitDesc _ | .terminate _ | .dmaXferWord
  | .dmaFollowLink | .dmaComplete | .dmaError _ | .color _ _ _ | .tiWord _ | .busaddr _ _ | .desc _ _ => false

/-- The elementary changes of the state that operation `i` consists of, INITIALIZE's own steps left out. -/
inductive Effect (i : Instr) (s : State) : State → Prop where
  | finish (r : Result) (hp : s.inInit = true ∨ s.isOpen = true) : Effect i s (s.finish r)
  | raise (e : ErrorKind) (hp : s.inInit = true ∨ s.isOpen = true) : Effect i s (s.raise e)
  | hold (b : Blocked) (hp : s.isOpen = true) : Effect i s (s.hold b)
  | size (hp : s.inInit = true) : Effect i s (sizeEffect s)
  | prime (hp : s.inInit = true ∨ s.phase = .ready) (hd : s.dma.isActive = false) : Effect i s (primeEffect s)
  | encode (hp : s.isOpen = true) (hd : s.dma.isActive = false) (hf : s.encodeFits = true) : Effect i s (encodeEffect s)
  | putBit (c : Chan) (x : Bool) (hi : Instr.storesSubBits i = true) (hp : s.isOpen = true) (hd : s.dma.isActive = false)
      (hw : laneWord c (s.cursor.get c) < s.bufWords) : Effect i s (putBitEffect c x s)
  | build (pages : List Nat) (n : Nat) (t : State) (hp : s.inInit = true ∨ s.phase = .ready) (hd : s.dma.isActive = false)
      (hr : buildRefusal pages n s = none) (h : buildRun pages n s = .next t) : Effect i s t
  | emitDesc (k : Nat) (a : Word) (hp : s.inInit = true ∨ s.phase = .ready) (hd : s.dma.isActive = false)
      (hc : s.chainValid = false) : Effect i s (emitDescEffect k a s)
  | terminate (n : Nat) (hp : s.inInit = true ∨ s.phase = .ready) (hd : s.dma.isActive = false)
      (hc : s.chainValid = false) : Effect i s (terminateEffect n s)
  | tiWord (k : Nat) (hp : s.inInit = true ∨ s.phase = .ready) (hd : s.dma.isActive = false)
      (hc : s.chainValid = false) : Effect i s (tiWordEffect k s)
  | desc (k : Nat) (r : Desc) (hp : s.inInit = true ∨ s.phase = .ready) (hd : s.dma.isActive = false)
      (hc : s.chainValid = false) : Effect i s (descEffect k r s)
  | flush (lo hi : Nat) (hp : s.inInit = true ∨ s.isOpen = true) (hh : hi ≤ s.bufBytes) : Effect i s (flushEffect lo hi s)
  | flushDesc (hp : s.inInit = true ∨ s.isOpen = true) : Effect i s (flushDescEffect s)
  | dmaStart (hp : s.isOpen = true) (hd : s.dma = .idle) (hc : s.chainCurrent = true) : Effect i s (dmaStartEffect s)
  | wait (hp : s.isOpen = true) (hd : s.dma = .idle) : Effect i s (waitEffect s)
  | color (c : Chan) (k : Nat) (v : Word) (hp : s.isOpen = true) (hk : k < s.count.get c) : Effect i s (colorEffect c k v s)
  | xferWord (d o : Nat) (hd : s.dma = .active d o) (ho : o < (s.loaded d).len.toNat) : Effect i s (xferEffect d o s)
  | followLink (d o k : Nat) (hd : s.dma = .active d o) (hn : (s.loaded d).next ≠ 0)
      (hk : s.linkTarget (s.loaded d).next = some k) : Effect i s { s with dma := .active k 0 }
  | complete : Effect i s { s with dma := .idle }
  | error (v : Word) : Effect i s { s with dma := .error v }
  | renderFailed (p : Phase) (hp : p = .ready ∨ p = .rendering) (hd : s.dma.isActive = false) : Effect i s { s with phase := p }
  | finalizeStuck : Effect i s (finalizeStuck s)
  | finalize : Effect i s (finalizeEffect s)

/-! ### The operations as rows of changes -/

theorem phase_of_isOpen {s : State} (h : s.isOpen = true) : s.phase = .ready ∨ s.phase = .rendering := by
  simpa [State.isOpen] using h

theorem Effect.of_execEncode {i : Instr} {s t : State} (h : execEncode s = .next t) : Effect i s t := by
  obtain ⟨hp, hd, hf, rfl⟩ := execEncode_next h
  exact .encode hp hd hf

theorem Effect.of_execFlush {i : Instr} {a : FlushArg} {s t : State} (h : execFlush a s = .next t) : Effect i s t := by
  obtain ⟨hp, ⟨lo, hi, -, -, hh, rfl⟩ | ⟨-, rfl⟩⟩ := execFlush_next h
  · exact .flush lo hi hp hh
  · exact .flushDesc hp

theorem Effect.of_execWait {i : Instr} {s t : State} (h : execWait s = .next t) : Effect i s t := by
  obtain ⟨hp, ⟨v, -, rfl⟩ | ⟨hd, rfl⟩ | ⟨-, rfl | rfl⟩⟩ := execWait_next h
  · exact .raise _ (.inr hp)
  · exact .wait hp hd
  · exact .raise _ (.inr hp)
  · exact .hold _ hp

theorem Effect.of_execBuildChain {i : Instr} {pages : List Nat} {n : Nat} {s t : State}
    (h : execBuildChain pages n s = .next t) : Effect i s t := by
  obtain ⟨hp, hd, hr, h⟩ := execBuildChain_next h
  exact .build pages n t hp hd hr h

theorem Effect.of_execDmaStart {i : Instr} {s t : State} (h : execDmaStart s = .next t) : Effect i s t := by
  obtain ⟨hp, hd, hc, -, rfl⟩ := execDmaStart_next h
  exact .dmaStart hp hd hc

theorem Effect.of_execTranslate {i : Instr} {va : Nat} {s t : State} (h : execTranslate va s = .next t) : Effect i s t := by
  obtain ⟨hp, ⟨a, -, rfl⟩ | ⟨-, rfl⟩⟩ := execTranslate_next h
  · exact .finish _ (.inl hp)
  · exact .raise _ (.inl hp)

theorem Effect.of_execSize {i : Instr} {s t : State} (h : execSize s = .next t) : Effect i s t := by
  obtain ⟨hp, -, rfl⟩ := execSize_next h
  exact .size hp

theorem Effect.of_execPrime {i : Instr} {s t : State} (h : execPrime s = .next t) : Effect i s t := by
  obtain ⟨hp, hd, rfl⟩ := execPrime_next h
  exact .prime hp hd

theorem inInit_or_isOpen_of_ready {s : State} (h : s.inInit = true ∨ s.phase = .ready) : s.inInit = true ∨ s.isOpen = true :=
  h.imp id fun hp => by simp [State.isOpen, hp]

theorem putBits_keeps_of_effects {P : State → Prop} {i : Instr} {c : Chan} {xs : List Bool} {s t : State}
    (hi : Instr.storesSubBits i = true) (hs : P s) (h : putBits c xs s = .next t)
    (heff : ∀ u v, P u → Effect i u v → P v) : P t :=
  putBits_keeps hs h fun x u hu hp hd hw => heff u _ hu (.putBit c x hi hp hd hw)

/-- A property that every elementary change keeps is kept by every operation, where INITIALIZE keeps it. -/
theorem exec_keeps_of_effects {P : State → Prop} {i : Instr} {s t : State} (hs : P s) (h : exec i s = .next t)
    (heff : ∀ u v, P u → Effect i u v → P v) (hinit : ∀ e, execInit e s = .next t → P t) : P t := by
  cases i with
  | size => exact heff s t hs (.of_execSize h)
  | prime => exact heff s t hs (.of_execPrime h)
  | encode => exact heff s t hs (.of_execEncode h)
  | translate va => exact heff s t hs (.of_execTranslate h)
  | buildChain pages n => exact heff s t hs (.of_execBuildChain h)
  | flush a => exact heff s t hs (.of_execFlush h)
  | dmaStart => exact heff s t hs (.of_execDmaStart h)
  | wait => exact heff s t hs (.of_execWait h)
  | reserved0 => cases h
  | reserved9 => cases h
  | reservedAB x => cases h
  | reservedCF x => cases h
  | init e => exact hinit e h
  | render =>
    exact execRender_keeps hs h (fun u v hu hv => heff u v hu (.of_execEncode hv))
      (fun a u v hu hv => heff u v hu (.of_execFlush hv)) (fun u v hu hv => heff u v hu (.of_execWait hv))
      (fun u v hu hv => heff u v hu (.of_execBuildChain hv)) (fun u v hu hv => heff u v hu (.of_execDmaStart hv))
      (fun u hu ho hd => heff u _ hu (.renderFailed _ (phase_of_isOpen ho) hd))
  | finalize =>
    obtain ⟨hp, -, -, rfl⟩ | ⟨-, ⟨-, -, rfl⟩ | rfl⟩ := execFinalize_next h
    · exact heff s _ hs (.hold _ hp)
    · exact heff s _ hs .finalizeStuck
    · exact heff s _ hs .finalize
  | expandLed v =>
    obtain ⟨hp, rfl⟩ := execExpandLed_next h
    exact heff s _ hs (.finish _ (.inr hp))
  | emitSymbol c d => exact putBits_keeps_of_effects rfl hs h heff
  | putBit c x =>
    obtain ⟨hp, hd, hw, rfl⟩ := putBitStep_next h
    exact heff s _ hs (.putBit c x rfl hp hd hw)
  | emitDesc k =>
    obtain ⟨hd, hc, hp, ⟨a, -, rfl⟩ | rfl⟩ := execEmitDesc_next h
    · exact heff s _ hs (.emitDesc k a hp hd hc)
    · exact heff s _ hs (.raise _ (inInit_or_isOpen_of_ready hp))
  | terminate n =>
    obtain ⟨hd, hc, hp, rfl⟩ := execTerminate_next h
    exact heff s _ hs (.terminate n hp hd hc)
  | dmaXferWord =>
    obtain ⟨d, o, hd, -, ho, rfl⟩ := execDmaXferWord_next h
    exact heff s _ hs (.xferWord d o hd ho)
  | dmaFollowLink =>
    obtain ⟨d, o, k, hd, -, -, hn, hk, rfl⟩ := execDmaFollowLink_next h
    exact heff s _ hs (.followLink d o k hd hn hk)
  | dmaComplete =>
    obtain ⟨-, -, -, -, -, -, rfl⟩ := execDmaComplete_next h
    exact heff s _ hs .complete
  | dmaError v =>
    obtain ⟨-, rfl⟩ := execDmaError_next h
    exact heff s _ hs (.error v)
  | sym1 c => exact putBits_keeps_of_effects rfl hs h heff
  | sym0 c => exact putBits_keeps_of_effects rfl hs h heff
  | sym1Inv c => exact putBits_keeps_of_effects rfl hs h heff
  | sym0Inv c => exact putBits_keeps_of_effects rfl hs h heff
  | color c k v =>
    obtain ⟨hp, hk, rfl⟩ := execColor_next h
    exact heff s _ hs (.color c k v hp hk)
  | tiWord k =>
    obtain ⟨hd, hc, hp, rfl⟩ := execTiWord_next h
    exact heff s _ hs (.tiWord k hp hd hc)
  | busaddr f o =>
    obtain ⟨hp, rfl⟩ := execBusaddr_next h
    exact heff s _ hs (.finish _ (by simpa using hp))
  | desc k r =>
    obtain ⟨hd, hc, hp, rfl⟩ := execDesc_next h
    exact heff s _ hs (.desc k r hp hd hc)

/-- A property that every elementary change, INITIALIZE, every store and the machine's own bookkeeping keep is kept by every step. -/
theorem step_keeps_of_effects {P : State → Prop} {s t : State} (hs : P s) (h : step s = .next t)
    (heff : ∀ i u v, P u → Effect i u v → P v) (hinit : ∀ e u v, P u → execInit e u = .next v → P v)
    (hstore : ∀ st u, P u → P (applyStore st u)) (hcmds : ∀ u rest, P u → P (u.withCmds rest))
    (hrefuse : ∀ u r, u.blocked ≠ some .clock → P u → P (u.refuse r)) (hadvance : ∀ u, P u → P u.advance) : P t :=
  step_keeps hs h (fun i u _ _ hu hv => exec_keeps_of_effects hu hv (heff i) fun e => hinit e u _ hu) hstore hcmds hrefuse hadvance

/-! ### INITIALIZE in stages -/

/-- A row in two parts: the first ended with an error, or the second goes on from it (R200). -/
theorem runAll_append (gs : List (State → Out)) (fs : List (State → Out)) : ∀ s t, s.result.isError = false →
    runAll (fs ++ gs) s = .next t → (runAll fs s = .next t ∧ t.result.isError = true) ∨
      ∃ u, runAll fs s = .next u ∧ u.result.isError = false ∧ runAll gs u = .next t := by
  induction fs with
  | nil => exact fun s t hs h => .inr ⟨s, rfl, hs, h⟩
  | cons f fs ih =>
    intro s t _ h
    obtain ⟨u, hu, hend⟩ := andThen_next h
    have hrow : runAll (f :: fs) s = andThen (.next u) (runAll fs) := by rw [runAll, hu]
    rw [hrow]
    obtain ⟨he, rfl⟩ | ⟨hn, h⟩ := hend
    · exact .inl ⟨andThen_of_error _ _ he, he⟩
    · rw [andThen_of_ok _ _ hn]
      exact ih u t hn h

/-- The steps of INITIALIZE that allocate and fill the output buffer: 1 to 4 (R172). -/
def bufferSteps (e : InitEnv) : List (State → Out) := [initColours e, execSize, initBuffer e, execPrime]

/-- The steps of INITIALIZE after the output buffer is filled and before the chain: 5 and 6 (R172). -/
def storageSteps (e : InitEnv) : List (State → Out) := [initStorage e, initResolve e]

/-- The steps of INITIALIZE after the chain that can fail: 8 and 9 (R172). -/
def deviceSteps (e : InitEnv) : List (State → Out) := [initMap e, initPins]

theorem initSteps_eq (e : InitEnv) : initSteps e = bufferSteps e ++ (storageSteps e ++ ([initChain] ++ deviceSteps e)) := rfl

end Sys2Proof.Machine
end

section
/-!
SUPPORT. INITIALIZE in stages (R172): what its row of steps leaves alone, what it leaves of the output buffer, and how its end looks.
-/

namespace Sys2Proof.Machine

/-! ### What no step of INITIALIZE changes -/

/-- `t` has the parameters and the command list of `s`. -/
def State.SameProgram (s t : State) : Prop := t.params = s.params ∧ t.cmds = s.cmds

theorem State.SameProgram.trans {s t u : State} (h : s.SameProgram t) (h' : t.SameProgram u) : s.SameProgram u :=
  ⟨h'.1.trans h.1, h'.2.trans h.2⟩

/-- No operation writes a parameter, and none but the sequencer's own bookkeeping the command list (R39, D1). -/
theorem Effect.sameProgram {i : Instr} {s t : State} (h : Effect i s t) : s.SameProgram t := by
  cases h with
  | build pages n t hp hd hr h =>
    obtain ⟨b, -, rfl⟩ | ⟨k, b, -, rfl⟩ := buildRun_next h
    · exact ⟨rfl, rfl⟩
    · exact ⟨rfl, rfl⟩
  | emitDesc k a => exact ⟨emitDescEffect_params k a s, emitDescEffect_cmds k a s⟩
  | _ => exact ⟨rfl, rfl⟩

/-- What a build changes: descriptor storage, the builder and the chain's flags; nothing of the transfer, the phase or the buffer. -/
theorem buildRun_frame {pages : List Nat} {n : Nat} {s t : State} (h : buildRun pages n s = .next t) :
    t.dma = s.dma ∧ t.phase = s.phase ∧ t.inInit = s.inInit := by
  obtain ⟨b, -, rfl⟩ | ⟨k, b, -, rfl⟩ := buildRun_next h
  · exact ⟨rfl, rfl, rfl⟩
  · exact ⟨rfl, rfl, rfl⟩

/-- `t` has the program, the transfer and the phase of `s`. -/
structure State.SameOutside (s t : State) : Prop where
  program : s.SameProgram t := by exact ⟨rfl, rfl⟩
  dma : t.dma = s.dma := by rfl
  phase : t.phase = s.phase := by rfl

theorem State.SameOutside.trans {s t u : State} (h : s.SameOutside t) (h' : t.SameOutside u) : s.SameOutside u :=
  ⟨h.program.trans h'.program, h'.dma.trans h.dma, h'.phase.trans h.phase⟩

/-- The steps of INITIALIZE leave the program, the transfer and the phase alone (R172). -/
theorem initSteps_sameOutside {e : InitEnv} {s t : State} (h : runAll (initSteps e) s = .next t) : s.SameOutside t := by
  refine initSteps_keeps (P := s.SameOutside) {} h ?colours ?size ?buffer ?prime ?storage ?translate
    (fun u a hu => hu.trans {}) (fun u k hu => hu.trans {}) ?build ?flush (fun u hu => hu.trans {}) (fun u hu => hu.trans {})
  case colours =>
    intro u v hu hv
    obtain rfl | rfl := initColours_next hv <;> exact hu.trans {}
  case size =>
    intro u v hu hv
    obtain ⟨-, -, rfl⟩ := execSize_next hv
    exact hu.trans {}
  case buffer =>
    intro u v hu hv
    obtain ⟨va, -, -, rfl⟩ | rfl := initBuffer_next hv <;> exact hu.trans {}
  case prime =>
    intro u v hu hv
    obtain ⟨-, -, rfl⟩ := execPrime_next hv
    exact hu.trans {}
  case storage =>
    intro u v hu hv
    obtain ⟨va, n, rfl⟩ | rfl := initStorage_next hv <;> exact hu.trans {}
  case translate =>
    intro d u v hu hv
    obtain ⟨-, ⟨a, -, rfl⟩ | ⟨-, rfl⟩⟩ := execTranslate_next hv <;> exact hu.trans {}
  case build =>
    intro u v hu hv
    obtain ⟨hp, hd, hr, hb⟩ := execBuildChain_next hv
    obtain ⟨hdma, hphase, -⟩ := buildRun_frame hb
    exact hu.trans ⟨(Effect.build (i := .init e) _ _ _ hp hd hr hb).sameProgram, hdma, hphase⟩
  case flush =>
    intro u v hu hv
    obtain ⟨-, ⟨lo, hi, hl, -⟩ | ⟨-, rfl⟩⟩ := execFlush_next hv
    · cases hl
    · exact hu.trans {}

theorem initEnd_sameProgram (t : State) : t.SameProgram (initEnd t) := by
  obtain ⟨-, h⟩ | ⟨-, ⟨-, h⟩ | ⟨-, h⟩⟩ := initEnd_cases t <;> rw [h] <;> exact ⟨rfl, rfl⟩

theorem execInit_sameProgram {e : InitEnv} {s t : State} (h : execInit e s = .next t) : s.SameProgram t := by
  obtain ⟨-, -, -, u, hu, rfl⟩ := execInit_next h
  exact (initSteps_sameOutside hu).program.trans (initEnd_sameProgram u)

/-- No operation writes a parameter or the command list (R39, D1). -/
theorem exec_sameProgram {i : Instr} {s t : State} (h : exec i s = .next t) : s.SameProgram t :=
  exec_keeps_of_effects (P := s.SameProgram) ⟨rfl, rfl⟩ h (fun _ _ hu hv => hu.trans hv.sameProgram)
    fun _ hv => execInit_sameProgram hv

theorem applyStore_params (st : Store) (s : State) : (applyStore st s).params = s.params := by cases st <;> rfl

/-- Settles O2: every elementary change, INITIALIZE and every store leave the parameters alone. -/
theorem stepKeepsParameters : Obligations.StepKeepsParameters := by
  intro s t h
  exact step_keeps_of_effects (P := fun u => u.params = s.params) rfl h (fun i u v hu hv => hv.sameProgram.1.trans hu)
    (fun e u v hu hv => (execInit_sameProgram hv).1.trans hu) (fun st u hu => (applyStore_params st u).trans hu)
    (fun u rest hu => hu) (fun u r _ hu => hu) (fun u hu => hu)

/-! ### The output buffer after INITIALIZE -/

/-- The steps after the output buffer is filled that can fail: 5 to 9 (R172). -/
def lateSteps (e : InitEnv) : List (State → Out) := storageSteps e ++ ([initChain] ++ deviceSteps e)

/-- `t` has the output buffer of `s`, both views of it, what the ghost elements say of it, and the parameters its size comes from. -/
structure State.SameBuffer (s t : State) : Prop where
  params : t.params = s.params := by rfl
  bufBytes : t.bufBytes = s.bufBytes := by rfl
  buf : t.buf = s.buf := by rfl
  busbuf : t.busbuf = s.busbuf := by rfl
  flushed : t.flushed = s.flushed := by rfl
  dirty : t.dirty = s.dirty := by rfl
  primedInv : t.primedInv = s.primedInv := by rfl
  stale : t.stale = s.stale := by rfl

theorem State.SameBuffer.refl (s : State) : s.SameBuffer s := {}

theorem State.SameBuffer.trans {s t u : State} (h : s.SameBuffer t) (h' : t.SameBuffer u) : s.SameBuffer u :=
  ⟨h'.params.trans h.params, h'.bufBytes.trans h.bufBytes, h'.buf.trans h.buf, h'.busbuf.trans h.busbuf, h'.flushed.trans h.flushed,
    h'.dirty.trans h.dirty, h'.primedInv.trans h.primedInv, h'.stale.trans h.stale⟩

/-- A build leaves the output buffer alone (R145). -/
theorem buildRun_sameBuffer {pages : List Nat} {n : Nat} {s t : State} (h : buildRun pages n s = .next t) : s.SameBuffer t := by
  obtain ⟨b, -, rfl⟩ | ⟨k, b, -, rfl⟩ := buildRun_next h <;> exact {}

theorem initChain_sameBuffer {s t : State} (h : initChain s = .next t) : s.SameBuffer t := by
  unfold initChain at h
  split at h
  · obtain ⟨u, hu, hend⟩ := buildOwn_next h
    obtain ⟨-, -, -, hb⟩ := execBuildChain_next hu
    obtain rfl | hf := hend
    · exact buildRun_sameBuffer hb
    · obtain ⟨-, ⟨lo, hi, hl, -⟩ | ⟨-, rfl⟩⟩ := execFlush_next hf
      · cases hl
      · exact (buildRun_sameBuffer hb).trans {}
  · cases h; exact .refl s

theorem initResolve_next {e : InitEnv} {s t : State} (h : initResolve e s = .next t) :
    (∃ a, t = resolveEffect a (s.finish (.addr a))) ∨ ∃ k, t = s.raise k := by
  unfold initResolve at h
  split at h
  · obtain ⟨u, hu, hend⟩ := andThen_next h
    obtain ⟨-, ⟨a, -, rfl⟩ | ⟨-, rfl⟩⟩ := execTranslate_next hu
    · obtain ⟨he, -⟩ | ⟨-, ht⟩ := hend
      · cases he
      · cases ht; exact .inl ⟨a, rfl⟩
    · obtain ⟨-, rfl⟩ | ⟨hn, -⟩ := hend
      · exact .inr ⟨_, rfl⟩
      · cases hn
  · cases h; exact .inr ⟨_, rfl⟩

theorem initMap_next {e : InitEnv} {s t : State} (h : initMap e s = .next t) : t = mapEffect s ∨ ∃ k, t = s.raise k := by
  unfold initMap at h
  split at h <;> cases h
  · exact .inl rfl
  · exact .inr ⟨_, rfl⟩

theorem initPins_next {s t : State} (h : initPins s = .next t) : t = pinsEffect s ∨ ∃ k, t = s.raise k := by
  unfold initPins at h
  split at h <;> cases h
  · exact .inl rfl
  · exact .inr ⟨_, rfl⟩

/-- Nothing after PRIME changes the output buffer (R172). -/
theorem lateSteps_sameBuffer {e : InitEnv} {s t : State} (h : runAll (lateSteps e) s = .next t) : s.SameBuffer t := by
  refine runAll_keeps (P := s.SameBuffer) _ (fun f hf u v hu hv => hu.trans ?_) s t (.refl s) h
  simp only [lateSteps, storageSteps, deviceSteps, List.cons_append, List.nil_append, List.mem_cons, List.not_mem_nil,
    or_false] at hf
  obtain rfl | rfl | rfl | rfl | rfl := hf
  · obtain ⟨va, n, rfl⟩ | rfl := initStorage_next hv <;> exact {}
  · obtain ⟨a, rfl⟩ | ⟨k, rfl⟩ := initResolve_next hv <;> exact {}
  · exact initChain_sameBuffer hv
  · obtain rfl | ⟨k, rfl⟩ := initMap_next hv <;> exact {}
  · obtain rfl | ⟨k, rfl⟩ := initPins_next hv <;> exact {}

/-- A buffer of a size the sizing function gives, newly primed for the inversions `inv`: every word idle and dirty (R41, R115). -/
structure State.Primed (t : State) (inv : PerChan Bool) : Prop where
  bufBytes : ∃ n f, t.bufBytes = pwmByteCount t.params n f
  buf : t.buf = primeWords inv [] t.bufWords
  dirty : t.dirty = NatSet.insertAll [] (List.range t.bufWords)
  primedInv : t.primedInv = ⟨some inv.c0, some inv.c1⟩
  stale : t.stale = ⟨0, 0⟩

theorem State.Primed.of_sameBuffer {s t : State} {inv : PerChan Bool} (h : s.Primed inv) (hb : s.SameBuffer t) : t.Primed inv := by
  have hw : t.bufWords = s.bufWords := by rw [State.bufWords, hb.bufBytes, State.bufWords]
  constructor
  · rw [hb.bufBytes, hb.params]; exact h.bufBytes
  · rw [hb.buf, hw, h.buf]
  · rw [hb.dirty, hw, h.dirty]
  · rw [hb.primedInv, h.primedInv]
  · rw [hb.stale, h.stale]

/-- Steps 1 to 4, where none fails, leave a newly primed buffer (R172). -/
theorem bufferSteps_primed {e : InitEnv} {s t : State} (h : runAll (bufferSteps e) s = .next t)
    (ht : t.result.isError = false) : t.Primed s.invert := by
  have failed {u : State} (he : u.result.isError = true) (hu : t = u) : False := by rw [hu, he] at ht; cases ht
  obtain ⟨u1, h1, ⟨he, hu⟩ | ⟨hn, h⟩⟩ := andThen_next h
  · exact (failed he hu).elim
  obtain rfl | rfl := initColours_next h1
  swap; · cases hn
  obtain ⟨u2, h2, ⟨he, hu⟩ | ⟨-, h⟩⟩ := andThen_next h
  · exact (failed he hu).elim
  obtain ⟨-, -, rfl⟩ := execSize_next h2
  obtain ⟨u3, h3, ⟨he, hu⟩ | ⟨hn, h⟩⟩ := andThen_next h
  · exact (failed he hu).elim
  obtain ⟨va, -, -, rfl⟩ | rfl := initBuffer_next h3
  swap; · cases hn
  obtain ⟨u4, h4, ⟨he, hu⟩ | ⟨-, h⟩⟩ := andThen_next h
  · exact (failed he hu).elim
  obtain ⟨-, -, rfl⟩ := execPrime_next h4
  cases h
  exact ⟨⟨_, _, by simp only [primeEffect_bufBytes, bufferEffect_bufBytes, sizeEffect_bufBytes]; rfl⟩, by simp [State.bufWords],
    by simp [State.bufWords], by simp, by simp⟩

/-- What INITIALIZE leaves of the output buffer: none, after an error, or a newly primed one (R41, R173). -/
theorem execInit_buffer {e : InitEnv} {s t : State} (h : execInit e s = .next t) :
    t.inInit = false ∧ ((∃ u : State, t = u.powerOn) ∨ t.Primed s.invert) := by
  obtain ⟨-, -, -, u, hu, rfl⟩ := execInit_next h
  obtain ⟨-, hend⟩ | ⟨hn, hend⟩ := initEnd_cases u
  · rw [hend]; exact ⟨rfl, .inl ⟨u, rfl⟩⟩
  have hp : u.Primed s.invert := by
    rw [initSteps_eq] at hu
    obtain ⟨-, he⟩ | ⟨v, hv, hok, hlate⟩ := runAll_append _ (bufferSteps e) _ _ rfl hu
    · rw [hn] at he; cases he
    · exact (bufferSteps_primed hv hok).of_sameBuffer (lateSteps_sameBuffer hlate)
  obtain ⟨-, hend⟩ | ⟨-, hend⟩ := hend
  · rw [hend]; exact ⟨rfl, .inr (hp.of_sameBuffer {})⟩
  · rw [hend]; exact ⟨rfl, .inr (hp.of_sameBuffer {})⟩

end Sys2Proof.Machine
end

section
/-!
The invariant ChainInv (10_state R43, 41_dma_chain R150 to R158): a build that succeeds makes a complete chain, the DMA reader stays inside
it, and nothing else touches it while it counts as valid.
-/

namespace Sys2Proof.Machine

/-! ### A build makes a complete chain -/

theorem buildRefusal_eq_none_iff (pages : List Nat) (n : Nat) (s : State) : buildRefusal pages n s = none ↔
    pagesOk s.params.maxPages s.bufVA pages = true ∧ n ≠ 0 ∧ n % 4 = 0 ∧ n = s.bufBytes ∧ n ≤ pages.length * pageSize ∧
      storageOk s.descBus s.descBytes pages.length = true := by
  unfold buildRefusal
  by_cases h1 : pagesOk s.params.maxPages s.bufVA pages = false
  · simp [h1]
  by_cases h2 : n = 0 ∨ n % 4 ≠ 0 ∨ n ≠ s.bufBytes
  · rw [if_neg h1, if_pos h2]; simp; omega
  by_cases h3 : pages.length * pageSize < n
  · rw [if_neg h1, if_neg h2, if_pos h3]; simp; omega
  rw [if_neg h1, if_neg h2, if_neg h3]
  simp only [not_or, not_not, Bool.not_eq_false, ne_eq] at h1 h2
  simp [h1, h2.1, h2.2.1, ← h2.2.2, Nat.not_lt.mp h3]

theorem storageOk_some {bus : Option Word} {m n : Nat} (h : storageOk bus m n = true) :
    ∃ b, bus = some b ∧ b ≠ 0 ∧ b.toNat + n * descSize ≤ 2 ^ 32 := by
  unfold storageOk at h
  split at h
  · simp only [Bool.and_eq_true, bne_iff_ne, decide_eq_true_eq] at h
    obtain ⟨⟨⟨hb, -⟩, -⟩, hn⟩ := h
    exact ⟨_, rfl, hb, hn⟩
  · cases h

theorem cdiv_le_of_le_mul {n k : Nat} (h : n ≤ k * pageSize) : cdiv n pageSize ≤ k := by
  unfold cdiv pageSize at *; omega

theorem cdiv_pos {n : Nat} (h : n ≠ 0) : 0 < cdiv n pageSize := by
  unfold cdiv pageSize; omega

/-- Everything that makes a chain at bus address `bus`, over a buffer at virtual address `va`, complete for the buffer as it is (R43). -/
structure State.CompleteAt (s : State) (bus : Word) (va : Nat) (desc : Memory) (written : NatSet) : Prop where
  descBus : s.descBus = some bus
  bufVA : s.bufVA = some va
  notNull : bus ≠ 0
  inBusSpace : bus.toNat + s.pageCount * descSize ≤ 2 ^ 32
  positive : 0 < s.bufBytes
  words : s.bufBytes % 4 = 0
  pages : s.pageCount ≤ s.params.maxPages
  form : ChainForm s.params desc written bus va s.pageCount s.bufBytes

/-- BUILD_CHAIN that comes to its end has made a complete chain (R145, R150). -/
theorem buildLoop_done_complete {pages : List Nat} {n : Nat} {s : State} {b : Build} (hr : buildRefusal pages n s = none)
    (hl : buildLoop s.params (orZero s.descBus) pages 0 (buildStart n s) = .done b) :
    ∃ bus va, s.CompleteAt bus va (terminateLink b.desc b.idx) b.written := by
  obtain ⟨hp, hpos, hwords, rfl, hroom, hstore⟩ := (buildRefusal_eq_none_iff _ _ _).mp hr
  obtain ⟨va, hva, -, hmax, hpage⟩ := pagesOk_getD hp
  obtain ⟨bus, hbus, hnull, hspace⟩ := storageOk_some hstore
  have hle : s.pageCount ≤ pages.length := cdiv_le_of_le_mul hroom
  have hspec := buildLoop_spec s.params (orZero s.descBus) pages 0 (buildStart s.bufBytes s)
  rw [hl] at hspec
  obtain ⟨as, hlen, hsrc, rfl⟩ := hspec
  have hn : as.length = s.pageCount := by rw [hlen]; exact Nat.min_eq_right hle
  have hne : as ≠ [] := by
    rintro rfl
    exact absurd (cdiv_pos hpos) (Nat.not_lt.mpr (Nat.le_of_eq hn.symm))
  have hform := emitAll_chainForm s.params (orZero s.descBus) va as (buildStart s.bufBytes s) hne
    fun i hi => by rw [← hpage i (by omega)]; exact hsrc.2 i hi
  refine ⟨bus, va, hbus, hva, hnull, ?_, Nat.pos_of_ne_zero hpos, hwords, hle.trans hmax, ?_⟩
  · exact le_trans (Nat.add_le_add_left (Nat.mul_le_mul_right _ hle) _) hspace
  · rw [hn, hbus] at hform
    have hidx : (emitAll s.params (orZero s.descBus) as 0 (buildStart s.bufBytes s)).idx = s.pageCount := by
      rw [emitAll_idx, if_neg hne, Nat.zero_add, hn]
    rw [hidx, hbus]
    exact hform

/-! ### What the invariant looks at -/

/-- `t` has everything of `s` that says whether a chain stands and where. -/
structure State.SameChain (s t : State) : Prop where
  params : t.params = s.params := by rfl
  bufVA : t.bufVA = s.bufVA := by rfl
  bufBytes : t.bufBytes = s.bufBytes := by rfl
  descVA : t.descVA = s.descVA := by rfl
  descBus : t.descBus = s.descBus := by rfl
  chainHead : t.chainHead = s.chainHead := by rfl
  desc : t.desc = s.desc := by rfl
  descWritten : t.descWritten = s.descWritten := by rfl
  chainValid : t.chainValid = s.chainValid := by rfl

theorem State.SameChain.pageCount {s t : State} (h : s.SameChain t) : t.pageCount = s.pageCount := by
  rw [State.pageCount, h.bufBytes, State.pageCount]

theorem State.SameChain.descStands {s t : State} (h : s.SameChain t) : t.descStands = s.descStands := by
  rw [State.descStands, h.params, h.descVA, h.descBus, State.descStands]

theorem State.ChainOk.of_sameChain {s t : State} (hs : s.ChainOk) (h : s.SameChain t) : t.ChainOk := by
  intro hv
  have := hs (h.chainValid ▸ hv)
  rw [h.params, h.bufVA, h.bufBytes, h.descBus, h.chainHead, h.desc, h.descWritten, h.pageCount]
  exact this

theorem State.TransferOk.of_sameChain {s t : State} (hs : s.TransferOk) (h : s.SameChain t) (hd : t.dma = s.dma)
    (hp : t.phase = s.phase) : t.TransferOk := by
  intro d o ha
  rw [hp, h.chainValid, h.descStands, h.pageCount, h.desc]
  exact hs d o (hd ▸ ha)

theorem State.chainOk_of_noChain {s : State} (h : s.chainValid = false) : s.ChainOk := fun hv => by rw [h] at hv; cases hv

theorem State.transferOk_of_notActive {s : State} (h : s.dma.isActive = false) : s.TransferOk := fun d o ha => by
  rw [ha] at h; cases h

/-- Without a chain and without a transfer there is nothing to keep. -/
theorem State.chainInv_of_noChain {s : State} (hv : s.chainValid = false) (hq : s.inInit = false) (hd : s.dma.isActive = false) :
    s.ChainInv :=
  ⟨State.chainOk_of_noChain hv, ⟨hq, fun _ => .inl hv⟩, State.transferOk_of_notActive hd⟩

/-- A store to descriptor storage while no chain counts as valid (R145). -/
theorem State.chainInv_of_recordStore {s t : State} (hc : s.chainValid = false) (hq : s.inInit = false)
    (hd : s.dma.isActive = false) (hc' : t.chainValid = s.chainValid) (hq' : t.inInit = s.inInit) (hd' : t.dma = s.dma) :
    t.ChainInv :=
  State.chainInv_of_noChain (hc'.trans hc) (hq'.trans hq) (hd' ▸ hd)

theorem State.quietOk_of_isOpen {s : State} (hq : s.inInit = false) (ho : s.isOpen = true) : s.QuietOk :=
  ⟨hq, fun hn => by rw [ho] at hn; cases hn⟩

theorem isOpen_of_phase {s : State} (h : s.phase = .ready ∨ s.phase = .rendering) : s.isOpen = true := by
  simpa [State.isOpen] using h

/-- An operation in an open handle that leaves chain, transfer and phase alone keeps the invariant. -/
theorem State.ChainInv.of_same {s t : State} (hs : s.ChainInv) (hp : s.inInit = true ∨ s.isOpen = true) (h : s.SameChain t)
    (hd : t.dma = s.dma := by rfl) (hph : t.phase = s.phase := by rfl) (hq : t.inInit = s.inInit := by rfl) : t.ChainInv := by
  have hquiet : s.inInit = false := hs.quiet.1
  have ho : s.isOpen = true := hp.resolve_left (by rw [hquiet]; decide)
  refine ⟨hs.chain.of_sameChain h, State.quietOk_of_isOpen (hq.trans hquiet) ?_, hs.transfer.of_sameChain h hd hph⟩
  exact isOpen_of_phase (hph ▸ phase_of_isOpen ho)

theorem buildRun_chainOk {pages : List Nat} {n : Nat} {s t : State} (hr : buildRefusal pages n s = none)
    (h : buildRun pages n s = .next t) : t.ChainOk := by
  obtain ⟨b, hl, rfl⟩ | ⟨k, b, -, rfl⟩ := buildRun_next h
  · obtain ⟨bus, va, hc⟩ := buildLoop_done_complete hr hl
    exact fun _ => ⟨bus, va, hc.descBus, hc.descBus, hc.bufVA, hc.notNull, hc.inBusSpace, hc.positive, hc.words, hc.pages, hc.form⟩
  · exact State.chainOk_of_noChain rfl

/-! ### The DMA reader stays inside its chain -/

/-- The length of a record of a valid chain is whole words (R90, R151). -/
theorem State.ChainOk.len_mod_four {s : State} (hs : s.ChainOk) (hv : s.chainValid = true) {d : Nat} (hd : d < s.pageCount) :
    (s.desc.readDesc d).len.toNat % 4 = 0 := by
  obtain ⟨b, va, -, -, -, -, -, -, hwords, -, hform⟩ := hs hv
  rw [hform.len d hd]
  unfold pageSize
  omega

/-- The link of a record of a valid chain leads to the next record of it, where it leads anywhere (R157, R160). -/
theorem State.ChainOk.linkTarget_lt {s : State} (hs : s.ChainOk) (hv : s.chainValid = true) {d k : Nat} (hd : d < s.pageCount)
    (hn : (s.desc.readDesc d).next ≠ 0) (hk : s.linkTarget (s.desc.readDesc d).next = some k) : k < s.pageCount := by
  obtain ⟨b, va, hb, -, -, -, hspace, -, -, hpages, hform⟩ := hs hv
  have hlink := hform.next d hd
  have hlast : d + 1 ≠ s.pageCount := fun e => hn (by rw [hlink, if_pos e])
  have hd' : d + 1 < s.pageCount := by omega
  have hindex : indexOf b s.params.maxPages (descAddress b (d + 1)) = some (d + 1) :=
    indexOf_descAddress b _ _ (by omega) (by unfold descSize at *; omega)
  rw [hlink, if_neg hlast] at hk
  simp only [State.linkTarget, hb, orZero, Option.getD_some, hindex] at hk
  split at hk <;> cases hk
  exact hd'

/-- A word's transfer goes on inside its record (R156). -/
theorem transferOk_xferEffect {s : State} {d o : Nat} (hs : s.ChainInv) (hd : s.dma = .active d o)
    (ho : o < (s.loaded d).len.toNat) : (xferEffect d o s).TransferOk := by
  obtain ⟨hphase, hv, hin⟩ := hs.transfer d o hd
  intro d' o' ha
  obtain ⟨rfl, rfl⟩ : d = d' ∧ o + 4 = o' := by simpa using ha
  refine ⟨hphase, hv, fun hst => ?_⟩
  have hst : s.descStands = true := hst
  obtain ⟨hd, h4, -⟩ := hin hst
  rw [loaded_of_stands hst] at ho
  have hlen := hs.chain.len_mod_four hv hd
  refine ⟨hd, by omega, ?_⟩
  rw [xferEffect_desc]
  omega

/-- A link is followed to a record of the chain (R157). -/
theorem transferOk_followLink {s : State} {d o k : Nat} (hs : s.ChainInv) (hd : s.dma = .active d o)
    (hn : (s.loaded d).next ≠ 0) (hk : s.linkTarget (s.loaded d).next = some k) :
    ({ s with dma := .active k 0 } : State).TransferOk := by
  obtain ⟨hphase, hv, hin⟩ := hs.transfer d o hd
  intro d' o' ha
  obtain ⟨rfl, rfl⟩ : k = d' ∧ 0 = o' := by simpa using ha
  refine ⟨hphase, hv, fun hst => ?_⟩
  have hst : s.descStands = true := hst
  rw [loaded_of_stands hst] at hn hk
  exact ⟨hs.chain.linkTarget_lt hv (hin hst).1 hn hk, rfl, Nat.zero_le _⟩

/-- A transfer starts at the first record of its chain (R155, R176). -/
theorem transferOk_dmaStartEffect {s : State} (hs : s.ChainOk) (hc : s.chainCurrent = true) : (dmaStartEffect s).TransferOk := by
  have hv : s.chainValid = true := by
    simp only [State.chainCurrent, Bool.and_eq_true] at hc
    exact hc.1
  obtain ⟨b, va, -, -, -, -, -, -, -, -, hform⟩ := hs hv
  intro d o ha
  obtain ⟨rfl, rfl⟩ : 0 = d ∧ 0 = o := by simpa using ha
  exact ⟨rfl, hv, fun _ => ⟨hform.nonempty, rfl, Nat.zero_le _⟩⟩

/-! ### Every change keeps the invariant -/

theorem finalizeStuck_chainInv {s : State} (hs : s.ChainInv) : (finalizeStuck s).ChainInv := by
  have hsame : s.SameChain (finalizeStuck s) := {}
  have hphase : (finalizeStuck s).phase = if s.isOpen && s.dma == .idle then .ready else s.phase := rfl
  refine ⟨hs.chain.of_sameChain hsame, ⟨hs.quiet.1, fun hn => ?_⟩, fun d o ha => ?_⟩
  · by_cases ho : s.isOpen = true
    · have hopen : (finalizeStuck s).isOpen = true := isOpen_of_phase <| by
        rw [hphase]
        split
        · exact .inl rfl
        · exact phase_of_isOpen ho
      rw [hopen] at hn
      cases hn
    · rw [hphase, if_neg (by simp [ho])]
      exact (hs.quiet.2 (Bool.eq_false_iff.mpr ho)).imp id fun h => ⟨h.1, rfl⟩
  · have ha : s.dma = .active d o := ha
    rw [hphase, ha, if_neg (by simp), hsame.chainValid, hsame.descStands, hsame.pageCount, hsame.desc]
    exact hs.transfer d o ha

theorem Effect.chainInv {i : Instr} {s t : State} (hs : s.ChainInv) (h : Effect i s t) : t.ChainInv := by
  have hquiet : s.inInit = false := hs.quiet.1
  have notInit : ∀ {p : Prop}, s.inInit = true ∨ p → p := fun h => h.resolve_left (by rw [hquiet]; decide)
  cases h with
  | finish r hp => exact hs.of_same hp {}
  | raise e hp => exact hs.of_same hp {}
  | hold b hp => exact hs.of_same (.inr hp) {}
  | size hp => rw [hquiet] at hp; cases hp
  | prime hp hd =>
    exact hs.of_same (inInit_or_isOpen_of_ready hp) {}
  | encode hp => exact hs.of_same (.inr hp) {}
  | putBit c x hi hp => exact hs.of_same (.inr hp) {}
  | build pages n t hp hd hr h =>
    obtain ⟨hdma, hphase, hinit⟩ := buildRun_frame h
    refine ⟨buildRun_chainOk hr h, State.quietOk_of_isOpen (hinit.trans hquiet) (isOpen_of_phase (.inl ?_)),
      State.transferOk_of_notActive (hdma ▸ hd)⟩
    rw [hphase]
    exact notInit hp
  | emitDesc k a hp hd hc =>
    exact State.chainInv_of_recordStore hc hquiet hd (emitDescEffect_chainValid k a s) (emitDescEffect_inInit k a s)
      (emitDescEffect_dma k a s)
  | terminate n hp hd hc =>
    exact State.chainInv_of_recordStore hc hquiet hd (terminateEffect_chainValid n s) (terminateEffect_inInit n s) (terminateEffect_dma n s)
  | tiWord k hp hd hc =>
    exact State.chainInv_of_recordStore hc hquiet hd (tiWordEffect_chainValid k s) (tiWordEffect_inInit k s) (tiWordEffect_dma k s)
  | desc k r hp hd hc =>
    exact State.chainInv_of_recordStore hc hquiet hd (descEffect_chainValid k r s) (descEffect_inInit k r s) (descEffect_dma k r s)
  | flush lo hi hp => exact hs.of_same hp {}
  | flushDesc hp => exact hs.of_same hp {}
  | dmaStart hp hd hc =>
    exact ⟨hs.chain.of_sameChain {},
      State.quietOk_of_isOpen hquiet (isOpen_of_phase (.inr rfl)), transferOk_dmaStartEffect hs.chain hc⟩
  | wait hp hd =>
    exact ⟨hs.chain.of_sameChain {},
      State.quietOk_of_isOpen hquiet (isOpen_of_phase (.inl rfl)), State.transferOk_of_notActive (by rw [waitEffect_dma, hd]; rfl)⟩
  | color c k v hp => exact hs.of_same (.inr hp) {}
  | xferWord d o hd ho =>
    exact ⟨hs.chain.of_sameChain {}, hs.quiet, transferOk_xferEffect hs hd ho⟩
  | followLink d o k hd hn hk =>
    exact ⟨hs.chain.of_sameChain {}, hs.quiet, transferOk_followLink hs hd hn hk⟩
  | complete =>
    exact ⟨hs.chain.of_sameChain {}, hs.quiet, State.transferOk_of_notActive rfl⟩
  | error v =>
    exact ⟨hs.chain.of_sameChain {}, hs.quiet, State.transferOk_of_notActive rfl⟩
  | renderFailed p hp hd =>
    exact ⟨hs.chain.of_sameChain {},
      State.quietOk_of_isOpen hquiet (isOpen_of_phase hp), State.transferOk_of_notActive hd⟩
  | finalizeStuck => exact finalizeStuck_chainInv hs
  | finalize => exact State.chainInv_of_noChain rfl rfl rfl

/-! ### INITIALIZE -/

/-- After descriptor storage is allocated no chain stands in it (R172 step 5). -/
theorem storageSteps_noChain {e : InitEnv} {s t : State} (h : runAll (storageSteps e) s = .next t)
    (ht : t.result.isError = false) : t.chainValid = false := by
  obtain ⟨u, hu, ⟨he, rfl⟩ | ⟨hn, h⟩⟩ := andThen_next h
  · rw [ht] at he; cases he
  obtain ⟨va, n, rfl⟩ | rfl := initStorage_next hu
  swap; · cases hn
  refine runAll_keeps (P := fun u => u.chainValid = false) [initResolve e] (fun f hf x y hx hy => ?_) _ t rfl h
  obtain rfl := List.mem_singleton.mp hf
  obtain ⟨a, rfl⟩ | ⟨k, rfl⟩ := initResolve_next hy <;> exact hx

theorem initChain_chainOk {s t : State} (hs : s.ChainOk) (h : initChain s = .next t) : t.ChainOk := by
  unfold initChain at h
  split at h
  · obtain ⟨u, hu, hend⟩ := buildOwn_next h
    obtain ⟨-, -, hr, hb⟩ := execBuildChain_next hu
    have hok := buildRun_chainOk hr hb
    obtain rfl | hf := hend
    · exact hok
    · obtain ⟨-, ⟨lo, hi, hl, -⟩ | ⟨-, rfl⟩⟩ := execFlush_next hf
      · cases hl
      · exact hok.of_sameChain {}
  · cases h; exact hs

/-- The steps after the chain leave it alone (R172 steps 8 and 9). -/
theorem deviceSteps_chainOk {e : InitEnv} {s t : State} (hs : s.ChainOk) (h : runAll (deviceSteps e) s = .next t) : t.ChainOk := by
  refine runAll_keeps (P := State.ChainOk) _ (fun f hf u v hu hv => ?_) s t hs h
  simp only [deviceSteps, List.mem_cons, List.not_mem_nil, or_false] at hf
  refine hu.of_sameChain ?_
  obtain rfl | rfl := hf
  · obtain rfl | ⟨k, rfl⟩ := initMap_next hv <;> exact {}
  · obtain rfl | ⟨k, rfl⟩ := initPins_next hv <;> exact {}

/-- Where no step of INITIALIZE fails, the chain is complete or there is none (R172 step 7). -/
theorem initSteps_chainOk {e : InitEnv} {s t : State} (hs : s.result.isError = false) (h : runAll (initSteps e) s = .next t)
    (ht : t.result.isError = false) : t.ChainOk := by
  have failed {p : Prop} (he : t.result.isError = true) : p := by rw [ht] at he; cases he
  rw [initSteps_eq] at h
  obtain ⟨-, he⟩ | ⟨u, -, hu, h⟩ := runAll_append _ (bufferSteps e) _ _ hs h
  · exact failed he
  obtain ⟨-, he⟩ | ⟨v, hv, hvok, h⟩ := runAll_append _ (storageSteps e) _ _ hu h
  · exact failed he
  obtain ⟨w, hw, ⟨he, rfl⟩ | ⟨-, h⟩⟩ := andThen_next h
  · exact failed he
  exact deviceSteps_chainOk (initChain_chainOk (State.chainOk_of_noChain (storageSteps_noChain hv hvok)) hw) h

theorem execInit_chainInv {e : InitEnv} {s t : State} (hs : s.ChainInv) (h : execInit e s = .next t) : t.ChainInv := by
  obtain ⟨hphase, -, -, u, hu, rfl⟩ := execInit_next h
  have hout := initSteps_sameOutside hu
  have hd : u.dma.isActive = false := by
    rw [hout.dma, initStart_dma]
    cases hdma : s.dma with
    | active d o => have := (hs.transfer d o hdma).1; rw [hphase] at this; cases this
    | idle => rfl
    | error v => rfl
  obtain ⟨-, hend⟩ | ⟨hn, hend⟩ := initEnd_cases u
  · rw [hend]; exact State.chainInv_of_noChain rfl rfl rfl
  have hchain : u.ChainOk := initSteps_chainOk rfl hu hn
  obtain ⟨-, hend⟩ | ⟨-, hend⟩ := hend
  · rw [hend]
    exact ⟨hchain.of_sameChain {},
      State.quietOk_of_isOpen rfl (isOpen_of_phase (.inl rfl)), State.transferOk_of_notActive hd⟩
  · rw [hend]
    exact ⟨hchain.of_sameChain {},
      ⟨rfl, fun _ => .inr ⟨hout.phase.trans hphase, rfl⟩⟩, State.transferOk_of_notActive hd⟩

/-! ### Every step -/

/-- The machine's own bookkeeping and the caller's stores touch neither the chain nor the transfer. -/
theorem State.ChainInv.of_bookkeeping {s t : State} (hs : s.ChainInv) (h : s.SameChain t)
    (hd : t.dma = s.dma := by rfl) (hp : t.phase = s.phase := by rfl) (hq : t.inInit = s.inInit := by rfl)
    (hb : t.blocked = s.blocked := by rfl) : t.ChainInv := by
  refine ⟨hs.chain.of_sameChain h, ⟨hq.trans hs.quiet.1, fun hn => ?_⟩, hs.transfer.of_sameChain h hd hp⟩
  rw [h.chainValid, hp, hb]
  exact hs.quiet.2 (by rw [State.isOpen, hp] at hn; exact hn)

/-- A refusal ends a hold, but not that of a host thread stuck in a busy-wait. -/
theorem State.ChainInv.refuse {s : State} (hs : s.ChainInv) (r : Refusal) (hb : s.blocked ≠ some .clock) : (s.refuse r).ChainInv :=
  ⟨hs.chain.of_sameChain {},
    ⟨hs.quiet.1, fun hn => .inl ((hs.quiet.2 hn).resolve_right fun h => hb h.2)⟩,
    hs.transfer.of_sameChain {} rfl rfl⟩

theorem applyStore_chainInv {s : State} (hs : s.ChainInv) (st : Store) : (applyStore st s).ChainInv := by
  cases st <;> exact hs.of_bookkeeping {}

/-- Settles O4: by cases on the elementary changes; a build makes the chain complete, the DMA reader's links stay inside it, and whatever
else writes a record needs that no chain counts as valid. -/
theorem stepKeepsChainAndTransfer : Obligations.StepKeepsChainAndTransfer := by
  intro s t hs h
  exact step_keeps_of_effects hs h (fun i u v hu hv => hv.chainInv hu) (fun e u v hu hv => execInit_chainInv hu hv)
    (fun st u hu => applyStore_chainInv hu st)
    (fun u rest hu => hu.of_bookkeeping {})
    (fun u r hb hu => hu.refuse r hb)
    (fun u hu => hu.of_bookkeeping {})

end Sys2Proof.Machine
end

section
/-!
The invariants of the output buffer: only words of it are dirty, its clean words are visible to the DMA reader (10_state R37, 20_memory R61,
R62), and its padding is idle (10_state R35, R38).
-/

namespace Sys2Proof.Machine

/-! ### What a change does to the buffer -/

/-- Everything an elementary change outside INITIALIZE can do to the output buffer. -/
inductive BufferChange (i : Instr) (s : State) : State → Prop where
  | same (t : State) (h : s.SameBuffer t) : BufferChange i s t
  | prime : BufferChange i s (primeEffect s)
  | encode (hf : s.encodeFits = true) : BufferChange i s (encodeEffect s)
  | putBit (c : Chan) (x : Bool) (hi : Instr.storesSubBits i = true) (hw : laneWord c (s.cursor.get c) < s.bufWords) :
      BufferChange i s (putBitEffect c x s)
  | flush (lo hi : Nat) : BufferChange i s (flushEffect lo hi s)
  | released : BufferChange i s (finalizeEffect s)

theorem Effect.bufferChange {i : Instr} {s t : State} (hq : s.inInit = false) (h : Effect i s t) : BufferChange i s t := by
  cases h with
  | size hp => rw [hq] at hp; cases hp
  | prime => exact .prime
  | encode _ _ hf => exact .encode hf
  | putBit c x hi _ _ hw => exact .putBit c x hi hw
  | build pages n t _ _ _ h => exact .same t (buildRun_sameBuffer h)
  | flush lo hi => exact .flush lo hi
  | finalize => exact .released
  | emitDesc k a =>
    exact .same _ ⟨emitDescEffect_params k a s, emitDescEffect_bufBytes k a s, emitDescEffect_buf k a s, emitDescEffect_busbuf k a s,
      emitDescEffect_flushed k a s, emitDescEffect_dirty k a s, emitDescEffect_primedInv k a s, emitDescEffect_stale k a s⟩
  | _ => exact .same _ {}

/-- No change outside INITIALIZE begins one (R171). -/
theorem Effect.quiet {i : Instr} {s t : State} (hq : s.inInit = false) (h : Effect i s t) : t.inInit = false := by
  cases h with
  | build pages n t _ _ _ h => exact (buildRun_frame h).2.2.trans hq
  | finalize => rfl
  | _ => exact hq

theorem State.SameBuffer.bufWords {s t : State} (h : s.SameBuffer t) : t.bufWords = s.bufWords := by
  rw [State.bufWords, h.bufBytes, State.bufWords]

theorem applyStore_sameBuffer (st : Store) (s : State) : s.SameBuffer (applyStore st s) := by
  cases st <;> exact {}

theorem applyStore_inInit (st : Store) (s : State) : (applyStore st s).inInit = s.inInit := by cases st <;> rfl

/-- The words ENCODE writes lie inside the buffer (R120). -/
theorem lt_bufWords_of_encodeFits {s : State} (hf : s.encodeFits = true) {w : Nat}
    (hw : 32 * (w / 2) < 72 * s.count.get (Chan.ofWord w)) : w < s.bufWords := by
  simp only [State.encodeFits, Bool.and_eq_true, decide_eq_true_eq] at hf
  obtain ⟨⟨-, h0⟩, h1⟩ := hf
  have hc : 72 * s.count.get (Chan.ofWord w) ≤ 32 * s.chWords := by cases Chan.ofWord w <;> assumption
  unfold State.chWords at hc
  omega

/-- The dirty words after one sub-bit's store (R119). -/
theorem mem_putBitEffect_dirty (c : Chan) (x : Bool) (s : State) (w : Nat) :
    w ∈ (putBitEffect c x s).dirty ↔ w = laneWord c (s.cursor.get c) ∨ w ∈ s.dirty := NatSet.mem_insert _ _ _

/-- One sub-bit's store leaves every other word of the buffer alone (R119). -/
theorem putBitEffect_readWord (c : Chan) (x : Bool) (s : State) {w : Nat} (hw : w ≠ laneWord c (s.cursor.get c)) :
    (putBitEffect c x s).buf.readWord w = s.buf.readWord w :=
  (Memory.readWord_writeWord _ _ _ _).trans (if_neg hw)

/-- ENCODE leaves every word alone that it does not dirty (R124, R128). -/
theorem encodeEffect_readWord {s : State} {w : Nat} (hw : w ∉ (encodeEffect s).dirty) :
    (encodeEffect s).buf.readWord w = s.buf.readWord w := by
  rw [encodeEffect_dirty, not_or] at hw
  refine Memory.readWord_congr _ _ _ _ fun q hq => ?_
  rw [encodeEffect_readBit _ _ _ hq, if_neg (by omega)]

theorem mem_flushEffect_dirty (lo hi : Nat) (s : State) (w : Nat) :
    w ∈ (flushEffect lo hi s).dirty ↔ w ∈ s.dirty ∧ w ∉ coveredWords lo hi := by
  rw [flushEffect_dirty, List.mem_filter, mem_coveredWords, ← covered_iff]
  simp

/-! ### Dirty words -/

theorem lookupSize_mem {l : List ((Nat × Nat) × Nat)} {k : Nat × Nat} {n : Nat} (h : lookupSize l k = some n) : (k, n) ∈ l := by
  induction l with
  | nil => cases h
  | cons e l ih =>
    unfold lookupSize at h
    split at h
    · rename_i hk
      cases h; rw [← hk]; exact List.mem_cons_self
    · exact List.mem_cons_of_mem _ (ih h)

/-- The sizing function gives whole words for both channels (R112). -/
theorem pwmByteCount_mod_eight {p : Params} (hp : paramsOk p = true) (n f : Nat) : pwmByteCount p n f % 8 = 0 := by
  unfold pwmByteCount
  cases h : lookupSize p.sizes (n, f) with
  | none => simp only [Option.getD_none, sizeR113]; omega
  | some k =>
    simp only [paramsOk, Bool.and_eq_true, List.all_eq_true] at hp
    have hk := hp.2 _ (lookupSize_mem h)
    simp only [sizeEntryOk, Bool.and_eq_true, beq_iff_eq] at hk
    exact hk.1

theorem State.DirtyInv.of_sameBuffer {s t : State} (hs : s.DirtyInv) (h : s.SameBuffer t) (hq : t.inInit = s.inInit) : t.DirtyInv := by
  unfold State.DirtyInv
  rw [h.params, hq, h.bufBytes, h.dirty, h.bufWords]
  exact hs

theorem Effect.dirtyInv {i : Instr} {s t : State} (hs : s.DirtyInv) (h : Effect i s t) : t.DirtyInv := by
  obtain ⟨hp, hq, h8, hdirty⟩ := hs
  have hq' := h.quiet hq
  cases h.bufferChange hq with
  | same t hsame => exact State.DirtyInv.of_sameBuffer ⟨hp, hq, h8, hdirty⟩ hsame (hq'.trans hq.symm)
  | prime =>
    refine ⟨hp, hq, h8, fun w hw => ?_⟩
    rw [primeEffect_dirty, NatSet.mem_insertAll, List.mem_range] at hw
    exact hw.elim id (hdirty w)
  | encode hf =>
    refine ⟨hp, hq, h8, fun w hw => ?_⟩
    rw [encodeEffect_dirty] at hw
    exact hw.elim (hdirty w) (lt_bufWords_of_encodeFits hf)
  | putBit c x hi hw =>
    refine ⟨hp, hq, h8, fun w hw' => ?_⟩
    obtain rfl | hw' := (mem_putBitEffect_dirty c x s w).mp hw'
    · exact hw
    · exact hdirty w hw'
  | flush lo hi => exact ⟨hp, hq, h8, fun w hw => hdirty w ((mem_flushEffect_dirty lo hi s w).mp hw).1⟩
  | released => exact ⟨hp, rfl, rfl, fun w hw => absurd hw List.not_mem_nil⟩

theorem execInit_dirtyInv {e : InitEnv} {s t : State} (hs : s.DirtyInv) (h : execInit e s = .next t) : t.DirtyInv := by
  have hp : paramsOk t.params = true := by rw [(execInit_sameProgram h).1]; exact hs.1
  obtain ⟨hq, ⟨u, rfl⟩ | hprimed⟩ := execInit_buffer h
  · exact ⟨hp, hq, rfl, fun w hw => absurd hw List.not_mem_nil⟩
  · obtain ⟨n, f, hn⟩ := hprimed.bufBytes
    refine ⟨hp, hq, by rw [hn]; exact pwmByteCount_mod_eight hp n f, fun w hw => ?_⟩
    rw [hprimed.dirty, NatSet.mem_insertAll, List.mem_range] at hw
    exact hw.resolve_right List.not_mem_nil

/-! ### Clean words -/

theorem State.VisibleInv.of_sameBuffer {s t : State} (hs : s.VisibleInv) (h : s.SameBuffer t) (hq : t.inInit = s.inInit) :
    t.VisibleInv := by
  unfold State.VisibleInv
  rw [hq, h.bufWords, h.dirty, h.flushed, h.busbuf, h.buf]
  exact hs

theorem State.visibleInv_of_noBuffer {t : State} (hq : t.inInit = false) (hb : t.bufBytes = 0) : t.VisibleInv := by
  refine ⟨hq, fun w hw => ?_⟩
  rw [State.bufWords, hb] at hw
  exact (Nat.not_lt_zero w hw).elim

theorem Effect.visibleInv {i : Instr} {s t : State} (hs : s.VisibleInv) (h : Effect i s t) : t.VisibleInv := by
  obtain ⟨hq, hclean⟩ := hs
  have hq' := h.quiet hq
  cases h.bufferChange hq with
  | same t hsame => exact State.VisibleInv.of_sameBuffer ⟨hq, hclean⟩ hsame (hq'.trans hq.symm)
  | prime =>
    refine ⟨hq, fun w hw hd => absurd ?_ hd⟩
    rw [primeEffect_dirty, NatSet.mem_insertAll, List.mem_range]
    exact .inl hw
  | encode hf =>
    refine ⟨hq, fun w hw hd => ?_⟩
    rw [encodeEffect_readWord hd]
    exact hclean w hw fun hd' => hd ((encodeEffect_dirty s w).mpr (.inl hd'))
  | putBit c x hi hw =>
    refine ⟨hq, fun w hw' hd => ?_⟩
    rw [mem_putBitEffect_dirty, not_or] at hd
    rw [putBitEffect_readWord c x s hd.1]
    exact hclean w hw' hd.2
  | flush lo hi =>
    refine ⟨hq, fun w hw hd => ?_⟩
    rw [mem_flushEffect_dirty, not_and, not_not] at hd
    rw [flushEffect_flushed, NatSet.mem_insertAll, flushEffect_busbuf, flushWords_readWord, flushEffect_buf]
    by_cases hc : w ∈ coveredWords lo hi
    · exact ⟨.inl hc, if_pos hc⟩
    · obtain ⟨hf, heq⟩ := hclean w hw fun hd' => hc (hd hd')
      exact ⟨.inr hf, by rw [if_neg hc, heq]⟩
  | released => exact State.visibleInv_of_noBuffer rfl rfl

theorem execInit_visibleInv {e : InitEnv} {s t : State} (h : execInit e s = .next t) : t.VisibleInv := by
  obtain ⟨hq, ⟨u, rfl⟩ | hprimed⟩ := execInit_buffer h
  · exact State.visibleInv_of_noBuffer hq rfl
  · refine ⟨hq, fun w hw hd => absurd ?_ hd⟩
    rw [hprimed.dirty, NatSet.mem_insertAll, List.mem_range]
    exact .inl hw

/-- Settles O5: every store to the buffer dirties its word, and a flush that cleans a word copies it. -/
theorem stepKeepsDirtyInsideBuffer : Obligations.StepKeepsDirtyInsideBuffer := by
  intro s t h
  constructor
  · intro hs
    exact step_keeps_of_effects hs h (fun i u v hu hv => hv.dirtyInv hu) (fun e u v hu hv => execInit_dirtyInv hu hv)
      (fun st u hu => hu.of_sameBuffer (applyStore_sameBuffer st u) (applyStore_inInit st u))
      (fun u rest hu => hu) (fun u r _ hu => hu) (fun u hu => hu)
  · intro hs
    exact step_keeps_of_effects hs h (fun i u v hu hv => hv.visibleInv hu) (fun e u v _ hv => execInit_visibleInv hv)
      (fun st u hu => hu.of_sameBuffer (applyStore_sameBuffer st u) (applyStore_inInit st u))
      (fun u rest hu => hu) (fun u r _ hu => hu) (fun u hu => hu)

/-! ### Padding -/

theorem idleWord_getLsbD (inv : Bool) {q : Nat} (hq : q < 32) : (idleWord inv).getLsbD q = inv := by
  cases inv with
  | false => exact BitVec.getLsbD_zero
  | true =>
    show (BitVec.allOnes 32).getLsbD q = true
    rw [BitVec.getLsbD_allOnes, decide_eq_true hq]

/-- The word that holds a stream bit of a channel lies in the buffer (R26, R51). -/
theorem streamWord_lt_bufWords {s : State} (c : Chan) {n : Nat} (hn : n < 32 * s.chWords) : c.idx + 2 * (n / 32) < s.bufWords := by
  have := Chan.idx_lt c
  unfold State.chWords at hn
  omega

/-- A buffer whose words are all idle for the inversions it was primed with has idle padding (R35, R38). -/
theorem State.paddingOk_of_idle {t : State} {inv : PerChan Bool} (hp : t.primedInv = ⟨some inv.c0, some inv.c1⟩)
    (hbuf : ∀ w < t.bufWords, t.buf.readWord w = idleWord (inv.get (Chan.ofWord w))) : t.PaddingOk := by
  intro c b hb n _ hn
  obtain rfl : inv.get c = b := by
    rw [hp] at hb
    cases c <;> exact Option.some.inj hb
  rw [Memory.readBit, hbuf _ (streamWord_lt_bufWords c hn), Chan.ofWord_idx]
  exact idleWord_getLsbD _ (by omega)

theorem State.PaddingOk.of_sameBuffer {s t : State} (hs : s.PaddingOk) (h : s.SameBuffer t) : t.PaddingOk := by
  unfold State.PaddingOk State.chWords
  rw [h.primedInv, h.stale, h.bufWords, h.buf]
  exact hs

/-- A state that was never primed says nothing of its padding. -/
theorem State.paddingOk_of_neverPrimed {t : State} (h : t.primedInv = ⟨none, none⟩) : t.PaddingOk := by
  intro c b hb
  rw [h] at hb
  cases c <;> cases hb

/-- ENCODE writes no bit past the longest frame, itself included (R124, R127). -/
theorem encodeEffect_paddingOk {s : State} (hs : s.PaddingOk) : (encodeEffect s).PaddingOk := by
  intro c b hb n hn hlt
  have hstale : s.stale.get c ≤ (encodeEffect s).stale.get c ∧ s.count.get c ≤ (encodeEffect s).stale.get c := by
    cases c
    · exact ⟨Nat.le_max_left _ _, Nat.le_max_right _ _⟩
    · exact ⟨Nat.le_max_left _ _, Nat.le_max_right _ _⟩
  have hidx := Chan.idx_lt c
  rw [encodeEffect_readBit _ _ _ (by omega), Chan.ofWord_idx, if_neg (by omega)]
  exact hs c b hb n (by omega) hlt

theorem Effect.paddingOk {i : Instr} {s t : State} (hi : Instr.storesSubBits i = false) (hq : s.inInit = false)
    (hs : s.PaddingOk) (h : Effect i s t) : t.PaddingOk := by
  cases h.bufferChange hq with
  | same t hsame => exact hs.of_sameBuffer hsame
  | prime =>
    refine State.paddingOk_of_idle (primeEffect_primedInv s) fun w hw => ?_
    rw [primeEffect_buf, primeWords_readWord]
    exact if_pos hw
  | encode hf => exact encodeEffect_paddingOk hs
  | putBit c x hi' => rw [hi] at hi'; cases hi'
  | flush lo hi => exact hs
  | released => exact State.paddingOk_of_neverPrimed rfl

theorem execInit_paddingOk {e : InitEnv} {s t : State} (h : execInit e s = .next t) : t.PaddingOk := by
  obtain ⟨-, ⟨u, rfl⟩ | hprimed⟩ := execInit_buffer h
  · exact State.paddingOk_of_neverPrimed rfl
  · refine State.paddingOk_of_idle hprimed.primedInv fun w hw => ?_
    rw [hprimed.buf, primeWords_readWord, if_pos hw]

/-! ### A host that issues only what a host can issue -/

theorem storesSubBits_of_isHostOp {i : Instr} (h : i.isHostOp = true) : Instr.storesSubBits i = false := by
  cases i with
  | emitSymbol | putBit | sym1 | sym0 | sym1Inv | sym0Inv => cases h
  | _ => rfl

theorem storesSubBits_of_isReaderStep {i : Instr} (h : Instr.isReaderStep i = true) : Instr.storesSubBits i = false := by
  cases i with
  | dmaXferWord | dmaFollowLink | dmaComplete | dmaError => rfl
  | _ => cases h

theorem State.HostOnly.tail {s t : State} {x : HostItem} (hs : s.HostOnly) (h : s.cmds = x :: t.cmds) : t.HostOnly :=
  fun p i hp => hs p i (h ▸ List.mem_cons_of_mem _ hp)

theorem State.HostOnly.of_cmds {s t : State} (hs : s.HostOnly) (h : t.cmds = s.cmds) : t.HostOnly := fun p i hp => hs p i (h ▸ hp)

theorem HostSees.cmds {i : Instr} {s u : State} (h : HostSees i s u) : u.cmds = s.cmds := by
  obtain h | ⟨r, -, rfl⟩ := h
  · exact (exec_sameProgram h).2
  · rfl

theorem applyStore_cmds (st : Store) (s : State) : (applyStore st s).cmds = s.cmds := by cases st <;> rfl

/-- The host's move takes at most the head off its list (D1). -/
theorem HostMove.hostOnly {s u : State} (hs : s.HostOnly) (h : HostMove s u) : u.HostOnly := by
  cases h with
  | pollWait _ h => exact hs.of_cmds h.cmds
  | pollFinalize _ h => exact hs.of_cmds h.cmds
  | stuck _ h => exact h ▸ hs
  | nothing _ _ h => exact h ▸ hs
  | store st rest _ hc _ h => exact h ▸ (State.HostOnly.tail hs hc).of_cmds (applyStore_cmds st (s.withCmds rest))
  | storeRefused st rest _ hc _ h => exact h ▸ hs.tail hc
  | noOperation p rest r _ hc _ h => exact h ▸ hs.tail hc
  | operation p rest i _ hc _ h => exact (State.HostOnly.tail (t := s.withCmds rest) hs hc).of_cmds h.cmds

theorem step_hostOnly {s t : State} (hs : s.HostOnly) (h : step s = .next t) : t.HostOnly := by
  obtain ⟨u, rfl, ⟨i, -, h⟩ | ⟨v, h⟩ | h⟩ := step_cases h
  · exact hs.of_cmds (exec_sameProgram h).2
  · exact hs.of_cmds (exec_sameProgram h).2
  · exact (h.hostOnly hs).of_cmds rfl

/-- In a run whose host issues only what a host can issue, a property that the DMA reader's steps, the host's operations, the stores and
the machine's own bookkeeping keep is kept by every step. -/
theorem step_keeps_of_hostOnly {P : State → Prop} {s t : State} (hs : P s) (hh : s.HostOnly) (h : step s = .next t)
    (hexec : ∀ i u v, Instr.isReaderStep i = true ∨ i.isHostOp = true → P u → exec i u = .next v → P v)
    (hstore : ∀ st u, P u → P (applyStore st u)) (hcmds : ∀ u rest, P u → P (u.withCmds rest))
    (hrefuse : ∀ u r, P u → P (u.refuse r)) (hadvance : ∀ u, P u → P u.advance) : P t := by
  have hsees : ∀ i u v, i.isHostOp = true → P u → HostSees i u v → P v := by
    rintro i u v hi hu (h | ⟨r, -, rfl⟩)
    · exact hexec i u v (.inr hi) hu h
    · exact hrefuse u r hu
  obtain ⟨u, rfl, ⟨i, hi, h⟩ | ⟨v, h⟩ | h⟩ := step_cases h
  · exact hadvance _ (hexec i s u (.inl (isReaderStep_of_readerStep hi)) hs h)
  · exact hadvance _ (hexec _ s u (.inl rfl) hs h)
  · refine hadvance _ ?_
    cases h with
    | pollWait _ h => exact hsees _ _ _ rfl hs h
    | pollFinalize _ h => exact hsees _ _ _ rfl hs h
    | stuck _ h => exact h ▸ hs
    | nothing _ _ h => exact h ▸ hs
    | store st rest _ _ _ h => exact h ▸ hstore st _ (hcmds s rest hs)
    | storeRefused st rest _ _ _ h => exact h ▸ hrefuse _ _ (hcmds s rest hs)
    | noOperation p rest r _ _ _ h => exact h ▸ hrefuse _ _ (hcmds s rest hs)
    | operation p rest i _ hc hd h =>
      have hi : i.isHostOp = true := hh p i (by rw [hc]; exact List.mem_cons_self) hd
      exact hsees i _ _ hi (hcmds s rest hs) h

/-- Settles O6: the only stores past the longest frame are PRIME's, of the idle value, and those of the operations that no host program
holds. -/
theorem stepKeepsPadding : Obligations.StepKeepsPadding := by
  intro s t hs h
  have key : t.PaddingOk ∧ t.inInit = false := by
    refine step_keeps_of_hostOnly (P := fun u => u.PaddingOk ∧ u.inInit = false) ⟨hs.padding, hs.quiet⟩ hs.hostOnly h
      (fun i u v hi hu hv => ?_)
      (fun st u hu => ⟨hu.1.of_sameBuffer (applyStore_sameBuffer st u), (applyStore_inInit st u).trans hu.2⟩)
      (fun u rest hu => hu) (fun u r hu => hu) (fun u hu => hu)
    have hbits : Instr.storesSubBits i = false := hi.elim storesSubBits_of_isReaderStep storesSubBits_of_isHostOp
    exact exec_keeps_of_effects (P := fun u => u.PaddingOk ∧ u.inInit = false) hu hv
      (fun x y hx hy => ⟨hy.paddingOk hbits hx.2 hx.1, hy.quiet hx.2⟩)
      (fun e hv => ⟨execInit_paddingOk hv, (execInit_buffer hv).1⟩)
  exact ⟨key.1, key.2, step_hostOnly hs.hostOnly h⟩

end Sys2Proof.Machine
end

section
/-!
The power-on values (10_state R40), the caller's stores (R22), ENCODE's ghost updates (R127), and what the wire carries (R63, R161).
-/

namespace Sys2Proof.Machine

/-! ### Reset -/

/-- Settles O1: each value is read off the definition of reset. -/
theorem resetIsPowerOn : Obligations.ResetIsPowerOn :=
  ⟨rfl, rfl, rfl, rfl, rfl, rfl, rfl, rfl, rfl, rfl, rfl, rfl, rfl, rfl, rfl, rfl, rfl⟩

theorem reset_memOk : State.reset.MemOk :=
  ⟨⟨.nil, nofun⟩, ⟨.nil, nofun⟩, ⟨.nil, nofun⟩, .nil, .nil, .nil⟩

theorem resetParams_ok : paramsOk resetParams = true := by decide

theorem reset_chainInv : State.reset.ChainInv := State.chainInv_of_noChain rfl rfl rfl

theorem reset_dirtyInv : State.reset.DirtyInv := ⟨resetParams_ok, rfl, rfl, fun _ hw => absurd hw List.not_mem_nil⟩

theorem reset_visibleInv : State.reset.VisibleInv := State.visibleInv_of_noBuffer rfl rfl

theorem reset_paddingInv : State.reset.PaddingInv :=
  ⟨State.paddingOk_of_neverPrimed rfl, rfl, fun _ _ hp => absurd hp List.not_mem_nil⟩

/-- Settles O7: at reset there is no memory, no chain, no transfer and no buffer, and no channel was primed. -/
theorem resetMeetsInvariants : Obligations.ResetMeetsInvariants :=
  ⟨reset_memOk, reset_chainInv, reset_dirtyInv, reset_visibleInv, reset_paddingInv⟩

/-! ### The caller's stores -/

/-- Where the host moves and its list begins with a store, the store is carried out or refused (R182; log 42). -/
theorem step_store {s : State} {st : Store} {rest : List HostItem} (ht : s.turn = .host) (hb : s.blocked = none)
    (hc : s.cmds = .store st :: rest) :
    step s = advanceOut (hostOutcome (s.withCmds rest) (execStore st (s.withCmds rest))) := by
  simp only [step, move, ht, hostTurn, hb, hc, hostItem]

theorem step_store_finalized {s : State} {st : Store} {rest : List HostItem} (ht : s.turn = .host) (hb : s.blocked = none)
    (hp : s.phase = .finalized) (hc : s.cmds = .store st :: rest) :
    step s = .next ((s.withCmds rest).refuse .wrongPhase).advance := by
  have href : execStore st (s.withCmds rest) = .refused .wrongPhase := if_neg (not_not.mpr hp)
  rw [step_store ht hb hc, href]
  rfl

theorem step_store_of_open {s : State} {st : Store} {rest : List HostItem} (ht : s.turn = .host) (hb : s.blocked = none)
    (hp : s.phase ≠ .finalized) (hc : s.cmds = .store st :: rest) :
    step s = .next (applyStore st (s.withCmds rest)).advance := by
  have hok : execStore st (s.withCmds rest) = .next (applyStore st (s.withCmds rest)) := if_pos hp
  rw [step_store ht hb hc, hok]
  rfl

/-- Settles O12: by the two outcomes of a store, field by field. -/
theorem callerStores : Obligations.CallerStores := by
  intro s rest ht hb
  refine ⟨fun hp st hc => ?_, fun hp => ⟨fun n hc => ?_, fun n hc => ?_, fun c n hc => ?_, fun c b hc => ?_, fun c n hc => ?_⟩⟩
  · rw [step_store_finalized ht hb hp hc, State.refuse, State.withCmds, hb]
  · exact step_store_of_open ht hb hp hc
  · exact step_store_of_open ht hb hp hc
  · exact step_store_of_open ht hb hp hc
  · exact step_store_of_open ht hb hp hc
  · exact step_store_of_open ht hb hp hc

/-- The caller's store of a colour changes that element and no other; the elements between the storage and it stay the free values they read
as (log 21). -/
theorem colourAt_storeColour (l : List Word) (c : Chan) (i j : Nat) (v : Word) :
    colourAt (storeColour l c i v) c j = if j = i then v else colourAt l c j := by
  unfold storeColour colourAt
  split
  · rename_i hi
    simp only [List.getD_eq_getElem?_getD, List.getElem?_set]
    by_cases hj : j = i
    · subst hj; simp [hi]
    · simp [hj, Ne.symm hj]
  · rename_i hi
    rw [List.append_assoc]
    by_cases hj : j < l.length
    · rw [List.getD_append _ _ _ _ hj, if_neg (by omega)]
    · rw [List.getD_append_right _ _ _ _ (by omega), List.getD_eq_default l _ (by omega)]
      by_cases hlt : j < i
      · rw [List.getD_append _ _ _ _ (by simp; omega), if_neg (by omega), List.getD_eq_getElem?_getD,
          List.getElem?_map, List.getElem?_range (by omega)]
        simp [show l.length + (j - l.length) = j by omega]
      · rw [List.getD_append_right _ _ _ _ (by simp; omega)]
        by_cases hj : j = i
        · subst hj; simp
        · rw [if_neg hj, List.getD_eq_default _ _ (by simp; omega)]

/-- Settles O33: by COLOR's guards and the law of a colour's store. -/
theorem colourStore : Obligations.ColourStore := by
  intro c i v s ho
  refine ⟨fun hi => ?_, fun hi => ⟨colorEffect c i v s, ?_, ?_, fun j => ?_⟩⟩
  · show execColor c i v s = _
    rw [execColor, if_pos ho, if_neg (Nat.not_lt.mpr hi)]
  · show execColor c i v s = _
    rw [execColor, if_pos ho, if_pos hi]
  · rw [colorEffect, PerChan.get_set]
  · rw [colorEffect, PerChan.get_set]
    exact colourAt_storeColour _ c i j v

/-! ### ENCODE's ghost updates -/

theorem frameOkAfterEncode_iff (s : State) : s.frameOkAfterEncode = true ↔
    s.primedInv.c0 = some s.invert.c0 ∧ s.primedInv.c1 = some s.invert.c1 ∧
      s.stale.c0 ≤ s.count.c0 ∧ s.stale.c1 ≤ s.count.c1 := by
  simp [State.frameOkAfterEncode, and_assoc]

/-- The words that hold a channel's sub-bits lie below the end of its range (R128). -/
theorem le_channelEnd {w n : Nat} (h : 32 * (w / 2) < 72 * n) : 4 * w + 4 ≤ channelEnd (Chan.ofWord w) n := by
  have hidx := Chan.idx_ofWord w
  rw [channelEnd, if_neg (by omega)]
  omega

theorem channelEnd_le_encodedEnd (s : State) (c : Chan) : channelEnd c (s.count.get c) ≤ s.encodedEnd := by
  cases c
  · exact Nat.le_max_left _ _
  · exact Nat.le_max_right _ _

/-- Settles O24: the ghost elements by ENCODE's definition, the dirty words by the law of its stores. -/
theorem encodeGhostUpdates : Obligations.EncodeGhostUpdates := by
  intro s t h
  obtain ⟨-, -, -, rfl⟩ := execEncode_next h
  exact ⟨frameOkAfterEncode_iff s, rfl, rfl, encodeEffect_dirty s,
    fun w hw => (le_channelEnd hw).trans (channelEnd_le_encodedEnd s _)⟩

/-! ### The wire -/

theorem wireWords_cons_cons (c : Chan) (w0 w1 : Word) (ws : List Word) :
    wireWords c (w0 :: w1 :: ws) = (⟨w0, w1⟩ : PerChan Word).get c :: wireWords c ws := by
  cases c <;> rfl

/-- Of words handed over alternately, a channel gets those of its own (R63). -/
theorem wireWords_range (c : Chan) (k : Nat) : ∀ f : Nat → Word,
    wireWords c ((List.range (2 * k)).map f) = (List.range k).map fun j => f (c.idx + 2 * j) := by
  induction k with
  | zero => intro f; rfl
  | succ k ih =>
    intro f
    have hsplit : (List.range (2 * (k + 1))).map f = f 0 :: f 1 :: (List.range (2 * k)).map fun w => f (w + 2) := by
      rw [show 2 * (k + 1) = 2 * k + 1 + 1 by omega, List.range_succ_eq_map, List.range_succ_eq_map]
      simp [Function.comp_def]
    rw [hsplit, wireWords_cons_cons, ih, List.range_succ_eq_map, List.map_cons, List.map_map]
    cases c
    · rfl
    · exact congrArg _ (List.map_congr_left fun j _ => by simp [Chan.idx]; congr 1)

/-- The bits of words shifted out one after the other (R63). -/
theorem flatMap_wordStream (k : Nat) (f : Nat → Word) : ((List.range k).map f).flatMap wordStream =
    (List.range (32 * k)).map fun n => (f (n / 32)).getLsbD (31 - n % 32) := by
  induction k with
  | zero => rfl
  | succ k ih =>
    rw [List.range_succ, List.map_append, List.flatMap_append, ih, Nat.mul_succ, List.range_add, List.map_append]
    congr 1
    simp only [List.map_cons, List.map_nil, List.flatMap_cons, List.flatMap_nil, List.append_nil, List.map_map, wordStream]
    refine List.map_congr_left fun r hr => ?_
    have hr : r < 32 := List.mem_range.mp hr
    simp only [Function.comp_apply]
    rw [show (32 * k + r) / 32 = k by omega, show (32 * k + r) % 32 = r by omega]

/-- What a channel's wire carries of a whole buffer: its stream bits in order (R63, R88, R161). -/
theorem wireBits_buffer (c : Chan) (m : Memory) (k : Nat) :
    wireBits c ((List.range (2 * k)).map m.readWord) = (List.range (32 * k)).map (bufferBit m c) := by
  rw [wireBits, wireWords_range, flatMap_wordStream]
  rfl

/-- Settles O28: `frameOk` says that the bits past the frame are padding, and that the padding is idle. -/
theorem frameOkGivesWire : Obligations.FrameOkGivesWire := by
  intro s t c hpad h8 h hframe
  obtain ⟨-, -, -, rfl⟩ := execEncode_next h
  obtain ⟨hp0, hp1, hs0, hs1⟩ := (frameOkAfterEncode_iff s).mp hframe
  have hprimed : s.primedInv.get c = some (s.invert.get c) := by cases c <;> assumption
  have hstale : s.stale.get c ≤ s.count.get c := by cases c <;> assumption
  have hwords : (encodeEffect s).bufWords = 2 * (encodeEffect s).chWords := by
    show s.bufBytes / 4 = 2 * (s.bufBytes / 4 / 2)
    omega
  have hidx := Chan.idx_lt c
  rw [hwords, wireBits_buffer]
  refine List.map_congr_left fun n hn => ?_
  have hn : n < 32 * s.chWords := List.mem_range.mp hn
  rw [bufferBit, encodeEffect_readBit _ _ _ (by omega), Chan.ofWord_idx,
    show 32 * ((c.idx + 2 * (n / 32)) / 2) + (31 - (31 - n % 32)) = n by omega]
  split
  · rfl
  · exact hpad c _ hprimed n (by omega) hn

end Sys2Proof.Machine
end

section
/-!
INITIALIZE whose steps all succeed, run forward stage by stage (10_state R41, 42_host_ops R172).
-/

namespace Sys2Proof.Machine

/-! ### Rows that go on -/

theorem runAll_cons_of_ok {f : State → Out} {fs : List (State → Out)} {s u : State} (h : f s = .next u)
    (hu : u.result.isError = false) : runAll (f :: fs) s = runAll fs u := by
  rw [runAll, h, andThen_of_ok _ _ hu]

theorem runAll_append_of_ok (gs : List (State → Out)) {u : State} (hu : u.result.isError = false) (fs : List (State → Out)) :
    ∀ s, runAll fs s = .next u → runAll (fs ++ gs) s = runAll gs u := by
  induction fs with
  | nil => intro s h; cases h; rfl
  | cons f fs ih =>
    intro s h
    obtain ⟨v, hv, ⟨he, rfl⟩ | ⟨hn, h⟩⟩ := andThen_next h
    · rw [hu] at he; cases he
    · rw [List.cons_append, runAll_cons_of_ok hv hn]
      exact ih v h

/-! ### Steps 1 to 6 -/

/-- SIZE's preconditions look at the caller's fields only (R111). -/
theorem sizeRefusal_congr {s t : State} (hf : t.freq = s.freq) (hc : t.count = s.count) (hp : t.params = s.params) :
    sizeRefusal t = sizeRefusal s := by
  rw [sizeRefusal, hf, hc, hp, sizeRefusal]

theorem execSize_of_inInit {s : State} (hq : s.inInit = true) (hr : sizeRefusal s = none) : execSize s = .next (sizeEffect s) := by
  rw [execSize, if_pos hq, hr]

theorem execPrime_of_inInit {s : State} (hq : s.inInit = true) (hd : s.dma.isActive = false) :
    execPrime s = .next (primeEffect s) := by
  simp [execPrime, hq, hd]

theorem execTranslate_of_ok {s : State} {va : Nat} {a : Word} (hq : s.inInit = true) (ha : translateVA s.params va = .ok a) :
    execTranslate va s = .next (s.finish (.addr a)) := by
  rw [execTranslate, if_pos hq, ha]

theorem initBuffer_of_ok {e : InitEnv} {s : State} {va : Nat} (hb : e.bufAlloc = some va)
    (hp : s.pageCount ≤ s.params.maxPages) : initBuffer e s = .next (bufferEffect va s) := by
  simp only [initBuffer, hb]
  exact if_pos hp

/-- What steps 1 to 4 leave, where they succeed (R172). -/
def filled (s : State) (va : Nat) : State := primeEffect (bufferEffect va (sizeEffect (coloursEffect (initStart s))))

/-- What steps 1 to 6 leave, where they succeed (R172). -/
def allocated (s : State) (va dva n : Nat) (b : Word) : State :=
  resolveEffect b ((storageEffect dva n (filled s va)).finish (.addr b))

@[simp] theorem filled_params (s : State) (va : Nat) : (filled s va).params = s.params := by simp [filled]
@[simp] theorem filled_inInit (s : State) (va : Nat) : (filled s va).inInit = true := by simp [filled]
@[simp] theorem filled_bufBytes (s : State) (va : Nat) :
    (filled s va).bufBytes = pwmByteCount s.params (max s.count.c0 s.count.c1) s.freq := by simp [filled]

theorem runAll_bufferSteps {e : InitEnv} {s : State} {T va n : Nat} {b : Word} (h : InitAllocates e s T va n b) :
    runAll (bufferSteps e) (initStart s) = .next (filled s va) := by
  have hcolours : initColours e (initStart s) = .next (coloursEffect (initStart s)) := by rw [initColours, if_pos h.colours]
  have hsize : execSize (coloursEffect (initStart s)) = .next (sizeEffect (coloursEffect (initStart s))) :=
    execSize_of_inInit (by simp) ((sizeRefusal_congr (by simp) (by simp) (by simp)).trans h.sizes)
  have hbuffer := initBuffer_of_ok (s := sizeEffect (coloursEffect (initStart s))) h.buffer
    (by simpa [State.pageCount, ← h.bytes] using h.pages)
  have hprime : execPrime (bufferEffect va (sizeEffect (coloursEffect (initStart s)))) = .next (filled s va) :=
    execPrime_of_inInit (by simp) (by simpa using h.inFlight)
  rw [bufferSteps, runAll_cons_of_ok hcolours (by simp [Result.isError]), runAll_cons_of_ok hsize (by simp [Result.isError]),
    runAll_cons_of_ok hbuffer (by simp [Result.isError]), runAll_cons_of_ok hprime (by simp [filled, Result.isError])]
  rfl

theorem runAll_storageSteps {e : InitEnv} {s : State} {va dva n : Nat} {b : Word} (hs : e.descAlloc = some (dva, n))
    (ht : translateVA s.params dva = .ok b) :
    runAll (storageSteps e) (filled s va) = .next (allocated s va dva n b) := by
  have hstore : initStorage e (filled s va) = .next (storageEffect dva n (filled s va)) := by simp only [initStorage, hs]
  have htr : execTranslate dva (storageEffect dva n (filled s va)) =
      .next ((storageEffect dva n (filled s va)).finish (.addr b)) :=
    execTranslate_of_ok (by simp) (by simpa using ht)
  have hresolve : initResolve e (storageEffect dva n (filled s va)) = .next (allocated s va dva n b) := by
    simp only [initResolve, hs, htr]
    rw [andThen_of_ok _ _ (by simp [Result.isError])]
    simp only [State.finish_result]
    rfl
  rw [storageSteps, runAll_cons_of_ok hstore (by simp [Result.isError]),
    runAll_cons_of_ok hresolve (by simp [allocated, Result.isError])]
  rfl

/-! ### Step 7 -/

/-- `x` after step 7: `b` is what the build, if there was one, left of descriptor storage and the builder. -/
def State.chained (x : State) (pages : List Nat) (b : Build) (head : Option Word) (sizing : Option (Nat × Nat)) (r : Result) :
    State :=
  { x with
    desc := b.desc, descWritten := b.written, bldPages := pages, bldIdx := b.idx, bldRemaining := b.remaining, descDirty := false
    chainValid := x.params.buildAtInit, chainHead := head, chainFor := sizing, result := r, blocked := none, polls := 0 }

/-- BUILD_CHAIN over pages that all translate comes to its end (R145). -/
theorem buildLoop_done_of_translates {p : Params} {bus : Word} {pages : List Nat} {b : Build}
    (h : ∀ i < pages.length, ∃ a, translateVA p (pages.getD i 0) = .ok a) : ∃ b', buildLoop p bus pages 0 b = .done b' := by
  have hspec := buildLoop_spec p bus pages 0 b
  cases hl : buildLoop p bus pages 0 b with
  | done b' => exact ⟨b', rfl⟩
  | failed k b' =>
    rw [hl] at hspec
    obtain ⟨as, hlen, -, -, -, herr⟩ := hspec
    obtain ⟨a, ha⟩ := h as.length (by omega)
    rw [herr] at ha; cases ha
  | outOfRange =>
    rw [hl] at hspec
    obtain ⟨as, hlen, -, hout⟩ := hspec
    obtain ⟨a, ha⟩ := h as.length (by omega)
    rw [hout] at ha; cases ha

/-- `FLUSH desc` after a build, where descriptor storage is cached (R172 step 7). -/
theorem execFlush_desc_of_inInit {s : State} (hq : s.inInit = true) : execFlush .desc s = .next (flushDescEffect s) := by
  simp [execFlush, hq]

/-- BUILD_CHAIN over the handle's own pages, inside INITIALIZE and with all its preconditions, makes a chain that the DMA reader sees
(R145, R172 step 7). -/
theorem buildOwn_of_ok {x : State} (hq : x.inInit = true) (hd : x.dma.isActive = false) (hdirty : x.descDirty = false)
    (hv : x.params.buildAtInit = true) (hr : buildRefusal x.pages x.bufBytes x = none)
    (ht : ∀ i < x.pages.length, ∃ a, translateVA x.params (x.pages.getD i 0) = .ok a) :
    ∃ b r, buildOwn x = .next (x.chained x.pages b x.descBus (some x.sizing) r) ∧ r.isError = false ∧
      ∃ bus va, x.CompleteAt bus va b.desc b.written := by
  obtain ⟨b, hl⟩ := buildLoop_done_of_translates (bus := orZero x.descBus) (b := buildStart x.bufBytes x) ht
  have hrun := execBuildChain_of_ready (.inl hq) hd hr
  rw [buildRun, hl] at hrun
  refine ⟨{ b with desc := terminateLink b.desc b.idx }, if x.params.descUncached then .addr (orZero x.descBus) else .ok, ?_, ?_,
    buildLoop_done_complete hr hl⟩
  · rw [buildOwn, hrun]
    refine (andThen_of_ok _ _ rfl).trans ?_
    by_cases hu : x.params.descUncached = true
    · have hclean : (if b.idx = 0 then x.descDirty else x.descDirtyAfterStore) = false := by
        simp [State.descDirtyAfterStore, hu, hdirty]
      refine (if_pos hu).trans ?_
      simp only [if_pos hu, State.chained, State.finish, State.withBuild, hv, hclean]
    · refine (if_neg hu).trans ((execFlush_desc_of_inInit ?_).trans ?_)
      · exact hq
      simp only [if_neg hu, State.chained, flushDescEffect, State.finish, State.withBuild, hv]
  · split <;> rfl

/-- Step 7 of an INITIALIZE whose chain can be built, or is not to be built (R172, D19). -/
theorem initChain_of_ok {x : State} {bus : Word} (hq : x.inInit = true) (hd : x.dma.isActive = false) (hdirty : x.descDirty = false)
    (hnone : x.chainValid = false) (hok : x.result.isError = false) (hb : x.blocked = none) (hpolls : x.polls = 0)
    (hbus : x.descBus = some bus)
    (hbuild : x.params.buildAtInit = true → buildRefusal x.pages x.bufBytes x = none ∧
      ∀ i < x.pages.length, ∃ a, translateVA x.params (x.pages.getD i 0) = .ok a) :
    ∃ pages b head sizing r, initChain x = .next (x.chained pages b head sizing r) ∧ r.isError = false ∧
      (x.params.buildAtInit = true → head = some bus ∧ sizing = some x.sizing ∧
        ∃ va, x.bufVA = some va ∧ ChainForm x.params b.desc b.written bus va x.pageCount x.bufBytes) ∧
      (x.params.buildAtInit = false → head = x.chainHead ∧ sizing = x.chainFor ∧ b.desc = x.desc ∧ b.written = x.descWritten ∧
        pages = x.bldPages ∧ b.idx = x.bldIdx ∧ b.remaining = x.bldRemaining) := by
  cases hv : x.params.buildAtInit with
  | true =>
    obtain ⟨hr, ht⟩ := hbuild hv
    obtain ⟨b, r, hrun, hrok, bus', va, hc⟩ := buildOwn_of_ok hq hd hdirty hv hr ht
    obtain rfl : bus' = bus := Option.some.inj (hc.descBus.symm.trans hbus)
    exact ⟨x.pages, b, x.descBus, some x.sizing, r, by rw [initChain, if_pos hv, hrun], hrok,
      fun _ => ⟨hbus, rfl, va, hc.bufVA, hc.form⟩, nofun⟩
  | false =>
    refine ⟨x.bldPages, ⟨x.desc, x.descWritten, x.bldIdx, x.bldRemaining⟩, x.chainHead, x.chainFor, x.result, ?_, hok, nofun,
      fun _ => ⟨rfl, rfl, rfl, rfl, rfl, rfl, rfl⟩⟩
    rw [initChain, if_neg (by rw [hv]; decide), State.chained, ← hdirty, hv, ← hnone, ← hb, ← hpolls]

/-! ### Steps 8 to 11 -/

/-- What steps 8 and 9 leave, where they succeed, INITIALIZE being over (R172). -/
def devicesReady (y : State) : State := { pinsEffect (mapEffect y) with inInit := false }

theorem pinOk_congr {s t : State} (hpin : t.pin = s.pin) (hp : t.params = s.params) (c : Chan) : t.pinOk c = s.pinOk c := by
  rw [State.pinOk, hpin, hp, State.pinOk]

theorem runAll_deviceSteps {e : InitEnv} {y : State} (hm : e.mapOk = true) (h0 : y.pinOk .c0 = true) (h1 : y.pinOk .c1 = true) :
    runAll (deviceSteps e) y = .next (pinsEffect (mapEffect y)) := by
  have hmap : initMap e y = .next (mapEffect y) := by rw [initMap, if_pos hm]
  have hpins : initPins (mapEffect y) = .next (pinsEffect (mapEffect y)) := by
    have hok : ((mapEffect y).pinOk .c0 && (mapEffect y).pinOk .c1) = true := by
      simp only [Bool.and_eq_true]
      exact ⟨h0, h1⟩
    rw [initPins, if_pos hok]
  rw [deviceSteps, runAll_cons_of_ok hmap rfl, runAll_cons_of_ok hpins rfl]
  rfl

/-- Steps 10 and 11, or the clock's busy-wait that never ends (R172, R184; log 40). -/
theorem initEnd_of_ok (y : State) : initEnd (pinsEffect (mapEffect y)) =
    if y.params.clockStarts = true then { devicesReady y with phase := .ready, pwmOn := true, fifo := [] }
    else { devicesReady y with result := .none, blocked := some .clock } := by
  obtain ⟨he, -⟩ | ⟨-, ⟨hc, h⟩ | ⟨hc, h⟩⟩ := initEnd_cases (pinsEffect (mapEffect y))
  · cases he
  · have hc : y.params.clockStarts = true := hc
    rw [h, if_pos hc]
    rfl
  · have hc : y.params.clockStarts = false := hc
    rw [h, if_neg (by rw [hc]; decide)]
    rfl

/-! ### The state after step 6 -/

section
variable (s : State) (va dva n : Nat) (b : Word)

@[simp] theorem allocated_params : (allocated s va dva n b).params = s.params := by simp [allocated]
@[simp] theorem allocated_pin : (allocated s va dva n b).pin = s.pin := by simp [allocated, filled]
@[simp] theorem allocated_inInit : (allocated s va dva n b).inInit = true := by simp [allocated]
@[simp] theorem allocated_dma : (allocated s va dva n b).dma = s.dma := by simp [allocated, filled]
@[simp] theorem allocated_result : (allocated s va dva n b).result = .ok := by simp [allocated]
@[simp] theorem allocated_blocked : (allocated s va dva n b).blocked = none := by simp [allocated]
@[simp] theorem allocated_polls : (allocated s va dva n b).polls = 0 := by simp [allocated]
@[simp] theorem allocated_freq : (allocated s va dva n b).freq = s.freq := by simp [allocated, filled]
@[simp] theorem allocated_bufVA : (allocated s va dva n b).bufVA = some va := by simp [allocated, filled]
@[simp] theorem allocated_bufBytes :
    (allocated s va dva n b).bufBytes = pwmByteCount s.params (max s.count.c0 s.count.c1) s.freq := by simp [allocated]
@[simp] theorem allocated_pages : (allocated s va dva n b).pages =
    pageList va (cdiv (pwmByteCount s.params (max s.count.c0 s.count.c1) s.freq) pageSize) := by
  simp [allocated, filled, State.pageCount]
@[simp] theorem allocated_descBus : (allocated s va dva n b).descBus = some b := by simp [allocated]
@[simp] theorem allocated_descBytes : (allocated s va dva n b).descBytes = n := by simp [allocated]
@[simp] theorem allocated_desc : (allocated s va dva n b).desc = [] := by simp [allocated]
@[simp] theorem allocated_descWritten : (allocated s va dva n b).descWritten = [] := by simp [allocated]
@[simp] theorem allocated_descDirty : (allocated s va dva n b).descDirty = s.descDirty := by simp [allocated, filled]
@[simp] theorem allocated_chainValid : (allocated s va dva n b).chainValid = false := by simp [allocated]
@[simp] theorem allocated_chainHead : (allocated s va dva n b).chainHead = s.chainHead := by simp [allocated, filled]
@[simp] theorem allocated_chainFor : (allocated s va dva n b).chainFor = s.chainFor := by simp [allocated, filled]
@[simp] theorem allocated_bldPages : (allocated s va dva n b).bldPages = s.bldPages := by simp [allocated, filled]
@[simp] theorem allocated_bldIdx : (allocated s va dva n b).bldIdx = s.bldIdx := by simp [allocated, filled]
@[simp] theorem allocated_bldRemaining : (allocated s va dva n b).bldRemaining = s.bldRemaining := by simp [allocated, filled]

end

@[simp] theorem length_pageList (va n : Nat) : (pageList va n).length = n := by simp [pageList]

theorem pageList_getD (va : Nat) {n i : Nat} (hi : i < n) : (pageList va n).getD i 0 = va + i * pageSize := by
  simp [pageList, hi]

theorem le_cdiv_mul (n : Nat) : n ≤ cdiv n pageSize * pageSize := by
  unfold cdiv pageSize; omega

/-- The preconditions of BUILD_CHAIN over the handle's own pages, from those of INITIALIZE's operand (R141, R172). -/
theorem buildRefusal_allocated {e : InitEnv} {s : State} {T va n : Nat} {b : Word} (dva : Nat) (h : InitAllocates e s T va n b)
    (ho : OwnBuildOk T va n b) :
    buildRefusal (allocated s va dva n b).pages (allocated s va dva n b).bufBytes (allocated s va dva n b) = none := by
  obtain rfl := h.bytes
  have hpos := ho.positive
  rw [buildRefusal_eq_none_iff, allocated_pages, length_pageList, allocated_bufBytes, allocated_params, allocated_bufVA,
    allocated_descBus, allocated_descBytes]
  exact ⟨pagesOk_pageList (cdiv_pos hpos.ne') h.pages ho.aligned, hpos.ne', ho.words, rfl, le_cdiv_mul _, ho.storage⟩

/-! ### The initialised state -/

/-- The state INITIALIZE leaves before steps 10 and 11, where its steps succeed; `pages`, `bld`, `head`, `sizing` and `r` are what step 7
left (R41, R172). -/
def initialised (s : State) (va dva n : Nat) (b : Word) (pages : List Nat) (bld : Build) (head : Option Word)
    (sizing : Option (Nat × Nat)) (r : Result) : State :=
  devicesReady ((allocated s va dva n b).chained pages bld head sizing r)

section
variable {s : State} {va dva n : Nat} {b : Word} {pages : List Nat} {bld : Build} {head : Option Word}
  {sizing : Option (Nat × Nat)} {r : Result}

/-- Every element is as rule R41 says and nothing else changes. -/
theorem initialised_frame (hq : s.inInit = false) : initialised s va dva n b pages bld head sizing r =
    { s.finish .ok with
      col := ⟨List.replicate s.count.c0 0, List.replicate s.count.c1 0⟩
      maxLeds := max s.count.c0 s.count.c1, bufBytes := pwmByteCount s.params (max s.count.c0 s.count.c1) s.freq
      bufVA := some va
      pages := pageList va (initialised s va dva n b pages bld head sizing r).pageCount
      buf := (initialised s va dva n b pages bld head sizing r).buf, busbuf := [], flushed := []
      dirty := (initialised s va dva n b pages bld head sizing r).dirty
      primedInv := ⟨some s.invert.c0, some s.invert.c1⟩, frameOk := false, stale := ⟨0, 0⟩
      descVA := some dva, descBytes := n, descBus := some b, desc := bld.desc, descWritten := bld.written, descDirty := false
      bldPages := pages, bldIdx := bld.idx, bldRemaining := bld.remaining
      chainValid := s.params.buildAtInit, chainHead := head, chainFor := sizing
      regsMapped := true, pinsBound := true } := by
  simp only [initialised, devicesReady, pinsEffect, mapEffect, State.chained, allocated, resolveEffect, storageEffect, filled,
    primeEffect, bufferEffect, sizeEffect, coloursEffect, initStart, State.finish, hq]
  rfl

/-- Steps 5 to 9 leave the output buffer alone (R172). -/
theorem initialised_sameBuffer : (filled s va).SameBuffer (initialised s va dva n b pages bld head sizing r) := by
  constructor <;> simp [initialised, devicesReady, State.chained, allocated]

/-- The buffer of the initialised state is newly primed (R41, R115). -/
theorem initialised_primed {e : InitEnv} {T : Nat} (h : InitAllocates e s T va n b) :
    (initialised s va dva n b pages bld head sizing r).Primed s.invert :=
  (bufferSteps_primed (runAll_bufferSteps h) (by simp [filled, Result.isError])).of_sameBuffer initialised_sameBuffer

/-- The row of steps comes to its end where step 7 does (R172). -/
theorem runAll_initSteps {e : InitEnv} {T : Nat} (h : InitAllocates e s T va n b) (hdesc : e.descAlloc = some (dva, n))
    (htr : translateVA s.params dva = .ok b) (hm : e.mapOk = true) (h0 : s.pinOk .c0 = true) (h1 : s.pinOk .c1 = true)
    (hrun : initChain (allocated s va dva n b) = .next ((allocated s va dva n b).chained pages bld head sizing r))
    (hr : r.isError = false) : runAll (initSteps e) (initStart s) =
      .next (pinsEffect (mapEffect ((allocated s va dva n b).chained pages bld head sizing r))) := by
  have hpins (c : Chan) : ((allocated s va dva n b).chained pages bld head sizing r).pinOk c = s.pinOk c :=
    pinOk_congr (by simp [State.chained]) (by simp [State.chained]) c
  rw [initSteps_eq, runAll_append_of_ok _ (by simp [filled, Result.isError]) _ _ (runAll_bufferSteps h),
    runAll_append_of_ok _ (by simp [Result.isError]) _ _ (runAll_storageSteps hdesc htr), List.singleton_append,
    runAll_cons_of_ok hrun hr]
  exact runAll_deviceSteps hm ((hpins _).trans h0) ((hpins _).trans h1)

end

/-- Settles O48: INITIALIZE run forward, stage by stage. -/
theorem initializeReachesReady : Obligations.InitializeReachesReady := by
  intro e s T va n b h hdirty hbuild hm h0 h1
  obtain ⟨dva, hdesc, htr⟩ := h.storage
  have hpages : (allocated s va dva n b).pages = pageList va (cdiv T pageSize) := by rw [allocated_pages, h.bytes]
  obtain ⟨pages, bld, head, sizing, r, hrun, hr, hyes, hno⟩ := initChain_of_ok (x := allocated s va dva n b) (bus := b)
    (by simp) (by simpa using h.inFlight) (by simpa using hdirty) (by simp) (by simp [Result.isError]) (by simp) (by simp) (by simp)
    (fun hv => by
      rw [allocated_params] at hv ⊢
      obtain ⟨ho, ht⟩ := hbuild hv
      refine ⟨buildRefusal_allocated dva h ho, fun i hi => ?_⟩
      rw [hpages, length_pageList] at hi
      rw [hpages, pageList_getD va hi]
      exact ht i hi)
  rw [allocated_params] at hyes hno
  have hprimed := initialised_primed (dva := dva) (pages := pages) (bld := bld) (head := head) (sizing := sizing) (r := r) h
  refine ⟨initialised s va dva n b pages bld head sizing r, ?exec, ?frame, ?words, ?dirty, ?yes, ?no⟩
  case exec =>
    show execInit e s = _
    rw [execInit, if_pos ⟨h.phase, h.quiet⟩, h.sizes, runAll_initSteps h hdesc htr hm h0 h1 hrun hr]
    refine congrArg _ ((initEnd_of_ok _).trans ?_)
    simp only [initialised, State.chained, allocated_params]
  case frame =>
    rw [h.bytes, hdesc]
    exact initialised_frame h.quiet
  case words =>
    intro w hw
    rw [hprimed.buf, primeWords_readWord, if_pos hw, idleWord]
  case dirty =>
    intro w
    rw [hprimed.dirty, NatSet.mem_insertAll, List.mem_range]
    exact or_iff_left List.not_mem_nil
  case yes =>
    intro hv
    obtain ⟨rfl, rfl, va', hva, hform⟩ := hyes hv
    obtain rfl : va = va' := by simpa using hva
    rw [initialised_frame h.quiet]
    refine ⟨rfl, by simp [State.sizing, allocated, filled], ?_⟩
    simpa [State.pageCount] using hform
  case no =>
    intro hv
    obtain ⟨rfl, rfl, hd, hw, rfl, hi, hrem⟩ := hno hv
    rw [initialised_frame h.quiet]
    simp [hd, hw, hi, hrem]

end Sys2Proof.Machine
end

section
/-!
The canonical form of memories and index sets (logs 5 and 6): every elementary change and every step of INITIALIZE keeps it.
-/

namespace Sys2Proof.Machine

/-! ### What the canonical form looks at -/

/-- `t` has the memories and the index sets of `s`. -/
structure State.SameMemory (s t : State) : Prop where
  buf : t.buf = s.buf := by rfl
  busbuf : t.busbuf = s.busbuf := by rfl
  desc : t.desc = s.desc := by rfl
  dirty : t.dirty = s.dirty := by rfl
  flushed : t.flushed = s.flushed := by rfl
  descWritten : t.descWritten = s.descWritten := by rfl

theorem State.MemOk.of_sameMemory {s t : State} (hs : s.MemOk) (h : s.SameMemory t) : t.MemOk where
  buf := h.buf ▸ hs.buf
  busbuf := h.busbuf ▸ hs.busbuf
  desc := h.desc ▸ hs.desc
  dirty := h.dirty ▸ hs.dirty
  flushed := h.flushed ▸ hs.flushed
  descWritten := h.descWritten ▸ hs.descWritten

/-- A change of the buffer and its dirty words only. -/
theorem State.MemOk.of_bufferStore {s t : State} (hs : s.MemOk) (hb : Memory.wf t.buf) (hd : NatSet.wf t.dirty)
    (hbus : t.busbuf = s.busbuf := by rfl) (hf : t.flushed = s.flushed := by rfl) (hdesc : t.desc = s.desc := by rfl)
    (hw : t.descWritten = s.descWritten := by rfl) : t.MemOk :=
  ⟨hb, hbus ▸ hs.busbuf, hdesc ▸ hs.desc, hd, hf ▸ hs.flushed, hw ▸ hs.descWritten⟩

/-- A change of descriptor storage and its records only. -/
theorem State.MemOk.of_recordStore {s t : State} (hs : s.MemOk) (hd : Memory.wf t.desc) (hw : NatSet.wf t.descWritten)
    (hb : t.buf = s.buf := by rfl) (hbus : t.busbuf = s.busbuf := by rfl) (hdirty : t.dirty = s.dirty := by rfl)
    (hf : t.flushed = s.flushed := by rfl) : t.MemOk :=
  ⟨hb ▸ hs.buf, hbus ▸ hs.busbuf, hd, hdirty ▸ hs.dirty, hf ▸ hs.flushed, hw⟩

/-! ### Each change -/

theorem primeEffect_memOk {s : State} (hs : s.MemOk) : (primeEffect s).MemOk :=
  hs.of_bufferStore (primeWords_wf _ _ _ hs.buf) (NatSet.wf_insertAll _ _ hs.dirty)

theorem encodeEffect_memOk {s : State} (hs : s.MemOk) : (encodeEffect s).MemOk :=
  have h0 := laneChannel_wf s .c0 s.buf s.dirty hs.buf hs.dirty
  have h1 := laneChannel_wf s .c1 _ _ h0.1 h0.2
  hs.of_bufferStore h1.1 h1.2

theorem putBitEffect_memOk (c : Chan) (x : Bool) {s : State} (hs : s.MemOk) : (putBitEffect c x s).MemOk :=
  hs.of_bufferStore (Memory.wf_writeWord _ _ _ hs.buf) (NatSet.wf_insert _ _ hs.dirty)

theorem flushEffect_memOk (lo hi : Nat) {s : State} (hs : s.MemOk) : (flushEffect lo hi s).MemOk where
  buf := hs.buf
  busbuf := flushWords_wf _ _ _ hs.busbuf
  desc := hs.desc
  dirty := List.Pairwise.filter _ hs.dirty
  flushed := NatSet.wf_insertAll _ _ hs.flushed
  descWritten := hs.descWritten

/-- The loop of BUILD_CHAIN keeps the canonical form, whether it comes to its end or stops at a page (R145, R149). -/
theorem buildLoop_wf {p : Params} {bus : Word} {vas : List Nat} {i : Nat} {b b' : Build} (hd : Memory.wf b.desc)
    (hw : NatSet.wf b.written) (h : buildLoop p bus vas i b = .done b' ∨ ∃ k, buildLoop p bus vas i b = .failed k b') :
    Memory.wf b'.desc ∧ NatSet.wf b'.written := by
  have hspec := buildLoop_spec p bus vas i b
  obtain h | ⟨k, h⟩ := h
  · rw [h] at hspec
    obtain ⟨as, -, -, rfl⟩ := hspec
    exact emitAll_wf p bus as i b hd hw
  · rw [h] at hspec
    obtain ⟨as, -, -, rfl, -⟩ := hspec
    exact emitAll_wf p bus as i b hd hw

theorem Memory.wf_terminateLink (m : Memory) (n : Nat) (h : Memory.wf m) : Memory.wf (terminateLink m n) := Memory.wf_writeWord m _ 0 h

theorem buildRun_memOk {pages : List Nat} {n : Nat} {s t : State} (hs : s.MemOk) (h : buildRun pages n s = .next t) : t.MemOk := by
  obtain ⟨b, hl, rfl⟩ | ⟨k, b, hl, rfl⟩ := buildRun_next h
  · obtain ⟨hd, hw⟩ := buildLoop_wf hs.desc hs.descWritten (.inl hl)
    exact hs.of_recordStore (Memory.wf_terminateLink b.desc b.idx hd) hw
  · obtain ⟨hd, hw⟩ := buildLoop_wf hs.desc hs.descWritten (.inr ⟨k, hl⟩)
    exact hs.of_recordStore hd hw

/-- What a rollback or FINALIZE releases holds nothing (R173, R179). -/
theorem State.memOk_powerOn (s : State) : s.powerOn.MemOk := reset_memOk.of_sameMemory {}

theorem Effect.memOk {i : Instr} {s t : State} (hs : s.MemOk) (h : Effect i s t) : t.MemOk := by
  cases h with
  | prime => exact primeEffect_memOk hs
  | encode => exact encodeEffect_memOk hs
  | putBit c x => exact putBitEffect_memOk c x hs
  | build pages n t _ _ _ h => exact buildRun_memOk hs h
  | emitDesc k a =>
    have hd : Memory.wf (emitDescEffect k a s).desc := by rw [emitDescEffect_desc]; exact Memory.wf_writeDesc _ _ _ hs.desc
    exact hs.of_recordStore hd (NatSet.wf_insert s.descWritten k hs.descWritten) (emitDescEffect_buf k a s)
      (emitDescEffect_busbuf k a s) (emitDescEffect_dirty k a s) (emitDescEffect_flushed k a s)
  | terminate n => exact hs.of_recordStore (Memory.wf_terminateLink s.desc n hs.desc) hs.descWritten
  | tiWord k => exact hs.of_recordStore (Memory.wf_writeWord s.desc (descWord k 0) s.params.tiWord hs.desc) hs.descWritten
  | desc k r => exact hs.of_recordStore (Memory.wf_writeDesc s.desc k r hs.desc) (NatSet.wf_insert _ _ hs.descWritten)
  | flush lo hi => exact flushEffect_memOk lo hi hs
  | finalize => exact (State.memOk_powerOn (finalizeStop s)).of_sameMemory {}
  | _ => exact hs.of_sameMemory {}

/-! ### INITIALIZE -/

theorem bufferEffect_memOk (va : Nat) {s : State} (hs : s.MemOk) : (bufferEffect va s).MemOk where
  buf := ⟨.nil, nofun⟩
  busbuf := ⟨.nil, nofun⟩
  desc := hs.desc
  dirty := .nil
  flushed := .nil
  descWritten := hs.descWritten

theorem storageEffect_memOk (va n : Nat) {s : State} (hs : s.MemOk) : (storageEffect va n s).MemOk :=
  hs.of_recordStore ⟨.nil, nofun⟩ .nil

/-- The steps of INITIALIZE keep the canonical form: those that allocate leave empty memories (R172). -/
theorem initSteps_memOk {e : InitEnv} {s t : State} (hs : s.MemOk) (h : runAll (initSteps e) s = .next t) : t.MemOk := by
  refine initSteps_keeps hs h ?colours ?size ?buffer ?prime ?storage ?translate (fun u a hu => hu.of_sameMemory {})
    (fun u k hu => hu.of_sameMemory {}) ?build ?flush (fun u hu => hu.of_sameMemory {}) (fun u hu => hu.of_sameMemory {})
  case colours =>
    intro u v hu hv
    obtain rfl | rfl := initColours_next hv <;> exact hu.of_sameMemory {}
  case size => exact fun u v hu hv => (Effect.of_execSize (i := .size) hv).memOk hu
  case buffer =>
    intro u v hu hv
    obtain ⟨va, -, -, rfl⟩ | rfl := initBuffer_next hv
    · exact bufferEffect_memOk va hu
    · exact hu.of_sameMemory {}
  case prime => exact fun u v hu hv => (Effect.of_execPrime (i := .prime) hv).memOk hu
  case storage =>
    intro u v hu hv
    obtain ⟨va, n, rfl⟩ | rfl := initStorage_next hv
    · exact storageEffect_memOk va n hu
    · exact hu.of_sameMemory {}
  case translate => exact fun va u v hu hv => (Effect.of_execTranslate (i := .translate va) hv).memOk hu
  case build => exact fun u v hu hv => (Effect.of_execBuildChain (i := .init e) hv).memOk hu
  case flush => exact fun u v hu hv => (Effect.of_execFlush (i := .flush .desc) hv).memOk hu

theorem execInit_memOk {e : InitEnv} {s t : State} (hs : s.MemOk) (h : execInit e s = .next t) : t.MemOk := by
  obtain ⟨-, -, -, u, hu, rfl⟩ := execInit_next h
  have hu : u.MemOk := initSteps_memOk (hs.of_sameMemory {}) hu
  obtain ⟨-, hend⟩ | ⟨-, ⟨-, hend⟩ | ⟨-, hend⟩⟩ := initEnd_cases u
  · rw [hend]; exact State.memOk_powerOn u
  · rw [hend]; exact hu.of_sameMemory {}
  · rw [hend]; exact hu.of_sameMemory {}

/-! ### Every step -/

theorem applyStore_memOk (st : Store) {s : State} (hs : s.MemOk) : (applyStore st s).MemOk := by
  cases st <;> exact hs.of_sameMemory {}

/-- Settles O3: every store to a memory or an index set keeps its canonical form, and what is allocated or released is empty. -/
theorem stepKeepsCanonicalMemory : Obligations.StepKeepsCanonicalMemory := by
  intro s t hs h
  exact step_keeps_of_effects hs h (fun i u v hu hv => hv.memOk hu) (fun e u v hu hv => execInit_memOk hu hv)
    (fun st u hu => applyStore_memOk st hu) (fun u rest hu => hu.of_sameMemory {}) (fun u r _ hu => hu.of_sameMemory {})
    (fun u hu => hu.of_sameMemory {})

end Sys2Proof.Machine
end

section
/-!
The words of the buffer one by one: PUT_BIT's store (40_encoder R119), what FLUSH copies and cleans (20_memory R62), and what the DMA
reader gets and transfers (20_memory R61, R64, 41_dma_chain R156).
-/

namespace Sys2Proof.Machine

/-! ### PUT_BIT -/

/-- What sub-bits stored in a row leave (R118, R119). -/
def rowEffect (c : Chan) (xs : List Bool) (s : State) : State :=
  let l := xs.foldl (lanePutBit c) ⟨s.buf, s.dirty, s.cursor.get c⟩
  { s.finish .ok with buf := l.buf, dirty := l.dirty, cursor := s.cursor.set c l.cur }

theorem putBitEffect_eq_rowEffect (c : Chan) (x : Bool) (s : State) : putBitEffect c x s = rowEffect c [x] s := rfl

/-- A row of stores is what rules R118 and R119 say of it: by the laws of the lane it runs on. -/
theorem storedBits_rowEffect (c : Chan) {xs : List Bool} (hxs : xs ≠ []) (s : State) : StoredBits c xs s (rowEffect c xs s) where
  frame := by rw [rowEffect, PerChan.get_set]
  cursor := by
    rw [rowEffect, PerChan.get_set]
    exact laneFold_streamBit c xs _
  bits := laneFold_readBit c xs _
  bytes := laneFold_readByte c xs ⟨s.buf, s.dirty, s.cursor.get c⟩
  dirty w := by
    have h := laneFold_dirty c xs ⟨s.buf, s.dirty, s.cursor.get c⟩ w
    rwa [and_iff_left hxs] at h

/-- Settles O32: by PUT_BIT's two checks, and the law of a row of one store. -/
theorem putBitAssigns : Obligations.PutBitAssigns := by
  intro c x s ho
  refine ⟨fun hd => ?_, fun hd hw => ?_, fun hd hw => ⟨putBitEffect c x s, putBitStep_of_fits ho hd hw, ?_, ?_⟩⟩
  · show putBitStep c x s = _
    rw [putBitStep, if_pos ho, if_pos hd]
  · show putBitStep c x s = _
    rw [putBitStep, if_pos ho, if_neg (by rw [hd]; decide)]
    exact if_neg (Nat.not_lt.mpr hw)
  · rw [putBitEffect_eq_rowEffect]
    exact storedBits_rowEffect c (List.cons_ne_nil x []) s
  · exact PerChan.get_set _ _ _ _

/-! ### FLUSH -/

/-- Every word of the DMA view after a FLUSH: the host's, where the range covers it, or the one before (R62). -/
theorem flushEffect_readWord (lo hi : Nat) (s : State) (w : Nat) : (flushEffect lo hi s).busbuf.readWord w =
    if 4 * w < hi ∧ lo < 4 * w + 4 then s.buf.readWord w else s.busbuf.readWord w := by
  simp only [flushEffect_busbuf, flushWords_readWord, mem_coveredWords]

/-- Settles O43: the copied words by the law of FLUSH's copies, the sets by the range's covered words. -/
theorem flushCoversRange : Obligations.FlushCoversRange := by
  intro s ho
  have hopen : (s.inInit || s.isOpen) = true := by rw [ho, Bool.or_true]
  refine ⟨fun lo hi hbad => ?_, fun lo hi h1 h2 => ⟨flushEffect lo hi s, execFlush_of_range ho h1 h2, rfl, fun w hhi hlo => ?_,
    fun a ha => ?_, fun w => ?_, fun w => ?_⟩, if_pos hopen⟩
  · show execFlush (.range lo hi) s = _
    rw [execFlush, if_pos hopen]
    exact if_neg hbad
  · rw [flushEffect_readWord, if_pos ⟨hhi, hlo⟩]
  · refine Memory.readByte_congr _ _ a ?_
    rw [flushEffect_readWord, if_neg ha]
  · rw [mem_flushEffect_dirty, mem_coveredWords]
  · rw [flushEffect_flushed, NatSet.mem_insertAll, mem_coveredWords, or_comm]

/-! ### What the DMA reader gets -/

/-- While the two views and their sets stay as a FLUSH left them, a read of a word it covered gives what the host's buffer held (R62, R64). -/
theorem busRead_after_flush {lo hi w : Nat} {s u : State} (hw : 4 * w < hi ∧ lo < 4 * w + 4)
    (hbus : u.busbuf = (flushEffect lo hi s).busbuf) (hdirty : u.dirty = (flushEffect lo hi s).dirty)
    (hflushed : u.flushed = (flushEffect lo hi s).flushed) : u.busRead w = s.buf.readWord w := by
  have hcov : w ∈ coveredWords lo hi := (mem_coveredWords lo hi w).mpr hw
  have hclean : w ∉ u.dirty := by
    rw [hdirty, mem_flushEffect_dirty]
    exact fun h => h.2 hcov
  have hf : w ∈ u.flushed := by
    rw [hflushed, flushEffect_flushed, NatSet.mem_insertAll]
    exact .inl hcov
  rw [busRead_of_clean hclean hf, hbus, flushEffect_readWord, if_pos hw]

/-- Settles O44: by the two cases of a read, and since a FLUSH leaves the words it covers clean and copied. -/
theorem readerSeesFlushedWords : Obligations.ReaderSeesFlushedWords := by
  refine ⟨fun s w hw => ?_, fun s t lo hi w h hhi hlo u _ hbus hdirty hflushed => ?_⟩
  · have hold : s.oldWord w = s.busbuf.readWord w := if_pos hw
    rw [← hold]
    exact busRead_cases s w
  · have h : execFlush (.range lo hi) s = .next t := h
    obtain ⟨-, ⟨lo', hi', ha, -, -, rfl⟩ | ⟨ha, -⟩⟩ := execFlush_next h
    · cases ha
      exact busRead_after_flush ⟨hhi, hlo⟩ hbus hdirty hflushed
    · cases ha

/-! ### One word's transfer -/

/-- What stands in the record at which a transfer in flight is (R150, R156): record `d` of the chain, over page `d` of the buffer at virtual
address `va`. -/
structure State.InRecord (s : State) (va d o : Nat) : Prop where
  bufVA : s.bufVA = some va
  inChain : d < s.pageCount
  written : d ∈ s.descWritten
  src : translateVA s.params (va + d * pageSize) = .ok (s.desc.readDesc d).src
  dst : (s.desc.readDesc d).dst = s.params.fifoBus
  len : (s.desc.readDesc d).len.toNat = min pageSize (s.bufBytes - d * pageSize)
  words : s.bufBytes % 4 = 0
  aligned : o % 4 = 0

theorem State.ChainInv.inRecord {s : State} {d o : Nat} (hs : s.ChainInv) (hd : s.dma = .active d o)
    (hst : s.descStands = true) : ∃ va, s.InRecord va d o := by
  obtain ⟨-, hv, hin⟩ := hs.transfer d o hd
  obtain ⟨hlt, h4, -⟩ := hin hst
  obtain ⟨b, va, -, -, hva, -, -, -, hwords, -, hform⟩ := hs.chain hv
  exact ⟨va, hva, hlt, hform.written d hlt, hform.src d hlt, hform.dst d hlt, hform.len d hlt, hwords, h4⟩

/-- An offset inside a record is one inside its page, at a word of the buffer (R52, R151). -/
theorem State.InRecord.offset_lt {s : State} {va d o : Nat} (h : s.InRecord va d o) (ho : o < (s.desc.readDesc d).len.toNat) :
    o < pageSize ∧ (d * pageSize + o) / 4 < s.bufWords := by
  have hlen := h.len
  have h4 := h.aligned
  have hwords := h.words
  unfold State.bufWords
  omega

/-- The reader's word step in a record it can load: the word's transfer, or no step at the record's end (R156). -/
theorem execDmaXferWord_of_loadable {s : State} {d o : Nat} (hd : s.dma = .active d o) (hl : s.loadable d = true) :
    execDmaXferWord s = if o < (s.loaded d).len.toNat then .next (xferEffect d o s) else .refused .noAgentStep := by
  simp only [execDmaXferWord, hd, hl, true_and]

/-- A word's transfer from descriptor storage that stands, out of a record of the chain: to the FIFO goes what is read at its source. -/
theorem State.InRecord.execDmaXferWord_eq {s : State} {va d o : Nat} (h : s.InRecord va d o) (hd : s.dma = .active d o)
    (hst : s.descStands = true) (ho : o < (s.desc.readDesc d).len.toNat) :
    execDmaXferWord s = .next { s with
      fifo := s.fifo ++ [s.sourceRead d o], dma := .active d (o + 4), draws := s.draws + s.sourceDraws d o } := by
  rw [execDmaXferWord_of_loadable hd ((loadable_of_stands hst d).mpr h.written), loaded_of_stands hst, if_pos ho, xferEffect,
    loaded_of_stands hst, if_pos h.dst]

/-- Where a word of the buffer stands at the source, it is read as the DMA view gives it (R61). -/
theorem sourceRead_of_some {s : State} {d o w : Nat} (h : s.sourceWord d o = some w) : s.sourceRead d o = s.busRead w := by
  rw [State.sourceRead, h]

theorem sourceDraws_of_some {s : State} {d o w : Nat} (h : s.sourceWord d o = some w) :
    s.sourceDraws d o = if w ∈ s.dirty then 1 else 0 := by
  rw [State.sourceDraws, h]

/-- Where none does, a free value is read (R234; log 29). -/
theorem sourceRead_of_none {s : State} {d o : Nat} (h : s.sourceWord d o = none) :
    s.sourceRead d o = Config.foreignWord s.draws ((s.loaded d).src + BitVec.ofNat 32 o) := by
  rw [State.sourceRead, h]

theorem sourceDraws_of_none {s : State} {d o : Nat} (h : s.sourceWord d o = none) : s.sourceDraws d o = 1 := by
  rw [State.sourceDraws, h]

theorem sourceWord_of_noPage {s : State} {d o : Nat} (h : s.pageAt (s.loaded d).src = none) : s.sourceWord d o = none := by
  rw [State.sourceWord, h]

/-- Where the oracle answered the frames that back the pages, the source of record `d` is page `d` (R52, R234). -/
theorem State.InRecord.sourceWord_eq {s : State} {va d o : Nat} (h : s.InRecord va d o) (hor : s.OracleOk)
    (ho : o < (s.desc.readDesc d).len.toNat) : s.sourceWord d o = some ((d * pageSize + o) / 4) := by
  have hpage : s.pageAt (s.loaded d).src = some d := by
    rw [loaded_of_stands hor.storage]
    exact hor.pages va h.bufVA d h.inChain _ h.src
  obtain ⟨hlt, hw⟩ := h.offset_lt ho
  exact sourceWord_of_page hpage hlt hw

/-- Settles O56: the record at which the transfer stands is the chain's, or, where descriptor storage is misresolved, the free one. -/
theorem readerTransfersWord : Obligations.ReaderTransfersWord := by
  intro s d o hs hd
  refine ⟨fun hor ho => ?_, fun hst ho hno => ?_, fun r hst hr => ?_⟩
  · obtain ⟨va, hrec⟩ := hs.inRecord hd hor.storage
    have hsrc := hrec.sourceWord_eq hor ho
    refine (hrec.execDmaXferWord_eq hd hor.storage ho).trans ?_
    rw [sourceRead_of_some hsrc, sourceDraws_of_some hsrc, add_ite]
    rfl
  · obtain ⟨va, hrec⟩ := hs.inRecord hd hst
    rw [← loaded_of_stands hst] at hno
    have hsrc : s.sourceWord d o = none := sourceWord_of_noPage hno
    refine (hrec.execDmaXferWord_eq hd hst ho).trans ?_
    rw [sourceRead_of_none hsrc, sourceDraws_of_none hsrc, loaded_of_stands hst]
  · have hload : s.loaded d = r := (loaded_of_misled hst d).trans hr.symm
    refine (execDmaXferWord_of_loadable hd (loadable_of_misled hst d)).trans ?_
    rw [xferEffect, hload]

end Sys2Proof.Machine
end

section
/-!
The decoder and the encoder (30_encoding R80, R85, R90, R91, R93, R95, R96, R98), and how a step issues what was decoded (92 D1).
-/

namespace Sys2Proof.Machine

/-! ### Decoding an encoded operation -/

/-- A byte string of whole words decodes to those words (R53, R91). -/
theorem wordsOfBytes_flatMap_bytesOfWord (ws : List Word) : wordsOfBytes (ws.flatMap bytesOfWord) = some ws := by
  induction ws with
  | nil => rfl
  | cons w ws ih =>
    show wordsOfBytes (byteOfWord w 0 :: byteOfWord w 1 :: byteOfWord w 2 :: byteOfWord w 3 :: ws.flatMap bytesOfWord) = _
    rw [wordsOfBytes, ih, wordOfBytes_byteOfWord]

theorem decode_encode_reservedAB (x : BitVec 1) : decode (encode (.reservedAB x)) = .ok (.reservedAB x) := by
  obtain ⟨x⟩ := x
  fin_cases x <;> rfl

theorem decode_encode_reservedCF (x : BitVec 2) : decode (encode (.reservedCF x)) = .ok (.reservedCF x) := by
  obtain ⟨x⟩ := x
  fin_cases x <;> rfl

theorem decode_encode_color (c : Chan) (i : Nat) (v : Word) : decode (encode (.color c i v)) = .ok (.color c i v) := by
  show Except.ok (Instr.color c i _) = _
  rw [wordOfBytes_byteOfWord]

theorem decode_encode_busaddr (f : BitVec 20) (o : BitVec 12) : decode (encode (.busaddr f o)) = .ok (.busaddr f o) := by
  show Except.ok (Instr.busaddr (BitVec.extractLsb' 12 20 (wordOfBytes _ _ _ _)) (BitVec.extractLsb' 0 12 (wordOfBytes _ _ _ _))) = _
  rw [wordOfBytes_byteOfWord, BitVec.extractLsb'_append_eq_right, BitVec.extractLsb'_append_eq_left]

theorem decodeDesc_wordsOfDesc {r : Desc} (i : Nat) (hr : r.wf = true) : decodeDesc (wordsOfDesc r) i = .ok (.desc i r) := by
  simp only [decodeDesc, wordsOfDesc, true_and, if_true]
  exact if_pos hr

theorem decode_encode_desc (i : Nat) {r : Desc} (hr : r.wf = true) : decode (encode (.desc i r)) = .ok (.desc i r) := by
  show decodeWord .desc ((wordsOfDesc r).flatMap bytesOfWord) _ = _
  simp only [decodeWord, wordsOfBytes_flatMap_bytesOfWord]
  exact decodeDesc_wordsOfDesc i hr

theorem decode_named {i : Instr} (hn : i.isNamed = true) (hw : i.wf = true) : decode (.named i) = .ok i :=
  (if_pos hn).trans (if_pos hw)

/-- Settles O14: operation by operation; a code is read off the tables, a word is put together again from its bytes, and an operation
without a code is carried by its name. -/
theorem decodeEncode : Obligations.DecodeEncode := by
  intro i hw
  cases i with
  | size | prime | encode | translate | buildChain | flush | dmaStart | wait | reserved0 | reserved9 => rfl
  | reservedAB x => exact decode_encode_reservedAB x
  | reservedCF x => exact decode_encode_reservedCF x
  | sym1 | sym0 | sym1Inv | sym0Inv | tiWord => rfl
  | color c k v => exact decode_encode_color c k v
  | busaddr f o => exact decode_encode_busaddr f o
  | desc k r => exact decode_encode_desc k hw
  | init | render | finalize | expandLed | emitSymbol | putBit | emitDesc | terminate | dmaXferWord | dmaFollowLink | dmaComplete
  | dmaError => exact decode_named rfl hw

/-! ### What the decoder can answer -/

theorem decodeCmd_wf (op : BitVec 4) (p : Ports) : (decodeCmd op p).wf = true := by
  unfold decodeCmd
  split <;> rfl

theorem decodeSymbol_wf {b : BitVec 3} {p : Ports} {i : Instr} (h : decodeSymbol b p = .ok i) : i.wf = true := by
  unfold decodeSymbol at h
  split at h <;> cases h <;> rfl

theorem decodeDesc_wf {ws : List Word} {k : Nat} {i : Instr} (h : decodeDesc ws k = .ok i) : i.wf = true := by
  unfold decodeDesc at h
  split at h
  · split at h
    · dsimp only at h
      split at h <;> cases h
      assumption
    · cases h
  · cases h

theorem decodeWord_wf {fmt : Format} {bytes : List Byte} {p : Ports} {i : Instr} (h : decodeWord fmt bytes p = .ok i) :
    i.wf = true := by
  unfold decodeWord at h
  split at h
  · split at h <;> cases h
    exact decodeCmd_wf _ p
  · split at h
    · exact decodeSymbol_wf h
    · cases h
  · cases h; rfl
  · split at h <;> cases h; rfl
  · cases h; rfl
  · split at h
    · exact decodeDesc_wf h
    · cases h
  · cases h

/-- Settles O15: a word's operation by its format's table, an operation given by name by the decoder's own check. -/
theorem decodeIsWellFormed : Obligations.DecodeIsWellFormed := by
  intro p i h
  cases p with
  | word fmt bytes ports => exact decodeWord_wf h
  | named j =>
    simp only [decode] at h
    split at h
    · split at h <;> cases h
      assumption
    · cases h

/-- Settles O16: each code is a row of the operation map. -/
theorem commandCodes : Obligations.CommandCodes := fun _ =>
  ⟨rfl, rfl, rfl, rfl, rfl, rfl, rfl, rfl, rfl, rfl, rfl, rfl, rfl, rfl, rfl, rfl⟩

/-- Settles O17: no reserved row looks at the state. -/
theorem reservedCodesRefused : Obligations.ReservedCodesRefused := fun _ _ _ => ⟨rfl, rfl, rfl, rfl⟩

/-! ### A step issues what was decoded -/

/-- Where the host moves and its list begins with a packet that decodes, the operation is issued (D1). -/
theorem step_issue {s : State} {p : Packet} {i : Instr} {rest : List HostItem} (ht : s.turn = .host) (hb : s.blocked = none)
    (hc : s.cmds = .issue p :: rest) (hd : decode p = .ok i) :
    step s = advanceOut (hostOutcome (s.withCmds rest) (exec i (s.withCmds rest))) := by
  simp only [step, move, ht, hostTurn, hb, hc, hostItem, hd, hostIssue]

theorem decodeTableWord_eq_some {nbits w : Nat} {i : Instr} (h : decodeTableWord nbits w = some i) :
    decode (packetOfTable nbits w) = .ok i := by
  unfold decodeTableWord at h
  split at h <;> cases h
  assumption

/-- Settles O10: a table row's bits are placed as a packet at the head of the list. -/
theorem stepRunsDecoded : Obligations.StepRunsDecoded :=
  ⟨fun _ _ _ _ ht hb hc hd _ => step_issue ht hb hc hd,
    fun s nbits w _ h => step_issue (s := s.withFetchWord nbits w) rfl rfl rfl (decodeTableWord_eq_some h)⟩

end Sys2Proof.Machine
end

section
/-!
The symbol code and the stores of symbols (30_encoding R85, R86, R87, 40_encoder R118, R119), and the stores of descriptor records
(30_encoding R90, R91, R93, R95, 41_dma_chain R146).
-/

namespace Sys2Proof.Machine

/-! ### The symbol code -/

/-- Settles O30: by the table, row by row. -/
theorem symbolTable : Obligations.SymbolTable :=
  ⟨rfl, rfl, rfl, rfl, fun d => by cases d <;> rfl⟩

/-- The middle bit of a symbol is its data bit, exclusive-or the inversion (R85, R87). -/
theorem sym_getLsbD_one (d inv : Bool) : (sym d inv).getLsbD 1 = d.xor inv := by
  cases d <;> cases inv <;> rfl

/-- Stream bit `3*q + 1` of a channel is data bit `q`, exclusive-or the inversion (R87, R122). -/
theorem streamValue_middle (l : List Word) (c : Chan) (inv : Bool) (q : Nat) :
    streamValue l c inv (3 * q + 1) = (dataBitOf l c q).xor inv := by
  have hpos : posOfStreamBit (3 * q + 1) = ⟨q / 24, q % 24 / 8, 7 - q % 8, 1⟩ := by
    simp only [posOfStreamBit, EncPos.mk.injEq]
    omega
  rw [streamValue, hpos]
  exact sym_getLsbD_one _ inv

/-- A data stream bit as it stands in the buffer after ENCODE (R122). -/
theorem bufferBit_encodeEffect {s : State} {c : Chan} {n : Nat} (hn : n < 72 * s.count.get c) :
    bufferBit (encodeEffect s).buf c n = streamValue (s.col.get c) c (s.invert.get c) n := by
  have hidx := Chan.idx_lt c
  rw [bufferBit, encodeEffect_readBit _ _ _ (by omega), Chan.ofWord_idx,
    show 32 * ((c.idx + 2 * (n / 32)) / 2) + (31 - (31 - n % 32)) = n by omega, if_pos hn]

/-- Settles O26: the middle bit of each symbol, the inversion undone. -/
theorem encodedFrameDecodes : Obligations.EncodedFrameDecodes := by
  intro s t c q h hq
  obtain ⟨-, -, -, rfl⟩ := execEncode_next h
  rw [decodeDataBit, bufferBit_encodeEffect (by omega), streamValue_middle, Bool.xor_assoc, Bool.xor_self, Bool.xor_false]

/-! ### Stores of sub-bits in a row -/

@[simp] theorem PerChan.set_set {α : Type} (v : PerChan α) (c : Chan) (x y : α) : (v.set c x).set c y = v.set c y := by
  cases c <;> rfl

/-- A row of stores after one store is the row of all of them. -/
theorem rowEffect_putBitEffect (c : Chan) (x : Bool) (xs : List Bool) (s : State) :
    rowEffect c xs (putBitEffect c x s) = rowEffect c (x :: xs) s := by
  simp only [rowEffect, putBitEffect, PerChan.get_set, PerChan.set_set, List.foldl_cons]
  rfl

theorem laneWord_eq_streamBit (c : Chan) (k : Cursor) : laneWord c k = c.idx + 2 * (k.streamBit / 32) := by
  rw [laneWord, (Cursor.eq_of_streamBit k).1]

/-- A row of stores whose last sub-bit has room is carried out (R118, R119). -/
theorem putBits_of_fits {c : Chan} (xs : List Bool) : ∀ (x : Bool) (s : State), s.isOpen = true → s.dma.isActive = false →
    c.idx + 2 * (((s.cursor.get c).streamBit + xs.length) / 32) < s.bufWords →
      putBits c (x :: xs) s = .next (rowEffect c (x :: xs) s) := by
  induction xs with
  | nil =>
    intro x s ho hd hw
    have hstep := putBitStep_of_fits (c := c) (x := x) ho hd (by rw [laneWord_eq_streamBit]; exact hw)
    exact runAll_cons_of_ok hstep rfl
  | cons y ys ih =>
    intro x s ho hd hw
    rw [List.length_cons] at hw
    have hstep := putBitStep_of_fits (c := c) (x := x) ho hd (by rw [laneWord_eq_streamBit]; omega)
    have hcur : ((putBitEffect c x s).cursor.get c).streamBit = (s.cursor.get c).streamBit + 1 := by
      rw [putBitEffect, PerChan.get_set]
      exact Cursor.streamBit_next _
    have hrest := ih y (putBitEffect c x s) ho hd (by rw [hcur, Nat.add_right_comm]; exact hw)
    rw [rowEffect_putBitEffect] at hrest
    exact (runAll_cons_of_ok hstep rfl).trans hrest

/-- A symbol's three bits with room at the cursor (R118). -/
theorem putBits_symbol {c : Chan} {s : State} (ho : s.isOpen = true) (hd : s.dma.isActive = false)
    (hw : c.idx + 2 * (((s.cursor.get c).streamBit + 2) / 32) < s.bufWords) (x : BitVec 3) :
    ∃ t, putBits c (symbolBits x) s = .next t ∧ StoredBits c (symbolBits x) s t :=
  ⟨_, putBits_of_fits _ _ s ho hd hw, storedBits_rowEffect c (List.cons_ne_nil _ _) s⟩

/-- Settles O31: each of the operations is the row of its symbol's bits. -/
theorem symbolsAreStored : Obligations.SymbolsAreStored := by
  intro c s ho hd hw
  have row := putBits_symbol ho hd hw
  exact ⟨fun d => row (sym d (s.invert.get c)), row 0b110#3, row 0b100#3, row 0b001#3, row 0b011#3⟩

/-! ### Bus addresses -/

/-- Settles O35: the alias has no bit in the page offset, so it changes the frame only. -/
theorem busAddressFields : Obligations.BusAddressFields := by
  intro f o s hp ha
  have hlow : s.params.aliasBit.extractLsb' 0 12 = 0#12 := by
    have hall : (0xFFF#32).extractLsb' 0 12 = BitVec.allOnes 12 := by decide
    have hand := congrArg (BitVec.extractLsb' 0 12) ha
    rwa [BitVec.extractLsb'_and, hall, BitVec.and_allOnes] at hand
  refine ⟨busAddress s.params.aliasBit f o, if_pos (by simpa using hp), ?_, ?_⟩
  · rw [busAddress, BitVec.extractLsb'_or, BitVec.extractLsb'_append_eq_right, hlow, BitVec.or_zero]
  · rw [busAddress, BitVec.extractLsb'_or, BitVec.extractLsb'_append_eq_left]

/-! ### Descriptor records -/

/-- Settles O40: EMIT_DESC is one record's store, with the builder's step. -/
theorem emitDescWritesRecord : Obligations.EmitDescWritesRecord := by
  intro i s b src hp hd hc hi hb ho hl hr ht
  have hdesc : (emitDescEffect i src s).desc = s.desc.writeDesc i (descRecord s.params b i s.bldRemaining src) := by
    rw [emitDescEffect_desc, hb]
    rfl
  refine ⟨emitDescEffect i src s, execEmitDesc_of_build hp hd hc hi ho hl hr ht, rfl, fun j => ?_, ?_, fun a ha => ?_, fun j => ?_⟩
  · rw [hdesc, Memory.readDesc_writeDesc]
    rfl
  · rw [hdesc]
    exact ⟨Memory.readWord_writeDesc _ i 4 _ (by decide), Memory.readWord_writeDesc _ i 6 _ (by decide),
      Memory.readWord_writeDesc _ i 7 _ (by decide)⟩
  · rw [hdesc, Memory.readByte_writeDesc_ne _ _ _ _ ha]
  · rw [emitDescEffect_descWritten, NatSet.mem_insert]

/-- Settles O42: by the laws of a record's store and of a word's. -/
theorem recordStores : Obligations.RecordStores := by
  intro i r s hp hd hc hi ho
  refine ⟨⟨descEffect i r s, execDesc_of_build hp hd hc hi ho, rfl, fun k hk => Memory.readWord_writeDesc s.desc i k r hk,
      fun a ha => Memory.readByte_writeDesc_ne s.desc i r a ha, fun j => NatSet.mem_insert s.descWritten i j⟩,
    ⟨tiWordEffect i s, execTiWord_of_build hp hd hc hi ho, rfl, ?_,
      fun a ha => Memory.readByte_writeWord_ne s.desc (8 * i) s.params.tiWord a ha⟩⟩
  exact (Memory.readWord_writeWord s.desc (8 * i) (8 * i) s.params.tiWord).trans (if_pos rfl)

end Sys2Proof.Machine
end

section
/-!
The encoder's operations issued alone (40_encoder): SIZE and the sizing function (R111, R112), PRIME (R115), ENCODE (R120, R122, R123) and
its inversion (R126), and EXPAND_LED (R117).
-/

namespace Sys2Proof.Machine

/-! ### SIZE and the sizing function -/

/-- A ceiling's multiple covers what was divided (R10). -/
theorem le_mul_cdiv (n : Nat) {k : Nat} (hk : 0 < k) : n ≤ k * cdiv n k := by
  have hdiv := Nat.div_add_mod n k
  have hmod := Nat.mod_lt n hk
  rw [cdiv, Nat.mul_add]
  obtain h0 | hpos := Nat.eq_zero_or_pos (n % k)
  · omega
  · rw [Nat.min_eq_left hpos, Nat.mul_one]
    omega

/-- Each channel's half holds the longest frame and the reset interval: by rule R113's ceiling, or by what R112 asks of a departure. -/
theorem frame_le_pwmByteCount {p : Params} (hp : paramsOk p = true) (n f : Nat) :
    72 * n + resetBits p f ≤ 4 * pwmByteCount p n f := by
  unfold pwmByteCount
  cases h : lookupSize p.sizes (n, f) with
  | none =>
    have hceil := le_mul_cdiv (72 * n + resetBits p f) (k := 32) (by decide)
    rw [Option.getD_none, sizeR113]
    omega
  | some k =>
    simp only [paramsOk, Bool.and_eq_true, List.all_eq_true] at hp
    have hk := hp.2 _ (lookupSize_mem h)
    simp only [sizeEntryOk, Bool.and_eq_true, decide_eq_true_eq] at hk
    exact hk.2

/-- Settles O20: the size is a multiple of 8, so that its halves lose nothing, and `RESET_BITS` is a ceiling. -/
theorem sizeHoldsFrameAndReset : Obligations.SizeHoldsFrameAndReset := by
  intro p n f hp
  have h8 := pwmByteCount_mod_eight hp n f
  have hroom := frame_le_pwmByteCount hp n f
  have hreset := le_mul_cdiv (p.resetUs * 3 * f) (k := 1000000) (by decide)
  exact ⟨by omega, by omega, by omega, hreset.trans_eq (Nat.mul_comm _ _)⟩

/-- Settles O19: by the order of SIZE's preconditions. -/
theorem sizeComputesBuffer : Obligations.SizeComputesBuffer := by
  intro s hq
  have refused : ∀ r, sizeRefusal s = some r → execSize s = .refused r := fun r hr => by rw [execSize, if_pos hq, hr]
  refine ⟨fun hf => refused _ ?_, fun hf hc => refused _ ?_, fun hf h0 h1 => execSize_of_inInit hq ?_⟩
  · rw [sizeRefusal, if_pos hf]
  · rw [sizeRefusal, if_neg hf, if_pos hc]
  · rw [sizeRefusal, if_neg hf, if_neg (by omega)]

/-! ### PRIME -/

theorem execPrime_of_active {s : State} (hp : s.inInit = true ∨ s.isOpen = true) (hd : s.dma.isActive = true) :
    execPrime s = .fault .bufferWriteInFlight := by
  rw [execPrime, if_pos (by simpa using hp), if_pos hd]

theorem execPrime_of_idle {s : State} (hp : s.inInit = true ∨ s.phase = .ready) (hd : s.dma.isActive = false) :
    execPrime s = .next (primeEffect s) := by
  have hopen := inInit_or_isOpen_of_ready hp
  rw [execPrime, if_pos (by simpa using hopen), if_neg (by simp [hd]), if_pos (by simpa using hp)]

/-- Settles O21: PRIME's guards, and the law of its fill. -/
theorem primeFillsIdle : Obligations.PrimeFillsIdle := by
  refine fun s => ⟨execPrime_of_active, fun hp hd =>
    ⟨primeEffect s, execPrime_of_idle hp hd, rfl, fun w hw => ?words, fun a ha => ?bytes, fun w => ?dirty⟩⟩
  case words => rw [primeEffect_buf, primeWords_readWord, if_pos hw, idleWord]
  case bytes =>
    apply Memory.readByte_congr
    rw [primeEffect_buf, primeWords_readWord, if_neg (Nat.not_lt.mpr ha)]
  case dirty => rw [primeEffect_dirty, NatSet.mem_insertAll, List.mem_range, or_comm]

/-! ### ENCODE -/

theorem execEncode_of_fits {s : State} (ho : s.isOpen = true) (hd : s.dma.isActive = false) (hf : s.encodeFits = true) :
    execEncode s = .next (encodeEffect s) := by
  rw [execEncode, if_pos ho, if_neg (by simp [hd]), if_pos hf]

theorem execEncode_of_active {s : State} (ho : s.isOpen = true) (hd : s.dma.isActive = true) :
    execEncode s = .fault .bufferWriteInFlight := by
  rw [execEncode, if_pos ho, if_pos hd]

theorem execEncode_of_not_fits {s : State} (ho : s.isOpen = true) (hd : s.dma.isActive = false) (hf : s.encodeFits = false) :
    execEncode s = .fault .encodeOutOfBounds := by
  rw [execEncode, if_pos ho, if_neg (by simp [hd]), if_neg (by simp [hf])]

/-- A frame that fits has no more LEDs than the buffer was sized for (R120). -/
theorem count_le_of_encodeFits {s : State} (hf : s.encodeFits = true) : s.count.c0 ≤ s.maxLeds ∧ s.count.c1 ≤ s.maxLeds := by
  simp only [State.encodeFits, Bool.and_eq_true, decide_eq_true_eq] at hf
  exact hf.1.1

/-- Settles O25: ENCODE's two checks in order. -/
theorem encodeStops : Obligations.EncodeStops := by
  refine fun s ho => ⟨execEncode_of_active ho, fun hd hc => execEncode_of_not_fits ho hd (Bool.eq_false_iff.mpr fun hf => ?_)⟩
  obtain ⟨h0, h1⟩ := count_le_of_encodeFits hf
  omega

/-- ENCODE leaves a word alone that holds no data of its channel (R124, R125). -/
theorem encodeEffect_readWord_of_le {s : State} {w : Nat} (hw : 72 * s.count.get (Chan.ofWord w) ≤ 32 * (w / 2)) :
    (encodeEffect s).buf.readWord w = s.buf.readWord w := by
  refine Memory.readWord_congr _ _ _ _ fun q hq => ?_
  rw [encodeEffect_readBit _ _ _ hq, if_neg (by omega)]

/-- Settles O22: the stream's bits and the bits past it by the law of ENCODE's stores, and the bytes by their words. -/
theorem encodeStoresStream : Obligations.EncodeStoresStream := by
  refine fun s ho hd hf => ⟨encodeEffect s, execEncode_of_fits ho hd hf, rfl, fun c n hn => bufferBit_encodeEffect hn,
    fun w q hq hpast => ?bits, fun a hpast => Memory.readByte_congr _ _ a (encodeEffect_readWord_of_le hpast)⟩
  case bits => rw [encodeEffect_readBit _ _ _ hq, if_neg (by omega)]

/-- Settles O23: a cursor is where its stream bit is, and 72 sub-bits for each LED leave it at a byte's first bit. -/
theorem encodeCursorEnd : Obligations.EncodeCursorEnd := by
  intro s t c h
  obtain ⟨-, -, -, rfl⟩ := execEncode_next h
  obtain ⟨hj, hp⟩ := Cursor.eq_of_streamBit ((encodeEffect s).cursor.get c)
  rw [encodeEffect_cursor] at hj hp
  exact ⟨hj, hp, by omega, by omega⟩

/-! ### Inversion -/

theorem sym_not (d inv : Bool) : sym d (!inv) = ~~~(sym d inv) := by
  cases d <;> cases inv <;> rfl

/-- Inverting the channel complements every stream bit (R85, R126). -/
theorem streamValue_not (l : List Word) (c : Chan) (inv : Bool) (n : Nat) :
    streamValue l c (!inv) n = !streamValue l c inv n := by
  have hk : (posOfStreamBit n).k < 3 := by
    simp only [posOfStreamBit]
    omega
  simp only [streamValue, sym_not, BitVec.getLsbD_not, hk, decide_true, Bool.true_and]

/-- Bit `q` of word `w` of a buffer primed and then encoded, for the inversion `inv` of the word's channel: a stream bit, or past the data
the idle bit (R115, R122). -/
def State.frameBit (s : State) (inv : Bool) (w q : Nat) : Bool :=
  if 32 * (w / 2) + (31 - q) < 72 * s.count.get (Chan.ofWord w) then
    streamValue (s.col.get (Chan.ofWord w)) (Chan.ofWord w) inv (32 * (w / 2) + (31 - q))
  else inv

theorem State.frameBit_not (s : State) (inv : Bool) (w q : Nat) : s.frameBit (!inv) w q = !s.frameBit inv w q := by
  rw [State.frameBit, State.frameBit, streamValue_not, apply_ite not]

/-- Every bit of the buffer after PRIME and ENCODE (R115, R122, R126). -/
theorem encodeEffect_primeEffect_readBit {s : State} {w q : Nat} (hw : w < s.bufWords) (hq : q < 32) :
    (encodeEffect (primeEffect s)).buf.readBit w q = s.frameBit (s.invert.get (Chan.ofWord w)) w q := by
  have hidle : (primeEffect s).buf.readBit w q = s.invert.get (Chan.ofWord w) := by
    rw [Memory.readBit, primeEffect_buf, primeWords_readWord, if_pos hw, idleWord_getLsbD _ hq]
  rw [encodeEffect_readBit _ _ _ hq, hidle, primeEffect_count, primeEffect_col, primeEffect_invert, State.frameBit]

/-- Every bit of the buffer after PRIME and ENCODE with other inversions (R126). -/
theorem encodeEffect_primeEffect_readBit_of_invert {s : State} (inv : PerChan Bool) {w q : Nat} (hw : w < s.bufWords) (hq : q < 32) :
    (encodeEffect (primeEffect { s with invert := inv })).buf.readBit w q = s.frameBit (inv.get (Chan.ofWord w)) w q :=
  encodeEffect_primeEffect_readBit (s := { s with invert := inv }) hw hq

theorem PerChan.get_set_ne {α : Type} (v : PerChan α) {c d : Chan} (x : α) (h : d ≠ c) : (v.set c x).get d = v.get d := by
  cases c with
  | c0 => cases d with
    | c0 => exact absurd rfl h
    | c1 => rfl
  | c1 => cases d with
    | c0 => rfl
    | c1 => exact absurd rfl h

/-- Settles O27: bit by bit; a stream bit is complemented with its symbol, a padding bit with the idle value. -/
theorem inversionComplements : Obligations.InversionComplements := by
  intro s s1 s2 u1 u2 c h1 h2 h3 h4 w hw
  obtain ⟨-, -, rfl⟩ := execPrime_next h1
  obtain ⟨-, -, -, rfl⟩ := execEncode_next h2
  obtain ⟨-, -, rfl⟩ := execPrime_next h3
  obtain ⟨-, -, -, rfl⟩ := execEncode_next h4
  split
  case isTrue hc =>
    subst hc
    refine BitVec.eq_of_getLsbD_eq fun q hq => ?_
    rw [BitVec.getLsbD_not, decide_eq_true hq, Bool.true_and]
    change Memory.readBit _ w q = !Memory.readBit _ w q
    rw [encodeEffect_primeEffect_readBit_of_invert _ hw hq, PerChan.get_set, State.frameBit_not,
      encodeEffect_primeEffect_readBit hw hq]
  case isFalse hc =>
    refine Memory.readWord_congr _ _ _ _ fun q hq => ?_
    rw [encodeEffect_primeEffect_readBit_of_invert _ hw hq, PerChan.get_set_ne _ _ hc, encodeEffect_primeEffect_readBit hw hq]

/-! ### EXPAND_LED -/

/-- Settles O29: it is admitted in the open phases, and the components are the colour's bytes. -/
theorem expandLedComponents : Obligations.ExpandLedComponents :=
  fun _ _ ho => if_pos ho

end Sys2Proof.Machine
end

section
/-!
The chain's operations issued alone (41_dma_chain): TRANSLATE (R142), TERMINATE (R147), the preconditions of BUILD_CHAIN (R141), and how
BUILD_CHAIN ends: with the closed form (R150, R151) or at the first page that does not translate (R149).
-/

namespace Sys2Proof.Machine

/-! ### TRANSLATE -/

/-- Frame and offset set side by side are the frame shifted over the page offset, or the offset (R95, R142). -/
theorem append_frame_offset (f va : Nat) :
    (BitVec.ofNat 20 f ++ BitVec.ofNat 12 va : Word) = (BitVec.ofNat 32 f <<< 12) ||| (BitVec.ofNat 32 va &&& 0xFFF#32) := by
  have hframe : (f % 2 ^ 20) <<< 12 = (f % 2 ^ 32) <<< 12 % 2 ^ 32 := by simp only [Nat.shiftLeft_eq]; omega
  have hoffset : va % 2 ^ 12 = va % 2 ^ 32 &&& 2 ^ 12 - 1 := by rw [Nat.and_two_pow_sub_one_eq_mod]; omega
  apply BitVec.eq_of_toNat_eq
  rw [BitVec.toNat_append, BitVec.toNat_or, BitVec.toNat_shiftLeft, BitVec.toNat_and, BitVec.toNat_ofNat, BitVec.toNat_ofNat,
    BitVec.toNat_ofNat, BitVec.toNat_ofNat, hframe, hoffset]
  rfl

theorem busAddress_eq (aliasBits : Word) (f va : Nat) :
    busAddress aliasBits (BitVec.ofNat 20 f) (BitVec.ofNat 12 va) =
      (BitVec.ofNat 32 f <<< 12) ||| aliasBits ||| (BitVec.ofNat 32 va &&& 0xFFF#32) := by
  rw [busAddress, append_frame_offset, BitVec.or_assoc, BitVec.or_comm _ aliasBits, ← BitVec.or_assoc]

/-- A page without a frame does not translate (R142). -/
theorem translateVA_of_none {p : Params} {va : Nat} (h : lookupFrame p.pfn (va / 4096) = none) : translateVA p va = .error := by
  rw [translateVA, translateBy, h]

/-- A frame either does not fit the formula or gives the page its bus address (R142). -/
theorem translateVA_of_some {p : Params} {va f : Nat} (h : lookupFrame p.pfn (va / 4096) = some f) : translateVA p va =
    if 2 ^ 20 ≤ f ∨ (BitVec.ofNat 32 f <<< 12) &&& p.aliasBit ≠ 0 then .outOfRange
    else .ok (busAddress p.aliasBit (BitVec.ofNat 20 f) (BitVec.ofNat 12 va)) := by
  rw [translateVA, translateBy, h]

theorem execTranslate_of_error {s : State} {va : Nat} (hq : s.inInit = true) (h : translateVA s.params va = .error) :
    execTranslate va s = .next (s.raise (.translation none)) := by
  rw [execTranslate, if_pos hq, h]

theorem execTranslate_of_outOfRange {s : State} {va : Nat} (hq : s.inInit = true) (h : translateVA s.params va = .outOfRange) :
    execTranslate va s = .refused .frameOutOfRange := by
  rw [execTranslate, if_pos hq, h]

/-- Settles O34: by the oracle's answer; where there is a frame that fits, the formula is the one that composes a bus address. -/
theorem translateFormula : Obligations.TranslateFormula := by
  intro va s hq
  refine ⟨fun h => execTranslate_of_error hq (translateVA_of_none h), fun f h => ⟨fun hout => ?_, fun hf ha => ?_⟩⟩
  · exact execTranslate_of_outOfRange hq ((translateVA_of_some h).trans (if_pos hout))
  · rw [← busAddress_eq]
    exact execTranslate_of_ok hq ((translateVA_of_some h).trans (if_neg (by rw [ha]; simpa using hf)))

/-! ### TERMINATE -/

/-- The bytes outside a record's link do not change when it is zeroed (R147). -/
theorem readByte_terminateLink_ne (m : Memory) (n a : Nat) (h : a / 4 ≠ 8 * (n - 1) + 5) :
    (terminateLink m n).readByte a = m.readByte a :=
  Memory.readByte_writeWord_ne m _ 0 a h

/-- Settles O41: TERMINATE is one word's store. -/
theorem terminateZeroesLink : Obligations.TerminateZeroesLink := by
  intro n s hp hd hc h1 hn ho
  refine ⟨terminateEffect n s, execTerminate_of_build hp hd hc h1 hn ho, rfl, ?_, fun a ha => readByte_terminateLink_ne s.desc n a ha⟩
  show ((terminateLink s.desc n).readDesc (n - 1)).next = 0
  rw [readDesc_terminateLink, if_pos rfl]

/-! ### The preconditions of BUILD_CHAIN -/

theorem execBuildChain_of_active {pages : List Nat} {n : Nat} {s : State} (hp : s.inInit = true ∨ s.isOpen = true)
    (hd : s.dma.isActive = true) : execBuildChain pages n s = .fault .descriptorWriteInFlight := by
  rw [execBuildChain, if_pos (by simpa using hp), if_pos hd]

theorem execBuildChain_of_refusal {pages : List Nat} {n : Nat} {s : State} {r : Refusal} (hp : s.inInit = true ∨ s.phase = .ready)
    (hd : s.dma.isActive = false) (hr : buildRefusal pages n s = some r) : execBuildChain pages n s = .refused r := by
  have hopen : (s.inInit || s.isOpen) = true := by simpa using inInit_or_isOpen_of_ready hp
  rw [execBuildChain, if_pos hopen, if_neg (by simp [hd]), if_pos (by simpa using hp), hr]

/-- Settles O38: by the order in which BUILD_CHAIN looks at its preconditions (log 46). -/
theorem buildChainPreconditions : Obligations.BuildChainPreconditions := by
  intro pages T s
  refine ⟨execBuildChain_of_active, fun hp hd => ⟨fun hlist => ?_, fun hlist => ⟨fun hlen => ?_, fun h0 h4 hbytes => ⟨fun hroom => ?_,
    fun hroom hstore => ?_⟩⟩⟩⟩
  all_goals refine execBuildChain_of_refusal hp hd ?_
  · rw [buildRefusal, if_pos hlist]
  · rw [buildRefusal, if_neg (by simp [hlist]), if_pos hlen]
  · rw [buildRefusal, if_neg (by simp [hlist]), if_neg (by simp [h0, h4, hbytes.symm]), if_pos hroom]
  · rw [buildRefusal, if_neg (by simp [hlist]), if_neg (by simp [h0, h4, hbytes.symm]), if_neg (by omega), if_pos hstore]

end Sys2Proof.Machine
end

section
/-!
How BUILD_CHAIN ends, from which of its pages translate (41_dma_chain R145 to R151).
-/

namespace Sys2Proof.Machine

/-! ### The loop over pages that translate -/

/-- A page needs a record only while bytes remain (R145). -/
theorem remaining_ne_zero_of_cdiv {r : Nat} (h : 0 < cdiv r pageSize) : r ≠ 0 := by
  rintro rfl
  exact absurd h (by decide)

/-- Over pages that translate, and that are needed, the loop of BUILD_CHAIN emits a record for each and goes on with the next page (R145). -/
theorem buildLoop_of_sources {p : Params} {bus : Word} (as : List Word) : ∀ (vas : List Nat) (i : Nat) (b : Build),
    sources p vas as → as.length ≤ cdiv b.remaining pageSize →
    buildLoop p bus vas i b = buildLoop p bus (vas.drop as.length) (i + as.length) (emitAll p bus as i b) := by
  induction as with
  | nil => intro vas i b _ _; rfl
  | cons a as ih =>
    intro vas i b ⟨hlen, hsrc⟩ hneed
    rw [List.length_cons] at hlen hneed hsrc
    obtain _ | ⟨va, vas⟩ := vas
    · exact absurd hlen (Nat.not_succ_le_zero _)
    have hrem : b.remaining ≠ 0 := remaining_ne_zero_of_cdiv (by omega)
    have hva : translateVA p va = .ok a := hsrc 0 (Nat.succ_pos _)
    have htail : sources p vas as := ⟨Nat.le_of_succ_le_succ hlen, fun j hj => hsrc (j + 1) (Nat.succ_lt_succ hj)⟩
    have hpages := cdiv_page_succ b.remaining hrem
    rw [buildLoop, if_neg hrem, hva, emitAll, List.length_cons, List.drop_succ_cons, Nat.add_comm as.length 1, ← Nat.add_assoc]
    exact ih vas (i + 1) (buildEmit p bus i a b) htail (by simp only [buildEmit]; omega)

theorem buildLoop_of_nothing_remaining {p : Params} {bus : Word} {vas : List Nat} {i : Nat} {b : Build} (h : b.remaining = 0) :
    buildLoop p bus vas i b = .done b := by
  cases vas with
  | nil => rfl
  | cons va vas => rw [buildLoop, if_pos h]

theorem buildLoop_of_error {p : Params} {bus : Word} {va : Nat} {vas : List Nat} {i : Nat} {b : Build} (hr : b.remaining ≠ 0)
    (h : translateVA p va = .error) : buildLoop p bus (va :: vas) i b = .failed i b := by
  rw [buildLoop, if_neg hr, h]

/-- The bus addresses of the first `n` pages. -/
def addresses (src : Nat → Word) (n : Nat) : List Word := (List.range n).map src

@[simp] theorem length_addresses (src : Nat → Word) (n : Nat) : (addresses src n).length = n := by simp [addresses]

theorem addresses_getD (src : Nat → Word) {n i : Nat} (h : i < n) : (addresses src n).getD i 0 = src i := by simp [addresses, h]

theorem sources_addresses {p : Params} {vas : List Nat} {src : Nat → Word} {n : Nat} (hn : n ≤ vas.length)
    (h : ∀ i < n, translateVA p (vas.getD i 0) = .ok (src i)) : sources p vas (addresses src n) := by
  refine ⟨by simpa using hn, fun i hi => ?_⟩
  rw [length_addresses] at hi
  rw [addresses_getD src hi]
  exact h i hi

/-- The builder after the records of the first `n` pages of a build of `T` bytes (R145, R146). -/
def State.rowOf (s : State) (src : Nat → Word) (T n : Nat) : Build :=
  emitAll s.params (orZero s.descBus) (addresses src n) 0 (buildStart T s)

section
variable (s : State) (src : Nat → Word) (T n : Nat)

theorem rowOf_idx : (s.rowOf src T n).idx = n := by
  rw [State.rowOf, emitAll_idx, length_addresses, Nat.zero_add]
  split
  · rename_i h
    rw [← length_addresses src n, h]
    rfl
  · rfl

theorem rowOf_remaining : (s.rowOf src T n).remaining = T - n * pageSize := by
  rw [State.rowOf, emitAll_remaining, length_addresses]
  rfl

theorem rowOf_written (i : Nat) : i ∈ (s.rowOf src T n).written ↔ i ∈ s.descWritten ∨ i < n := by
  rw [State.rowOf, emitAll_written, length_addresses, Nat.zero_add]
  exact or_congr_right (and_iff_right (Nat.zero_le i))

theorem rowOf_readByte {a : Nat} (ha : descSize * n ≤ a) : (s.rowOf src T n).desc.readByte a = s.desc.readByte a := by
  rw [State.rowOf, emitAll_readByte]
  · rfl
  · rw [length_addresses, Nat.zero_add, Nat.le_div_iff_mul_le (by decide), Nat.mul_comm]
    exact ha

variable {n} {i : Nat} (h : i < n)
include h

theorem rowOf_readDesc : (s.rowOf src T n).desc.readDesc i =
    descRecord s.params (orZero s.descBus) i (T - i * pageSize) (src i) := by
  rw [State.rowOf, emitAll_readDesc, if_pos (by rw [length_addresses]; omega), Nat.sub_zero, addresses_getD src h]
  rfl

theorem rowOf_reserved {k : Nat} (hk : k = 4 ∨ k = 6 ∨ k = 7) : (s.rowOf src T n).desc.readWord (8 * i + k) = 0 := by
  rw [State.rowOf, emitAll_reserved _ _ hk, if_pos (by rw [length_addresses]; omega)]

end

/-! ### A build that comes to its end -/

/-- What BUILD_CHAIN leaves at its end, with the builder `b` that its loop ended with (R145, R147, R148). -/
def builtEffect (pages : List Nat) (b : Build) (s : State) : State :=
  { (s.withBuild pages { b with desc := terminateLink b.desc b.idx }).finish (.addr (orZero s.descBus)) with
    chainHead := s.descBus, chainValid := true, chainFor := some s.sizing }

/-- What BUILD_CHAIN leaves where page `i` does not translate (R149). -/
def buildFailedEffect (pages : List Nat) (i : Nat) (b : Build) (s : State) : State :=
  { (s.withBuild pages b).raise (.translation (some i)) with chainValid := false }

@[simp] theorem builtEffect_desc (pages : List Nat) (b : Build) (s : State) :
    (builtEffect pages b s).desc = terminateLink b.desc b.idx := rfl
@[simp] theorem builtEffect_descWritten (pages : List Nat) (b : Build) (s : State) :
    (builtEffect pages b s).descWritten = b.written := rfl
@[simp] theorem buildFailedEffect_desc (pages : List Nat) (i : Nat) (b : Build) (s : State) :
    (buildFailedEffect pages i b s).desc = b.desc := rfl
@[simp] theorem buildFailedEffect_descWritten (pages : List Nat) (i : Nat) (b : Build) (s : State) :
    (buildFailedEffect pages i b s).descWritten = b.written := rfl

theorem buildRun_of_done {pages : List Nat} {T : Nat} {s : State} {b : Build}
    (h : buildLoop s.params (orZero s.descBus) pages 0 (buildStart T s) = .done b) :
    buildRun pages T s = .next (builtEffect pages b s) := by
  rw [buildRun, h]
  rfl

theorem buildRun_of_failed {pages : List Nat} {T k : Nat} {s : State} {b : Build}
    (h : buildLoop s.params (orZero s.descBus) pages 0 (buildStart T s) = .failed k b) :
    buildRun pages T s = .next (buildFailedEffect pages k b s) := by
  rw [buildRun, h]
  rfl

section
variable {pages : List Nat} {T : Nat} {s : State} {src : Nat → Word}

/-- Where every page that is needed translates, BUILD_CHAIN makes the row of their records (R145). -/
theorem buildLoop_of_translates (hr : buildRefusal pages T s = none)
    (h : ∀ i < cdiv T pageSize, translateVA s.params (pages.getD i 0) = .ok (src i)) :
    buildLoop s.params (orZero s.descBus) pages 0 (buildStart T s) = .done (s.rowOf src T (cdiv T pageSize)) := by
  obtain ⟨-, -, -, -, hroom, -⟩ := (buildRefusal_eq_none_iff _ _ _).mp hr
  rw [buildLoop_of_sources _ _ _ _ (sources_addresses (cdiv_le_of_le_mul hroom) h) (by rw [length_addresses]; exact Nat.le_refl _)]
  exact buildLoop_of_nothing_remaining ((rowOf_remaining _ _ _ _).trans (Nat.sub_eq_zero_of_le (le_cdiv_mul T)))

/-- Where page `k` is the first that does not translate, BUILD_CHAIN stops after the row of the records before it (R149). -/
theorem buildLoop_of_first_error {k : Nat} (hr : buildRefusal pages T s = none) (hk : k < cdiv T pageSize)
    (h : ∀ i < k, translateVA s.params (pages.getD i 0) = .ok (src i)) (herr : translateVA s.params (pages.getD k 0) = .error) :
    buildLoop s.params (orZero s.descBus) pages 0 (buildStart T s) = .failed k (s.rowOf src T k) := by
  obtain ⟨-, -, -, -, hroom, -⟩ := (buildRefusal_eq_none_iff _ _ _).mp hr
  have hlen : k < pages.length := Nat.lt_of_lt_of_le hk (cdiv_le_of_le_mul hroom)
  have hpage : pages[k] = pages.getD k 0 := by simp [hlen]
  have hrem : (s.rowOf src T k).remaining ≠ 0 := by
    rw [rowOf_remaining]
    unfold cdiv pageSize at *
    omega
  rw [buildLoop_of_sources _ _ _ _ (sources_addresses hlen.le h) (by rw [length_addresses]; exact hk.le), length_addresses,
    List.drop_eq_getElem_cons hlen, hpage, Nat.zero_add]
  exact buildLoop_of_error hrem herr

/-- A record before the last is over a full page, and leads on (R146). -/
theorem rowOf_readDesc_of_full {b : Word} (hb : s.descBus = some b) {k i : Nat} (hi : i < k) (hfull : (i + 1) * pageSize ≤ T) :
    (s.rowOf src T k).desc.readDesc i =
      { info := s.params.tiWord, src := src i, dst := s.params.fifoBus, len := BitVec.ofNat 32 pageSize
        next := b + BitVec.ofNat 32 ((i + 1) * descSize) } := by
  have hlen : min pageSize (T - i * pageSize) = pageSize := by unfold pageSize at *; omega
  rw [rowOf_readDesc s src T hi, descRecord, hlen, hb]
  rfl

/-- The row with its last link zeroed is the closed form (R146, R147, R150). -/
theorem terminated_row_readDesc {b : Word} (hb : s.descBus = some b) {n i : Nat} (hn : n = cdiv T pageSize) (hi : i < n) :
    (terminateLink (s.rowOf src T n).desc n).readDesc i =
      { info := s.params.tiWord, src := src i, dst := s.params.fifoBus
        len := BitVec.ofNat 32 (if i + 1 < n then pageSize else T - (n - 1) * pageSize)
        next := if i + 1 < n then b + BitVec.ofNat 32 ((i + 1) * descSize) else 0 } := by
  rw [readDesc_terminateLink]
  by_cases hlast : i + 1 < n
  · rw [if_neg (by omega), if_pos hlast, if_pos hlast]
    exact rowOf_readDesc_of_full hb hi (by unfold cdiv pageSize at *; omega)
  · obtain rfl : i = n - 1 := by omega
    have hlen : min pageSize (T - (n - 1) * pageSize) = T - (n - 1) * pageSize := by unfold cdiv pageSize at *; omega
    rw [if_pos rfl, if_neg hlast, if_neg hlast, rowOf_readDesc s src T hi, descRecord, hlen]

end

/-- Settles O36: the loop makes the row of the pages' records, and TERMINATE zeroes the last one's link. -/
theorem buildChainClosedForm : Obligations.BuildChainClosedForm := by
  intro pages T s b src hp hd hr hb ht
  obtain ⟨-, hT, -⟩ := (buildRefusal_eq_none_iff _ _ _).mp hr
  have hpos : 0 < cdiv T pageSize := cdiv_pos hT
  have hdone := buildRun_of_done (buildLoop_of_translates hr ht)
  refine ⟨_, (execBuildChain_of_ready hp hd hr).trans hdone, ?frame, fun i hi => ?record, fun i hi => ?reserved, fun a ha => ?bytes,
    fun i => rowOf_written s src T _ i⟩
  case frame =>
    simp only [builtEffect, State.withBuild, State.finish, rowOf_idx, rowOf_remaining, if_neg hpos.ne',
      Nat.sub_eq_zero_of_le (le_cdiv_mul T), hb, State.sizing]
    rfl
  case record =>
    rw [builtEffect_desc, rowOf_idx]
    exact terminated_row_readDesc hb rfl hi
  case reserved =>
    have hzero {k : Nat} (hk : k = 4 ∨ k = 6 ∨ k = 7) :=
      (readWord_terminateLink (s.rowOf src T (cdiv T pageSize)).desc (cdiv T pageSize) i hk).trans (rowOf_reserved s src T hi hk)
    rw [builtEffect_desc, rowOf_idx]
    exact ⟨hzero (by decide), hzero (by decide), hzero (by decide)⟩
  case bytes =>
    rw [builtEffect_desc, rowOf_idx, readByte_terminateLink_ne _ _ _ (by unfold descSize at ha; omega)]
    exact rowOf_readByte s src T _ ha

/-! ### A build that meets a page that does not translate -/

/-- A record's bus address does not wrap inside descriptor storage (log 39). -/
theorem toNat_descAddress {b : Word} {i : Nat} (h : b.toNat + i * descSize < 2 ^ 32) :
    (descAddress b i).toNat = b.toNat + i * descSize := by
  rw [descAddress, BitVec.toNat_add, BitVec.toNat_ofNat, Nat.mod_eq_of_lt (a := i * descSize) (by omega), Nat.mod_eq_of_lt h]

/-- The address of a record after the first is not 0, so that a link to it is none that ends a chain (R94). -/
theorem descAddress_succ_ne_zero {b : Word} {i : Nat} (h : b.toNat + (i + 1) * descSize < 2 ^ 32) : descAddress b (i + 1) ≠ 0 := by
  intro h0
  have hnat := toNat_descAddress h
  rw [h0] at hnat
  change 0 = _ at hnat
  unfold descSize at hnat
  omega

/-- Settles O39: the loop makes the row of the records before the page and stops there. -/
theorem buildChainFailure : Obligations.BuildChainFailure := by
  intro pages T s b src k hp hd hr hb hk ht herr
  obtain ⟨-, -, -, -, hroom, hstore⟩ := (buildRefusal_eq_none_iff _ _ _).mp hr
  obtain ⟨b', hb', -, hspace⟩ := storageOk_some hstore
  obtain rfl : b = b' := Option.some.inj (hb.symm.trans hb')
  have hlen : k < pages.length := Nat.lt_of_lt_of_le hk (cdiv_le_of_le_mul hroom)
  have hfailed := buildRun_of_failed (buildLoop_of_first_error hr hk ht herr)
  refine ⟨_, (execBuildChain_of_ready hp hd hr).trans hfailed, ?frame, fun i hi => ?record, fun a ha => rowOf_readByte s src T _ ha,
    fun i => rowOf_written s src T k i⟩
  case frame =>
    simp only [buildFailedEffect, State.withBuild, State.raise, rowOf_idx, rowOf_remaining]
  case record =>
    have hrec := rowOf_readDesc_of_full (T := T) (src := src) hb hi (by unfold cdiv pageSize at *; omega)
    have hlink : descAddress b (i + 1) ≠ 0 := descAddress_succ_ne_zero (by unfold descSize at *; omega)
    rw [buildFailedEffect_desc, hrec]
    exact ⟨rfl, hlink, rowOf_reserved s src T hi (by decide), rowOf_reserved s src T hi (by decide),
      rowOf_reserved s src T hi (by decide)⟩

/-! ### The chain a build makes -/

/-- Every record of a valid chain but the last has a link that is not 0 and leads to the next record (R151, R157, R160). -/
theorem State.ChainOk.link_leads_on {s : State} (hs : s.ChainOk) (hv : s.chainValid = true) {i : Nat} (hi : i + 1 < s.pageCount) :
    (s.desc.readDesc i).next ≠ 0 ∧ s.linkTarget (s.desc.readDesc i).next = some (i + 1) := by
  obtain ⟨b, va, hb, -, -, -, hspace, -, -, hpages, hform⟩ := hs hv
  have hin : b.toNat + (i + 1) * descSize < 2 ^ 32 := by unfold descSize at *; omega
  have hlink := hform.next i (by omega)
  rw [if_neg (by omega)] at hlink
  have hload : s.loadable (i + 1) = true := by simp [State.loadable, hform.written (i + 1) hi]
  rw [hlink, State.linkTarget, hb, orZero, Option.getD_some, indexOf_descAddress b _ _ (by omega) hin]
  exact ⟨descAddress_succ_ne_zero hin, if_pos hload⟩

/-- The head of a valid chain leads to record 0 (R151, R160). -/
theorem State.ChainOk.head_leads_to_first {s : State} (hs : s.ChainOk) (hv : s.chainValid = true) :
    ∃ a, s.chainHead = some a ∧ s.linkTarget a = some 0 := by
  obtain ⟨b, va, hb, hhead, -, -, hspace, -, -, hpages, hform⟩ := hs hv
  have hpos : 0 < s.pageCount := hform.nonempty
  have hindex : indexOf b s.params.maxPages b = some 0 := by
    simpa [descAddress] using indexOf_descAddress b s.params.maxPages 0 (by omega) (by omega)
  have hload : s.loadable 0 = true := by simp [State.loadable, hform.written 0 hpos]
  refine ⟨b, hhead, ?_⟩
  rw [State.linkTarget, hb, orZero, Option.getD_some, hindex]
  exact if_pos hload

/-- A build that ends without an error leaves a valid chain (R145). -/
theorem buildRun_chainValid {pages : List Nat} {T : Nat} {s t : State} (h : buildRun pages T s = .next t)
    (hok : t.result.isError = false) : t.chainValid = true := by
  obtain ⟨b, -, rfl⟩ | ⟨k, b, -, rfl⟩ := buildRun_next h
  · rfl
  · cases hok

/-- Settles O37: a build that succeeds leaves a valid chain, which is of the closed form. -/
theorem builtChainSumsAndLinks : Obligations.BuiltChainSumsAndLinks := by
  intro pages T s t h hok
  obtain ⟨-, -, hr, hrun⟩ := execBuildChain_next h
  obtain ⟨-, -, -, rfl, -⟩ := (buildRefusal_eq_none_iff _ _ _).mp hr
  have hchain : t.ChainOk := buildRun_chainOk hr hrun
  have hv : t.chainValid = true := buildRun_chainValid hrun hok
  obtain ⟨b, va, -, -, -, -, -, -, -, -, hform⟩ := hchain hv
  have hcount : t.pageCount = cdiv s.bufBytes pageSize := by rw [State.pageCount, (buildRun_sameBuffer hrun).bufBytes]
  have hpos : 1 ≤ t.pageCount := hform.nonempty
  rw [← hcount, ← (buildRun_sameBuffer hrun).bufBytes]
  refine ⟨hform.sum_len rfl, ?_, fun i hi => hchain.len_mod_four hv hi, fun i hi => hchain.link_leads_on hv hi,
    hchain.head_leads_to_first hv⟩
  rw [hform.next _ (by omega), if_pos (by omega)]

end Sys2Proof.Machine
end

section
/-!
The DMA reader's steps (41_dma_chain R155 to R159), how a step of the machine runs them, and a whole transfer (R161).
-/

namespace Sys2Proof.Machine

/-! ### The end of a record -/

/-- The link of a record of a valid chain is 0 exactly where the record is the last (R150, R151). -/
theorem State.ChainOk.link_eq_zero_iff {s : State} (hs : s.ChainOk) (hv : s.chainValid = true) {d : Nat} (hd : d < s.pageCount) :
    (s.desc.readDesc d).next = 0 ↔ d + 1 = s.pageCount := by
  obtain ⟨b, va, -, -, -, -, -, -, -, -, hform⟩ := hs hv
  constructor
  · intro h
    by_contra hne
    exact (hs.link_leads_on hv (by omega)).1 h
  · intro h
    rw [hform.next d hd, if_pos h]

theorem execDmaFollowLink_of_loadable {s : State} {d o k : Nat} (hd : s.dma = .active d o) (hl : s.loadable d = true)
    (ho : (s.loaded d).len.toNat ≤ o) (hn : (s.loaded d).next ≠ 0) (hk : s.linkTarget (s.loaded d).next = some k) :
    execDmaFollowLink s = .next { s with dma := .active k 0 } := by
  simp only [execDmaFollowLink, hd]
  rw [if_pos ⟨hl, ho, hn⟩, hk]

/-- Inside a record, or at a link of 0, there is no link to follow (R157). -/
theorem execDmaFollowLink_of_noLink {s : State} {d o : Nat} (hd : s.dma = .active d o)
    (h : ¬ ((s.loaded d).len.toNat ≤ o ∧ (s.loaded d).next ≠ 0)) : execDmaFollowLink s = .refused .noAgentStep := by
  simp only [execDmaFollowLink, hd]
  rw [if_neg fun hg => h hg.2]

/-- A link that is the address of no record leaves the reader without a step (R157). -/
theorem execDmaFollowLink_of_noTarget {s : State} {d o : Nat} (hd : s.dma = .active d o)
    (hk : s.linkTarget (s.loaded d).next = none) : execDmaFollowLink s = .refused .noAgentStep := by
  simp only [execDmaFollowLink, hd, hk, ite_self]

/-- The reader's last step in a record it can load: the transfer is over, or no step (R158). -/
theorem execDmaComplete_of_loadable {s : State} {d o : Nat} (hd : s.dma = .active d o) (hl : s.loadable d = true) :
    execDmaComplete s = if (s.loaded d).len.toNat ≤ o ∧ (s.loaded d).next = 0 then .next { s with dma := .idle }
      else .refused .noAgentStep := by
  simp only [execDmaComplete, hd, hl, true_and]

/-- Where descriptor storage is misresolved, a link leads to whatever stands at its address (R234; log 47). -/
theorem linkTarget_of_misled {s : State} (h : s.descStands = false) (a : Word) :
    s.linkTarget a = indexOf (orZero s.descBus) s.params.maxPages a := by
  simp only [State.linkTarget, loadable_of_misled h, if_true]
  split
  · rename_i i hi; exact hi.symm
  · rename_i hi; exact hi.symm

/-- Settles O57: a link of the chain leads to the next record; a free record's leads where it says. -/
theorem readerFollowsLink : Obligations.ReaderFollowsLink := by
  intro s d o hs hd
  refine ⟨fun hst ho hn => ?_, fun r hst hr => ?_⟩
  · obtain ⟨va, hrec⟩ := hs.inRecord hd hst
    obtain ⟨-, hv, -⟩ := hs.transfer d o hd
    have hlast : d + 1 ≠ s.pageCount := fun h => hn ((hs.chain.link_eq_zero_iff hv hrec.inChain).mpr h)
    have hnext : d + 1 < s.pageCount := Nat.lt_of_le_of_ne hrec.inChain hlast
    have hload := loaded_of_stands hst d
    refine ⟨hnext, execDmaFollowLink_of_loadable hd ((loadable_of_stands hst d).mpr hrec.written) ?_ ?_ ?_⟩
    · rw [hload]; exact ho.ge
    · rw [hload]; exact hn
    · rw [hload]; exact (hs.chain.link_leads_on hv hnext).2
  · have hload : s.loaded d = r := (loaded_of_misled hst d).trans hr.symm
    rw [← hload]
    by_cases hg : (s.loaded d).len.toNat ≤ o ∧ (s.loaded d).next ≠ 0
    · rw [if_pos hg]
      have htarget := linkTarget_of_misled hst (s.loaded d).next
      cases hk : indexOf (orZero s.descBus) s.params.maxPages (s.loaded d).next with
      | some k => exact execDmaFollowLink_of_loadable hd (loadable_of_misled hst d) hg.1 hg.2 (htarget.trans hk)
      | none => exact execDmaFollowLink_of_noTarget hd (htarget.trans hk)
    · rw [if_neg hg]
      exact execDmaFollowLink_of_noLink hd hg

/-- Settles O58: the record whose link is 0 is the chain's last, and its end is the buffer's. -/
theorem readerCompletes : Obligations.ReaderCompletes := by
  intro s d o hs hd
  refine ⟨fun hst ho hn => ?_, fun r hst hr => ?_⟩
  · obtain ⟨va, hrec⟩ := hs.inRecord hd hst
    obtain ⟨-, hv, -⟩ := hs.transfer d o hd
    have hlast : d + 1 = s.pageCount := (hs.chain.link_eq_zero_iff hv hrec.inChain).mp hn
    refine ⟨hlast, ?_, ?_⟩
    · rw [ho, hrec.len]
      unfold State.pageCount cdiv pageSize at *
      omega
    · refine (execDmaComplete_of_loadable hd ((loadable_of_stands hst d).mpr hrec.written)).trans (if_pos ?_)
      rw [loaded_of_stands hst]
      exact ⟨ho.ge, hn⟩
  · have hload : s.loaded d = r := (loaded_of_misled hst d).trans hr.symm
    rw [← hload]
    exact execDmaComplete_of_loadable hd (loadable_of_misled hst d)

/-! ### The error step, and the reader's turn -/

/-- Settles O59: DMA_ERROR asks for a transfer in flight and nothing else. -/
theorem readerErrs : Obligations.ReaderErrs :=
  fun _ _ => ⟨fun hd => if_pos hd, fun hd => if_neg (by simp [hd])⟩

theorem readerTurn_of_next {i : Instr} {s t : State} (h : exec i s = .next t) : readerTurn i s = .next t := by
  rw [readerTurn, h]

/-- The reader has a step of its chain exactly while a transfer is in flight (R155). -/
theorem readerStep_of_active {s : State} (h : s.dma.isActive = true) : ∃ i, s.readerStep = some i := by
  cases hd : s.dma with
  | active d o => exact ⟨_, by rw [State.readerStep, hd]⟩
  | idle => rw [hd] at h; cases h
  | error v => rw [hd] at h; cases h

theorem move_of_agent {s : State} {i : Instr} (ht : s.turn = .agent) (hr : s.readerStep = some i) : move s = readerTurn i s := by
  rw [move, ht, hr]

theorem move_of_agentError {s : State} {v : Word} {i : Instr} (ht : s.turn = .agentError v) (hr : s.readerStep = some i) :
    move s = readerTurn (.dmaError v) s := by
  rw [move, ht, hr]

theorem move_of_noReaderStep {s : State} (hr : s.readerStep = none) : move s = hostTurn s := by
  rw [move, hr]
  cases s.turn <;> rfl

/-- Settles O13: by whose turn it is, and whether the reader has a step. -/
theorem stepRunsReader : Obligations.StepRunsReader := by
  refine ⟨fun s i t ht hr h => ?_, fun s v ht hd => ?_, fun s hr => ?_⟩
  · rw [step, move_of_agent ht hr, readerTurn_of_next h]
    rfl
  · obtain ⟨i, hr⟩ := readerStep_of_active hd
    rw [step, move_of_agentError ht hr, readerTurn_of_next ((readerErrs v s).1 hd)]
    rfl
  · rw [step, move_of_noReaderStep hr]

end Sys2Proof.Machine
end

section
/-!
A transfer that runs to its end with a clean buffer (41_dma_chain R158, R161): the states the DMA reader goes through, one for each word of
the buffer that it has sent.
-/

namespace Sys2Proof.Machine

/-! ### The reader's steps in a row -/

/-- The state after the step of its chain that the reader makes next, where it completes (R155). -/
def State.readerNext (u : State) : Option State :=
  u.readerStep.bind (fun i => match exec i u with | .next v => some v | .fault _ => none | .refused _ => none)

/-- The reader's own steps, one after the other, lead from `s` to `t`. -/
def ReaderReaches (s t : State) : Prop := ∃ k, Nat.repeat (fun o : Option State => o.bind State.readerNext) k (some s) = some t

theorem ReaderReaches.refl (s : State) : ReaderReaches s s := ⟨0, rfl⟩

theorem ReaderReaches.tail {s t u : State} (h : ReaderReaches s t) (hu : t.readerNext = some u) : ReaderReaches s u := by
  obtain ⟨k, hk⟩ := h
  exact ⟨k + 1, by rw [Nat.repeat, hk]; exact hu⟩

theorem readerNext_of_exec {i : Instr} {s t : State} (hr : s.readerStep = some i) (h : exec i s = .next t) :
    s.readerNext = some t := by
  rw [State.readerNext, hr, Option.bind_some, h]

section
variable {s : State} {d o : Nat} (hd : s.dma = .active d o)
include hd

theorem readerStep_eq : s.readerStep = some (if o < (s.loaded d).len.toNat then .dmaXferWord
    else if (s.loaded d).next = 0 then .dmaComplete else .dmaFollowLink) := by
  rw [State.readerStep, hd]

theorem readerStep_of_word (ho : o < (s.loaded d).len.toNat) : s.readerStep = some .dmaXferWord := by
  rw [readerStep_eq hd, if_pos ho]

theorem readerStep_of_link (ho : o = (s.loaded d).len.toNat) (hn : (s.loaded d).next ≠ 0) : s.readerStep = some .dmaFollowLink := by
  rw [readerStep_eq hd, if_neg ho.ge.not_gt, if_neg hn]

theorem readerStep_of_lastLink (ho : o = (s.loaded d).len.toNat) (hn : (s.loaded d).next = 0) :
    s.readerStep = some .dmaComplete := by
  rw [readerStep_eq hd, if_neg ho.ge.not_gt, if_pos hn]

end

/-! ### The states of a transfer -/

/-- `s` once the transfer has come to offset `o` of record `d`, and has given the FIFO every word of the buffer before there (R161). -/
def State.sent (s : State) (d o : Nat) : State :=
  { s with fifo := s.fifo ++ (List.range ((d * pageSize + o) / 4)).map s.buf.readWord, dma := .active d o }

/-- What a transfer that sends the buffer as it is starts from: a chain, a buffer with no word dirty, and the frames the oracle answered
(R43, R61, R234). -/
structure State.CleanStart (s : State) : Prop where
  chain : s.ChainInv
  visible : s.VisibleInv
  oracle : s.OracleOk
  start : s.dma = .active 0 0
  clean : s.dirty = []

section
variable {s : State} (h : s.CleanStart)
include h

theorem State.CleanStart.chainValid : s.chainValid = true := by
  obtain ⟨-, hv, -⟩ := h.chain.transfer 0 0 h.start
  exact hv

theorem State.CleanStart.notDirty (w : Nat) : w ∉ s.dirty := by
  rw [h.clean]
  exact List.not_mem_nil

/-- At its start the transfer has sent nothing. -/
theorem State.CleanStart.sent_start : s.sent 0 0 = s := by
  have hfifo : s.fifo ++ (List.range ((0 * pageSize + 0) / 4)).map s.buf.readWord = s.fifo := by simp
  rw [State.sent, hfifo, ← h.start]

/-- The invariant holds all along the transfer (R43). -/
theorem State.CleanStart.chainInv_sent {d o : Nat} (hd : d < s.pageCount) (h4 : o % 4 = 0)
    (ho : o ≤ (s.desc.readDesc d).len.toNat) : (s.sent d o).ChainInv := by
  have hsame : s.SameChain (s.sent d o) := {}
  obtain ⟨hphase, hv, -⟩ := h.chain.transfer 0 0 h.start
  refine ⟨h.chain.chain.of_sameChain hsame, h.chain.quiet, fun d' o' ha => ?_⟩
  obtain ⟨rfl, rfl⟩ : d = d' ∧ o = o' := by simpa [State.sent] using ha
  exact ⟨hphase, hv, fun _ => ⟨hd, h4, ho⟩⟩

theorem State.CleanStart.oracleOk_sent (d o : Nat) : (s.sent d o).OracleOk := ⟨h.oracle.pages, h.oracle.storage⟩

/-- The reader loads the chain's own records (R157, R234). -/
theorem State.CleanStart.loaded_sent (d o : Nat) : (s.sent d o).loaded d = s.desc.readDesc d :=
  loaded_of_stands h.oracle.storage d

/-- Any word of the buffer is read as the host wrote it (R61, R62). -/
theorem State.CleanStart.busRead_sent (d o : Nat) {w : Nat} (hw : w < s.bufWords) : (s.sent d o).busRead w = s.buf.readWord w := by
  obtain ⟨hflushed, hsame⟩ := h.visible.2 w hw (h.notDirty w)
  exact (busRead_of_clean (h.notDirty w) hflushed).trans hsame

/-! ### One step of it -/

/-- Inside a record the reader sends one more word (R156). -/
theorem State.CleanStart.sends_word {d o : Nat} (hd : d < s.pageCount) (h4 : o % 4 = 0) (ho : o < (s.desc.readDesc d).len.toNat) :
    (s.sent d o).readerNext = some (s.sent d (o + 4)) := by
  have hchain := h.chainInv_sent hd h4 ho.le
  obtain ⟨va, hrec⟩ := hchain.inRecord rfl h.oracle.storage
  have hw : (d * pageSize + o) / 4 < s.bufWords := (hrec.offset_lt ho).2
  have hclean : (d * pageSize + o) / 4 ∉ (s.sent d o).dirty := h.notDirty _
  have hexec := (readerTransfersWord _ d o hchain rfl).1 (h.oracleOk_sent d o) ho
  rw [if_neg hclean, h.busRead_sent d o hw] at hexec
  have hcount : (d * pageSize + (o + 4)) / 4 = (d * pageSize + o) / 4 + 1 := by omega
  refine (readerNext_of_exec (readerStep_of_word rfl (by rw [h.loaded_sent]; exact ho)) hexec).trans ?_
  simp only [State.sent, hcount, List.range_succ, List.map_append, List.map_singleton, List.append_assoc]

/-- At the end of a record before the last the reader goes on to the next page's (R157). -/
theorem State.CleanStart.goes_on {d : Nat} (hd : d + 1 < s.pageCount) :
    (s.sent d (s.desc.readDesc d).len.toNat).readerNext = some (s.sent (d + 1) 0) := by
  have hd' : d < s.pageCount := by omega
  have hchain := h.chainInv_sent hd' (h.chain.chain.len_mod_four h.chainValid hd') le_rfl
  obtain ⟨va, hrec⟩ := hchain.inRecord rfl h.oracle.storage
  have hnext : (s.desc.readDesc d).next ≠ 0 := (h.chain.chain.link_leads_on h.chainValid hd).1
  obtain ⟨-, hexec⟩ := (readerFollowsLink _ d _ hchain rfl).1 h.oracle.storage rfl hnext
  have hfull : d * pageSize + (s.desc.readDesc d).len.toNat = (d + 1) * pageSize + 0 := by
    have hlen : (s.desc.readDesc d).len.toNat = min pageSize (s.bufBytes - d * pageSize) := hrec.len
    rw [hlen]
    unfold State.pageCount cdiv pageSize at *
    omega
  refine (readerNext_of_exec (readerStep_of_link rfl (by rw [h.loaded_sent]) (by rw [h.loaded_sent]; exact hnext)) hexec).trans ?_
  simp only [State.sent, hfull]

/-- At the end of the last record the transfer is over, and the whole buffer sent (R158, R161). -/
theorem State.CleanStart.completes {d : Nat} (hd : d + 1 = s.pageCount) :
    (s.sent d (s.desc.readDesc d).len.toNat).readerNext =
      some { s with fifo := s.fifo ++ (List.range s.bufWords).map s.buf.readWord, dma := .idle } := by
  have hd' : d < s.pageCount := by omega
  have hchain := h.chainInv_sent hd' (h.chain.chain.len_mod_four h.chainValid hd') le_rfl
  have hnext : (s.desc.readDesc d).next = 0 := (h.chain.chain.link_eq_zero_iff h.chainValid hd').mpr hd
  obtain ⟨-, hbytes, hexec⟩ := (readerCompletes _ d _ hchain rfl).1 h.oracle.storage rfl hnext
  have hbytes : d * pageSize + (s.desc.readDesc d).len.toNat = s.bufBytes := hbytes
  refine (readerNext_of_exec (readerStep_of_lastLink rfl (by rw [h.loaded_sent]) (by rw [h.loaded_sent]; exact hnext)) hexec).trans ?_
  simp only [State.sent, hbytes, State.bufWords]

/-! ### All of it -/

/-- From the beginning of a record the reader comes to every word of it (R156). -/
theorem State.CleanStart.reaches_word {d : Nat} (hd : d < s.pageCount) (hr : ReaderReaches s (s.sent d 0)) :
    ∀ n, 4 * n ≤ (s.desc.readDesc d).len.toNat → ReaderReaches s (s.sent d (4 * n)) := by
  intro n
  induction n with
  | zero => exact fun _ => hr
  | succ n ih => exact fun hn => (ih (by omega)).tail (h.sends_word hd (by omega) (by omega))

theorem State.CleanStart.reaches_end {d : Nat} (hd : d < s.pageCount) (hr : ReaderReaches s (s.sent d 0)) :
    ReaderReaches s (s.sent d (s.desc.readDesc d).len.toNat) := by
  have h4 := h.chain.chain.len_mod_four h.chainValid hd
  have hend := h.reaches_word hd hr ((s.desc.readDesc d).len.toNat / 4) (by omega)
  rwa [Nat.mul_div_cancel' (Nat.dvd_of_mod_eq_zero h4)] at hend

/-- The reader comes to every record of the chain (R157). -/
theorem State.CleanStart.reaches_record : ∀ d < s.pageCount, ReaderReaches s (s.sent d 0) := by
  intro d
  induction d with
  | zero => exact fun _ => h.sent_start.symm ▸ .refl s
  | succ d ih => exact fun hd => (h.reaches_end (by omega) (ih (by omega))).tail (h.goes_on hd)

end

/-- Settles O60: record by record and word by word to the end of the last record, whose link is 0. -/
theorem wholeTransferSendsBuffer : Obligations.WholeTransferSendsBuffer := by
  intro s hchain hvisible horacle hstart hclean
  have h : s.CleanStart := ⟨hchain, hvisible, horacle, hstart, hclean⟩
  obtain ⟨-, -, hin⟩ := hchain.transfer 0 0 hstart
  obtain ⟨hpos, -⟩ := hin horacle.storage
  have hlast : s.pageCount - 1 < s.pageCount := Nat.sub_one_lt_of_lt hpos
  have hend := h.reaches_end hlast (h.reaches_record _ hlast)
  obtain ⟨k, hk⟩ := hend.tail (h.completes (by omega))
  exact ⟨k, _, hk, rfl⟩

end Sys2Proof.Machine
end

section
/-!
The phases (42_host_ops R171, R182): what a handle that is not open refuses, that `Finalized` is terminal, and that a DMA error lasts until
FINALIZE (R178).
-/

namespace Sys2Proof.Machine

/-! ### What a handle that is not open refuses -/

section
variable {s : State}

theorem isOpen_eq_false_iff : s.isOpen = false ↔ s.phase = .uninitialized ∨ s.phase = .finalized := by
  rw [State.isOpen]
  cases s.phase <;> decide

theorem execInit_of_wrongPhase (e : InitEnv) (hp : s.phase ≠ .uninitialized) : execInit e s = .refused .wrongPhase := by
  rw [execInit, if_neg fun h => hp h.1]

section
variable (hq : s.inInit = false)
include hq

theorem execSize_of_notInInit : execSize s = .refused .wrongPhase := by
  rw [execSize, if_neg (by simp [hq])]

theorem execTranslate_of_notInInit (va : Nat) : execTranslate va s = .refused .wrongPhase := by
  rw [execTranslate, if_neg (by simp [hq])]

/-- The steps that INITIALIZE and `Ready` admit are refused in `Rendering` once no transfer is in flight (log 12). -/
theorem execPrime_of_rendering (hp : s.phase = .rendering) (hd : s.dma.isActive = false) : execPrime s = .refused .wrongPhase := by
  rw [execPrime, if_pos (by simp [State.isOpen, hp]), if_neg (by simp [hd]), if_neg (by simp [hq, hp])]

theorem execBuildChain_of_rendering (hp : s.phase = .rendering) (hd : s.dma.isActive = false) (pages : List Nat) (n : Nat) :
    execBuildChain pages n s = .refused .wrongPhase := by
  rw [execBuildChain, if_pos (by simp [State.isOpen, hp]), if_neg (by simp [hd]), if_neg (by simp [hq, hp])]

end

section
variable (ho : s.isOpen = false)
include ho

theorem execEncode_of_closed : execEncode s = .refused .wrongPhase := by
  rw [execEncode, if_neg (by simp [ho])]

/-- RENDER begins with ENCODE, and is refused with it (R174). -/
theorem execRender_of_closed : execRender s = .refused .wrongPhase := by
  have hrow : runAll renderSteps s = .refused .wrongPhase := by
    rw [renderSteps, runAll, execEncode_of_closed ho]
    rfl
  rw [execRender, hrow]

theorem execWait_of_closed : execWait s = .refused .wrongPhase := by
  rw [execWait, if_neg (by simp [ho])]

theorem execDmaStart_of_closed : execDmaStart s = .refused .wrongPhase := by
  rw [execDmaStart, if_neg (by simp [ho])]

theorem putBitStep_of_closed (c : Chan) (x : Bool) : putBitStep c x s = .refused .wrongPhase := by
  rw [putBitStep, if_neg (by simp [ho])]

/-- A symbol's row of stores is refused with its first. -/
theorem putBits_symbol_of_closed (c : Chan) (x : BitVec 3) : putBits c (symbolBits x) s = .refused .wrongPhase := by
  rw [putBits, symbolBits, List.map_cons, runAll, putBitStep_of_closed ho]
  rfl

theorem execColor_of_closed (c : Chan) (i : Nat) (v : Word) : execColor c i v s = .refused .wrongPhase := by
  rw [execColor, if_neg (by simp [ho])]

theorem execExpandLed_of_closed (v : Word) : execExpandLed v s = .refused .wrongPhase :=
  if_neg (by simp [ho])

variable (hq : s.inInit = false)
include hq

theorem execPrime_of_closed : execPrime s = .refused .wrongPhase := by
  rw [execPrime, if_neg (by simp [ho, hq])]

theorem execFlush_of_closed (a : FlushArg) : execFlush a s = .refused .wrongPhase := by
  unfold execFlush
  exact if_neg (by simp [ho, hq])

theorem execBuildChain_of_closed (pages : List Nat) (n : Nat) : execBuildChain pages n s = .refused .wrongPhase := by
  rw [execBuildChain, if_neg (by simp [ho, hq])]

theorem chainStep_of_closed (i : Nat) (k : State → Out) : chainStep i s k = .refused .wrongPhase := by
  rw [chainStep, if_neg (by simp [ho, hq])]

theorem execBusaddr_of_closed (f : BitVec 20) (o : BitVec 12) : execBusaddr f o s = .refused .wrongPhase :=
  if_neg (by simp [ho, hq])

end

/-- Where no transfer is in flight the DMA reader shows none, or an error (R34). -/
theorem Dma.idle_or_error_of_notActive {d : Dma} (hd : d.isActive = false) : d = .idle ∨ ∃ v, d = .error v := by
  cases d with
  | idle => exact .inl rfl
  | active d o => cases hd
  | error v => exact .inr ⟨v, rfl⟩

section
variable (hd : s.dma.isActive = false)
include hd

theorem execDmaXferWord_of_notActive : execDmaXferWord s = .refused .noAgentStep := by
  obtain h | ⟨v, h⟩ := Dma.idle_or_error_of_notActive hd <;> simp only [execDmaXferWord, h]

theorem execDmaFollowLink_of_notActive : execDmaFollowLink s = .refused .noAgentStep := by
  obtain h | ⟨v, h⟩ := Dma.idle_or_error_of_notActive hd <;> simp only [execDmaFollowLink, h]

theorem execDmaComplete_of_notActive : execDmaComplete s = .refused .noAgentStep := by
  obtain h | ⟨v, h⟩ := Dma.idle_or_error_of_notActive hd <;> simp only [execDmaComplete, h]

/-- A handle that is not open, with no INITIALIZE in progress and no transfer in flight, admits INITIALIZE and FINALIZE only (R171, R182). -/
theorem exec_refused_of_closed (ho : s.isOpen = false) (hq : s.inInit = false) {i : Instr} (hi : i ≠ .finalize)
    (hinit : ∀ e, i ≠ .init e) : ∃ r, exec i s = .refused r := by
  cases i with
  | size => exact ⟨_, execSize_of_notInInit hq⟩
  | prime => exact ⟨_, execPrime_of_closed ho hq⟩
  | encode => exact ⟨_, execEncode_of_closed ho⟩
  | translate va => exact ⟨_, execTranslate_of_notInInit hq va⟩
  | buildChain pages n => exact ⟨_, execBuildChain_of_closed ho hq pages n⟩
  | flush a => exact ⟨_, execFlush_of_closed ho hq a⟩
  | dmaStart => exact ⟨_, execDmaStart_of_closed ho⟩
  | wait => exact ⟨_, execWait_of_closed ho⟩
  | reserved0 | reserved9 | reservedAB | reservedCF => exact ⟨_, rfl⟩
  | init e => exact absurd rfl (hinit e)
  | render => exact ⟨_, execRender_of_closed ho⟩
  | finalize => exact absurd rfl hi
  | expandLed v => exact ⟨_, execExpandLed_of_closed ho v⟩
  | putBit c x => exact ⟨_, putBitStep_of_closed ho c x⟩
  | emitSymbol c d | sym1 c | sym0 c | sym1Inv c | sym0Inv c => exact ⟨_, putBits_symbol_of_closed ho c _⟩
  | emitDesc k => exact ⟨_, (chainStep_of_closed ho hq k _ : execEmitDesc k s = _)⟩
  | terminate n => exact ⟨_, (chainStep_of_closed ho hq (n - 1) _ : execTerminate n s = _)⟩
  | tiWord k => exact ⟨_, (chainStep_of_closed ho hq k _ : execTiWord k s = _)⟩
  | desc k r => exact ⟨_, (chainStep_of_closed ho hq k _ : execDesc k r s = _)⟩
  | dmaXferWord => exact ⟨_, execDmaXferWord_of_notActive hd⟩
  | dmaFollowLink => exact ⟨_, execDmaFollowLink_of_notActive hd⟩
  | dmaComplete => exact ⟨_, execDmaComplete_of_notActive hd⟩
  | dmaError v => exact ⟨_, if_neg (by simp [hd])⟩
  | color c k v => exact ⟨_, execColor_of_closed ho c k v⟩
  | busaddr f o => exact ⟨_, execBusaddr_of_closed ho hq f o⟩

end

end

/-- Settles O18: each operation by its own gate; a closed handle by all of them. -/
theorem wrongPhaseRefused : Obligations.WrongPhaseRefused := by
  intro s
  refine ⟨fun hp hq hd i hi hinit => ?_, fun hp e => execInit_of_wrongPhase e hp,
    fun hq => ⟨execSize_of_notInInit hq, execTranslate_of_notInInit hq⟩, fun ho => ?_, fun ho hq => ?_, fun hp hq hd => ?_⟩
  · exact exec_refused_of_closed hd (isOpen_eq_false_iff.mpr (.inl hp)) hq hi hinit
  · exact ⟨execEncode_of_closed ho, execRender_of_closed ho, execWait_of_closed ho, execDmaStart_of_closed ho⟩
  · exact ⟨execPrime_of_closed ho hq, execFlush_of_closed ho hq, execBuildChain_of_closed ho hq⟩
  · exact ⟨execPrime_of_rendering hq hp hd, execBuildChain_of_rendering hq hp hd⟩

/-! ### What lasts until FINALIZE -/

/-- `t` has the phase of `s` where the handle is not open, and its DMA error where it shows one. -/
structure State.Lasts (s t : State) : Prop where
  phase : s.isOpen = false → t.phase = s.phase
  dmaError : ∀ v, s.dma = .error v → t.dma = .error v

theorem State.Lasts.of_same {s t : State} (hp : t.phase = s.phase := by rfl) (hd : t.dma = s.dma := by rfl) : s.Lasts t :=
  ⟨fun _ => hp, fun _ h => hd.trans h⟩

/-- An operation that needs an open handle and an engine without an error. -/
theorem State.Lasts.of_open_idle {s t : State} (ho : s.isOpen = true) (hd : s.dma = .idle) : s.Lasts t :=
  ⟨fun hn => by (rw [ho] at hn; cases hn), fun v h => by (rw [hd] at h; cases h)⟩

/-- A step of the DMA reader, which leaves the phase alone. -/
theorem State.Lasts.of_active {s t : State} {d o : Nat} (hd : s.dma = .active d o) (hp : t.phase = s.phase := by rfl) : s.Lasts t :=
  ⟨fun _ => hp, fun v h => by (rw [hd] at h; cases h)⟩

theorem putBits_lasts {c : Chan} {xs : List Bool} {s t : State} (h : putBits c xs s = .next t) : s.Lasts t := by
  obtain ⟨hp, hd⟩ := putBits_keeps (P := fun u => u.phase = s.phase ∧ u.dma = s.dma) ⟨rfl, rfl⟩ h fun x u hu _ _ _ => hu
  exact .of_same hp hd

/-- After a DMA error RENDER starts no transfer: DMA_START refuses (R175, R178). -/
theorem execRender_lasts {s t : State} (h : execRender s = .next t) : s.Lasts t := by
  refine ⟨fun ho => ?_, fun v hv => ?_⟩
  · rw [execRender_of_closed ho] at h; cases h
  refine execRender_keeps (P := fun u => u.dma = .error v) hv h ?_ ?_ ?_ ?_ ?_ (fun u hu _ _ => hu)
  · intro u w hu hw
    obtain ⟨-, -, -, rfl⟩ := execEncode_next hw
    exact hu
  · intro a u w hu hw
    obtain ⟨-, ⟨lo, hi, -, -, -, rfl⟩ | ⟨-, rfl⟩⟩ := execFlush_next hw <;> exact hu
  · intro u w hu hw
    obtain ⟨-, ⟨x, -, rfl⟩ | ⟨-, rfl⟩ | ⟨-, rfl | rfl⟩⟩ := execWait_next hw <;> exact hu
  · intro u w hu hw
    obtain ⟨-, -, -, hb⟩ := execBuildChain_next hw
    exact (buildRun_frame hb).1.trans hu
  · intro u w hu hw
    obtain ⟨-, hd, -⟩ := execDmaStart_next hw
    rw [hd] at hu; cases hu

/-- Nothing but INITIALIZE and FINALIZE changes the phase of a handle that is not open, or ends a DMA error (R171, R178). -/
theorem exec_lasts {i : Instr} {s t : State} (hi : i ≠ .finalize) (hinit : ∀ e, i ≠ .init e) (h : exec i s = .next t) :
    s.Lasts t := by
  cases i with
  | size => obtain ⟨-, -, rfl⟩ := execSize_next h; exact .of_same
  | prime => obtain ⟨-, -, rfl⟩ := execPrime_next h; exact .of_same
  | encode => obtain ⟨-, -, -, rfl⟩ := execEncode_next h; exact .of_same
  | translate va => obtain ⟨-, ⟨a, -, rfl⟩ | ⟨-, rfl⟩⟩ := execTranslate_next h <;> exact .of_same
  | buildChain pages n =>
    obtain ⟨-, -, -, hb⟩ := execBuildChain_next h
    obtain ⟨hd, hp, -⟩ := buildRun_frame hb
    exact .of_same hp hd
  | flush a => obtain ⟨-, ⟨lo, hi, -, -, -, rfl⟩ | ⟨-, rfl⟩⟩ := execFlush_next h <;> exact .of_same
  | dmaStart => obtain ⟨ho, hd, -⟩ := execDmaStart_next h; exact .of_open_idle ho hd
  | wait =>
    obtain ⟨ho, ⟨v, -, rfl⟩ | ⟨hd, -⟩ | ⟨-, rfl | rfl⟩⟩ := execWait_next h
    · exact .of_same
    · exact .of_open_idle ho hd
    · exact .of_same
    · exact .of_same
  | reserved0 | reserved9 | reservedAB | reservedCF => cases h
  | init e => exact absurd rfl (hinit e)
  | render => exact execRender_lasts h
  | finalize => exact absurd rfl hi
  | expandLed v => obtain ⟨-, rfl⟩ := execExpandLed_next h; exact .of_same
  | putBit c x => obtain ⟨-, -, -, rfl⟩ := putBitStep_next h; exact .of_same
  | emitSymbol | sym1 | sym0 | sym1Inv | sym0Inv => exact putBits_lasts h
  | emitDesc k =>
    obtain ⟨-, -, -, ⟨a, -, rfl⟩ | rfl⟩ := execEmitDesc_next h
    · exact .of_same (emitDescEffect_phase k a s) (emitDescEffect_dma k a s)
    · exact .of_same
  | terminate n => obtain ⟨-, -, -, rfl⟩ := execTerminate_next h; exact .of_same
  | dmaXferWord => obtain ⟨d, o, hd, -, -, rfl⟩ := execDmaXferWord_next h; exact .of_active hd
  | dmaFollowLink => obtain ⟨d, o, k, hd, -, -, -, -, rfl⟩ := execDmaFollowLink_next h; exact .of_active hd
  | dmaComplete => obtain ⟨d, o, hd, -, -, -, rfl⟩ := execDmaComplete_next h; exact .of_active hd
  | dmaError v =>
    obtain ⟨ha, rfl⟩ := execDmaError_next h
    exact ⟨fun _ => rfl, fun w hw => by rw [hw] at ha; cases ha⟩
  | color c k v => obtain ⟨-, -, rfl⟩ := execColor_next h; exact .of_same
  | tiWord k => obtain ⟨-, -, -, rfl⟩ := execTiWord_next h; exact .of_same
  | busaddr f o => obtain ⟨-, rfl⟩ := execBusaddr_next h; exact .of_same
  | desc k r => obtain ⟨-, -, -, rfl⟩ := execDesc_next h; exact .of_same

/-- FINALIZE of a handle that is not open leaves it as it is, stuck, or gives it back (R180). -/
theorem execFinalize_phase_of_closed {s t : State} (ho : s.isOpen = false) (h : execFinalize s = .next t) :
    t.phase = s.phase ∨ t.phase = .finalized := by
  obtain ⟨hn, -⟩ | ⟨-, ⟨-, -, rfl⟩ | rfl⟩ := execFinalize_next h
  · rw [ho] at hn; cases hn
  · exact .inl (if_neg (by simp [ho]))
  · exact .inr rfl

/-- No operation leaves `Finalized` (R180). -/
theorem exec_keeps_finalized {i : Instr} {s t : State} (hp : s.phase = .finalized) (h : exec i s = .next t) :
    t.phase = .finalized := by
  have ho : s.isOpen = false := isOpen_eq_false_iff.mpr (.inr hp)
  by_cases hi : i = .finalize
  · subst hi
    exact (execFinalize_phase_of_closed ho h).elim (·.trans hp) id
  · have hinit : ∀ e, i ≠ .init e := by
      rintro e rfl
      obtain ⟨hu, -⟩ := execInit_next h
      rw [hp] at hu; cases hu
    exact ((exec_lasts hi hinit h).phase ho).trans hp

theorem applyStore_phase (st : Store) (s : State) : (applyStore st s).phase = s.phase := by cases st <;> rfl

/-- Settles O8: no operation leaves `Finalized`, and a handle that is not open refuses what is neither INITIALIZE, which needs
`Uninitialized`, nor FINALIZE. -/
theorem finalizedIsTerminal : Obligations.FinalizedIsTerminal := by
  refine ⟨fun s t hp h => ?_, fun s i hp hq hd hi => ?_⟩
  · exact step_keeps (P := fun u => u.phase = .finalized) hp h (fun i u v _ hu hv => exec_keeps_finalized hu hv)
      (fun st u hu => (applyStore_phase st u).trans hu) (fun u rest hu => hu) (fun u r _ hu => hu) (fun u hu => hu)
  · by_cases hinit : ∃ e, i = .init e
    · obtain ⟨e, rfl⟩ := hinit
      exact ⟨_, execInit_of_wrongPhase e (by simp [hp])⟩
    · exact exec_refused_of_closed hd (isOpen_eq_false_iff.mpr (.inr hp)) hq hi fun e he => hinit ⟨e, he⟩

/-- Settles O9: INITIALIZE is not admitted in an open handle, and no other operation ends an error. -/
theorem dmaErrorIsSticky : Obligations.DmaErrorIsSticky := by
  intro i s t v ho hv hi h
  refine (exec_lasts hi ?_ h).dmaError v hv
  rintro e rfl
  obtain ⟨hu, -⟩ := execInit_next h
  rw [isOpen_eq_false_iff.mpr (.inl hu)] at ho
  cases ho

end Sys2Proof.Machine
end

section
/-!
The engine and the host thread (42_host_ops): DMA_START (R176), the polls of WAIT (R177, R184), the holds, and FINALIZE (R179 to R181).
-/

namespace Sys2Proof.Machine

/-! ### DMA_START -/

theorem chainCurrent_iff (s : State) : s.chainCurrent = true ↔ s.chainValid = true ∧ s.chainFor = some (s.freq, s.maxLeds) := by
  simp [State.chainCurrent, State.sizing]

section
variable {s : State} (ho : s.isOpen = true)
include ho

theorem execDmaStart_of_active (hd : s.dma.isActive = true) : execDmaStart s = .refused .startWhileActive := by
  cases hdma : s.dma with
  | active d o => simp only [execDmaStart, if_pos ho, hdma]
  | idle => rw [hdma] at hd; cases hd
  | error v => rw [hdma] at hd; cases hd

theorem execDmaStart_of_error {v : Word} (hd : s.dma = .error v) : execDmaStart s = .refused .startAfterError := by
  simp only [execDmaStart, if_pos ho, hd]

/-- With the engine idle, DMA_START looks at the chain and then at what the DMA reader sees of it (R176). -/
theorem execDmaStart_of_idle (hd : s.dma = .idle) : execDmaStart s =
    if s.chainCurrent then (if s.descDirty then .fault .descriptorsNotVisible else .next (dmaStartEffect s))
    else .refused .noChain := by
  simp only [execDmaStart, if_pos ho, hd]

end

/-- Settles O45: by the engine's state, then by the chain's. -/
theorem dmaStartStarts : Obligations.DmaStartStarts := by
  intro s ho
  refine ⟨execDmaStart_of_active ho, fun v => execDmaStart_of_error ho, fun hd hc => ?_, fun hd hv hf hdirty => ?_,
    fun hd hv hf hdirty => ?_⟩
  all_goals refine (execDmaStart_of_idle ho hd).trans ?_
  · exact if_neg fun h => hc ((chainCurrent_iff s).mp h)
  · rw [if_pos ((chainCurrent_iff s).mpr ⟨hv, hf⟩), if_pos hdirty]
  · rw [if_pos ((chainCurrent_iff s).mpr ⟨hv, hf⟩), if_neg (by simp [hdirty]), dmaStartEffect]

/-! ### WAIT -/

theorem timedOut_of_none {s : State} (h : s.params.waitTimeout = none) : s.timedOut = false := by
  simp only [State.timedOut, h]

theorem timedOut_of_some {s : State} {n : Nat} (h : s.params.waitTimeout = some n) : s.timedOut = decide (n ≤ s.polls + 1) := by
  simp only [State.timedOut, h]

section
variable {s : State} (ho : s.isOpen = true)
include ho

theorem execWait_of_idle (hd : s.dma = .idle) : execWait s = .next (waitEffect s) := by
  simp only [execWait, if_pos ho, hd]

theorem execWait_of_error {v : Word} (hd : s.dma = .error v) : execWait s = .next (s.raise (.dma v)) := by
  simp only [execWait, if_pos ho, hd]

/-- A poll that sees the active bit holds the host thread, unless it is the last one allowed (R177, R184). -/
theorem execWait_of_active (hd : s.dma.isActive = true) :
    execWait s = .next (if s.timedOut then s.raise .timeout else s.hold .wait) := by
  rw [apply_ite Host.Outcome.next]
  cases hdma : s.dma with
  | active d o => simp only [execWait, if_pos ho, hdma]
  | idle => rw [hdma] at hd; cases hd
  | error v => rw [hdma] at hd; cases hd

/-- FINALIZE polls in the same way (R179). -/
theorem execFinalize_of_hold (hd : s.dma.isActive = true) (ht : s.timedOut = false) :
    execFinalize s = .next (s.hold .finalize) := by
  rw [execFinalize, if_pos (by simp [ho, hd, ht])]

end

/-- Settles O46: by the engine's state. -/
theorem waitPolls : Obligations.WaitPolls := by
  intro s ho
  refine ⟨execWait_of_idle ho, fun v => execWait_of_error ho, fun hd ht => ?_, fun n hd ht => ?_⟩
  all_goals refine (execWait_of_active ho hd).trans ?_
  · rw [timedOut_of_none ht]
    rfl
  · simp only [timedOut_of_some ht, decide_eq_true_eq, State.hold]

/-! ### A held host -/

theorem step_of_host {s : State} (ht : s.turn = .host) : step s = advanceOut (hostTurn s) := by
  rw [step, move, ht]

/-- A host held in a polling operation polls again; another poll of the same hold only counts (R177, R179). -/
theorem hostTurn_of_hold {s : State} {b : Blocked} (hb : s.blocked = some b) (hp : b = .wait ∨ b = .finalize) (ho : s.isOpen = true)
    (hd : s.dma.isActive = true) (ht : s.timedOut = false) : hostTurn s = .next { s with polls := s.polls + 1 } := by
  have hpoll : hostTurn s = .next (s.hold b) := by
    obtain rfl | rfl := hp
    · have hw : exec .wait s = .next (s.hold .wait) := by
        refine (execWait_of_active ho hd).trans ?_
        rw [ht]
        rfl
      simp only [hostTurn, hb, hostIssue, hw, hostOutcome]
    · have hf : exec .finalize s = .next (s.hold .finalize) := execFinalize_of_hold ho hd ht
      simp only [hostTurn, hb, hostIssue, hf, hostOutcome]
  rw [hpoll, State.hold, ← hb]

/-- A host stuck in the clock's busy-wait makes no progress (R184). -/
theorem hostTurn_of_stuck {s : State} (hb : s.blocked = some .clock) : hostTurn s = .next s := by
  rw [hostTurn, hb]

/-- Settles O47: by what holds the host. -/
theorem waitHoldsHost : Obligations.WaitHoldsHost := by
  intro s ht
  refine ⟨fun ho hd hnone hb => ?_, fun hb => ?_⟩
  · have hpoll : hostTurn s = .next { s with polls := s.polls + 1 } := by
      obtain hb | hb := hb
      · exact hostTurn_of_hold hb (.inl rfl) ho hd (timedOut_of_none hnone)
      · exact hostTurn_of_hold hb (.inr rfl) ho hd (timedOut_of_none hnone)
    rw [step_of_host ht, hpoll]
    exact ⟨_, rfl⟩
  · rw [step_of_host ht, hostTurn_of_stuck hb]
    exact ⟨_, rfl⟩

/-! ### FINALIZE -/

section
variable {s : State}

/-- Where the wait of FINALIZE is over it stops the clock or is stuck in stopping it (R179, R184). -/
theorem execFinalize_of_noHold (h : (s.isOpen && s.dma.isActive && !s.timedOut) = false) :
    execFinalize s = .next (if s.pwmOn && !s.params.clockStops then finalizeStuck s else finalizeEffect s) := by
  rw [execFinalize, if_neg (by simp [h]), apply_ite (f := Host.Outcome.next)]

theorem cutsOff_of_noTransfer (h : s.isOpen = true → s.dma = .idle) : s.cutsOff = false := by
  by_cases ho : s.isOpen = true
  · simp [State.cutsOff, h ho]
  · simp [State.cutsOff, ho]

/-- `s` whose wires FINALIZE cut off, each at a free length of its own (R181; log 27). -/
def State.cut (s : State) : State :=
  { s with draws := s.draws + 1, wireCut := some ⟨Config.cutLength s.draws 0, Config.cutLength s.draws 1⟩ }

/-- Without a transfer step 1 of FINALIZE has WAIT's effect in an open handle, and nothing is cut off (R177, R179). -/
theorem finalizeStop_of_noTransfer (h : s.isOpen = true → s.dma = .idle) :
    finalizeStop s = { s with phase := if s.isOpen = true then .ready else s.phase } := by
  have hcut := cutsOff_of_noTransfer h
  have hphase : (s.isOpen && s.dma == .idle) = s.isOpen := by
    by_cases ho : s.isOpen = true
    · simp [h ho]
    · simp [ho]
  simp only [finalizeStop, hcut, hphase, Bool.false_eq_true, if_false]

/-- A transfer that has not completed, or ended with an error, is cut off (R179, R181). -/
theorem finalizeStop_of_transfer (ho : s.isOpen = true) (hd : s.dma ≠ .idle) : finalizeStop s = s.cut := by
  have hcut : s.cutsOff = true := by simp [State.cutsOff, ho, hd]
  have hphase : (s.isOpen && s.dma == .idle) = false := by simp [hd]
  simp only [finalizeStop, hcut, hphase, Bool.false_eq_true, if_false, if_true, State.cut]

/-- Given back, a handle has its power-on values; what was cut off stays to be seen (R179, R180). -/
theorem finalizeEffect_of_noTransfer (h : s.isOpen = true → s.dma = .idle) :
    finalizeEffect s = { s.powerOn with phase := .finalized, result := .ok } := by
  rw [finalizeEffect, finalizeStop_of_noTransfer h]
  rfl

theorem finalizeEffect_of_transfer (ho : s.isOpen = true) (hd : s.dma ≠ .idle) :
    finalizeEffect s = { s.powerOn with
      phase := .finalized, result := .ok, draws := s.draws + 1
      wireCut := some ⟨Config.cutLength s.draws 0, Config.cutLength s.draws 1⟩ } := by
  rw [finalizeEffect, finalizeStop_of_transfer ho hd]
  rfl

theorem finalizeStuck_of_noTransfer (h : s.isOpen = true → s.dma = .idle) : finalizeStuck s = { s with
    phase := if s.isOpen = true then .ready else s.phase, result := .none, blocked := some .clock, polls := 0 } := by
  rw [finalizeStuck, finalizeStop_of_noTransfer h]

theorem finalizeStuck_of_transfer (ho : s.isOpen = true) (hd : s.dma ≠ .idle) : finalizeStuck s = { s with
    result := .none, blocked := some .clock, polls := 0, draws := s.draws + 1
    wireCut := some ⟨Config.cutLength s.draws 0, Config.cutLength s.draws 1⟩ } := by
  rw [finalizeStuck, finalizeStop_of_transfer ho hd]
  rfl

theorem not_idle_of_active (hd : s.dma.isActive = true) : s.dma ≠ .idle := fun h => by rw [h] at hd; cases hd

/-- FINALIZE goes on where no transfer is in flight (R179). -/
theorem execFinalize_of_notActive (h : s.isOpen = true → s.dma.isActive = false) :
    execFinalize s = .next (if s.pwmOn && !s.params.clockStops then finalizeStuck s else finalizeEffect s) := by
  refine execFinalize_of_noHold ?_
  by_cases ho : s.isOpen = true
  · simp [h ho]
  · simp [ho]

theorem execFinalize_of_noTransfer (h : s.isOpen = true → s.dma = .idle) :
    execFinalize s = .next (if s.pwmOn && !s.params.clockStops then finalizeStuck s else finalizeEffect s) :=
  execFinalize_of_notActive fun ho => by rw [h ho]; rfl

theorem execFinalize_of_error {v : Word} (hd : s.dma = .error v) :
    execFinalize s = .next (if s.pwmOn && !s.params.clockStops then finalizeStuck s else finalizeEffect s) :=
  execFinalize_of_notActive fun _ => by rw [hd]; rfl

/-- With a transfer in flight under `WAIT_TIMEOUT`, FINALIZE polls until the last poll allowed, and then goes on (R179, R181, R184). -/
theorem execFinalize_of_waitTimeout {n : Nat} (ho : s.isOpen = true) (hd : s.dma.isActive = true)
    (hn : s.params.waitTimeout = some n) : execFinalize s = .next (if n ≤ s.polls + 1 then
      (if s.pwmOn && !s.params.clockStops then finalizeStuck s else finalizeEffect s) else s.hold .finalize) := by
  have ht := timedOut_of_some hn
  by_cases hlast : n ≤ s.polls + 1
  · rw [if_pos hlast]
    exact execFinalize_of_noHold (by simp [ht, hlast])
  · rw [if_neg hlast]
    exact execFinalize_of_hold ho hd (by simp [ht, hlast])

/-- A handle that was given back is as FINALIZE leaves it (R180). -/
theorem execFinalize_idempotent (s : State) :
    execFinalize { s.powerOn with phase := .finalized, result := .ok } =
      .next { s.powerOn with phase := .finalized, result := .ok } := by
  refine (execFinalize_of_noTransfer fun _ => rfl).trans (congrArg _ ?_)
  exact (if_neg Bool.false_ne_true).trans (finalizeEffect_of_noTransfer fun _ => rfl)

end

/-- Settles O55: by whether the clock stops, and by the engine's state. -/
theorem finalizeReleases : Obligations.FinalizeReleases := by
  intro s
  refine ⟨fun ho hd ht => execFinalize_of_hold ho hd (timedOut_of_none ht), fun hclock => ?_, fun hpwm hstops => ?_⟩
  · have hrun : (s.pwmOn && !s.params.clockStops) = false := by
      obtain h | h := hclock <;> simp [h]
    have hidle (h : s.isOpen = true → s.dma = .idle) :
        execFinalize s = .next { s.powerOn with phase := .finalized, result := .ok } := by
      rw [execFinalize_of_noTransfer h, hrun, if_neg Bool.false_ne_true, finalizeEffect_of_noTransfer h]
    refine ⟨fun h => ⟨hidle h, fun t ht => ?_⟩, fun v ho hd => ?_, fun n ho hd hn => ?_⟩
    · have ht : Host.Outcome.next _ = .next t := (hidle h).symm.trans ht
      cases ht
      exact execFinalize_idempotent s
    · refine (execFinalize_of_error hd).trans ?_
      rw [hrun, if_neg Bool.false_ne_true, finalizeEffect_of_transfer ho (by simp [hd])]
    · refine (execFinalize_of_waitTimeout ho hd hn).trans ?_
      rw [hrun, if_neg Bool.false_ne_true, finalizeEffect_of_transfer ho (not_idle_of_active hd), State.hold]
  · have hstuck : (s.pwmOn && !s.params.clockStops) = true := by simp [hpwm, hstops]
    refine ⟨fun h => ?_, fun v ho hd => ?_, fun n ho hd hn => ?_⟩
    · refine (execFinalize_of_noTransfer h).trans ?_
      rw [if_pos hstuck, finalizeStuck_of_noTransfer h]
    · refine (execFinalize_of_error hd).trans ?_
      rw [if_pos hstuck, finalizeStuck_of_transfer ho (by simp [hd])]
    · refine (execFinalize_of_waitTimeout ho hd hn).trans ?_
      rw [if_pos hstuck, finalizeStuck_of_transfer ho (not_idle_of_active hd), State.hold]

end Sys2Proof.Machine
end

section
/-!
INITIALIZE that fails (42_host_ops R172, R173): whatever step fails, what is left is the power-on state with the error; and which step fails
first.
-/

namespace Sys2Proof.Machine

/-! ### What no step of INITIALIZE changes but the rollback would restore -/

/-- `t` differs from `s` in nothing that the rollback leaves, but in what it returned (R173; log 22). -/
def State.SameAfterRollback (s t : State) : Prop := t.powerOn = { s.powerOn with result := t.result }

theorem State.SameAfterRollback.trans {s t u : State} (h : s.SameAfterRollback t) (h' : t.SameAfterRollback u) :
    s.SameAfterRollback u := by
  rw [State.SameAfterRollback, h', h]

theorem State.SameAfterRollback.params {s t : State} (h : s.SameAfterRollback t) : t.params = s.params :=
  (congrArg State.params h :)

theorem State.SameAfterRollback.pin {s t : State} (h : s.SameAfterRollback t) : t.pin = s.pin :=
  (congrArg State.pin h :)

/-- A build writes the chain and the builder's registers, which the rollback clears (R145, R173). -/
theorem buildRun_sameAfterRollback {pages : List Nat} {n : Nat} {s t : State} (h : buildRun pages n s = .next t) :
    s.SameAfterRollback t := by
  obtain ⟨b, -, rfl⟩ | ⟨k, b, -, rfl⟩ := buildRun_next h <;> rfl

/-- The steps of INITIALIZE that can fail write nothing that the rollback would leave (R172, R173). -/
theorem initSteps_sameAfterRollback {e : InitEnv} {s t : State} (h : runAll (initSteps e) (initStart s) = .next t) :
    s.SameAfterRollback t := by
  have hstart : s.SameAfterRollback (initStart s) := rfl
  refine initSteps_keeps hstart h ?colours ?size ?buffer ?prime ?storage ?translate
    (fun u a hu => hu.trans rfl) (fun u k hu => hu.trans rfl) ?build ?flush (fun u hu => hu.trans rfl) (fun u hu => hu.trans rfl)
  case colours =>
    intro u v hu hv
    obtain rfl | rfl := initColours_next hv <;> exact hu.trans rfl
  case size =>
    intro u v hu hv
    obtain ⟨-, -, rfl⟩ := execSize_next hv
    exact hu.trans rfl
  case buffer =>
    intro u v hu hv
    obtain ⟨va, -, -, rfl⟩ | rfl := initBuffer_next hv <;> exact hu.trans rfl
  case prime =>
    intro u v hu hv
    obtain ⟨-, -, rfl⟩ := execPrime_next hv
    exact hu.trans rfl
  case storage =>
    intro u v hu hv
    obtain ⟨va, n, rfl⟩ | rfl := initStorage_next hv <;> exact hu.trans rfl
  case translate =>
    intro d u v hu hv
    obtain ⟨-, ⟨a, -, rfl⟩ | ⟨-, rfl⟩⟩ := execTranslate_next hv <;> exact hu.trans rfl
  case build =>
    intro u v hu hv
    obtain ⟨-, -, -, hb⟩ := execBuildChain_next hv
    exact hu.trans (buildRun_sameAfterRollback hb)
  case flush =>
    intro u v hu hv
    obtain ⟨-, ⟨lo, hi, hl, -⟩ | ⟨-, rfl⟩⟩ := execFlush_next hv
    · cases hl
    · exact hu.trans rfl

theorem isError_of_eq {r : Result} {k : ErrorKind} (h : r = .error k) : r.isError = true := by rw [h]; rfl

/-- After an error INITIALIZE is rolled back (R173). -/
theorem initEnd_of_error {s t : State} {k : ErrorKind} (hs : s.SameAfterRollback t) (hk : t.result = .error k) :
    initEnd t = { s.powerOn with result := .error k } := by
  rw [initEnd, if_pos (isError_of_eq hk), hs, hk]

/-- Settles O49: the steps write nothing that the rollback leaves, and an INITIALIZE that is not rolled back returns no error. -/
theorem initializeRollsBack : Obligations.InitializeRollsBack := by
  intro e s t k h hk
  obtain ⟨-, -, -, u, hu, rfl⟩ := execInit_next h
  obtain ⟨-, hend⟩ | ⟨-, ⟨-, hend⟩ | ⟨-, hend⟩⟩ := initEnd_cases u
  · rw [hend] at hk
    exact initEnd_of_error (initSteps_sameAfterRollback hu) hk
  · rw [hend] at hk; cases hk
  · rw [hend] at hk; cases hk

/-! ### Rows that end with an error -/

theorem runAll_cons_of_error {f : State → Out} (fs : List (State → Out)) {s u : State} (h : f s = .next u)
    (hu : u.result.isError = true) : runAll (f :: fs) s = .next u := by
  rw [runAll, h, andThen_of_error _ _ hu]

/-- `f` raises the error `k` in `s`. -/
def Raises (f : State → Out) (s : State) (k : ErrorKind) : Prop := ∃ u, f s = .next u ∧ u.result = .error k

theorem Raises.row {f : State → Out} {s : State} {k : ErrorKind} (h : Raises f s k) (fs : List (State → Out)) :
    Raises (runAll (f :: fs)) s k := by
  obtain ⟨u, hu, hk⟩ := h
  exact ⟨u, runAll_cons_of_error fs hu (isError_of_eq hk), hk⟩

theorem Raises.row_after {f : State → Out} {fs : List (State → Out)} {s t : State} {k : ErrorKind} (h : Raises (runAll fs) t k)
    (hf : f s = .next t) (ht : t.result.isError = false) : Raises (runAll (f :: fs)) s k := by
  obtain ⟨u, hu, hk⟩ := h
  exact ⟨u, (runAll_cons_of_ok hf ht).trans hu, hk⟩

theorem Raises.row_after_row {fs gs : List (State → Out)} {s t : State} {k : ErrorKind} (h : Raises (runAll gs) t k)
    (hf : runAll fs s = .next t) (ht : t.result.isError = false) : Raises (runAll (fs ++ gs)) s k := by
  obtain ⟨u, hu, hk⟩ := h
  exact ⟨u, (runAll_append_of_ok gs ht fs s hf).trans hu, hk⟩

/-- An INITIALIZE one of whose steps raises an error is rolled back with it (R172, R173). -/
theorem execInit_of_raises {e : InitEnv} {s : State} {k : ErrorKind} (hp : s.phase = .uninitialized) (hq : s.inInit = false)
    (hr : sizeRefusal s = none) (h : Raises (runAll (initSteps e)) (initStart s) k) :
    execInit e s = .next { s.powerOn with result := .error k } := by
  obtain ⟨u, hu, hk⟩ := h
  rw [execInit, if_pos ⟨hp, hq⟩, hr, hu]
  exact congrArg _ (initEnd_of_error (initSteps_sameAfterRollback hu) hk)

/-! ### Each step that raises -/

theorem initColours_raises {e : InitEnv} (s : State) (h : e.colOk = false) : Raises (initColours e) s .allocation :=
  ⟨s.raise .allocation, by rw [initColours, if_neg (by simp [h])], rfl⟩

theorem initBuffer_raises {e : InitEnv} {s : State} (h : e.bufAlloc = none ∨ s.params.maxPages < s.pageCount) :
    Raises (initBuffer e) s .allocation := by
  refine ⟨s.raise .allocation, ?_, rfl⟩
  cases hb : e.bufAlloc with
  | none => simp only [initBuffer, hb]
  | some va =>
    have hpages := h.resolve_left (by simp [hb])
    simp only [initBuffer, hb, if_neg (Nat.not_le.mpr hpages)]

theorem initStorage_raises {e : InitEnv} (s : State) (h : e.descAlloc = none) : Raises (initStorage e) s .allocation :=
  ⟨s.raise .allocation, by simp only [initStorage, h], rfl⟩

theorem initStorage_of_some {e : InitEnv} {va n : Nat} (s : State) (h : e.descAlloc = some (va, n)) :
    initStorage e s = .next (storageEffect va n s) := by
  simp only [initStorage, h]

theorem initResolve_raises {e : InitEnv} {s : State} {va n : Nat} (hq : s.inInit = true) (h : e.descAlloc = some (va, n))
    (ht : translateVA s.params va = .error) : Raises (initResolve e) s (.translation none) := by
  refine ⟨s.raise (.translation none), ?_, rfl⟩
  simp only [initResolve, h, execTranslate_of_error hq ht]
  exact andThen_of_error _ _ rfl

theorem initMap_raises {e : InitEnv} (s : State) (h : e.mapOk = false) : Raises (initMap e) s .map :=
  ⟨s.raise .map, by rw [initMap, if_neg (by simp [h])], rfl⟩

theorem initPins_raises {s : State} (h : (s.pinOk .c0 && s.pinOk .c1) = false) : Raises initPins s .unsupportedPin :=
  ⟨s.raise .unsupportedPin, by rw [initPins, if_neg (by simp [h])], rfl⟩

/-! ### The rows before them -/

section
variable {e : InitEnv} {s : State} (hr : sizeRefusal s = none)
include hr

/-- Steps 1 and 2, where colour storage is there (R172). -/
theorem Raises.after_size {k : ErrorKind} {fs : List (State → Out)} (hc : e.colOk = true)
    (h : Raises (runAll fs) (sizeEffect (coloursEffect (initStart s))) k) :
    Raises (runAll (initColours e :: execSize :: fs)) (initStart s) k := by
  refine (h.row_after ?_ rfl).row_after (t := coloursEffect (initStart s)) ?_ rfl
  · exact execSize_of_inInit rfl ((sizeRefusal_congr rfl rfl rfl).trans hr)
  · rw [initColours, if_pos hc]

/-- Without room for the buffer INITIALIZE raises AllocationError, be it for colour storage already (R172, R191). -/
theorem initSteps_raises_of_noBuffer (h : e.colOk = false ∨ e.bufAlloc = none ∨
    s.params.maxPages < cdiv (pwmByteCount s.params (max s.count.c0 s.count.c1) s.freq) pageSize) :
    Raises (runAll (initSteps e)) (initStart s) .allocation := by
  cases hc : e.colOk with
  | false => exact (initColours_raises _ hc).row _
  | true =>
    have h := h.resolve_left (by simp [hc])
    exact .after_size hr hc ((initBuffer_raises h).row _)

/-- Steps 1 to 4 in a handle without a transfer, where colour storage and the buffer are there (R172). -/
theorem Raises.after_bufferSteps {k : ErrorKind} {gs : List (State → Out)} {va : Nat} (hc : e.colOk = true)
    (hb : e.bufAlloc = some va)
    (hp : cdiv (pwmByteCount s.params (max s.count.c0 s.count.c1) s.freq) pageSize ≤ s.params.maxPages)
    (hd : s.dma.isActive = false) (h : Raises (runAll gs) (filled s va) k) :
    Raises (runAll (bufferSteps e ++ gs)) (initStart s) k := by
  have hbuffer := initBuffer_of_ok (s := sizeEffect (coloursEffect (initStart s))) hb (by simpa [State.pageCount] using hp)
  have hprime : execPrime (bufferEffect va (sizeEffect (coloursEffect (initStart s)))) = .next (filled s va) :=
    execPrime_of_inInit (by simp) (by simpa using hd)
  exact .after_size hr hc ((h.row_after hprime (by simp [filled, Result.isError])).row_after hbuffer (by simp [Result.isError]))

end

/-- Steps 1 to 6, where they succeed (R172). -/
theorem Raises.after_allocated {e : InitEnv} {s : State} {T va dva n : Nat} {b : Word} {k : ErrorKind}
    (h : InitAllocates e s T va n b) (hdesc : e.descAlloc = some (dva, n)) (htr : translateVA s.params dva = .ok b)
    (hrest : Raises (runAll (initChain :: deviceSteps e)) (allocated s va dva n b) k) :
    Raises (runAll (initSteps e)) (initStart s) k := by
  rw [initSteps_eq]
  have hstorage := hrest.row_after_row (runAll_storageSteps hdesc htr) (by simp [Result.isError])
  exact hstorage.row_after_row (runAll_bufferSteps h) (by simp [filled, Result.isError])

/-! ### The chain -/

/-- BUILD_CHAIN where page `k` is the first that does not translate (R149). -/
theorem execBuildChain_of_first_error {pages : List Nat} {T k : Nat} {x : State} {src : Nat → Word}
    (hp : x.inInit = true ∨ x.phase = .ready) (hd : x.dma.isActive = false) (hr : buildRefusal pages T x = none)
    (hk : k < cdiv T pageSize) (ht : ∀ i < k, translateVA x.params (pages.getD i 0) = .ok (src i))
    (herr : translateVA x.params (pages.getD k 0) = .error) :
    execBuildChain pages T x = .next (buildFailedEffect pages k (x.rowOf src T k) x) :=
  (execBuildChain_of_ready hp hd hr).trans (buildRun_of_failed (buildLoop_of_first_error hr hk ht herr))

/-- Step 7 where page `k` is the first that does not translate (R149, R172). -/
theorem initChain_raises {x : State} {k : Nat} {src : Nat → Word} (hv : x.params.buildAtInit = true) (hq : x.inInit = true)
    (hd : x.dma.isActive = false) (hr : buildRefusal x.pages x.bufBytes x = none) (hk : k < cdiv x.bufBytes pageSize)
    (ht : ∀ i < k, translateVA x.params (x.pages.getD i 0) = .ok (src i))
    (herr : translateVA x.params (x.pages.getD k 0) = .error) : Raises initChain x (.translation (some k)) := by
  refine ⟨buildFailedEffect x.pages k (x.rowOf src x.bufBytes k) x, ?_, rfl⟩
  rw [initChain, if_pos hv, buildOwn, execBuildChain_of_first_error (.inl hq) hd hr hk ht herr]
  exact andThen_of_error _ _ rfl

/-- Step 7 where every page translates, or no chain is to be built: it succeeds, and writes nothing that the rollback would leave (R172). -/
theorem initChain_succeeds {x : State} (hq : x.inInit = true) (hd : x.dma.isActive = false) (hok : x.result.isError = false)
    (hbuild : x.params.buildAtInit = true → buildRefusal x.pages x.bufBytes x = none ∧
      ∀ i < x.pages.length, ∃ a, translateVA x.params (x.pages.getD i 0) = .ok a) :
    ∃ y, initChain x = .next y ∧ y.result.isError = false ∧ x.SameAfterRollback y := by
  cases hv : x.params.buildAtInit with
  | false => exact ⟨x, by rw [initChain, if_neg (by simp [hv])], hok, rfl⟩
  | true =>
    obtain ⟨hr, ht⟩ := hbuild hv
    obtain ⟨b, hl⟩ := buildLoop_done_of_translates (bus := orZero x.descBus) (b := buildStart x.bufBytes x) ht
    have hrun := buildRun_of_done hl
    have hsame := buildRun_sameAfterRollback hrun
    have hinit : (builtEffect x.pages b x).inInit = true := (buildRun_frame hrun).2.2.trans hq
    have hchain : initChain x = if (builtEffect x.pages b x).params.descUncached then .next (builtEffect x.pages b x)
        else execFlush .desc (builtEffect x.pages b x) := by
      rw [initChain, if_pos hv, buildOwn, execBuildChain_of_ready (.inl hq) hd hr, hrun]
      exact andThen_of_ok _ _ rfl
    cases hu : (builtEffect x.pages b x).params.descUncached with
    | true => exact ⟨_, hchain.trans (if_pos hu), rfl, hsame⟩
    | false =>
      exact ⟨_, hchain.trans ((if_neg (by simp [hu])).trans (execFlush_desc_of_inInit hinit)), rfl, hsame.trans rfl⟩

section
variable {e : InitEnv} {s : State} {T va dva n : Nat} {b : Word} (h : InitAllocates e s T va n b)
include h

theorem allocated_pages_eq : (allocated s va dva n b).pages = pageList va (cdiv T pageSize) := by rw [allocated_pages, h.bytes]

theorem allocated_pages_getD {i : Nat} (hi : i < cdiv T pageSize) :
    (allocated s va dva n b).pages.getD i 0 = va + i * pageSize := by
  rw [allocated_pages_eq h, pageList_getD va hi]

/-- Step 7 over the allocated buffer where a page does not translate (R172, R193). -/
theorem initChain_allocated_raises {k : Nat} (hk : k < cdiv T pageSize) (hv : s.params.buildAtInit = true) (ho : OwnBuildOk T va n b)
    (ht : ∀ q < k, ∃ a, translateVA s.params (va + q * pageSize) = .ok a)
    (herr : translateVA s.params (va + k * pageSize) = .error) :
    Raises initChain (allocated s va dva n b) (.translation (some k)) := by
  choose! src hsrc using ht
  refine initChain_raises (src := src) (by simpa using hv) (by simp) (by simpa using h.inFlight) (buildRefusal_allocated dva h ho)
    (by rw [allocated_bufBytes, ← h.bytes]; exact hk) (fun i hi => ?_) ?_
  · rw [allocated_params, allocated_pages_getD h (hi.trans hk)]
    exact hsrc i hi
  · rw [allocated_params, allocated_pages_getD h hk]
    exact herr

/-- Step 7 over the allocated buffer with every page translated, or with no chain to build (R172). -/
theorem initChain_allocated_succeeds (hbuild : s.params.buildAtInit = true → OwnBuildOk T va n b ∧
      ∀ q < cdiv T pageSize, ∃ a, translateVA s.params (va + q * pageSize) = .ok a) :
    ∃ y, initChain (allocated s va dva n b) = .next y ∧ y.result.isError = false ∧
      (allocated s va dva n b).SameAfterRollback y := by
  refine initChain_succeeds (by simp) (by simpa using h.inFlight) (by simp [Result.isError]) fun hv => ?_
  rw [allocated_params] at hv
  obtain ⟨ho, ht⟩ := hbuild hv
  refine ⟨buildRefusal_allocated dva h ho, fun i hi => ?_⟩
  rw [allocated_pages_eq h, length_pageList] at hi
  rw [allocated_params, allocated_pages_getD h hi]
  exact ht i hi

end

/-- Where the mapper fails step 8 raises MapError, whatever the pins are (R172, R192). -/
theorem deviceSteps_raises_of_map {e : InitEnv} (y : State) (hm : e.mapOk = false) : Raises (runAll (deviceSteps e)) y .map :=
  (initMap_raises y hm).row _

/-- Where it does not, a pin without an alternate function makes step 9 raise UnsupportedPinError (R172, R194). -/
theorem deviceSteps_raises_of_pins {e : InitEnv} {y : State} (hm : e.mapOk = true)
    (hpins : (y.pinOk .c0 && y.pinOk .c1) = false) : Raises (runAll (deviceSteps e)) y .unsupportedPin := by
  have hmap : initMap e y = .next (mapEffect y) := by rw [initMap, if_pos hm]
  exact .row_after ((initPins_raises (s := mapEffect y) hpins).row []) hmap rfl

/-- Settles O50: each error is raised by the step that fails, after the steps before it were run, and the rollback follows. -/
theorem initializeReportsFirstError : Obligations.InitializeReportsFirstError := by
  intro e s hp hq hr
  have rolledBack {k : ErrorKind} (h : Raises (runAll (initSteps e)) (initStart s) k) := execInit_of_raises hp hq hr h
  refine ⟨fun hc => ?colours, fun hb => ?buffer, fun hmax => ?pages, fun va hc hb hmax hd => ⟨fun hdesc => ?storage,
    fun dva n hdesc htr => ?resolve⟩, fun T va n b h => ?_⟩
  case colours => exact rolledBack (initSteps_raises_of_noBuffer hr (.inl hc))
  case buffer => exact rolledBack (initSteps_raises_of_noBuffer hr (.inr (.inl hb)))
  case pages => exact rolledBack (initSteps_raises_of_noBuffer hr (.inr (.inr hmax)))
  case storage => exact rolledBack (.after_bufferSteps hr hc hb hmax hd ((initStorage_raises _ hdesc).row _))
  case resolve =>
    have hraise : Raises (initResolve e) (storageEffect dva n (filled s va)) (.translation none) :=
      initResolve_raises (by simp) hdesc (by simpa using htr)
    exact rolledBack (.after_bufferSteps hr hc hb hmax hd ((hraise.row _).row_after (initStorage_of_some _ hdesc) rfl))
  obtain ⟨dva, hdesc, htr⟩ := h.storage
  refine ⟨fun k hk hv ho ht herr => ?chain, fun hbuild => ?_⟩
  case chain => exact rolledBack (.after_allocated h hdesc htr ((initChain_allocated_raises h hk hv ho ht herr).row _))
  obtain ⟨y, hy, hok, hsame⟩ := initChain_allocated_succeeds (dva := dva) h hbuild
  have afterChain {k : ErrorKind} (hrest : Raises (runAll (deviceSteps e)) y k) :=
    rolledBack (.after_allocated h hdesc htr (hrest.row_after hy hok))
  refine ⟨fun hm => afterChain (deviceSteps_raises_of_map y hm), fun hm hpins => afterChain (deviceSteps_raises_of_pins hm ?_)⟩
  have hpin (c : Chan) : y.pinOk c = s.pinOk c :=
    pinOk_congr (hsame.pin.trans (allocated_pin s va dva n b)) (hsame.params.trans (allocated_params s va dva n b)) c
  rw [hpin, hpin, hpins]

end Sys2Proof.Machine
end

section
/-!
RENDER (42_host_ops R174, R175, R201): ENCODE, the flush, the wait, the chain and the start, run forward.
-/

namespace Sys2Proof.Machine

/-! ### The flush -/

/-- What RENDER's flush leaves (R174 step 2, D38; log 41). -/
def renderFlushed (s : State) : State :=
  match s.params.renderFlush with
  | .dirty => if s.dirty = [] then s else flushEffect 0 s.dirtyEnd s
  | .encoded => if s.encodedEnd = 0 then s else flushEffect 0 s.encodedEnd s

/-- The dirty words end inside the buffer (R37, R174). -/
theorem dirtyEnd_le_bufBytes {s : State} (h : ∀ w ∈ s.dirty, w < s.bufWords) (hne : s.dirty ≠ []) : s.dirtyEnd ≤ s.bufBytes := by
  have hlast := h _ (NatSet.greatest_mem s.dirty hne)
  unfold State.dirtyEnd State.bufWords at *
  omega

/-- What ENCODE writes of a channel ends inside the buffer (R120, R128). -/
theorem channelEnd_le_bufBytes {s : State} (hf : s.encodeFits = true) (c : Chan) : channelEnd c (s.count.get c) ≤ s.bufBytes := by
  by_cases h0 : s.count.get c = 0
  · rw [channelEnd, if_pos h0]
    exact Nat.zero_le _
  · have hidx := Chan.idx_lt c
    have hlast : c.idx + 2 * ((72 * s.count.get c - 1) / 32) < s.bufWords :=
      lt_bufWords_of_encodeFits hf (by rw [Chan.ofWord_idx]; omega)
    rw [channelEnd, if_neg h0]
    unfold State.bufWords at hlast
    omega

theorem encodedEnd_le_bufBytes {s : State} (hf : s.encodeFits = true) : s.encodedEnd ≤ s.bufBytes :=
  Nat.max_le.mpr ⟨channelEnd_le_bufBytes hf .c0, channelEnd_le_bufBytes hf .c1⟩

/-- Where the range lies inside the buffer RENDER's flush is carried out (R62, R174). -/
theorem renderFlush_of_fits {s : State} (ho : s.isOpen = true) (hdirty : ∀ w ∈ s.dirty, w < s.bufWords)
    (hencoded : s.encodedEnd ≤ s.bufBytes) : renderFlush s = .next (renderFlushed s) := by
  cases hm : s.params.renderFlush with
  | dirty =>
    simp only [renderFlush, renderFlushed, hm]
    split
    · rfl
    · exact execFlush_of_range ho (Nat.zero_le _) (dirtyEnd_le_bufBytes hdirty ‹_›)
  | encoded =>
    simp only [renderFlush, renderFlushed, hm]
    split
    · rfl
    · exact execFlush_of_range ho (Nat.zero_le _) hencoded

theorem renderFlushed_cases (s : State) : renderFlushed s = s ∨ ∃ n, renderFlushed s = flushEffect 0 n s := by
  unfold renderFlushed
  split <;> split
  · exact .inl rfl
  · exact .inr ⟨_, rfl⟩
  · exact .inl rfl
  · exact .inr ⟨_, rfl⟩

/-! ### The flush of every dirty word -/

/-- The range covers the words up to the last dirty one (R174, D38). -/
theorem covered_dirtyEnd_iff (s : State) (w : Nat) : 4 * w < s.dirtyEnd ∧ 0 < 4 * w + 4 ↔ w ≤ NatSet.greatest s.dirty := by
  unfold State.dirtyEnd
  omega

section
variable {s : State} (h : s.params.renderFlush = .dirty)
include h

theorem renderFlushed_of_dirty : renderFlushed s = if s.dirty = [] then s else flushEffect 0 s.dirtyEnd s := by
  simp only [renderFlushed, h]

/-- Nothing stays dirty (R62, R174). -/
theorem renderFlushed_clean : (renderFlushed s).dirty = [] := by
  rw [renderFlushed_of_dirty h]
  split
  · assumption
  · refine List.eq_nil_iff_forall_not_mem.mpr fun w hw => ?_
    obtain ⟨hw, hn⟩ := (mem_flushEffect_dirty _ _ s w).mp hw
    rw [mem_coveredWords, covered_dirtyEnd_iff] at hn
    exact hn (NatSet.le_greatest s.dirty w hw)

/-- Every word up to a dirty one is copied to the DMA view (R62, R174). -/
theorem renderFlushed_visible {w w' : Nat} (hle : w ≤ w') (hw : w' ∈ s.dirty) :
    (renderFlushed s).busbuf.readWord w = s.buf.readWord w ∧ w ∈ (renderFlushed s).flushed := by
  have hcov : 4 * w < s.dirtyEnd ∧ 0 < 4 * w + 4 := (covered_dirtyEnd_iff s w).mpr (hle.trans (NatSet.le_greatest s.dirty w' hw))
  rw [renderFlushed_of_dirty h, if_neg (List.ne_nil_of_mem hw), flushEffect_readWord, if_pos hcov, flushEffect_flushed,
    NatSet.mem_insertAll, mem_coveredWords]
  exact ⟨rfl, .inl hcov⟩

/-- Past the last dirty word the DMA view is as before (R62, R174). -/
theorem renderFlushed_beyond {a : Nat} (ha : ∀ w' ∈ s.dirty, w' < a / 4) :
    (renderFlushed s).busbuf.readByte a = s.busbuf.readByte a ∧ (a / 4 ∈ (renderFlushed s).flushed ↔ a / 4 ∈ s.flushed) := by
  rw [renderFlushed_of_dirty h]
  split
  · exact ⟨rfl, Iff.rfl⟩
  · rename_i hne
    have hout : ¬ (4 * (a / 4) < s.dirtyEnd ∧ 0 < 4 * (a / 4) + 4) := by
      rw [covered_dirtyEnd_iff]
      exact Nat.not_le.mpr (ha _ (NatSet.greatest_mem s.dirty hne))
    rw [flushEffect_flushed, NatSet.mem_insertAll, mem_coveredWords]
    exact ⟨Memory.readByte_congr _ _ a (by rw [flushEffect_readWord, if_neg hout]), or_iff_right hout⟩

end

/-! ### The flush as the host's own operation -/

theorem renderFlush_next_of_dirty {s t : State} (hm : s.params.renderFlush = .dirty) (h : renderFlush s = .next t) :
    (s.dirty = [] ∧ t = s) ∨ (s.dirty ≠ [] ∧ execFlush (.range 0 s.dirtyEnd) s = .next t) := by
  simp only [renderFlush, hm] at h
  split at h
  · cases h; exact .inl ⟨‹_›, rfl⟩
  · exact .inr ⟨‹_›, h⟩

theorem renderFlush_next_of_encoded {s t : State} (hm : s.params.renderFlush = .encoded) (h : renderFlush s = .next t) :
    (s.encodedEnd = 0 ∧ t = s) ∨ (s.encodedEnd ≠ 0 ∧ execFlush (.range 0 s.encodedEnd) s = .next t) := by
  simp only [renderFlush, hm] at h
  split at h
  · cases h; exact .inl ⟨‹_›, rfl⟩
  · exact .inr ⟨‹_›, h⟩

/-! ### The frame, encoded and flushed -/

/-- What steps 1 and 2 of RENDER leave (R174). -/
def flushedFrame (s : State) : State := renderFlushed (encodeEffect s)

/-- They change the buffer, its two views and what the encoder keeps, and nothing else. -/
theorem flushedFrame_frame (s : State) : flushedFrame s = { s.finish .ok with
    buf := (encodeEffect s).buf, busbuf := (flushedFrame s).busbuf, flushed := (flushedFrame s).flushed
    dirty := (flushedFrame s).dirty, cursor := (encodeEffect s).cursor, frameOk := s.frameOkAfterEncode
    stale := s.staleAfterEncode } := by
  obtain h | ⟨n, h⟩ := renderFlushed_cases (encodeEffect s) <;> rw [flushedFrame, h] <;> rfl

section
variable (s : State)

@[simp] theorem flushedFrame_params : (flushedFrame s).params = s.params := by rw [flushedFrame_frame]; rfl
@[simp] theorem flushedFrame_isOpen : (flushedFrame s).isOpen = s.isOpen := by rw [flushedFrame_frame]; rfl
@[simp] theorem flushedFrame_phase : (flushedFrame s).phase = s.phase := by rw [flushedFrame_frame]; rfl
@[simp] theorem flushedFrame_dma : (flushedFrame s).dma = s.dma := by rw [flushedFrame_frame]; rfl
@[simp] theorem flushedFrame_result : (flushedFrame s).result = .ok := by rw [flushedFrame_frame]; rfl
@[simp] theorem flushedFrame_pages : (flushedFrame s).pages = s.pages := by rw [flushedFrame_frame]; rfl
@[simp] theorem flushedFrame_bufBytes : (flushedFrame s).bufBytes = s.bufBytes := by rw [flushedFrame_frame]; rfl
@[simp] theorem flushedFrame_fifo : (flushedFrame s).fifo = s.fifo := by rw [flushedFrame_frame]; rfl
@[simp] theorem flushedFrame_chainHead : (flushedFrame s).chainHead = s.chainHead := by rw [flushedFrame_frame]; rfl
@[simp] theorem flushedFrame_descDirty : (flushedFrame s).descDirty = s.descDirty := by rw [flushedFrame_frame]; rfl
@[simp] theorem flushedFrame_chainCurrent : (flushedFrame s).chainCurrent = s.chainCurrent := by rw [flushedFrame_frame]; rfl
@[simp] theorem flushedFrame_buf : (flushedFrame s).buf = (encodeEffect s).buf := by rw [flushedFrame_frame]

theorem flushedFrame_buildRefusal (pages : List Nat) (n : Nat) :
    buildRefusal pages n (waitEffect (flushedFrame s)) = buildRefusal pages n s := by rw [flushedFrame_frame]; rfl

end

/-! ### The row of RENDER's steps -/

/-- Where RENDER comes to its wait: an open handle with no transfer in flight, and a frame and dirty words that fit the buffer (R120, R175). -/
structure State.Renderable (s : State) : Prop where
  isOpen : s.isOpen = true
  notActive : s.dma.isActive = false
  fits : s.encodeFits = true
  dirtyInv : s.DirtyInv

theorem State.renderable_of_idle {s : State} (ho : s.isOpen = true) (hd : s.dma = .idle) (hf : s.encodeFits = true)
    (hinv : s.DirtyInv) : s.Renderable := ⟨ho, by rw [hd]; rfl, hf, hinv⟩

section
variable {s : State} (h : s.Renderable)
include h

theorem State.Renderable.execEncode_eq : execEncode s = .next (encodeEffect s) := execEncode_of_fits h.isOpen h.notActive h.fits

theorem State.Renderable.renderFlush_eq : renderFlush (encodeEffect s) = .next (flushedFrame s) := by
  obtain ⟨-, -, -, hdirty⟩ := (Effect.encode (i := .encode) h.isOpen h.notActive h.fits).dirtyInv h.dirtyInv
  exact renderFlush_of_fits (s := encodeEffect s) h.isOpen hdirty (encodedEnd_le_bufBytes (s := s) h.fits)

/-- RENDER encodes and flushes before it waits (R174). -/
theorem State.Renderable.runAll_eq :
    runAll renderSteps s = runAll [execWait, renderBuild, execDmaStart] (flushedFrame s) := by
  rw [renderSteps, runAll_cons_of_ok h.execEncode_eq rfl, runAll_cons_of_ok h.renderFlush_eq (by rw [flushedFrame_result]; rfl)]

/-- With the engine idle RENDER comes to its chain (R174, R177). -/
theorem State.Renderable.runAll_eq_of_idle (hd : s.dma = .idle) :
    runAll renderSteps s = runAll [renderBuild, execDmaStart] (waitEffect (flushedFrame s)) := by
  have hwait : execWait (flushedFrame s) = .next (waitEffect (flushedFrame s)) :=
    execWait_of_idle ((flushedFrame_isOpen s).trans h.isOpen) ((flushedFrame_dma s).trans hd)
  rw [h.runAll_eq, runAll_cons_of_ok hwait rfl]

end

theorem waitEffect_chainCurrent (s : State) : (waitEffect s).chainCurrent = s.chainCurrent := rfl

theorem renderBuild_of_current {s : State} (hc : s.chainCurrent = true) : renderBuild s = .next s := if_pos hc

theorem renderBuild_of_notCurrent {s : State} (hc : s.chainCurrent = false) : renderBuild s = buildOwn s :=
  if_neg (by simp [hc])

/-! ### RENDER's end -/

/-- Where only the start is left RENDER ends as DMA_START does (R174). -/
theorem execRender_of_start {s x : State} (h : runAll renderSteps s = runAll [execDmaStart] x) :
    execRender s = execDmaStart x := by
  rw [execRender, h, runAll]
  cases hx : execDmaStart x with
  | next t =>
    obtain ⟨-, -, -, -, rfl⟩ := execDmaStart_next hx
    rfl
  | fault f => rfl
  | refused r => rfl

/-- A RENDER that ends with an error leaves the phase it was entered in (R171, D37; log 25). -/
theorem execRender_of_error {s t : State} {k : ErrorKind} (h : runAll renderSteps s = .next t) (hk : t.result = .error k) :
    execRender s = .next { t with phase := s.phase } := by
  rw [execRender, h]
  exact congrArg _ (if_pos (isError_of_eq hk))

section
variable {s : State} (h : s.Renderable) (hd : s.dma = .idle)
include h hd

/-- Over a current chain RENDER ends as the start does (R174). -/
theorem State.Renderable.execRender_of_current (hc : s.chainCurrent = true) :
    execRender s = execDmaStart (waitEffect (flushedFrame s)) := by
  refine execRender_of_start ((h.runAll_eq_of_idle hd).trans (runAll_cons_of_ok (renderBuild_of_current ?_) rfl))
  rw [waitEffect_chainCurrent, flushedFrame_chainCurrent, hc]

theorem State.Renderable.runAll_eq_of_notCurrent (hc : s.chainCurrent = false) :
    runAll renderSteps s = andThen (buildOwn (waitEffect (flushedFrame s))) (runAll [execDmaStart]) := by
  rw [h.runAll_eq_of_idle hd, runAll, renderBuild_of_notCurrent (by rw [waitEffect_chainCurrent, flushedFrame_chainCurrent, hc])]

end

/-! ### What a build leaves -/

section
variable (pages : List Nat) (i : Nat) (b : Build) (s : State)

@[simp] theorem buildFailedEffect_result : (buildFailedEffect pages i b s).result = .error (.translation (some i)) := rfl
@[simp] theorem buildFailedEffect_dma : (buildFailedEffect pages i b s).dma = s.dma := rfl
@[simp] theorem buildFailedEffect_dirty : (buildFailedEffect pages i b s).dirty = s.dirty := rfl
@[simp] theorem buildFailedEffect_chainValid : (buildFailedEffect pages i b s).chainValid = false := rfl
@[simp] theorem buildFailedEffect_fifo : (buildFailedEffect pages i b s).fifo = s.fifo := rfl
@[simp] theorem buildFailedEffect_chainHead : (buildFailedEffect pages i b s).chainHead = s.chainHead := rfl

end

/-- A build of the handle's own chain that succeeds is followed by `FLUSH desc` where descriptor storage is cached (R174). -/
theorem buildOwn_of_built {x g : State} (ho : x.isOpen = true) (hg : execBuildChain x.pages x.bufBytes x = .next g)
    (hok : g.result.isError = false) :
    buildOwn x = .next (if x.params.descUncached then g else flushDescEffect g) := by
  obtain ⟨-, -, -, hrun⟩ := execBuildChain_next hg
  obtain ⟨-, hphase, -⟩ := buildRun_frame hrun
  have hopen : g.isOpen = true := by
    rw [State.isOpen, hphase]
    exact ho
  rw [buildOwn, hg, andThen_of_ok _ _ hok, (buildRun_sameBuffer hrun).params, apply_ite Host.Outcome.next]
  congr 1
  rw [execFlush, if_pos (by simp [hopen])]

/-! ### What the statements say of it -/

/-- Settles O52: ENCODE meets the transfer before anything else; after an error the wait returns it. -/
theorem renderAgainstTransfer : Obligations.RenderAgainstTransfer := by
  intro s ho
  refine ⟨fun hd => ?_, fun v hv hf hinv hm => ?_⟩
  · show execRender s = _
    rw [execRender, renderSteps, runAll, execEncode_of_active ho hd]
    rfl
  · have h : s.Renderable := ⟨ho, by rw [hv]; rfl, hf, hinv⟩
    have hdma : (flushedFrame s).dma = .error v := (flushedFrame_dma s).trans hv
    have hwait := execWait_of_error ((flushedFrame_isOpen s).trans ho) hdma
    have hrender := execRender_of_error (h.runAll_eq.trans (runAll_cons_of_error _ hwait rfl)) rfl
    refine ⟨encodeEffect s, flushedFrame s, h.execEncode_eq, renderFlush_next_of_dirty hm h.renderFlush_eq, renderFlushed_clean hm,
      flushedFrame_phase s, hdma, hrender.trans ?_⟩
    rw [← flushedFrame_phase s]
    rfl

/-- Settles O54: RENDER's row up to the wait, and then by whether its chain is current. -/
theorem renderFlushesAndRebuilds : Obligations.RenderFlushesAndRebuilds := by
  intro s ho hd hf hinv
  have h := State.renderable_of_idle ho hd hf hinv
  refine ⟨encodeEffect s, flushedFrame s, h.execEncode_eq, fun hm => renderFlush_next_of_dirty hm h.renderFlush_eq,
    fun hm => renderFlush_next_of_encoded (s := encodeEffect s) hm h.renderFlush_eq, h.execRender_of_current hd, fun g hc hg hok => ?_⟩
  have hbuilt : buildOwn (waitEffect (flushedFrame s)) = .next (if s.params.descUncached then g else flushDescEffect g) := by
    rw [buildOwn_of_built (x := waitEffect (flushedFrame s)) rfl hg hok, waitEffect_params, flushedFrame_params]
  have hrow := h.runAll_eq_of_notCurrent hd hc
  rw [hbuilt] at hrow
  refine ⟨fun hu => execRender_of_start (hrow.trans ?_), fun hu => execRender_of_start (hrow.trans ?_)⟩
  · rw [if_pos hu, andThen_of_ok _ _ hok]
  · rw [if_neg (by simp [hu])]
    rfl

/-- Settles O53: the build meets the page, and RENDER ends with its error in the phase it was entered in. -/
theorem renderBuildFailure : Obligations.RenderBuildFailure := by
  intro s k src ho hd hf hinv hm hc hr hk ht herr
  have h := State.renderable_of_idle ho hd hf hinv
  have hpages : (waitEffect (flushedFrame s)).pages = s.pages := flushedFrame_pages s
  have hbytes : (waitEffect (flushedFrame s)).bufBytes = s.bufBytes := flushedFrame_bufBytes s
  have hparams : (waitEffect (flushedFrame s)).params = s.params := flushedFrame_params s
  have hdma : (waitEffect (flushedFrame s)).dma = .idle := (flushedFrame_dma s).trans hd
  have hdirty : (waitEffect (flushedFrame s)).dirty = [] := renderFlushed_clean hm
  have hfifo : (waitEffect (flushedFrame s)).fifo = s.fifo := flushedFrame_fifo s
  have hhead : (waitEffect (flushedFrame s)).chainHead = s.chainHead := flushedFrame_chainHead s
  have hbuild := execBuildChain_of_first_error (x := waitEffect (flushedFrame s)) (.inr rfl) (by rw [hdma]; rfl)
    ((flushedFrame_buildRefusal s _ _).trans hr) hk (by rwa [hparams]) (by rwa [hparams])
  have hrow := h.runAll_eq_of_notCurrent hd hc
  rw [buildOwn, hpages, hbytes, hbuild, andThen_of_error _ _ rfl, andThen_of_error _ _ rfl] at hrow
  have hrender := execRender_of_error hrow (buildFailedEffect_result _ _ _ _)
  refine ⟨encodeEffect s, flushedFrame s, _, h.execEncode_eq, renderFlush_next_of_dirty (s := encodeEffect s) hm h.renderFlush_eq,
    ?build, hrender, buildFailedEffect_result _ _ _ _, (buildFailedEffect_dma _ _ _ _).trans hdma,
    (buildFailedEffect_dirty _ _ _ _).trans hdirty, buildFailedEffect_chainValid _ _ _ _, (buildFailedEffect_fifo _ _ _ _).trans hfifo,
    (buildFailedEffect_chainHead _ _ _ _).trans hhead⟩
  rw [flushedFrame_pages, flushedFrame_bufBytes]
  exact hbuild

/-- A transfer started on a handle that differs from `s` only as ENCODE and a flush that cleans every word make it (R174, R176). -/
theorem started_frame {s f : State} {buf busbuf : Memory} {flushed dirty : NatSet} {cursor : PerChan Cursor} {ok : Bool}
    {stale : PerChan Nat}
    (hf : f = { s.finish .ok with
      buf := buf, busbuf := busbuf, flushed := flushed, dirty := dirty, cursor := cursor, frameOk := ok, stale := stale })
    (hclean : f.dirty = []) : dmaStartEffect (waitEffect f) = { s.finish .ok with
      buf := (dmaStartEffect (waitEffect f)).buf, busbuf := (dmaStartEffect (waitEffect f)).busbuf
      flushed := (dmaStartEffect (waitEffect f)).flushed, dirty := [], cursor := (dmaStartEffect (waitEffect f)).cursor
      frameOk := ok, stale := stale, phase := .rendering, dma := .active 0 0
      engine := some s.dmaIdx, cbAddr := s.chainHead, prioritySet := true } := by
  subst hf
  obtain rfl : dirty = [] := hclean
  rfl

/-- Settles O51: the row of RENDER's steps to its end; the buffer by the law of ENCODE's stores, the DMA view by the law of FLUSH's copies. -/
theorem renderStartsFrame : Obligations.RenderStartsFrame := by
  intro s ho hd hf hinv hm hc hdesc
  have h := State.renderable_of_idle ho hd hf hinv
  have hm' : (encodeEffect s).params.renderFlush = .dirty := hm
  have hclean : (flushedFrame s).dirty = [] := renderFlushed_clean hm'
  have visible {w w' : Nat} (hle : w ≤ w') (hw : w' ∈ s.dirty ∨ 32 * (w' / 2) < 72 * s.count.get (Chan.ofWord w')) :
      (flushedFrame s).busbuf.readWord w = (encodeEffect s).buf.readWord w ∧ w ∈ (flushedFrame s).flushed :=
    renderFlushed_visible hm' hle ((encodeEffect_dirty s w').mpr hw)
  refine ⟨dmaStartEffect (waitEffect (flushedFrame s)), ?exec, ?frame, fun c n hn => ?stream, fun w q hq hpast => ?bits,
    fun a hpast => ?bytes, fun w w' hle hw => ?visible, fun a ha => ?beyond, fun w hw u hbuf hbus hdirty hflushed => ?reads⟩
  case exec =>
    refine (h.execRender_of_current hd hc).trans ((execDmaStart_of_idle (s := waitEffect (flushedFrame s)) rfl
      ((flushedFrame_dma s).trans hd)).trans ?_)
    rw [if_pos (by rw [waitEffect_chainCurrent, flushedFrame_chainCurrent, hc]), if_neg (by simp [hdesc])]
  case frame => exact started_frame (flushedFrame_frame s) hclean
  case stream =>
    rw [dmaStartEffect_buf, waitEffect_buf, flushedFrame_buf]
    exact bufferBit_encodeEffect hn
  case bits =>
    rw [dmaStartEffect_buf, waitEffect_buf, flushedFrame_buf, encodeEffect_readBit _ _ _ hq, if_neg (by omega)]
  case bytes =>
    rw [dmaStartEffect_buf, waitEffect_buf, flushedFrame_buf]
    exact Memory.readByte_congr _ _ a (encodeEffect_readWord_of_le hpast)
  case visible =>
    rw [dmaStartEffect_buf, waitEffect_buf, flushedFrame_buf, dmaStartEffect_busbuf, waitEffect_busbuf, dmaStartEffect_flushed,
      waitEffect_flushed]
    exact visible hle hw
  case beyond =>
    rw [dmaStartEffect_busbuf, waitEffect_busbuf, dmaStartEffect_flushed, waitEffect_flushed]
    exact renderFlushed_beyond hm' fun w' hw' => ha w' ((encodeEffect_dirty s w').mp hw')
  case reads =>
    rw [dmaStartEffect_buf, waitEffect_buf, flushedFrame_buf]
    rw [dmaStartEffect_busbuf, waitEffect_busbuf] at hbus
    rw [dmaStartEffect_flushed, waitEffect_flushed] at hflushed
    rw [dmaStartEffect_dirty, waitEffect_dirty, hclean] at hdirty
    obtain ⟨hcopy, hmem⟩ := visible le_rfl hw
    rw [busRead_of_clean (by rw [hdirty]; exact List.not_mem_nil) (by rw [hflushed]; exact hmem), hbus, hcopy]

end Sys2Proof.Machine
end

section
/-!
Refusals (60_exceptions R206): a refused operation, and a packet that is no operation, change nothing but the report.
-/

namespace Sys2Proof.Machine

/-- A refusal of the next entry of a free host's list: the entry is taken, the report grows, and the poll count is cleared (R206). -/
theorem State.refuse_withCmds {s : State} (hb : s.blocked = none) (rest : List HostItem) (r : Refusal) :
    (s.withCmds rest).refuse r = { s with cmds := rest, polls := 0, report := s.report ++ [r] } := by
  rw [State.refuse, State.withCmds, hb]

section

variable {s : State} {p : Packet} {rest : List HostItem}
variable (ht : s.turn = .host) (hb : s.blocked = none) (hc : s.cmds = .issue p :: rest)
include ht hb hc

/-- Where the operation issued is refused, the host's program goes on with the refusal in its report (log 11). -/
theorem step_issue_refused {i : Instr} {r : Refusal} (hd : decode p = .ok i) (hr : exec i (s.withCmds rest) = .refused r) :
    step s = .next ((s.withCmds rest).refuse r).advance := by
  rw [step_issue ht hb hc hd, hr]
  rfl

/-- Where the packet is no operation, the host's program goes on with its rejection in its report (log 11). -/
theorem step_issue_badPacket {r : Reject} (hd : decode p = .error r) :
    step s = .next ((s.withCmds rest).refuse (.badPacket r)).advance := by
  simp only [step, move, ht, hostTurn, hb, hc, hostItem, hd, advanceOut]

end

/-- Settles O11: both ways the step is a refusal of the entry, whose fields the law of `refuse` gives. -/
theorem refusalChangesNothing : Obligations.RefusalChangesNothing := by
  intro s p rest ht hb hc
  refine ⟨fun i r hd hr => ?operation, fun r hd => ?noOperation⟩
  case operation => rw [step_issue_refused ht hb hc hd hr, State.refuse_withCmds hb]
  case noOperation => rw [step_issue_badPacket ht hb hc hd, State.refuse_withCmds hb]

end Sys2Proof.Machine
end
